-- ==== Sys2Proof/Word.lean ====
section
/-!
DEFINITION. The word types of the LV-8: bytes, 32-bit register and instruction words, 64-bit values (spec/09 R243, R248).
-/

namespace Sys2Proof

/-- One byte of memory. -/
abbrev Byte := BitVec 8
/-- One register element group of a lane, one S register, or one instruction word (R191, R243). -/
abbrev Word := BitVec 32
/-- A 64-bit value: an address, a program counter, a counter, an even and odd register pair (R248). -/
abbrev DWord := BitVec 64

/-- The 64-bit value of a pair, with the low word in the even register (R248). -/
def DWord.ofPair (lo hi : Word) : DWord := BitVec.append hi lo

/-- The low word of a pair. -/
def DWord.lo (d : DWord) : Word := d.setWidth 32

/-- The high word of a pair. -/
def DWord.hi (d : DWord) : Word := (d >>> 32).setWidth 32

end Sys2Proof
end

