-- ==== Sys2Proof/Machine/Map.lean ====
section
/-!
DEFINITION. Sparse tables as plain data: lists of keys and values in rising key order, in which a key that is not listed
reads as the table's default and no listed value equals it, so that equal tables are equal lists.
-/

namespace Sys2Proof.Machine

/-- A sparse table from numbers. -/
abbrev Map (β : Type) := List (Nat × β)

namespace Map

/-- The value listed for a key. -/
def find? {β : Type} : Map β → Nat → Option β
  | [], _ => none
  | (j, v) :: m, k => if j = k then some v else find? m k

/-- The value of a key, `d` when it is not listed. -/
def get {β : Type} (d : β) (m : Map β) (k : Nat) : β := (m.find? k).getD d

/-- List a value for a key, in key order. -/
def insert {β : Type} (k : Nat) (v : β) : Map β → Map β
  | [] => [(k, v)]
  | (j, u) :: m => if k < j then (k, v) :: (j, u) :: m else if k = j then (k, v) :: m else (j, u) :: insert k v m

/-- Take a key off the list. -/
def erase {β : Type} (k : Nat) : Map β → Map β
  | [] => []
  | (j, u) :: m => if k = j then erase k m else (j, u) :: erase k m

/-- Set a key, listing no default value. -/
def put {β : Type} [DecidableEq β] (d : β) (m : Map β) (k : Nat) (v : β) : Map β := if v = d then m.erase k else m.insert k v

/-- Change the listed value of a key, if there is one. -/
def adjust {β : Type} (m : Map β) (k : Nat) (f : β → β) : Map β :=
  match m.find? k with
  | some v => m.insert k (f v)
  | none => m

/-- Set several keys in turn. -/
def putAll {β : Type} [DecidableEq β] (d : β) (m : Map β) (kvs : List (Nat × β)) : Map β :=
  kvs.foldl (fun m p => m.put d p.1 p.2) m

/-- The values of n keys from k upward, of a table whose keys rise and are none below k. -/
def valuesFrom {β : Type} (d : β) : Nat → Map β → Nat → List β
  | 0, _, _ => []
  | n + 1, [], k => d :: valuesFrom d n [] (k + 1)
  | n + 1, (j, v) :: m, k => if j = k then v :: valuesFrom d n m (k + 1) else d :: valuesFrom d n ((j, v) :: m) (k + 1)

/-- The values of n keys from k upward, and a table of listed values from key 0 upward. -/
def values {β : Type} (d : β) (m : Map β) (k n : Nat) : List β := valuesFrom d n (m.dropWhile fun e => decide (e.1 < k)) k
def ofValues {β : Type} [DecidableEq β] (d : β) (xs : List β) : Map β := (xs.zipIdx.filter fun e => e.1 ≠ d).map fun e => (e.2, e.1)

/-- Rising keys, none listed with the default value. -/
abbrev Canon {β : Type} (d : β) (m : Map β) : Prop := m.Pairwise (fun p q => p.1 < q.1) ∧ ∀ p ∈ m, p.2 ≠ d

/-- The least key above every listed one. -/
def nextKey {β : Type} : Map β → Nat
  | [] => 0
  | (k, _) :: m => max (k + 1) (nextKey m)

end Map
end Sys2Proof.Machine
end

