-- ==== Sys2Proof/Machine/Crypt.lean ====
section
/-!
DEFINITION. The ciphers that the spec names without defining them: AES-256, its XTS mode for stored units and its GCM mode for sealed images
(spec/02 R57; spec/16 R405), as FIPS 197, NIST SP 800-38D and SP 800-38E give them (log 81). Bytes are natural numbers below 256 here; a block
is a list of sixteen.
-/

namespace Sys2Proof.Machine

namespace Aes

/-- The S-box and its inverse, sixteen entries a row, entry 0 in the low byte. -/
def sbox : List Nat :=
  [0x76ABD7FE2B670130C56F6BF27B777C63, 0xC072A49CAFA2D4ADF04759FA7DC982CA, 0x1531D871F1E5A534CCF73F362693FDB7,
    0x75B227EBE28012079A059618C323C704, 0x842FE329B3D63B52A05A6E1B1A2C8309, 0xCF584C4A39BECB6A5BB1FC20ED00D153,
    0xA89F3C507F02F94585334D43FBAAEFD0, 0xD2F3FF1021DAB6BCF5389D928F40A351, 0x73195D643D7EA7C41744975FEC130CCD,
    0xDB0B5EDE14B8EE4688902A22DC4F8160, 0x79E4959162ACD3C25C2406490A3A32E0, 0x08AE7A65EAF4566CA94ED58D6D37C8E7,
    0x8A8BBD4B1F74DDE8C6B4A61C2E2578BA, 0x9E1DC186B95735610EF6034866B53E70, 0xDF2855CEE9871E9B948ED9691198F8E1,
    0x16BB54B00F2D99416842E6BF0D89A18C]
def invSbox : List Nat :=
  [0xFBD7F3819EA340BF38A53630D56A0952, 0xCBE9DEC444438E3487FF2F9B8239E37C, 0x4EC3FA420B954CEE3D23C2A632947B54,
    0x25D18B6D49A25B76B224D92866A12E08, 0x92B6655DCC5CA4D41698688664F6F872, 0x849D8DA75746155EDAB9EDFD5048706C,
    0x0645B3B80558E4F70AD3BC8C00ABD890, 0x6B8A130103BDAFC1020F3FCA8F1E2CD0, 0x73E6B4F0CECFF297EADC674F4111913A,
    0x6EDF751CE837F9E28535ADE72274AC96, 0x1BBE18AA0E62B76F89C5291D711AF147, 0xF45ACD78FEC0DB9A2079D2C64B3E56FC,
    0x5FEC8027591012B131C7078833A8DD1F, 0xEF9CC9939F7AE52D0D4AB519A97F5160, 0x619953833CBBEBC8B0F52AAE4D3BE0A0,
    0x7D0C2155631469E126D677BA7E042B17]
def entry (t : List Nat) (x : Nat) : Nat := t.getD (x / 16) 0 / 256 ^ (x % 16) % 256

/-- Multiplication by x, and by a constant below 16, in the field of 2^8. -/
def xtime (a : Nat) : Nat := if a < 128 then 2 * a else (2 * a - 256) ^^^ 0x1B
def gmul (k a : Nat) : Nat :=
  let b := xtime a
  let c := xtime b
  let d := xtime c
  (if k.testBit 0 then a else 0) ^^^ (if k.testBit 1 then b else 0) ^^^ (if k.testBit 2 then c else 0) ^^^ (if k.testBit 3 then d else 0)

def xorBytes (a b : List Nat) : List Nat := a.zipWith (· ^^^ ·) b

/-- The key schedule of a key of 32 bytes: 60 words of four bytes; the accumulator holds them latest first. -/
def schedule (key : List Nat) : List (List Nat) :=
  let first := (List.range 8).map fun i => (key.drop (4 * i)).take 4
  ((List.range 52).foldl (fun (acc : List (List Nat) × Nat) j =>
    let i := j + 8
    let prev := acc.1.headD []
    let sub := fun (w : List Nat) => w.map (entry sbox)
    let rot := sub (prev.drop 1 ++ prev.take 1)
    let t := if i % 8 = 0 then xorBytes rot [acc.2, 0, 0, 0] else if i % 8 = 4 then sub prev else prev
    (xorBytes (acc.1.getD 7 []) t :: acc.1, if i % 8 = 0 then xtime acc.2 else acc.2)) (first.reverse, 1)).1.reverse

/-- The key of a round. -/
def roundKey (w : List (List Nat)) (n : Nat) : List Nat := ((w.drop (4 * n)).take 4).flatten

/-- A byte of each row and column from the one that ShiftRows brings there, to the left or to the right. -/
def shiftRows (b : List Nat) : List Nat := (List.range 16).map fun i => b.getD ((i + 4 * (i % 4)) % 16) 0
def unshiftRows (b : List Nat) : List Nat := (List.range 16).map fun i => b.getD ((i + 12 * (i % 4)) % 16) 0

/-- Each column multiplied by the circulant matrix of four constants. -/
def mix (k0 k1 k2 k3 : Nat) (b : List Nat) : List Nat :=
  (List.range 16).map fun i =>
    let at' := fun r => b.getD (i / 4 * 4 + (i + r) % 4) 0
    gmul k0 (at' 0) ^^^ gmul k1 (at' 1) ^^^ gmul k2 (at' 2) ^^^ gmul k3 (at' 3)

/-- The encryption and the decryption of one block under a key schedule. -/
def encrypt (w : List (List Nat)) (b : List Nat) : List Nat :=
  let sub := fun (b : List Nat) => shiftRows (b.map (entry sbox))
  let b := (List.range 13).foldl (fun b n => xorBytes (mix 2 3 1 1 (sub b)) (roundKey w (n + 1))) (xorBytes b (roundKey w 0))
  xorBytes (sub b) (roundKey w 14)
def decrypt (w : List (List Nat)) (b : List Nat) : List Nat :=
  let unsub := fun (b : List Nat) => (unshiftRows b).map (entry invSbox)
  let b := (List.range 13).foldl (fun b n => mix 14 11 13 9 (xorBytes (unsub b) (roundKey w (13 - n)))) (xorBytes b (roundKey w 14))
  xorBytes (unsub b) (roundKey w 0)

/-- Bytes of a number, low byte first and high byte first, and back. -/
def lowFirst : Nat → Nat → List Nat
  | 0, _ => []
  | n + 1, x => x % 256 :: lowFirst n (x / 256)
def highFirst (n x : Nat) : List Nat := (lowFirst n x).reverse
def fromLow (bs : List Nat) : Nat := bs.foldr (fun b n => b + 256 * n) 0
def fromHigh (bs : List Nat) : Nat := bs.foldl (fun n b => 256 * n + b) 0

/-! XTS (R57). -/

/-- The tweak of the next block. -/
def nextTweak (t : Nat) : Nat := if t < 2 ^ 127 then 2 * t else (2 * t - 2 ^ 128) ^^^ 0x87

/-- A unit of 32 bytes under the two halves of a key pair, with the function of a block under the first. -/
def xts (f : List (List Nat) → List Nat → List Nat) (key1 key2 : List Nat) (tweak : Nat) (bs : List Nat) : List Nat :=
  let w := schedule key1
  let t0 := encrypt (schedule key2) (lowFirst 16 tweak)
  let t1 := lowFirst 16 (nextTweak (fromLow t0))
  xorBytes (f w (xorBytes (bs.take 16) t0)) t0 ++ xorBytes (f w (xorBytes (bs.drop 16) t1)) t1

/-! GCM (R405). -/

/-- The product of two blocks, read high byte first, in the field of 2^128. -/
def gf (x y : Nat) : Nat :=
  ((List.range 128).foldl (fun (a : Nat × Nat) i =>
    (if x.testBit (127 - i) then a.1 ^^^ a.2 else a.1, if a.2 % 2 = 1 then (a.2 / 2) ^^^ 0xE1 * 2 ^ 120 else a.2 / 2)) (0, y)).1

/-- GHASH over bytes by blocks, the last one filled with zeros. -/
def ghash (h : Nat) : Nat → Nat → List Nat → Nat
  | 0, y, _ => y
  | n + 1, y, bs => if bs.isEmpty then y else ghash h n (gf (y ^^^ fromHigh ((bs.take 16 ++ List.replicate 16 0).take 16)) h) (bs.drop 16)

/-- The bytes covered by the key stream from a counter on: encryption and decryption alike. -/
def stream (w : List (List Nat)) (iv : List Nat) : Nat → Nat → List Nat → List Nat
  | 0, _, _ => []
  | n + 1, c, bs => if bs.isEmpty then [] else
      xorBytes (bs.take 16) (encrypt w (iv ++ highFirst 4 c)) ++ stream w iv n (c + 1) (bs.drop 16)

def gcm (key iv bs : List Nat) : List Nat := stream (schedule key) iv (bs.length / 16 + 1) 2 bs

/-- The tag of additional data and a cipher text. -/
def gcmTag (key iv aad bs : List Nat) : List Nat :=
  let w := schedule key
  let h := fromHigh (encrypt w (List.replicate 16 0))
  let y := ghash h (bs.length / 16 + 1) (ghash h (aad.length / 16 + 1) 0 aad) bs
  let y := gf (y ^^^ (8 * aad.length * 2 ^ 64 + 8 * bs.length)) h
  xorBytes (encrypt w (iv ++ [0, 0, 0, 1])) (highFirst 16 y)

end Aes

/-- The bytes of a key as the ciphers take them. -/
def keyBytes (n : Nat) (k : Nat) : List Nat := Aes.lowFirst n k
def natBytes (bs : List Byte) : List Nat := bs.map BitVec.toNat
def byteList (ns : List Nat) : List Byte := ns.map (BitVec.ofNat 8)

/-- The tweak of a unit by aperture and physical address (R57). -/
def tweakOf (ap pa : Nat) : Nat := pa / 32 % 2 ^ 50 + ap * 2 ^ 50

/-- What a unit that was written under one key pair reads as under another (R57). -/
def rekeyUnit (old new : BitVec 512) (ap pa : Nat) (bs : List Byte) : List Byte :=
  let halves := fun (k : BitVec 512) => (keyBytes 32 (k.toNat % 2 ^ 256), keyBytes 32 (k.toNat / 2 ^ 256))
  let c := Aes.xts Aes.encrypt (halves old).1 (halves old).2 (tweakOf ap pa) (natBytes bs)
  byteList (Aes.xts Aes.decrypt (halves new).1 (halves new).2 (tweakOf ap pa) c)

end Sys2Proof.Machine
end

