-- ==== Sys2Proof/Config.lean ====
section
/-!
DEFINITION. The values the spec leaves open, as constants without a body: nothing can be proved of any of them (log 6, log 8).
Each is applied to the counter of free draws that State advances, or to what the value depends on.
-/

namespace Sys2Proof

namespace Config

/-- A unit with five or more symbols in error, when it is read: none when the errors are detected, or the 32-byte value it is
corrected to (R68). -/
opaque freeUnit : Nat → Option (BitVec 256)

/-- The 256 bits of a sealing key drawn on the device (R405). -/
opaque freeKey : Nat → BitVec 256

/-- Key pairs for AES-256-XTS (R57): of a world's key slot by its draw (R405), 0 for a world that has none; of a partition's public key; of
the device key. -/
opaque freePair : Nat → BitVec 512
opaque publicPair : Nat → BitVec 512
opaque devicePair : BitVec 512

/-- SHA-384 of a byte string (R446, R447). -/
opaque sha384 : List Byte → BitVec 384

/-- Signatures on a hash under the identity keys that a draw gave: RSASSA-3072, and SLH-DSA-SHA2-256s where it can be produced
(R446). -/
opaque rsaSign : Nat → BitVec 384 → List Byte
opaque slhSign : Nat → BitVec 384 → Option (List Byte)

/-- The certificate chain of a slot under the identity keys that a draw gave (R446). -/
opaque chain : Nat → Nat → List Byte

/-- The boot ROM, a Ngukenor image by its version, and what the fuses hold of the identity keys that a draw gave (R447). -/
opaque bootRom : List Byte
opaque firmware : Nat → List Byte
opaque fuses : Nat → List Byte

/-- The version of the image that the boot ROM loads at a device reset, none when a signature does not verify (R446). -/
opaque bootImage : Nat → Option (BitVec 16)

/-- Kamboca's registry id, as a VENDOR_DEFINED_REQUEST begins with it after its header (R446). -/
opaque registry : List Byte

end Config
end Sys2Proof
end

