-- ==== Sys2Proof/Syntax.lean ====
section
/-!
DEFINITION. The instructions of the Azset set and the steps of the device, one constructor for each row of
spec/opcode_table.json. The first 134 rows have encodings (spec/09 R257 to R264); the other rows are steps of the
device with no word, whose operands name the unit at which the step happens and what comes in from outside the module.
-/

namespace Sys2Proof

/-- An 8-bit register field (R247); the class V, S or P is fixed by the place the field stands in. -/
abbrev Reg := BitVec 8
/-- A predicate number P0 to P7 (R247). -/
abbrev PReg := BitVec 3
/-- The lookahead field L of an M-format instruction (R217, R245). -/
abbrev Look := BitVec 4

/-- The b operand of the R format: a V register of each lane, or with s = 1 an S register every lane reads (R247). -/
inductive SrcB where
  | v (r : Reg)
  | s (r : Reg)
  deriving DecidableEq, Repr

/-- An address operand: per lane from V registers, or uniform from S registers when f[4] = 1 (R263, R327). -/
inductive AddrOp where
  | lane (r : Reg)
  | uni (r : Reg)
  deriving DecidableEq, Repr

/-- The condition of `vcmp`, d[7:5] (R260). -/
inductive Cond where
  | eq | ne | lt | le | gt | ge | unord | ord
  deriving DecidableEq, Repr

/-- The combine field of `vcmp`, d[4:3] (R260). -/
inductive Combine where
  | set | and | or
  deriving DecidableEq, Repr

/-- The mode of `vvote`, f[1:0] (R261). -/
inductive VoteOp where
  | ballot | any | all
  deriving DecidableEq, Repr

/-- The operation of `vred` and `vscan`, f[2:0] (R261). -/
inductive RedOp where
  | add | min | max | and | or | xor
  deriving DecidableEq, Repr

/-- The block format of `vqnt` and `vdeq`, f[3:0] (R261). -/
inductive BlockFmt where
  | mxfp8e4 | mxfp8e5 | mxfp4 | q4x
  deriving DecidableEq, Repr

/-- The function of `pset`, f[1:0]; `nz` names the V register compared with zero (R261). -/
inductive PsetOp where
  | f | t
  | nz (a : Reg)
  deriving DecidableEq, Repr

/-- The access width of loads and stores, f[2:0]: 1, 2, 4, 8 or 16 bytes (R333). -/
inductive MemWidth where
  | b | h | w | d | q
  deriving DecidableEq, Repr

/-- The operation of `atom`, `atoms` and `red`, f[3:0] (R337). -/
inductive AtomOp where
  | add32 | add64 | fadd32 | fadd64 | imin | imax | nmin | nmax | and | or | xor | xchg32 | xchg64 | cas32 | cas64
  deriving DecidableEq, Repr

/-- The mode of `pref`, f[1:0] (R341). -/
inductive PrefMode where
  | tr | l2 | nv
  deriving DecidableEq, Repr

/-- The scope of a counter instruction, f[2:0] (R76, R344). -/
inductive Scope where
  | wg | sq | die | dev | sys
  deriving DecidableEq, Repr

/-- The element size of `gath`, f[3:2] (R354). -/
inductive GathElem where
  | e4 | e8 | e16 | e32
  deriving DecidableEq, Repr

/-- Fields that every counter instruction shares: scope, SC and lookahead (R344). -/
structure CtrField where
  scope : Scope
  sc : Bool
  la : Look
  deriving DecidableEq, Repr

/-- The function number of an inductive operand, as the opcode map gives it. -/
def Cond.code : Cond → Nat
  | .eq => 0 | .ne => 1 | .lt => 2 | .le => 3 | .gt => 4 | .ge => 5 | .unord => 6 | .ord => 7
def Combine.code : Combine → Nat
  | .set => 0 | .and => 1 | .or => 2
def VoteOp.code : VoteOp → Nat
  | .ballot => 0 | .any => 1 | .all => 2
def RedOp.code : RedOp → Nat
  | .add => 0 | .min => 1 | .max => 2 | .and => 3 | .or => 4 | .xor => 5
def BlockFmt.code : BlockFmt → Nat
  | .mxfp8e4 => 4 | .mxfp8e5 => 5 | .mxfp4 => 6 | .q4x => 7
def MemWidth.code : MemWidth → Nat
  | .b => 0 | .h => 1 | .w => 2 | .d => 3 | .q => 4
def AtomOp.code : AtomOp → Nat
  | .add32 => 0 | .add64 => 1 | .fadd32 => 2 | .fadd64 => 3 | .imin => 4 | .imax => 5 | .nmin => 6 | .nmax => 7
  | .and => 8 | .or => 9 | .xor => 10 | .xchg32 => 11 | .xchg64 => 12 | .cas32 => 13 | .cas64 => 14
def PrefMode.code : PrefMode → Nat
  | .tr => 0 | .l2 => 1 | .nv => 2
def Scope.code : Scope → Nat
  | .wg => 0 | .sq => 1 | .die => 2 | .dev => 3 | .sys => 4
def GathElem.code : GathElem → Nat
  | .e4 => 0 | .e8 => 1 | .e16 => 2 | .e32 => 3

/-- Bytes of one access of the width (R333). -/
def MemWidth.bytes : MemWidth → Nat
  | .b => 1 | .h => 2 | .w => 4 | .d => 8 | .q => 16
/-- Bytes of one element of `gath` (R354). -/
def GathElem.bytes : GathElem → Nat
  | .e4 => 4 | .e8 => 8 | .e16 => 16 | .e32 => 32
/-- Bytes the home reads and writes for one lane of an atomic (R337). -/
def AtomOp.bytes : AtomOp → Nat
  | .add64 | .fadd64 | .xchg64 | .cas64 => 8
  | _ => 4
/-- Registers from t that an atomic's operand takes (R337). -/
def AtomOp.regs : AtomOp → Nat
  | .add64 | .fadd64 | .xchg64 | .cas32 => 2
  | .cas64 => 4
  | _ => 1
/-- `red` has ops 0 to 10 only (R337). -/
def AtomOp.redOk (o : AtomOp) : Bool := o.code ≤ 10

/-- Who writes a register or names a request from outside a warp (R8, R435). -/
inductive Agent where
  | core (c : Nat)
  | battery (n : Nat)
  | host (ld : Nat)
  | management
  deriving DecidableEq, Repr

/-- One lane's part of a packet from outside: lane, offset in the line, size, data, and the bytes received when it is an answer. -/
structure RawPiece where
  lane : Nat
  off : Nat
  size : Nat
  data : List Byte
  got : Option (List Byte)
  deriving DecidableEq, Repr

/-- A packet that enters the device through a Birrak port: the 32 bytes of its header flit (R162), and what the payload flits and the
fields that R162 leaves unnamed carry (log 35): world, tag of the request at its source, answer, payload by lane, and of an `.sc` request
the timestamp and the warp slot (R26, R98). -/
structure RawPacket where
  header : List Byte
  world : Nat
  tag : Nat × Nat
  /-- 0 done, 1 poison, 2 mismatch, 3 frame refused, 4 no route, 5 counter result, 6 wait registered, 7 wait cancelled, with the value it
  carries. -/
  answer : Nat × Nat
  pieces : List RawPiece
  ts : Nat
  slot : Nat
  deriving DecidableEq, Repr

/-- What a host answers to a service it performs (R381): refused, or done with a number and bytes. -/
inductive HostAnswer where
  | denied
  | done (n : Nat) (bytes : List Byte)
  deriving DecidableEq, Repr

/-- The instructions and steps of the LV-8, one constructor for each row of the opcode table. -/
inductive Instr where
  -- control (R257, R281, R374)
  | nop
  | bra (off : BitVec 25)
  | call (off : BitVec 25)
  | brz (r : Reg) (off : BitVec 17)
  | brnz (r : Reg) (off : BitVec 17)
  | brv (neg : Bool) (p : PReg) (off : BitVec 17)
  | rcv (off : BitVec 25)
  | jmpr (a : Reg)
  | exit
  | trap (imm : BitVec 17)
  | rtrap
  | svc (d : Reg) (imm : BitVec 17)
  | nap (a : Reg)
  | yield
  | bkpt (imm : BitVec 17)
  | post (t a : Reg) (la : Look)
  -- uniform ALU (R258, R292)
  | sadd (d a b : Reg)
  | ssub (d a b : Reg)
  | smul (d a b : Reg)
  | smulhi (d a b : Reg)
  | smulhn (d a b : Reg)
  | sand (d a b : Reg)
  | sor (d a b : Reg)
  | sxor (d a b : Reg)
  | sshl (d a b : Reg)
  | sshr (d a b : Reg)
  | ssra (d a b : Reg)
  | smin (d a b : Reg)
  | smax (d a b : Reg)
  | sslt (d a b : Reg)
  | ssltn (d a b : Reg)
  | sseq (d a b : Reg)
  | sadd64 (d a b : Reg)
  | ssub64 (d a b : Reg)
  | saddi (d a : Reg) (imm : BitVec 9)
  | smovi (d : Reg) (imm : BitVec 17)
  | smovhi (d : Reg) (imm : BitVec 16)
  | smov (d a : Reg)
  | srdl (d a : Reg) (lane : BitVec 5)
  -- special registers and MODE (R259)
  | mfs (d : Reg) (n : BitVec 9)
  | mts (a : Reg) (n : BitVec 9)
  | mfv (d : Reg) (n : BitVec 9)
  | mode (clear : BitVec 7) (value : BitVec 16)
  | modes (a : Reg)
  | modesAll (a : Reg)
  | mfmode (d : Reg)
  | clrflg (mask : BitVec 7)
  -- vector arithmetic (R260, R307 to R309)
  | vadd (d a : Reg) (b : SrcB)
  | vsub (d a : Reg) (b : SrcB)
  | vmul (d a : Reg) (b : SrcB)
  | vmulhi (d a : Reg) (b : SrcB)
  | vmulw (d a : Reg) (b : SrcB)
  | vfma (d a : Reg) (b : SrcB)
  | vfnma (d a : Reg) (b : SrcB)
  | vmin (d a : Reg) (b : SrcB)
  | vmax (d a : Reg) (b : SrcB)
  | vdiv (d a : Reg) (b : SrcB)
  | vrem (d a : Reg) (b : SrcB)
  | vand (d a : Reg) (b : SrcB)
  | vor (d a : Reg) (b : SrcB)
  | vxor (d a : Reg) (b : SrcB)
  | vshl (d a : Reg) (b : SrcB)
  | vshr (d a : Reg) (b : SrcB)
  | vsra (d a : Reg) (b : SrcB)
  | vsel (d a : Reg) (b : SrcB)
  | vcmp (cond : Cond) (comb : Combine) (p : PReg) (a : Reg) (b : SrcB)
  | vbfe (d a : Reg) (b : SrcB)
  | vbfi (d a : Reg) (b : SrcB)
  | vmov (d : Reg) (a : SrcB)
  | vmovi (d : Reg) (imm : BitVec 17)
  | vmovhi (d : Reg) (imm : BitVec 16)
  | vaddi (d a : Reg) (imm : BitVec 9)
  -- the unary group (R262, R311)
  | vabs (d a : Reg)
  | vneg (d a : Reg)
  | vnot (d a : Reg)
  | vpopc (d a : Reg)
  | vclz (d a : Reg)
  | vctz (d a : Reg)
  | vbrev (d a : Reg)
  | vrcp (d a : Reg)
  | vrsq (d a : Reg)
  | vsqrt (d a : Reg)
  | vexp2 (d a : Reg)
  | vlog2 (d a : Reg)
  | vsin (d a : Reg)
  | vcos (d a : Reg)
  | vtanh (d a : Reg)
  | vrnd (d a : Reg)
  | vfrc (d a : Reg)
  | vclass (d a : Reg)
  | vcvt (d a : Reg)
  -- lanes (R260, R261, R319 to R321)
  | vshflIdx (d a : Reg) (b : SrcB)
  | vshflXor (d a : Reg) (b : SrcB)
  | vshflUp (d a : Reg) (b : SrcB)
  | vshflDn (d a : Reg) (b : SrcB)
  | vvote (op : VoteOp) (neg : Bool) (d : Reg) (p : PReg)
  | vred (op : RedOp) (d a : Reg)
  | vscan (op : RedOp) (d a : Reg)
  -- modular arithmetic and blocks (R260, R261, R322 to R326)
  | vmodmul (d a : Reg) (b : SrcB)
  | vmodadd (d a : Reg) (b : SrcB)
  | vmodsub (d a : Reg) (b : SrcB)
  | vbfly (d a : Reg) (b : SrcB)
  | vqnt (fmt : BlockFmt) (d a : Reg)
  | vdeq (fmt : BlockFmt) (d a : Reg)
  -- predicates (R261, R318)
  | plop (d x y : PReg) (tt : BitVec 4)
  | pmovsS (d : Reg) (p : PReg)
  | pmovsP (p : PReg) (a : Reg)
  | pset (op : PsetOp) (p : PReg)
  -- memory (R263, R333, R337, R341, R343)
  | ld (m : MemWidth) (sx : Bool) (t : Reg) (a : AddrOp) (la : Look)
  | st (m : MemWidth) (t : Reg) (a : AddrOp) (la : Look)
  | lds (m : MemWidth) (sx : Bool) (t : Reg) (a : AddrOp) (la : Look)
  | sts (m : MemWidth) (t : Reg) (a : AddrOp) (la : Look)
  | ldu (m : MemWidth) (sx : Bool) (t a : Reg) (la : Look)
  | atom (op : AtomOp) (t : Reg) (a : AddrOp) (la : Look)
  | atoms (op : AtomOp) (t : Reg) (a : AddrOp) (la : Look)
  | red (op : AtomOp) (t : Reg) (a : AddrOp) (la : Look)
  | pref (m : PrefMode) (a : AddrOp) (la : Look)
  | cmntInv (la : Look)
  | cmntWbi (a : AddrOp) (la : Look)
  -- counters (R263, R344)
  | cadd (f : CtrField) (t : Reg) (a : AddrOp)
  | cwait (f : CtrField) (t : Reg) (a : AddrOp)
  | cread (f : CtrField) (t : Reg) (a : AddrOp)
  | ctest (f : CtrField) (t : Reg) (a : AddrOp)
  | cinit (f : CtrField) (t : Reg) (a : AddrOp)
  | craise (f : CtrField) (t : Reg) (a : AddrOp)
  -- copies (R264, R350, R353, R354)
  | copy (out clr : Bool) (tl : BitVec 2) (t a : Reg) (la : Look)
  | copyl (clr : Bool) (tl : BitVec 2) (a : Reg) (la : Look)
  | gath (e : GathElem) (tl : BitVec 2) (t a : Reg) (la : Look)
  -- the matrix array (R264, R363)
  | mldw (t a : Reg) (la : Look)
  | mswap (la : Look)
  | mstr (tile : BitVec 5) (t a : Reg) (la : Look)
  | mdrn (tile : BitVec 5) (q : BitVec 2) (t : Reg) (la : Look)
  | mzero (tile : BitVec 5) (la : Look)
  | mlda (tile : BitVec 5) (q : BitVec 2) (t : Reg) (la : Look)
  -- quadrants (R218, R388)
  | substitution (quad : Nat)
  | forcedEntry (quad : Nat)
  | napEnd (warp : Nat) (away : Bool)
  -- translation and the dugout (R23, R146, R154)
  | walk (die : Nat)
  | parkRecord (die : Nat)
  | dugoutReturn (die : Nat)
  -- commands of a die's ring of a partition (R36 to R41, R149 to R152, R409)
  | invalVa (die part : Nat)
  | invalWorld (die part : Nat)
  | potSet (die part : Nat)
  | ownHost (die part : Nat)
  | ownDevice (die part : Nat)
  | release (die part : Nat)
  | abandon (die part : Nat)
  | keyBind (die part : Nat)
  | keyRetire (die part : Nat)
  -- the dispatcher (R200 to R215, R386, R393 to R408)
  | launch (queue : Nat)
  | fence (queue : Nat)
  | fenceMet (queue : Nat)
  | signal (queue : Nat)
  | postPublish (post : Nat)
  | workgroupDispatch (task : Nat)
  | workgroupEnd (wg : Nat)
  | taskEnd (task : Nat)
  | preemptionRequest (task : Nat)
  | drainBound (wg : Nat)
  | savedWaitExpiry (saved : Nat)
  | save (wg : Nat)
  | restore (saved : Nat)
  | coreRetire (core : Nat)
  -- the array and the copy engine (R358, R102)
  | arrayQueueExecute (core : Nat)
  | timelineAdvance (wg tl : Nat)
  -- memory devices and caches (R66 to R72, R95, R96, R45)
  | refresh (die channel : Nat) (postpone : Bool)
  /-- `bad`: the row's check code failed. -/
  | rowMitigation (die channel row : Nat) (bad : Bool)
  | patrolScrub (unit : Nat)
  | evacuationStart (die channel : Nat)
  | evacuationComplete (die channel : Nat)
  | l1LifetimeEnd (core : Nat)
  | replicaPropagation (die line : Nat)
  | epochEnd (die : Nat)
  -- the fabric (R163 to R190)
  | outputQueueArrival (die port : Nat) (outside : Option RawPacket)
  | packetGrant (die port : Nat)
  | rd (e : Nat)
  | rdr (e : Nat)
  | wr (e : Nat)
  | wra (e : Nat)
  | atm (e : Nat)
  | atmr (e : Nat)
  | ctr (e : Nat)
  | ctrr (e : Nat)
  | ack (e : Nat)
  | ackDue (e : Nat)
  | bunt (e : Nat)
  | rreq (e : Nat)
  | retransmission (src flow : Nat)
  | noroute (e : Nat)
  | unacknowledgedResend (src flow : Nat)
  | linkReplay (die port part : Nat)
  | halfRetire (die other half : Nat)
  | laneRetire (port lane : Nat)
  | portRetrain (port : Nat)
  | retrain (agent : Agent) (port : Nat) (value : DWord)
  | agentPoll (die : Nat)
  -- services (R381, R382)
  | echo (call : Nat)
  | clock (call : Nat)
  | map (call : Nat)
  | unmap (call : Nat)
  | openFile (call : Nat) (answer : HostAnswer)
  | readFile (call : Nat) (answer : HostAnswer)
  | writeFile (call : Nat) (answer : HostAnswer)
  | closeHandle (call : Nat)
  | connect (call : Nat) (answer : HostAnswer)
  | send (call : Nat) (answer : HostAnswer)
  | recv (call : Nat) (answer : HostAnswer)
  | serviceComplete (call : Nat)
  -- hosts (R42, R437)
  | cxlMemRequest (ld : Nat) (aperture pa : Nat) (size : Nat) (data : Option (List Byte))
  | hcadd (ld : Nat)
  | hcraise (ld : Nat)
  | hcread (ld : Nat)
  | hcwait (ld : Nat) (threshold : DWord)
  -- register writes (R61, R65, R201, R403, R404, R436 to R445)
  | ldbind (agent : Agent) (ld : Nat) (value : DWord)
  | lsmask (agent : Agent) (die part : Nat) (value : DWord)
  | ivctl (agent : Agent) (region : Nat) (value : DWord)
  | ivbase (agent : Agent) (region : Nat) (value : DWord)
  | qen (agent : Agent) (die : Nat) (value : DWord)
  | punit (agent : Agent) (unit : Nat) (value : DWord)
  | chown (agent : Agent) (die channel : Nat) (value : DWord)
  | capt (agent : Agent) (value : DWord)
  | pretry (agent : Agent) (die : Nat) (value : DWord)
  | preq (agent : Agent) (die : Nat) (value : DWord)
  | preset (agent : Agent) (value : DWord)
  /-- `image`: the version of the image the captain has staged, none when one of its signatures does not verify (R446). -/
  | fwcmd (agent : Agent) (value : DWord) (image : Option (BitVec 16))
  /-- `token`: the staging buffer holds an advance token both of whose signatures verify. -/
  | lcadv (agent : Agent) (value : DWord) (token : Bool)
  | registerWrite (agent : Agent) (pa : Nat) (value : DWord)
  -- batteries (R440 to R442)
  | heartbeat
  | heartbeatCheck (battery : Nat)
  | batteryRestart (battery : Nat) (ok : Bool)
  -- attestation (R446, R447): the requester is a logical device, or 16 for the management interface
  | getVersion (requester : Nat) (request : List Byte)
  | getCapabilities (requester : Nat) (request : List Byte)
  | negotiateAlgorithms (requester : Nat) (request : List Byte)
  | getDigests (requester : Nat) (request : List Byte)
  | getCertificate (requester : Nat) (request : List Byte)
  | challenge (requester : Nat) (request : List Byte)
  | getMeasurements (requester : Nat) (request : List Byte)
  | vendorDefinedRequest (requester : Nat) (request : List Byte)
  -- power, reset, errors (R449, R98, R57, R68)
  | clockStep (up : Bool)
  | thermalTrip
  | deviceReset
  | softError (unit symbols : Nat)
  | illegalInstruction (w : Word)
  deriving DecidableEq, Repr

end Sys2Proof
end

