-- ==== Sys2Proof/WellFormed.lean ====
section
/-!
DEFINITION. The operand rules that the instruction word alone decides: check 1 of R266 (spec/09 R246 to R249, R256 to R265;
spec/11 R281, R292; spec/13 R333, R337, R344, R350, R353; spec/15 R374). A word that breaks one is no instruction and raises ILLEGAL.
-/

namespace Sys2Proof

/-- Why a word is no instruction (R265). -/
inductive Reject where
  /-- A reserved major opcode: 0x27, 0x2F, 0x5A to 0x5F, 0x73, 0x7A to 0x7F. -/
  | reservedOpcode
  /-- A function value that its opcode does not assign. -/
  | functionValue
  /-- A non-zero reserved field or bit (R246). -/
  | reservedBits
  /-- An S field of 128 to 255 (R247). -/
  | sRegister
  /-- An odd pair field (R248). -/
  | oddPair
  /-- A misaligned group field, or a group past its class (R248). -/
  | group
  /-- A special register number that the access does not allow (R256). -/
  | specialNumber
  /-- A width, sign extension or clear bit that its opcode does not allow (R333, R350). -/
  | option
  /-- Fewer than four bytes, or an address that is no multiple of 4 (R243). -/
  | short
  deriving DecidableEq, Repr

namespace Instr

/-- An S register field (R247). -/
def sOk (r : Reg) : Bool := r.toNat < 128
/-- An even field (R248). -/
def evenOk (r : Reg) : Bool := r.toNat % 2 = 0
/-- A field that is a multiple of four (R248). -/
def quadOk (r : Reg) : Bool := r.toNat % 4 = 0

/-- One operand rule with the name of its refusal. -/
abbrev Rule := Bool × Reject

def ruleS (r : Reg) : Rule := (sOk r, .sRegister)
def ruleEven (r : Reg) : Rule := (evenOk r, .oddPair)
def ruleQuad (r : Reg) : Rule := (quadOk r, .group)

/-- The rules of an R-format b operand: with s = 1 it is an S register (R247). -/
def rulesB : SrcB → List Rule
  | .v _ => []
  | .s r => [ruleS r]

/-- The rules of a b operand whose opcode alone makes it a pair (R322). -/
def rulesPairB : SrcB → List Rule
  | .v r => [ruleEven r]
  | .s r => [ruleS r, ruleEven r]

/-- The rules of a global address operand: a V pair or an S pair (R327). -/
def rulesGlobal : AddrOp → List Rule
  | .lane r => [ruleEven r]
  | .uni r => [ruleS r, ruleEven r]

/-- The rules of a scratchpad offset operand: a V or an S register (R327). -/
def rulesScratch : AddrOp → List Rule
  | .lane _ => []
  | .uni r => [ruleS r]

/-- The data operand of a load or store of the width (R333). -/
def rulesData (m : MemWidth) (t : Reg) : List Rule :=
  match m with
  | .d => [ruleEven t]
  | .q => [ruleQuad t]
  | _ => []

/-- Sign extension is for widths of one and two bytes only (R333). -/
def ruleSx (m : MemWidth) (sx : Bool) : Rule := (!sx || m.bytes < 4, .option)

/-- The data operand of an atomic (R337). -/
def rulesAtom (o : AtomOp) (t : Reg) : List Rule :=
  match o.regs with
  | 1 => []
  | 2 => [ruleEven t]
  | _ => [ruleQuad t]

/-- Special register numbers `mfs` reads, `mts` writes and `mfv` reads (R255, R256). -/
def mfsOk (n : BitVec 9) : Bool := 1 ≤ n.toNat && n.toNat ≤ 0x18
def mtsOk (n : BitVec 9) : Bool := 0x12 ≤ n.toNat && n.toNat ≤ 0x17
def mfvOk (n : BitVec 9) : Bool := n.toNat ≤ 2

/-- The operand rules of each instruction. -/
def rules : Instr → List Rule
  | .brz r _ | .brnz r _ => [ruleS r]
  | .jmpr a => [ruleS a, ruleEven a]
  | .svc d _ => [ruleS d, ruleEven d, (d.toNat ≤ 124, .group)]
  | .nap a => [ruleS a]
  | .post t a _ => [ruleS t, ruleEven t, ruleS a]
  | .sadd d a b | .ssub d a b | .smul d a b | .smulhi d a b | .smulhn d a b | .sand d a b | .sor d a b | .sxor d a b
  | .sshl d a b | .sshr d a b | .ssra d a b | .smin d a b | .smax d a b | .sslt d a b | .ssltn d a b | .sseq d a b =>
      [ruleS d, ruleS a, ruleS b]
  | .sadd64 d a b | .ssub64 d a b => [ruleS d, ruleS a, ruleS b, ruleEven d, ruleEven a, ruleEven b]
  | .saddi d a _ | .smov d a => [ruleS d, ruleS a]
  | .smovi d _ | .smovhi d _ | .srdl d _ _ | .mfmode d | .vvote _ _ d _ | .pmovsS d _ => [ruleS d]
  | .mfs d n => [ruleS d, (mfsOk n, .specialNumber)]
  | .mts a n => [ruleS a, (mtsOk n, .specialNumber)]
  | .mfv _ n => [(mfvOk n, .specialNumber)]
  | .modes a | .modesAll a | .pmovsP _ a => [ruleS a]
  | .vadd _ _ b | .vsub _ _ b | .vmul _ _ b | .vmulhi _ _ b | .vmulw _ _ b | .vfma _ _ b | .vfnma _ _ b | .vmin _ _ b
  | .vmax _ _ b | .vdiv _ _ b | .vrem _ _ b | .vand _ _ b | .vor _ _ b | .vxor _ _ b | .vshl _ _ b | .vshr _ _ b
  | .vsra _ _ b | .vsel _ _ b | .vcmp _ _ _ _ b | .vbfe _ _ b | .vbfi _ _ b
  | .vshflIdx _ _ b | .vshflXor _ _ b | .vshflUp _ _ b | .vshflDn _ _ b => rulesB b
  | .vmov _ a => rulesB a
  | .vmodmul d a b | .vmodadd d a b | .vmodsub d a b | .vbfly d a b => [ruleEven d, ruleEven a] ++ rulesPairB b
  | .ld m sx t a _ => ruleSx m sx :: (rulesData m t ++ rulesGlobal a)
  | .st m t a _ => rulesData m t ++ rulesGlobal a
  | .lds m sx t a _ => ruleSx m sx :: (rulesData m t ++ rulesScratch a)
  | .sts m t a _ => rulesData m t ++ rulesScratch a
  | .ldu m sx t a _ => [ruleSx m sx, (m ≠ .q, .option), ruleS t, ruleS a, ruleEven a] ++ rulesData m t
  | .atom o t a _ => rulesAtom o t ++ rulesGlobal a
  | .atoms o t a _ => rulesAtom o t ++ rulesScratch a
  | .red o t a _ => (o.redOk, .functionValue) :: (rulesAtom o t ++ rulesGlobal a)
  | .pref _ a _ | .cmntWbi a _ => rulesGlobal a
  | .cadd _ t a | .cwait _ t a | .cread _ t a | .cinit _ t a | .craise _ t a => ruleEven t :: rulesGlobal a
  | .ctest _ t a => ruleQuad t :: rulesGlobal a
  | .copy out clr _ t a _ => [(!(out && clr), .option), ruleS t, ruleEven t, ruleS a, (a.toNat % 8 = 0, .group)]
  | .copyl _ _ a _ => [ruleS a, ruleEven a, (a.toNat ≤ 122, .group)]
  | .gath _ _ t a _ => [ruleEven t, ruleS a]
  | .mldw _ a _ => [ruleS a]
  | _ => []

/-- An instruction that a word encodes (R257 to R264); the others are steps of the device. -/
def encoded : Instr → Bool
  | .nop | .bra _ | .call _ | .brz _ _ | .brnz _ _ | .brv _ _ _ | .rcv _ | .jmpr _ | .exit | .trap _ | .rtrap | .svc _ _ | .nap _
  | .yield | .bkpt _ | .post _ _ _ | .sadd _ _ _ | .ssub _ _ _ | .smul _ _ _ | .smulhi _ _ _ | .smulhn _ _ _ | .sand _ _ _
  | .sor _ _ _ | .sxor _ _ _ | .sshl _ _ _ | .sshr _ _ _ | .ssra _ _ _ | .smin _ _ _ | .smax _ _ _ | .sslt _ _ _ | .ssltn _ _ _
  | .sseq _ _ _ | .sadd64 _ _ _ | .ssub64 _ _ _ | .saddi _ _ _ | .smovi _ _ | .smovhi _ _ | .smov _ _ | .srdl _ _ _ | .mfs _ _
  | .mts _ _ | .mfv _ _ | .mode _ _ | .modes _ | .modesAll _ | .mfmode _ | .clrflg _ | .vadd _ _ _ | .vsub _ _ _ | .vmul _ _ _
  | .vmulhi _ _ _ | .vmulw _ _ _ | .vfma _ _ _ | .vfnma _ _ _ | .vmin _ _ _ | .vmax _ _ _ | .vdiv _ _ _ | .vrem _ _ _ | .vand _ _ _
  | .vor _ _ _ | .vxor _ _ _ | .vshl _ _ _ | .vshr _ _ _ | .vsra _ _ _ | .vsel _ _ _ | .vcmp _ _ _ _ _ | .vbfe _ _ _ | .vbfi _ _ _
  | .vmov _ _ | .vmovi _ _ | .vmovhi _ _ | .vaddi _ _ _ | .vabs _ _ | .vneg _ _ | .vnot _ _ | .vpopc _ _ | .vclz _ _ | .vctz _ _
  | .vbrev _ _ | .vrcp _ _ | .vrsq _ _ | .vsqrt _ _ | .vexp2 _ _ | .vlog2 _ _ | .vsin _ _ | .vcos _ _ | .vtanh _ _ | .vrnd _ _
  | .vfrc _ _ | .vclass _ _ | .vcvt _ _ | .vshflIdx _ _ _ | .vshflXor _ _ _ | .vshflUp _ _ _ | .vshflDn _ _ _ | .vvote _ _ _ _
  | .vred _ _ _ | .vscan _ _ _ | .vmodmul _ _ _ | .vmodadd _ _ _ | .vmodsub _ _ _ | .vbfly _ _ _ | .vqnt _ _ _ | .vdeq _ _ _
  | .plop _ _ _ _ | .pmovsS _ _ | .pmovsP _ _ | .pset _ _ | .ld _ _ _ _ _ | .st _ _ _ _ | .lds _ _ _ _ _ | .sts _ _ _ _
  | .ldu _ _ _ _ _ | .atom _ _ _ _ | .atoms _ _ _ _ | .red _ _ _ _ | .pref _ _ _ | .cmntInv _ | .cmntWbi _ _ | .cadd _ _ _
  | .cwait _ _ _ | .cread _ _ _ | .ctest _ _ _ | .cinit _ _ _ | .craise _ _ _ | .copy _ _ _ _ _ _ | .copyl _ _ _ _ | .gath _ _ _ _ _
  | .mldw _ _ _ | .mswap _ | .mstr _ _ _ _ | .mdrn _ _ _ _ | .mzero _ _ | .mlda _ _ _ _ => true
  | _ => false

/-- The first rule an instruction breaks. -/
def check (i : Instr) : Option Reject := (i.rules.find? (fun r => !r.1)).map (·.2)

/-- An instruction every operand rule of which holds. -/
def WellFormed (i : Instr) : Prop := i.check = none

end Instr
end Sys2Proof
end

