-- ==== Sys2Proof/Decode.lean ====
section
/-!
DEFINITION. Instruction words: the decoder, total on any word and any bytes, and the encoder, both written from the formats of
spec/09 R245 and the opcode map R257 to R264.
-/

namespace Sys2Proof

/-- Bits [lo + len − 1 : lo] of a word. -/
def bitsOf (w lo len : Nat) : Nat := w / 2 ^ lo % 2 ^ len

/-- The 8-bit register field at `lo`. -/
def regAt (w lo : Nat) : Reg := BitVec.ofNat 8 (bitsOf w lo 8)

/-- The d, a and b fields of R245. -/
def fD (w : Nat) : Reg := regAt w 17
def fA (w : Nat) : Reg := regAt w 9
def fB (w : Nat) : Reg := regAt w 1
/-- Bit 0, the s field. -/
def fS (w : Nat) : Bool := bitsOf w 0 1 = 1
/-- The lookahead field L. -/
def fL (w : Nat) : Look := BitVec.ofNat 4 (bitsOf w 5 4)
/-- The R-format b operand. -/
def fSrc (w : Nat) : SrcB := if fS w then .s (fB w) else .v (fB w)
/-- The address operand of the M format; f[4] is the uniform bit. -/
def fAddr (w : Nat) : AddrOp := if bitsOf w 4 1 = 1 then .uni (fA w) else .lane (fA w)
/-- The predicate number at `lo`. -/
def fP (w lo : Nat) : PReg := BitVec.ofNat 3 (bitsOf w lo 3)
/-- The tile field f[4:0]. -/
def fTile (w : Nat) : BitVec 5 := BitVec.ofNat 5 (bitsOf w 0 5)
/-- The timeline field f[1:0]. -/
def fTl (w : Nat) : BitVec 2 := BitVec.ofNat 2 (bitsOf w 0 2)
/-- The quarter field a[1:0]. -/
def fQ (w : Nat) : BitVec 2 := BitVec.ofNat 2 (bitsOf w 9 2)

/-- Conditions, combines and functions by their numbers (R260, R261, R263, R264). -/
def condOf : Nat → Cond
  | 0 => .eq | 1 => .ne | 2 => .lt | 3 => .le | 4 => .gt | 5 => .ge | 6 => .unord | _ => .ord
def combineOf : Nat → Option Combine
  | 0 => some .set | 1 => some .and | 2 => some .or | _ => none
def voteOf : Nat → Option VoteOp
  | 0 => some .ballot | 1 => some .any | 2 => some .all | _ => none
def redOpOf : Nat → Option RedOp
  | 0 => some .add | 1 => some .min | 2 => some .max | 3 => some .and | 4 => some .or | 5 => some .xor | _ => none
def blockOf : Nat → Option BlockFmt
  | 4 => some .mxfp8e4 | 5 => some .mxfp8e5 | 6 => some .mxfp4 | 7 => some .q4x | _ => none
def widthOf : Nat → Option MemWidth
  | 0 => some .b | 1 => some .h | 2 => some .w | 3 => some .d | 4 => some .q | _ => none
def atomOf : Nat → Option AtomOp
  | 0 => some .add32 | 1 => some .add64 | 2 => some .fadd32 | 3 => some .fadd64 | 4 => some .imin | 5 => some .imax
  | 6 => some .nmin | 7 => some .nmax | 8 => some .and | 9 => some .or | 10 => some .xor | 11 => some .xchg32
  | 12 => some .xchg64 | 13 => some .cas32 | 14 => some .cas64 | _ => none
def prefOf : Nat → Option PrefMode
  | 0 => some .tr | 1 => some .l2 | 2 => some .nv | _ => none
def scopeOf : Nat → Option Scope
  | 0 => some .wg | 1 => some .sq | 2 => some .die | 3 => some .dev | 4 => some .sys | _ => none
def gathOf : Nat → GathElem
  | 0 => .e4 | 1 => .e8 | 2 => .e16 | _ => .e32

abbrev Dec := Except Reject Instr

/-- The instruction, when the named bits are all zero (R246). -/
def zeroBits (n : Nat) (i : Instr) : Dec := if n = 0 then .ok i else .error .reservedBits

/-- The instruction of an assigned function value (R265). -/
def funVal {α : Type} (o : Option α) (k : α → Dec) : Dec :=
  match o with
  | some x => k x
  | none => .error .functionValue

/-- R format of the uniform ALU: s must be 0 (R258). -/
def decS (k : Reg → Reg → Reg → Instr) (w : Nat) : Dec := zeroBits (bitsOf w 0 1) (k (fD w) (fA w) (fB w))
/-- R format of the vector instructions (R260). -/
def decV (k : Reg → Reg → SrcB → Instr) (w : Nat) : Dec := .ok (k (fD w) (fA w) (fSrc w))

/-- The unary group, opcode 0x49 (R262). -/
def decUnary (w : Nat) : Dec :=
  match bitsOf w 0 9 with
  | 0x000 => .ok (.vabs (fD w) (fA w))
  | 0x001 => .ok (.vneg (fD w) (fA w))
  | 0x002 => .ok (.vnot (fD w) (fA w))
  | 0x003 => .ok (.vpopc (fD w) (fA w))
  | 0x004 => .ok (.vclz (fD w) (fA w))
  | 0x005 => .ok (.vctz (fD w) (fA w))
  | 0x006 => .ok (.vbrev (fD w) (fA w))
  | 0x010 => .ok (.vrcp (fD w) (fA w))
  | 0x011 => .ok (.vrsq (fD w) (fA w))
  | 0x012 => .ok (.vsqrt (fD w) (fA w))
  | 0x013 => .ok (.vexp2 (fD w) (fA w))
  | 0x014 => .ok (.vlog2 (fD w) (fA w))
  | 0x015 => .ok (.vsin (fD w) (fA w))
  | 0x016 => .ok (.vcos (fD w) (fA w))
  | 0x017 => .ok (.vtanh (fD w) (fA w))
  | 0x018 => .ok (.vrnd (fD w) (fA w))
  | 0x019 => .ok (.vfrc (fD w) (fA w))
  | 0x01A => .ok (.vclass (fD w) (fA w))
  | 0x020 => .ok (.vcvt (fD w) (fA w))
  | _ => .error .functionValue

/-- Counter instructions, opcodes 0x6A to 0x6F (R263, R344). -/
def decCtr (k : CtrField → Reg → AddrOp → Instr) (w : Nat) : Dec :=
  funVal (scopeOf (bitsOf w 0 3)) fun s => .ok (k ⟨s, bitsOf w 3 1 = 1, fL w⟩ (fD w) (fAddr w))

/-- The fields of a word of a major opcode read as an instruction; the operand rules of check 1 are `Instr.check`. -/
def decodeOp (op w : Nat) : Dec :=
  match op with
  | 0x00 => zeroBits (bitsOf w 0 25) .nop
  | 0x01 => .ok (.bra (BitVec.ofNat 25 (bitsOf w 0 25)))
  | 0x02 => .ok (.call (BitVec.ofNat 25 (bitsOf w 0 25)))
  | 0x03 => .ok (.brz (fD w) (BitVec.ofNat 17 (bitsOf w 0 17)))
  | 0x04 => .ok (.brnz (fD w) (BitVec.ofNat 17 (bitsOf w 0 17)))
  | 0x05 => zeroBits (bitsOf w 21 4) (.brv (bitsOf w 20 1 = 1) (fP w 17) (BitVec.ofNat 17 (bitsOf w 0 17)))
  | 0x06 => .ok (.rcv (BitVec.ofNat 25 (bitsOf w 0 25)))
  | 0x07 => zeroBits (bitsOf w 17 8 + bitsOf w 0 9) (.jmpr (fA w))
  | 0x08 => zeroBits (bitsOf w 0 25) .exit
  | 0x09 => zeroBits (bitsOf w 17 8) (.trap (BitVec.ofNat 17 (bitsOf w 0 17)))
  | 0x0A => zeroBits (bitsOf w 0 25) .rtrap
  | 0x0B => .ok (.svc (fD w) (BitVec.ofNat 17 (bitsOf w 0 17)))
  | 0x0C => zeroBits (bitsOf w 17 8 + bitsOf w 0 9) (.nap (fA w))
  | 0x0D => zeroBits (bitsOf w 0 25) .yield
  | 0x0E => zeroBits (bitsOf w 17 8) (.bkpt (BitVec.ofNat 17 (bitsOf w 0 17)))
  | 0x0F => zeroBits (bitsOf w 0 5) (.post (fD w) (fA w) (fL w))
  | 0x10 => decS .sadd w
  | 0x11 => decS .ssub w
  | 0x12 => decS .smul w
  | 0x13 => decS .smulhi w
  | 0x14 => decS .smulhn w
  | 0x15 => decS .sand w
  | 0x16 => decS .sor w
  | 0x17 => decS .sxor w
  | 0x18 => decS .sshl w
  | 0x19 => decS .sshr w
  | 0x1A => decS .ssra w
  | 0x1B => decS .smin w
  | 0x1C => decS .smax w
  | 0x1D => decS .sslt w
  | 0x1E => decS .ssltn w
  | 0x1F => decS .sseq w
  | 0x20 => decS .sadd64 w
  | 0x21 => decS .ssub64 w
  | 0x22 => .ok (.saddi (fD w) (fA w) (BitVec.ofNat 9 (bitsOf w 0 9)))
  | 0x23 => .ok (.smovi (fD w) (BitVec.ofNat 17 (bitsOf w 0 17)))
  | 0x24 => zeroBits (bitsOf w 16 1) (.smovhi (fD w) (BitVec.ofNat 16 (bitsOf w 0 16)))
  | 0x25 => zeroBits (bitsOf w 0 9) (.smov (fD w) (fA w))
  | 0x26 => zeroBits (bitsOf w 5 4) (.srdl (fD w) (fA w) (BitVec.ofNat 5 (bitsOf w 0 5)))
  | 0x28 => zeroBits (bitsOf w 9 8) (.mfs (fD w) (BitVec.ofNat 9 (bitsOf w 0 9)))
  | 0x29 => zeroBits (bitsOf w 17 8) (.mts (fA w) (BitVec.ofNat 9 (bitsOf w 0 9)))
  | 0x2A => zeroBits (bitsOf w 9 8) (.mfv (fD w) (BitVec.ofNat 9 (bitsOf w 0 9)))
  | 0x2B => zeroBits (bitsOf w 24 1 + bitsOf w 16 1) (.mode (BitVec.ofNat 7 (bitsOf w 17 7)) (BitVec.ofNat 16 (bitsOf w 0 16)))
  | 0x2C => zeroBits (bitsOf w 17 8 + bitsOf w 1 8) (if fS w then .modesAll (fA w) else .modes (fA w))
  | 0x2D => zeroBits (bitsOf w 0 17) (.mfmode (fD w))
  | 0x2E => zeroBits (bitsOf w 7 18) (.clrflg (BitVec.ofNat 7 (bitsOf w 0 7)))
  | 0x30 => decV .vadd w
  | 0x31 => decV .vsub w
  | 0x32 => decV .vmul w
  | 0x33 => decV .vmulhi w
  | 0x34 => decV .vmulw w
  | 0x35 => decV .vfma w
  | 0x36 => decV .vfnma w
  | 0x37 => decV .vmin w
  | 0x38 => decV .vmax w
  | 0x39 => decV .vdiv w
  | 0x3A => decV .vrem w
  | 0x3B => decV .vand w
  | 0x3C => decV .vor w
  | 0x3D => decV .vxor w
  | 0x3E => decV .vshl w
  | 0x3F => decV .vshr w
  | 0x40 => decV .vsra w
  | 0x41 => decV .vsel w
  | 0x42 => funVal (combineOf (bitsOf w 20 2)) fun m => .ok (.vcmp (condOf (bitsOf w 22 3)) m (fP w 17) (fA w) (fSrc w))
  | 0x43 => decV .vbfe w
  | 0x44 => decV .vbfi w
  | 0x45 => zeroBits (bitsOf w 1 8) (.vmov (fD w) (if fS w then .s (fA w) else .v (fA w)))
  | 0x46 => .ok (.vmovi (fD w) (BitVec.ofNat 17 (bitsOf w 0 17)))
  | 0x47 => zeroBits (bitsOf w 16 1) (.vmovhi (fD w) (BitVec.ofNat 16 (bitsOf w 0 16)))
  | 0x48 => .ok (.vaddi (fD w) (fA w) (BitVec.ofNat 9 (bitsOf w 0 9)))
  | 0x49 => decUnary w
  | 0x4A => decV .vshflIdx w
  | 0x4B => decV .vshflXor w
  | 0x4C => decV .vshflUp w
  | 0x4D => decV .vshflDn w
  | 0x4E => funVal (voteOf (bitsOf w 0 2)) fun m =>
      zeroBits (bitsOf w 13 4 + bitsOf w 2 7) (.vvote m (bitsOf w 12 1 = 1) (fD w) (fP w 9))
  | 0x4F => funVal (redOpOf (bitsOf w 0 3)) fun o => zeroBits (bitsOf w 3 6) (.vred o (fD w) (fA w))
  | 0x50 => funVal (redOpOf (bitsOf w 0 3)) fun o => zeroBits (bitsOf w 3 6) (.vscan o (fD w) (fA w))
  | 0x51 => decV .vmodmul w
  | 0x52 => decV .vmodadd w
  | 0x53 => decV .vmodsub w
  | 0x54 => decV .vbfly w
  | 0x55 => funVal (blockOf (bitsOf w 0 4)) fun f => zeroBits (bitsOf w 4 5) (.vqnt f (fD w) (fA w))
  | 0x56 => funVal (blockOf (bitsOf w 0 4)) fun f => zeroBits (bitsOf w 4 5) (.vdeq f (fD w) (fA w))
  | 0x57 => zeroBits (bitsOf w 20 5 + bitsOf w 15 2 + bitsOf w 4 5)
      (.plop (fP w 17) (fP w 9) (fP w 12) (BitVec.ofNat 4 (bitsOf w 0 4)))
  | 0x58 =>
      if fS w then zeroBits (bitsOf w 20 5 + bitsOf w 1 8) (.pmovsP (fP w 17) (fA w))
      else zeroBits (bitsOf w 12 5 + bitsOf w 1 8) (.pmovsS (fD w) (fP w 9))
  | 0x59 =>
      match bitsOf w 0 2 with
      | 0 => zeroBits (bitsOf w 20 5 + bitsOf w 2 15) (.pset .f (fP w 17))
      | 1 => zeroBits (bitsOf w 20 5 + bitsOf w 2 15) (.pset .t (fP w 17))
      | 2 => zeroBits (bitsOf w 20 5 + bitsOf w 2 7) (.pset (.nz (fA w)) (fP w 17))
      | _ => .error .functionValue
  | 0x60 => funVal (widthOf (bitsOf w 0 3)) fun m => .ok (.ld m (bitsOf w 3 1 = 1) (fD w) (fAddr w) (fL w))
  | 0x61 => funVal (widthOf (bitsOf w 0 3)) fun m => zeroBits (bitsOf w 3 1) (.st m (fD w) (fAddr w) (fL w))
  | 0x62 => funVal (widthOf (bitsOf w 0 3)) fun m => .ok (.lds m (bitsOf w 3 1 = 1) (fD w) (fAddr w) (fL w))
  | 0x63 => funVal (widthOf (bitsOf w 0 3)) fun m => zeroBits (bitsOf w 3 1) (.sts m (fD w) (fAddr w) (fL w))
  | 0x64 => funVal (widthOf (bitsOf w 0 3)) fun m =>
      zeroBits (1 - bitsOf w 4 1) (.ldu m (bitsOf w 3 1 = 1) (fD w) (fA w) (fL w))
  | 0x65 => funVal (atomOf (bitsOf w 0 4)) fun o => .ok (.atom o (fD w) (fAddr w) (fL w))
  | 0x66 => funVal (atomOf (bitsOf w 0 4)) fun o => .ok (.atoms o (fD w) (fAddr w) (fL w))
  | 0x67 => funVal (atomOf (bitsOf w 0 4)) fun o => .ok (.red o (fD w) (fAddr w) (fL w))
  | 0x68 => funVal (prefOf (bitsOf w 0 2)) fun m =>
      zeroBits (bitsOf w 17 8 + bitsOf w 2 2) (.pref m (fAddr w) (fL w))
  | 0x69 =>
      match bitsOf w 0 2 with
      | 0 => zeroBits (bitsOf w 9 16 + bitsOf w 2 3) (.cmntInv (fL w))
      | 1 => zeroBits (bitsOf w 17 8 + bitsOf w 2 2) (.cmntWbi (fAddr w) (fL w))
      | _ => .error .functionValue
  | 0x6A => decCtr .cadd w
  | 0x6B => decCtr .cwait w
  | 0x6C => decCtr .cread w
  | 0x6D => decCtr .ctest w
  | 0x6E => decCtr .cinit w
  | 0x6F => decCtr .craise w
  | 0x70 => zeroBits (bitsOf w 4 1) (.copy (bitsOf w 2 1 = 1) (bitsOf w 3 1 = 1) (fTl w) (fD w) (fA w) (fL w))
  | 0x71 => zeroBits (bitsOf w 17 8 + bitsOf w 4 1 + bitsOf w 2 1) (.copyl (bitsOf w 3 1 = 1) (fTl w) (fA w) (fL w))
  | 0x72 => zeroBits (bitsOf w 4 1) (.gath (gathOf (bitsOf w 2 2)) (fTl w) (fD w) (fA w) (fL w))
  | 0x74 => zeroBits (bitsOf w 0 5) (.mldw (fD w) (fA w) (fL w))
  | 0x75 => zeroBits (bitsOf w 9 16 + bitsOf w 0 5) (.mswap (fL w))
  | 0x76 => .ok (.mstr (fTile w) (fD w) (fA w) (fL w))
  | 0x77 => zeroBits (bitsOf w 11 6) (.mdrn (fTile w) (fQ w) (fD w) (fL w))
  | 0x78 => zeroBits (bitsOf w 9 16) (.mzero (fTile w) (fL w))
  | 0x79 => zeroBits (bitsOf w 11 6) (.mlda (fTile w) (fQ w) (fD w) (fL w))
  | _ => .error .reservedOpcode

def decodeFields (w : Nat) : Dec := decodeOp (bitsOf w 25 7) w

/-- The decoder: the fields of the word, and then the operand rules of check 1 (R266). -/
def decodeWord (w : Word) : Dec :=
  match decodeFields w.toNat with
  | .error r => .error r
  | .ok i =>
    match i.check with
    | some r => .error r
    | none => .ok i

/-- The little-endian value of bytes, the first byte the least significant (R243, R330). -/
def leNat : List Byte → Nat
  | [] => 0
  | b :: bs => b.toNat + 256 * leNat bs

/-- The word of the first four bytes, little-endian, and the rest (R243). -/
def decodeBytes : List Byte → Except Reject (Instr × List Byte)
  | b0 :: b1 :: b2 :: b3 :: rest =>
    match decodeWord (BitVec.ofNat 32 (leNat [b0, b1, b2, b3])) with
    | .ok i => .ok (i, rest)
    | .error r => .error r
  | _ => .error .short

/-- The low `n` bytes of a value, little-endian. -/
def leBytes : Nat → Nat → List Byte
  | 0, _ => []
  | n + 1, w => BitVec.ofNat 8 w :: leBytes n (w / 256)

/-- What the decoder reads from the bits of the opcode table, laid out as the hardware stores a word (R243). -/
def decodeTableWord (_nbits w : Nat) : Option Instr :=
  match decodeBytes (leBytes 4 w) with
  | .ok (i, _) => some i
  | .error _ => none

namespace Instr

/-- The s bit and the b field of an R-format operand. -/
def encSrc : SrcB → Nat
  | .v r => r.toNat * 2
  | .s r => r.toNat * 2 + 1
/-- The uniform bit and the a field of an address operand. -/
def encAddr : AddrOp → Nat
  | .lane r => r.toNat * 2 ^ 9
  | .uni r => r.toNat * 2 ^ 9 + 2 ^ 4
def bit (b : Bool) (lo : Nat) : Nat := if b then 2 ^ lo else 0

/-- The formats of R245. -/
def encR (op : Nat) (d a : Reg) (b : Nat) : Nat := op * 2 ^ 25 + d.toNat * 2 ^ 17 + a.toNat * 2 ^ 9 + b
def encW (op : Nat) (d : Reg) (imm : Nat) : Nat := op * 2 ^ 25 + d.toNat * 2 ^ 17 + imm
def encU (f : Nat) (d a : Reg) : Nat := encR 0x49 d a f
def encM (op : Nat) (t : Reg) (la : Look) (rest : Nat) : Nat := op * 2 ^ 25 + t.toNat * 2 ^ 17 + la.toNat * 2 ^ 5 + rest
def encC (op : Nat) (f : CtrField) (t : Reg) (a : AddrOp) : Nat := encM op t f.la (encAddr a + bit f.sc 3 + f.scope.code)

/-- The word of an instruction as a number; a step of the device has none, and takes 0. -/
def encNat : Instr → Nat
  | .nop => 0
  | .bra off => 0x01 * 2 ^ 25 + off.toNat
  | .call off => 0x02 * 2 ^ 25 + off.toNat
  | .brz r off => encW 0x03 r off.toNat
  | .brnz r off => encW 0x04 r off.toNat
  | .brv neg p off => 0x05 * 2 ^ 25 + bit neg 20 + p.toNat * 2 ^ 17 + off.toNat
  | .rcv off => 0x06 * 2 ^ 25 + off.toNat
  | .jmpr a => encR 0x07 0 a 0
  | .exit => 0x08 * 2 ^ 25
  | .trap imm => encW 0x09 0 imm.toNat
  | .rtrap => 0x0A * 2 ^ 25
  | .svc d imm => encW 0x0B d imm.toNat
  | .nap a => encR 0x0C 0 a 0
  | .yield => 0x0D * 2 ^ 25
  | .bkpt imm => encW 0x0E 0 imm.toNat
  | .post t a la => encM 0x0F t la (a.toNat * 2 ^ 9)
  | .sadd d a b => encR 0x10 d a (b.toNat * 2)
  | .ssub d a b => encR 0x11 d a (b.toNat * 2)
  | .smul d a b => encR 0x12 d a (b.toNat * 2)
  | .smulhi d a b => encR 0x13 d a (b.toNat * 2)
  | .smulhn d a b => encR 0x14 d a (b.toNat * 2)
  | .sand d a b => encR 0x15 d a (b.toNat * 2)
  | .sor d a b => encR 0x16 d a (b.toNat * 2)
  | .sxor d a b => encR 0x17 d a (b.toNat * 2)
  | .sshl d a b => encR 0x18 d a (b.toNat * 2)
  | .sshr d a b => encR 0x19 d a (b.toNat * 2)
  | .ssra d a b => encR 0x1A d a (b.toNat * 2)
  | .smin d a b => encR 0x1B d a (b.toNat * 2)
  | .smax d a b => encR 0x1C d a (b.toNat * 2)
  | .sslt d a b => encR 0x1D d a (b.toNat * 2)
  | .ssltn d a b => encR 0x1E d a (b.toNat * 2)
  | .sseq d a b => encR 0x1F d a (b.toNat * 2)
  | .sadd64 d a b => encR 0x20 d a (b.toNat * 2)
  | .ssub64 d a b => encR 0x21 d a (b.toNat * 2)
  | .saddi d a imm => encR 0x22 d a imm.toNat
  | .smovi d imm => encW 0x23 d imm.toNat
  | .smovhi d imm => encW 0x24 d imm.toNat
  | .smov d a => encR 0x25 d a 0
  | .srdl d a l => encR 0x26 d a l.toNat
  | .mfs d n => encR 0x28 d 0 n.toNat
  | .mts a n => encR 0x29 0 a n.toNat
  | .mfv d n => encR 0x2A d 0 n.toNat
  | .mode c v => 0x2B * 2 ^ 25 + c.toNat * 2 ^ 17 + v.toNat
  | .modes a => encR 0x2C 0 a 0
  | .modesAll a => encR 0x2C 0 a 1
  | .mfmode d => encR 0x2D d 0 0
  | .clrflg m => 0x2E * 2 ^ 25 + m.toNat
  | .vadd d a b => encR 0x30 d a (encSrc b)
  | .vsub d a b => encR 0x31 d a (encSrc b)
  | .vmul d a b => encR 0x32 d a (encSrc b)
  | .vmulhi d a b => encR 0x33 d a (encSrc b)
  | .vmulw d a b => encR 0x34 d a (encSrc b)
  | .vfma d a b => encR 0x35 d a (encSrc b)
  | .vfnma d a b => encR 0x36 d a (encSrc b)
  | .vmin d a b => encR 0x37 d a (encSrc b)
  | .vmax d a b => encR 0x38 d a (encSrc b)
  | .vdiv d a b => encR 0x39 d a (encSrc b)
  | .vrem d a b => encR 0x3A d a (encSrc b)
  | .vand d a b => encR 0x3B d a (encSrc b)
  | .vor d a b => encR 0x3C d a (encSrc b)
  | .vxor d a b => encR 0x3D d a (encSrc b)
  | .vshl d a b => encR 0x3E d a (encSrc b)
  | .vshr d a b => encR 0x3F d a (encSrc b)
  | .vsra d a b => encR 0x40 d a (encSrc b)
  | .vsel d a b => encR 0x41 d a (encSrc b)
  | .vcmp c m p a b => 0x42 * 2 ^ 25 + c.code * 2 ^ 22 + m.code * 2 ^ 20 + p.toNat * 2 ^ 17 + a.toNat * 2 ^ 9 + encSrc b
  | .vbfe d a b => encR 0x43 d a (encSrc b)
  | .vbfi d a b => encR 0x44 d a (encSrc b)
  | .vmov d (.v a) => encR 0x45 d a 0
  | .vmov d (.s a) => encR 0x45 d a 1
  | .vmovi d imm => encW 0x46 d imm.toNat
  | .vmovhi d imm => encW 0x47 d imm.toNat
  | .vaddi d a imm => encR 0x48 d a imm.toNat
  | .vabs d a => encU 0x000 d a
  | .vneg d a => encU 0x001 d a
  | .vnot d a => encU 0x002 d a
  | .vpopc d a => encU 0x003 d a
  | .vclz d a => encU 0x004 d a
  | .vctz d a => encU 0x005 d a
  | .vbrev d a => encU 0x006 d a
  | .vrcp d a => encU 0x010 d a
  | .vrsq d a => encU 0x011 d a
  | .vsqrt d a => encU 0x012 d a
  | .vexp2 d a => encU 0x013 d a
  | .vlog2 d a => encU 0x014 d a
  | .vsin d a => encU 0x015 d a
  | .vcos d a => encU 0x016 d a
  | .vtanh d a => encU 0x017 d a
  | .vrnd d a => encU 0x018 d a
  | .vfrc d a => encU 0x019 d a
  | .vclass d a => encU 0x01A d a
  | .vcvt d a => encU 0x020 d a
  | .vshflIdx d a b => encR 0x4A d a (encSrc b)
  | .vshflXor d a b => encR 0x4B d a (encSrc b)
  | .vshflUp d a b => encR 0x4C d a (encSrc b)
  | .vshflDn d a b => encR 0x4D d a (encSrc b)
  | .vvote m neg d p => encW 0x4E d (bit neg 12 + p.toNat * 2 ^ 9 + m.code)
  | .vred o d a => encR 0x4F d a o.code
  | .vscan o d a => encR 0x50 d a o.code
  | .vmodmul d a b => encR 0x51 d a (encSrc b)
  | .vmodadd d a b => encR 0x52 d a (encSrc b)
  | .vmodsub d a b => encR 0x53 d a (encSrc b)
  | .vbfly d a b => encR 0x54 d a (encSrc b)
  | .vqnt f d a => encR 0x55 d a f.code
  | .vdeq f d a => encR 0x56 d a f.code
  | .plop d x y tt => 0x57 * 2 ^ 25 + d.toNat * 2 ^ 17 + y.toNat * 2 ^ 12 + x.toNat * 2 ^ 9 + tt.toNat
  | .pmovsS d p => encW 0x58 d (p.toNat * 2 ^ 9)
  | .pmovsP p a => 0x58 * 2 ^ 25 + p.toNat * 2 ^ 17 + a.toNat * 2 ^ 9 + 1
  | .pset .f p => 0x59 * 2 ^ 25 + p.toNat * 2 ^ 17
  | .pset .t p => 0x59 * 2 ^ 25 + p.toNat * 2 ^ 17 + 1
  | .pset (.nz a) p => 0x59 * 2 ^ 25 + p.toNat * 2 ^ 17 + a.toNat * 2 ^ 9 + 2
  | .ld m sx t a la => encM 0x60 t la (encAddr a + bit sx 3 + m.code)
  | .st m t a la => encM 0x61 t la (encAddr a + m.code)
  | .lds m sx t a la => encM 0x62 t la (encAddr a + bit sx 3 + m.code)
  | .sts m t a la => encM 0x63 t la (encAddr a + m.code)
  | .ldu m sx t a la => encM 0x64 t la (a.toNat * 2 ^ 9 + 2 ^ 4 + bit sx 3 + m.code)
  | .atom o t a la => encM 0x65 t la (encAddr a + o.code)
  | .atoms o t a la => encM 0x66 t la (encAddr a + o.code)
  | .red o t a la => encM 0x67 t la (encAddr a + o.code)
  | .pref m a la => encM 0x68 0 la (encAddr a + m.code)
  | .cmntInv la => encM 0x69 0 la 0
  | .cmntWbi a la => encM 0x69 0 la (encAddr a + 1)
  | .cadd f t a => encC 0x6A f t a
  | .cwait f t a => encC 0x6B f t a
  | .cread f t a => encC 0x6C f t a
  | .ctest f t a => encC 0x6D f t a
  | .cinit f t a => encC 0x6E f t a
  | .craise f t a => encC 0x6F f t a
  | .copy out clr tl t a la => encM 0x70 t la (a.toNat * 2 ^ 9 + bit clr 3 + bit out 2 + tl.toNat)
  | .copyl clr tl a la => encM 0x71 0 la (a.toNat * 2 ^ 9 + bit clr 3 + tl.toNat)
  | .gath e tl t a la => encM 0x72 t la (a.toNat * 2 ^ 9 + e.code * 2 ^ 2 + tl.toNat)
  | .mldw t a la => encM 0x74 t la (a.toNat * 2 ^ 9)
  | .mswap la => encM 0x75 0 la 0
  | .mstr n t a la => encM 0x76 t la (a.toNat * 2 ^ 9 + n.toNat)
  | .mdrn n q t la => encM 0x77 t la (q.toNat * 2 ^ 9 + n.toNat)
  | .mzero n la => encM 0x78 0 la n.toNat
  | .mlda n q t la => encM 0x79 t la (q.toNat * 2 ^ 9 + n.toNat)
  | .illegalInstruction w => w.toNat
  | _ => 0

end Instr

/-- The word of an instruction. -/
def encode (i : Instr) : Word := BitVec.ofNat 32 i.encNat

end Sys2Proof
end

