-- ==== Sys2Proof/Machine/Num.lean ====
section
/-!
DEFINITION. Number formats and arithmetic (spec/08): the types of MODE, floating-point formats, Round, and the operations on
one element. A value is held exactly as a signed dyadic number; a division or a root keeps enough bits and a sticky mark.
-/

namespace Sys2Proof.Machine

/-- The type codes of MODE.T and MODE.CT (R251); code 15 is reserved. -/
inductive Ty where
  | i8 | n8 | i16 | n16 | i32 | n32 | i64 | n64 | f16 | bf16 | f32 | f64 | e4m3 | e5m2 | mod64
  deriving DecidableEq, Repr

def Ty.ofCode : Nat → Option Ty
  | 0 => some .i8 | 1 => some .n8 | 2 => some .i16 | 3 => some .n16 | 4 => some .i32 | 5 => some .n32
  | 6 => some .i64 | 7 => some .n64 | 8 => some .f16 | 9 => some .bf16 | 10 => some .f32 | 11 => some .f64
  | 12 => some .e4m3 | 13 => some .e5m2 | 14 => some .mod64 | _ => none

/-- Element width in bits (R251). -/
def Ty.bits : Ty → Nat
  | .i8 | .n8 | .e4m3 | .e5m2 => 8
  | .i16 | .n16 | .f16 | .bf16 => 16
  | .i32 | .n32 | .f32 => 32
  | _ => 64
/-- Elements in one register; a 64-bit type has one in a pair (R251). -/
def Ty.elems (t : Ty) : Nat := if t.bits = 64 then 1 else 32 / t.bits
/-- Whether an operand of the type is a pair (R248). -/
def Ty.pair (t : Ty) : Bool := t.bits = 64
/-- Codes 0 to 7 (R254). -/
def Ty.isInt : Ty → Bool
  | .i8 | .n8 | .i16 | .n16 | .i32 | .n32 | .i64 | .n64 => true
  | _ => false
/-- Two's complement types (R231). -/
def Ty.signed : Ty → Bool
  | .i8 | .i16 | .i32 | .i64 => true
  | _ => false
/-- The floating types the arithmetic accepts: codes 8 to 11 (R254). -/
def Ty.isFloat : Ty → Bool
  | .f16 | .bf16 | .f32 | .f64 => true
  | _ => false

/-- The sticky flags, bit k standing for MODE[24 + k]: NV, DZ, OF, UF, NX, ST, QN (R228). -/
abbrev Flags := BitVec 7
def Flags.nv : Flags := 0x01
def Flags.dz : Flags := 0x02
def Flags.of : Flags := 0x04
def Flags.uf : Flags := 0x08
def Flags.nx : Flags := 0x10
def Flags.st : Flags := 0x20
def Flags.qn : Flags := 0x40

/-- The rounding, saturation and flush settings of MODE (R250). -/
structure RMode where
  rm : Nat
  sat : Bool
  ftz : Bool
  deriving DecidableEq, Repr

/-- Nearest-even, no saturation, no flush: the setting of the matrix array and of data atomics (R241, R338). -/
def RMode.plain : RMode := ⟨0, false, false⟩

/-- How a format uses its all-ones exponent (R221). -/
inductive FmtKind where
  | ieee | e4m3 | e2m1
  deriving DecidableEq, Repr

/-- A floating-point format: exponent and trailing significand widths (R221). -/
structure Fmt where
  ew : Nat
  mw : Nat
  kind : FmtKind
  deriving DecidableEq, Repr

namespace Fmt
def f16 : Fmt := ⟨5, 10, .ieee⟩
def bf16 : Fmt := ⟨8, 7, .ieee⟩
def f32 : Fmt := ⟨8, 23, .ieee⟩
def f64 : Fmt := ⟨11, 52, .ieee⟩
def e4m3 : Fmt := ⟨4, 3, .e4m3⟩
def e5m2 : Fmt := ⟨5, 2, .ieee⟩
def e2m1 : Fmt := ⟨2, 1, .e2m1⟩

def bias (f : Fmt) : Nat := 2 ^ (f.ew - 1) - 1
/-- The exponent of the least significand bit of a subnormal. -/
def emin (f : Fmt) : Int := 1 - (f.bias : Int) - f.mw
def width (f : Fmt) : Nat := 1 + f.ew + f.mw
/-- The sign bit's weight. -/
def signBit (f : Fmt) : Nat := 2 ^ (f.ew + f.mw)
def hasInf (f : Fmt) : Bool := f.kind == .ieee
/-- Exponent and significand bits of the infinity. -/
def infMag (f : Fmt) : Nat := (2 ^ f.ew - 1) * 2 ^ f.mw
/-- Exponent and significand bits of the largest finite value (R221). -/
def maxMag (f : Fmt) : Nat :=
  match f.kind with
  | .ieee => f.infMag - 1
  | .e4m3 => 0x7E
  | .e2m1 => 7
/-- The canonical NaN (R221, R222). -/
def nan (f : Fmt) : Nat :=
  match f.kind with
  | .ieee => if f.mw = 2 then 0x7E else f.infMag + 2 ^ (f.mw - 1)
  | _ => 0x7F
def withSign (f : Fmt) (neg : Bool) (mag : Nat) : Nat := if neg then f.signBit + mag else mag
end Fmt

/-- The format of a floating type, codes 8 to 13. -/
def Ty.fmt? : Ty → Option Fmt
  | .f16 => some .f16 | .bf16 => some .bf16 | .f32 => some .f32 | .f64 => some .f64
  | .e4m3 => some .e4m3 | .e5m2 => some .e5m2 | _ => none

/-- A signed number m × 2^e; with `sticky`, the magnitude lies strictly between m × 2^e and (m + 1) × 2^e. -/
structure Dy where
  neg : Bool
  m : Nat
  e : Int
  sticky : Bool
  deriving DecidableEq, Repr

/-- A floating-point value: NaN (signalling or quiet), infinity, or a number. -/
inductive Val where
  | nan (signalling : Bool)
  | inf (neg : Bool)
  | fin (x : Dy)
  deriving DecidableEq, Repr

/-- m × 2^s for a non-negative s, and m divided by 2^−s otherwise. -/
def shl (m : Nat) (s : Int) : Nat := if 0 ≤ s then m * 2 ^ s.toNat else m / 2 ^ (-s).toNat

namespace Dy
def zero (neg : Bool) : Dy := ⟨neg, 0, 0, false⟩
def ofInt (n : Int) : Dy := ⟨n < 0, n.natAbs, 0, false⟩
def isZero (x : Dy) : Bool := x.m = 0 && !x.sticky
/-- The signed numerator of x at exponent e, for e no larger than x.e. -/
def num (x : Dy) (e : Int) : Int := if x.neg then -(shl x.m (x.e - e) : Int) else shl x.m (x.e - e)
/-- The exact sum; an exact zero of unequal signs takes the sign `zneg` (R223). -/
def add (x y : Dy) (zneg : Bool) : Dy :=
  let e := min x.e y.e
  let n := x.num e + y.num e
  if n = 0 then zero (if x.neg = y.neg then x.neg else zneg) else ⟨n < 0, n.natAbs, e, false⟩
def mul (x y : Dy) : Dy := ⟨x.neg != y.neg, x.m * y.m, x.e + y.e, false⟩
def negate (x : Dy) : Dy := { x with neg := !x.neg }
/-- x compared with y: negative, zero or positive. -/
def diff (x y : Dy) : Int :=
  let e := min x.e y.e
  x.num e - y.num e
/-- The quotient to at least 70 bits with its sticky mark; y is not zero. -/
def div (x y : Dy) : Dy :=
  let k := Nat.log2 y.m + 71
  let n := x.m * 2 ^ k
  ⟨x.neg != y.neg, n / y.m, x.e - y.e - k, n % y.m ≠ 0⟩
end Dy

/-- ⌊√n⌋ by binary digits from 2^k down. -/
def isqrtFrom (n : Nat) : Nat → Nat → Nat
  | 0, r => if (r + 1) * (r + 1) ≤ n then r + 1 else r
  | k + 1, r => isqrtFrom n k (if (r + 2 ^ (k + 1)) * (r + 2 ^ (k + 1)) ≤ n then r + 2 ^ (k + 1) else r)
def isqrt (n : Nat) : Nat := isqrtFrom n (Nat.log2 n / 2 + 1) 0

namespace Dy
/-- The root of a positive number to at least 70 bits, with its sticky mark. -/
def sqrt (x : Dy) : Dy :=
  let m := if x.e % 2 = 0 then x.m else 2 * x.m
  let e := if x.e % 2 = 0 then x.e else x.e - 1
  let n := m * 2 ^ 144
  let r := isqrt n
  ⟨false, r, e / 2 - 72, r * r ≠ n⟩
/-- One over the root of a positive number, likewise. -/
def rsqrt (x : Dy) : Dy :=
  let m := if x.e % 2 = 0 then x.m else 2 * x.m
  let e := if x.e % 2 = 0 then x.e else x.e - 1
  let k := Nat.log2 m / 2 + 73
  let r := isqrt (2 ^ (2 * k) / m)
  ⟨false, r, -(e / 2) - k, r * r * m ≠ 2 ^ (2 * k)⟩
/-- The integer ⌊|x|⌋, whether |x| is more than, equal to or less than a half above it, and whether it is inexact. -/
def split (x : Dy) : Nat × Ordering × Bool :=
  if 0 ≤ x.e then (x.m * 2 ^ x.e.toNat, .lt, x.sticky)
  else
    let h := 2 ^ (-x.e).toNat
    let r := x.m % h
    (x.m / h, if 2 * r < h then .lt else if 2 * r = h && !x.sticky then .eq else .gt, r ≠ 0 || x.sticky)
end Dy

/-- Whether a magnitude with integer part q and the given remainder rounds away under rm (R226). -/
def roundsUp (rm : Nat) (neg : Bool) (q : Nat) (half : Ordering) (inexact : Bool) : Bool :=
  match rm with
  | 0 => half = .gt || (half = .eq && q % 2 = 1)
  | 1 => false
  | 2 => neg && inexact
  | _ => !neg && inexact

/-- x rounded to an integer by rm, and whether it changed (R234, R313). -/
def Dy.toInt (x : Dy) (rm : Nat) : Int × Bool :=
  let (q, half, inexact) := x.split
  let n := if roundsUp rm x.neg q half inexact then q + 1 else q
  (if x.neg then -(n : Int) else n, inexact)

/-- The overflow outcomes of R226, `finite` telling a finite overflow from an infinite x. -/
def overflow (f : Fmt) (r : RMode) (neg finite : Bool) : Nat × Flags :=
  let big := f.withSign neg f.maxMag
  let inf := f.withSign neg f.infMag
  if r.sat then (big, if finite then .of ||| .nx ||| .st else .st)
  else if !f.hasInf then (f.nan, if finite then .of ||| .nx else .nv)
  else if !finite then (inf, 0)
  else
    (match r.rm with
     | 0 => inf
     | 1 => big
     | 2 => if neg then inf else big
     | _ => if neg then big else inf, .of ||| .nx)

/-- Round of a non-zero number to precision, subnormals included and the exponent unbounded above: the exponent and
significand bits, and whether the value changed (R226). -/
def roundMag (f : Fmt) (rm : Nat) (x : Dy) : Nat × Bool :=
  let t := max (x.e + Nat.log2 x.m - f.mw) f.emin
  let (q, half, inexact) := Dy.split { x with e := x.e - t }
  let n := if roundsUp rm x.neg q half inexact then q + 1 else q
  ((t - f.emin).toNat * 2 ^ f.mw + n, inexact)

/-- Round of R226 on a number. -/
def roundDy (f : Fmt) (r : RMode) (x : Dy) : Nat × Flags :=
  if x.isZero then (f.withSign x.neg 0, 0)
  else
    let (mag, inexact) := roundMag f r.rm x
    if mag > f.maxMag then overflow f r x.neg true
    else
      let tiny := mag < 2 ^ f.mw
      if r.ftz && f.kind != .e2m1 && mag ≠ 0 && tiny then (f.withSign x.neg 0, .uf ||| .nx)
      else (f.withSign x.neg mag, (if inexact then .nx else 0) ||| (if inexact && tiny then .uf else 0))

/-- Round of R226. -/
def round (f : Fmt) (r : RMode) : Val → Nat × Flags
  | .nan _ => (f.nan, 0)
  | .inf neg => overflow f r neg false
  | .fin x => roundDy f r x

/-- The value of the bits (R221). -/
def unpack (f : Fmt) (bits : Nat) : Val :=
  let neg := bits / f.signBit % 2 = 1
  let e := bits / 2 ^ f.mw % 2 ^ f.ew
  let m := bits % 2 ^ f.mw
  let special : Bool := match f.kind with
    | .ieee => e == 2 ^ f.ew - 1
    | .e4m3 => bits % 128 == 0x7F
    | .e2m1 => false
  if special then
    if f.kind == .ieee && m = 0 then .inf neg
    else .nan (f.kind == .ieee && m < 2 ^ (f.mw - 1))
  else if e = 0 then .fin ⟨neg, m, if m = 0 then 0 else f.emin, false⟩
  else .fin ⟨neg, 2 ^ f.mw + m, f.emin + (e - 1 : Nat), false⟩

/-- Whether the bits are a subnormal of the format. -/
def isSub (f : Fmt) (bits : Nat) : Bool := bits / 2 ^ f.mw % 2 ^ f.ew = 0 && bits % 2 ^ f.mw ≠ 0

/-- An input as a vector instruction reads it: under FTZ a subnormal is a zero of its sign (R227). -/
def unpackIn (f : Fmt) (ftz : Bool) (bits : Nat) : Val :=
  if ftz && isSub f bits then .fin (Dy.zero (bits / f.signBit % 2 = 1)) else unpack f bits

def Val.isNan : Val → Bool
  | .nan _ => true
  | _ => false
def Val.isSnan : Val → Bool
  | .nan s => s
  | _ => false
def Val.negate : Val → Val
  | .nan s => .nan s
  | .inf n => .inf (!n)
  | .fin x => .fin x.negate
def Val.isNeg : Val → Bool
  | .nan _ => false
  | .inf n => n
  | .fin x => x.neg

/-- A result with the flags the operation itself raises, before Round. -/
abbrev Raw := Val × Flags
def Raw.invalid : Raw := (.nan false, .nv)

/-- The operation on operands none of which is a NaN; a NaN operand gives NaN, and a signalling one sets NV (R222). -/
def nanGuard (xs : List Val) (k : Raw) : Raw :=
  if xs.any Val.isNan then (.nan false, if xs.any Val.isSnan then .nv else 0) else k

/-- Sum of values that are not NaN; the sign of an exact zero follows rm (R223). -/
def addVal (rm : Nat) : Val → Val → Raw
  | .inf a, .inf b => if a = b then (.inf a, 0) else Raw.invalid
  | .inf a, _ => (.inf a, 0)
  | _, .inf b => (.inf b, 0)
  | .fin x, .fin y => (.fin (x.add y (rm = 2)), 0)
  | _, _ => (.nan false, 0)

/-- Product of values that are not NaN (R223). -/
def mulVal : Val → Val → Raw
  | .inf a, .inf b => (.inf (a != b), 0)
  | .inf a, .fin y => if y.isZero then Raw.invalid else (.inf (a != y.neg), 0)
  | .fin x, .inf b => if x.isZero then Raw.invalid else (.inf (x.neg != b), 0)
  | .fin x, .fin y => (.fin (x.mul y), 0)
  | _, _ => (.nan false, 0)

/-- Quotient of values that are not NaN (R223, R229). -/
def divVal : Val → Val → Raw
  | .inf _, .inf _ => Raw.invalid
  | .inf a, .fin y => (.inf (a != y.neg), 0)
  | .fin x, .inf b => (.fin (Dy.zero (x.neg != b)), 0)
  | .fin x, .fin y =>
    if y.isZero then
      if x.isZero then Raw.invalid else (.inf (x.neg != y.neg), .dz)
    else (.fin (x.div y), 0)
  | _, _ => (.nan false, 0)

/-- d + a × b with one rounding (R229). -/
def fmaVal (rm : Nat) (a b d : Val) (negProd : Bool) : Raw :=
  let (p, fl) := mulVal a b
  if p.isNan then (p, fl) else addVal rm d (if negProd then p.negate else p)

def sqrtVal : Val → Raw
  | .inf false => (.inf false, 0)
  | .fin x => if x.isZero then (.fin x, 0) else if x.neg then Raw.invalid else (.fin x.sqrt, 0)
  | .inf true => Raw.invalid
  | .nan s => (.nan s, 0)

def rsqVal : Val → Raw
  | .inf false => (.fin (Dy.zero false), 0)
  | .fin x => if x.isZero then (.inf x.neg, .dz) else if x.neg then Raw.invalid else (.fin x.rsqrt, 0)
  | .inf true => Raw.invalid
  | .nan s => (.nan s, 0)

/-- Whether x is below y, with −0 below +0, for values that are not NaN (R307). -/
def Val.below : Val → Val → Bool
  | .inf a, .inf b => a && !b
  | .inf a, _ => a
  | _, .inf b => !b
  | .fin x, .fin y => if x.isZero && y.isZero then x.neg && !y.neg else x.diff y < 0
  | _, _ => false

/-- Whether x is less than, and equal to, y as numbers, for values that are not NaN (R316). -/
def Val.lt : Val → Val → Bool
  | .inf a, .inf b => a && !b
  | .inf a, _ => a
  | _, .inf b => !b
  | .fin x, .fin y => x.diff y < 0
  | _, _ => false
def Val.eqv : Val → Val → Bool
  | .inf a, .inf b => a = b
  | .fin x, .fin y => x.diff y = 0
  | _, _ => false

/-- A result rounded to the format, with the flags of both parts. -/
def finish (f : Fmt) (r : RMode) (x : Raw) : Nat × Flags :=
  let (b, fl) := round f r x.1
  (b, fl ||| x.2)

/-- The elementwise operations of R307 and R313. -/
inductive FOp where
  | add | sub | mul | fma | fnma | min | max | div | abs | neg | rcp | rsq | sqrt | rnd | frc
  deriving DecidableEq, Repr

/-- The bits of a value read under FTZ: a flushed subnormal is a zero of its sign (R227). -/
def flushBits (f : Fmt) (ftz : Bool) (a : Nat) : Nat := if ftz && isSub f a then a / f.signBit % 2 * f.signBit else a

/-- One floating operation on elements a, b and d (R229, R307, R313). -/
def floatOp (f : Fmt) (r : RMode) (op : FOp) (a b d : Nat) : Nat × Flags :=
  let x := unpackIn f r.ftz a
  let y := unpackIn f r.ftz b
  let z := unpackIn f r.ftz d
  match op with
  | .add => finish f r (nanGuard [x, y] (addVal r.rm x y))
  | .sub => finish f r (nanGuard [x, y] (addVal r.rm x y.negate))
  | .mul => finish f r (nanGuard [x, y] (mulVal x y))
  | .fma => finish f r (nanGuard [x, y, z] (fmaVal r.rm x y z false))
  | .fnma => finish f r (nanGuard [x, y, z] (fmaVal r.rm x y z true))
  | .div => finish f r (nanGuard [x, y] (divVal x y))
  | .rcp => finish f r (nanGuard [x] (divVal (.fin (Dy.ofInt 1)) x))
  | .sqrt => finish f r (nanGuard [x] (sqrtVal x))
  | .rsq => finish f r (nanGuard [x] (rsqVal x))
  | .min | .max =>
    if x.isNan || y.isNan then finish f r (nanGuard [x, y] (x, 0))
    else (flushBits f r.ftz (if (if op = .min then y.below x else x.below y) then b else a), 0)
  | .abs => finish f r (nanGuard [x] (if x.isNeg then x.negate else x, 0))
  | .neg => finish f r (nanGuard [x] (x.negate, 0))
  | .rnd =>
    match x with
    | .fin v =>
      let (n, inexact) := v.toInt r.rm
      ((roundDy f .plain ⟨v.neg, n.natAbs, 0, false⟩).1, if inexact then .nx else 0)
    | .inf n => (f.withSign n f.infMag, 0)
    | .nan s => finish f r (nanGuard [.nan s] (x, 0))
  | .frc =>
    match x with
    | .fin v =>
      let fl := (v.toInt 2).1
      let w := v.add (Dy.ofInt (-fl)) false
      finish f r (if w.isZero then (.fin (Dy.zero false), 0) else (.fin w, 0))
    | .inf _ => finish f r Raw.invalid
    | .nan s => finish f r (nanGuard [.nan s] (x, 0))

/-- The class mask of `vclass`, from raw bits (R314). -/
def classMask (f : Fmt) (a : Nat) : Nat :=
  match unpack f a with
  | .nan true => 0x001
  | .nan false => 0x002
  | .inf true => 0x004
  | .inf false => 0x200
  | .fin x =>
    if x.isZero then (if x.neg then 0x020 else 0x040)
    else if isSub f a then (if x.neg then 0x010 else 0x080)
    else (if x.neg then 0x008 else 0x100)

/-- A floating compare and its flags (R316). -/
def floatCmp (f : Fmt) (ftz : Bool) (c : Cond) (a b : Nat) : Bool × Flags :=
  let x := unpackIn f ftz a
  let y := unpackIn f ftz b
  let ordered := c = .lt || c = .le || c = .gt || c = .ge
  if x.isNan || y.isNan then
    (c = .ne || c = .unord, if ordered || x.isSnan || y.isSnan then .nv else 0)
  else
    (match c with
     | .eq => x.eqv y
     | .ne => !x.eqv y
     | .lt => x.lt y
     | .le => x.lt y || x.eqv y
     | .gt => y.lt x
     | .ge => y.lt x || x.eqv y
     | .unord => false
     | .ord => true, 0)

/-- The number an integer element stands for (R231). -/
def intVal (t : Ty) (a : Nat) : Int := if t.signed && a ≥ 2 ^ (t.bits - 1) then (a : Int) - 2 ^ t.bits else a
def intMin (t : Ty) : Int := if t.signed then -(2 ^ (t.bits - 1) : Nat) else 0
def intMax (t : Ty) : Int := if t.signed then (2 ^ (t.bits - 1) : Nat) - 1 else (2 ^ t.bits : Nat) - 1
/-- The low bits of an integer. -/
def lowBits (w : Nat) (n : Int) : Nat := (n % (2 ^ w : Nat)).toNat

/-- An exact integer result fitted to the type (R231). -/
def fit (t : Ty) (sat : Bool) (n : Int) : Nat × Flags :=
  if sat && n < intMin t then (lowBits t.bits (intMin t), .st)
  else if sat && intMax t < n then (lowBits t.bits (intMax t), .st)
  else (lowBits t.bits n, 0)

/-- The integer operations of R307, R309 and R312. -/
inductive IOp where
  | add | sub | mul | mulhi | fma | fnma | min | max | div | rem
  | and | or | xor | shl | shr | sra | bfe | bfi
  | abs | neg | not | popc | clz | ctz | brev
  deriving DecidableEq, Repr

/-- The field (position, length) of a control element, clipped to the width (R309). -/
def bitField (w c : Nat) : Nat × Nat :=
  let pos := if w = 8 then c % 16 else c % 256
  let len := if w = 8 then c / 16 % 16 else c / 256 % 256
  (pos, if pos ≥ w then 0 else Nat.min len (w - pos))

def popcount : Nat → Nat → Nat
  | 0, _ => 0
  | k + 1, a => a % 2 + popcount k (a / 2)
/-- Bits of a from the top down to the first one. -/
def clzIn (w a : Nat) : Nat := if a = 0 then w else w - 1 - Nat.log2 a
def ctzIn : Nat → Nat → Nat
  | 0, _ => 0
  | k + 1, a => if a % 2 = 1 then 0 else 1 + ctzIn k (a / 2)
def brevIn : Nat → Nat → Nat → Nat
  | 0, _, r => r
  | k + 1, a, r => brevIn k (a / 2) (2 * r + a % 2)

/-- One integer operation on elements a, b and d (R231, R307, R309, R312). -/
def intOp (t : Ty) (sat : Bool) (op : IOp) (a b d : Nat) : Nat × Flags :=
  let w := t.bits
  let x := intVal t a
  let y := intVal t b
  let z := intVal t d
  match op with
  | .add => fit t sat (x + y)
  | .sub => fit t sat (x - y)
  | .mul => fit t sat (x * y)
  | .mulhi => (lowBits w ((x * y) / (2 ^ w : Nat)), 0)
  | .fma => fit t sat (z + x * y)
  | .fnma => fit t sat (z - x * y)
  | .min => (if y < x then b else a, 0)
  | .max => (if x < y then b else a, 0)
  | .div => if y = 0 then (2 ^ w - 1, .dz) else fit t sat (x.tdiv y)
  | .rem => if y = 0 then (a, .dz) else (lowBits w (x.tmod y), 0)
  | .and => (a &&& b, 0)
  | .or => (a ||| b, 0)
  | .xor => (a ^^^ b, 0)
  | .shl => (if b < w then a * 2 ^ b % 2 ^ w else 0, 0)
  | .shr => (if b < w then a / 2 ^ b else 0, 0)
  | .sra =>
    let s := Nat.min b (w - 1)
    let n : Int := if a ≥ 2 ^ (w - 1) then (a : Int) - (2 ^ w : Nat) else a
    (lowBits w (n / (2 ^ s : Nat)), 0)
  | .bfe =>
    let (pos, len) := bitField w (b % 2 ^ 32)
    let v := a / 2 ^ pos % 2 ^ len
    (if len = 0 then 0 else if t.signed && v ≥ 2 ^ (len - 1) then lowBits w ((v : Int) - (2 ^ len : Nat)) else v, 0)
  | .bfi =>
    let (pos, len) := bitField w (b % 2 ^ 32)
    (if len = 0 then 0 else a % 2 ^ len * 2 ^ pos, 0)
  | .abs => fit t sat (if x < 0 then -x else x)
  | .neg => fit t sat (-x)
  | .not => (2 ^ w - 1 - a, 0)
  | .popc => (popcount w a, 0)
  | .clz => (clzIn w a, 0)
  | .ctz => (ctzIn w a, 0)
  | .brev => (brevIn w a 0, 0)

/-- An integer compare; UNORD and ORD do not reach it (R316). -/
def intCmp (t : Ty) (c : Cond) (a b : Nat) : Bool :=
  let x := intVal t a
  let y := intVal t b
  match c with
  | .eq => x = y
  | .ne => x ≠ y
  | .lt => x < y
  | .le => x ≤ y
  | .gt => y < x
  | .ge => y ≤ x
  | _ => false

/-- Whether every value of `f` is a value of `g` (a wider or equal format, R234). -/
def Fmt.within (f g : Fmt) : Bool := f.ew ≤ g.ew && f.mw ≤ g.mw && (g.kind == .ieee || f.kind == g.kind)

/-- Whether `vcvt` accepts the pair of types (R234). -/
def cvtOk (t ct : Ty) : Bool :=
  if t = .mod64 then ct = .i64 || ct = .n64 || ct = .mod64
  else if ct = .mod64 then t.isInt
  else true

/-- A float converted to an integer type: rounded by RM and clamped, whatever SAT (R234). -/
def floatToInt (t : Ty) (rm : Nat) (v : Val) : Nat × Flags :=
  match v with
  | .nan _ => (0, .nv)
  | .inf neg => (lowBits t.bits (if neg then intMin t else intMax t), .nv)
  | .fin x =>
    let (n, inexact) := x.toInt rm
    let nx : Flags := if inexact then .nx else 0
    if n < intMin t then (lowBits t.bits (intMin t), nx ||| .nv)
    else if intMax t < n then (lowBits t.bits (intMax t), nx ||| .nv)
    else (lowBits t.bits n, nx)

/-- One element of `vcvt`, for a pair of types that `cvtOk` accepts (R234, R315). A wider integer type is one of more bits, whatever SAT (log 103). -/
def convert (t ct : Ty) (r : RMode) (q a : Nat) : Nat × Flags :=
  match t.fmt?, ct.fmt? with
  | some f, some g =>
    let x := unpackIn f r.ftz a
    if x.isNan then (g.nan, if x.isSnan then .nv else 0)
    else if f = g then (flushBits f r.ftz a, 0)
    else if f.within g then
      (match x with
       | .inf n => g.withSign n g.infMag
       | v => (round g .plain v).1, 0)
    else finish g r (x, 0)
  | some f, none => floatToInt ct r.rm (unpackIn f r.ftz a)
  | none, some g => if t = .mod64 then (0, 0) else finish g r (.fin (Dy.ofInt (intVal t a)), 0)
  | none, none =>
    if t = .mod64 then (a % q, 0)
    else if ct = .mod64 then ((intVal t a % (q : Int)).toNat, 0)
    else if t.bits < ct.bits then (lowBits ct.bits (intVal t a), 0)
    else fit ct r.sat (intVal t a)

/-- Modulus validity (R233). -/
def qValid (q : Nat) : Bool := q % 2 = 1 && 3 ≤ q && q < 2 ^ 63

/-- MOD64 sum, difference and product, on inputs reduced first (R233). -/
def modAdd (q a b : Nat) : Nat := (a % q + b % q) % q
def modSub (q a b : Nat) : Nat := (a % q + (q - b % q)) % q
def modMul (q a b : Nat) : Nat := a % q * (b % q) % q

end Sys2Proof.Machine
end

