-- ==== Sys2Proof/Machine/Blocks.lean ====
section
/-!
DEFINITION. Block formats: the encoding of `vqnt`, the decoding of `vdeq` and of the matrix array, and the group sums of the
array (spec/08 R224, R225, R235 to R242).
-/

namespace Sys2Proof.Machine

/-- The element format of an MX block format. -/
def BlockFmt.elem : BlockFmt → Fmt
  | .mxfp8e4 => .e4m3
  | .mxfp8e5 => .e5m2
  | _ => .e2m1
/-- Bits of one element code. -/
def BlockFmt.codeBits : BlockFmt → Nat
  | .mxfp8e4 | .mxfp8e5 => 8
  | _ => 4
/-- Element bytes of a block (R225). -/
def BlockFmt.bytes (f : BlockFmt) : Nat := 4 * BlockFmt.codeBits f

/-- |x| as a value to compare. -/
def Dy.abs (x : Dy) : Dy := { x with neg := false }

/-- The code of an infinity (R237). -/
def infCode (f : BlockFmt) (neg : Bool) : Nat :=
  match f with
  | .q4x => if neg then 0b1001 else 0b0111
  | _ => (BlockFmt.elem f).withSign neg (if f = .mxfp8e5 then 0x7B else (BlockFmt.elem f).maxMag)

/-- The exponents of the largest binade of an element format (R236). -/
def elemMax (f : BlockFmt) : Int :=
  match f with
  | .mxfp8e4 => 8
  | .mxfp8e5 => 15
  | _ => 2

def clampI (lo hi n : Int) : Int := max lo (min hi n)

/-- An encoded block: element codes in order, the scale byte, the flags. -/
structure Block where
  codes : List Nat
  scale : Nat
  flags : Flags
  deriving DecidableEq, Repr

/-- The finite numbers among the elements, with their positions. -/
def finites (xs : List Val) : List (Nat × Dy) :=
  xs.zipIdx.filterMap fun p => match p.1 with
    | .fin x => some (p.2, x)
    | _ => none

/-- The element of greatest magnitude, the lowest position on ties. -/
def largest : List (Nat × Dy) → Option (Nat × Dy)
  | [] => none
  | p :: ps => match largest ps with
    | some q => if 0 < q.2.abs.diff p.2.abs then some q else some p
    | none => some p

/-- ⌊log2 |x|⌋ of a number other than zero. -/
def floorLog (x : Dy) : Int := x.e + Nat.log2 x.m

/-- One finite element of an MX block: its code and flags (R236). -/
def mxCode (f : BlockFmt) (byte : Int) (x : Dy) : Nat × Flags :=
  let (c, fl) := roundDy (BlockFmt.elem f) ⟨0, true, false⟩ { x with e := x.e - (byte - 127) }
  (c, fl &&& (.nx ||| .st))

/-- The smallest integer x with m ≤ 7 × 2^x, for a number m other than zero (R236). -/
def q4xExp (m : Dy) : Int :=
  let k := floorLog m - 2
  if 0 < m.abs.diff ⟨false, 7, k, false⟩ then k + 1 else k

/-- A regular Q4X code and its flags: nearest-even, saturated to ±7 (R236 step 4). -/
def q4xRegular (x : Int) (v : Dy) : Nat × Flags :=
  let (n, inexact) := Dy.toInt { v with e := v.e - x } 0
  let c := clampI (-7) 7 n
  (lowBits 4 c, (if inexact || c ≠ n then .nx else 0) ||| (if c ≠ n then .st else 0))

/-- The outlier's exponent e and flags for the magnitude a: nearest of 8 to 1,024, ties to the larger (R236 step 5). -/
def q4xOutlier (a : Dy) : Nat × Flags :=
  let f := floorLog a
  let up := 0 ≤ a.diff ⟨false, 3, f - 1, false⟩
  let n := clampI 3 10 (if up then f + 1 else f)
  let past := 0 < a.diff ⟨false, 1024, 0, false⟩
  ((n - 3).toNat, (if a.diff ⟨false, 1, n, false⟩ = 0 then 0 else .nx) ||| (if past then .st else 0))

/-- Case 3 of R235 for Q4X (R236). -/
def q4xBlock (xs : List Val) : Block :=
  let fin := finites xs
  let big := (largest fin).getD (0, Dy.zero false)
  let second := (largest (fin.filter (fun p => p.1 ≠ big.1))).getD (0, Dy.zero false)
  let m := if second.2.isZero then big.2 else second.2
  let x := clampI (-127) 127 (q4xExp m)
  let a : Dy := { big.2.abs with e := big.2.e - x }
  let isBig : Bool := 8 ≤ (Dy.toInt a 0).1
  let (e, ofl) := q4xOutlier a
  let barred : Bool := big.1 % 2 = 1 && big.2.neg && e = 0
  let outlier := isBig && !barred
  let partner := if big.1 % 2 = 0 then big.1 + 1 else big.1 - 1
  let payload := (if big.2.neg then 8 else 0) + e
  let one := fun (p : Val × Nat) =>
    if outlier && p.2 = big.1 then (0b1000, ofl)
    else if outlier && p.2 = partner then
      (payload, match p.1 with
        | .fin v => if v.isZero then 0 else .nx
        | _ => .nx)
    else match p.1 with
      | .fin v => q4xRegular x v
      | .inf n => (infCode .q4x n, .qn)
      | .nan _ => (0, 0)
  let r := xs.zipIdx.map one
  ⟨r.map (·.1), (x + 127).toNat, r.foldl (fun f p => f ||| p.2) 0⟩

/-- Case 3 of R235 for the MX formats (R236). -/
def mxBlock (f : BlockFmt) (xs : List Val) : Block :=
  let big := (largest (finites xs)).getD (0, Dy.zero false)
  let byte := clampI 0 254 (floorLog big.2 - elemMax f + 127)
  let one := fun v => match v with
    | .fin v => mxCode f byte v
    | .inf n => (infCode f n, .qn)
    | .nan _ => (0, 0)
  let r := xs.map one
  ⟨r.map (·.1), byte.toNat, r.foldl (fun f p => f ||| p.2) 0⟩

/-- The encoding of one block of 32 elements (R235). -/
def encodeBlock (f : BlockFmt) (xs : List Val) : Block :=
  let anyInf := xs.any fun v => match v with
    | .inf _ => true
    | _ => false
  let qn : Flags := if anyInf then .qn else 0
  if xs.any Val.isNan then ⟨xs.map fun _ => 0, 0xFF, .qn ||| (if xs.any Val.isSnan then .nv else 0)⟩
  else if (finites xs).all (fun p => p.2.isZero) then
    ⟨xs.map fun v => match v with
      | .inf n => infCode f n
      | _ => 0, 0, qn⟩
  else
    let b := if f = .q4x then q4xBlock xs else mxBlock f xs
    { b with flags := b.flags ||| qn }

/-- The 32-bit word of codes from position `i` of a block image (R324). -/
def packCodes (w : Nat) : List Nat → Nat
  | [] => 0
  | c :: cs => c + 2 ^ w * packCodes w cs

/-- A number scaled by an E8M0 byte (R224). -/
def scaled (scale : Nat) : Val → Val
  | .fin x => if scale = 0xFF then .nan false else .fin { x with e := if x.m = 0 then 0 else x.e + (scale : Int) - 127 }
  | v => if scale = 0xFF then .nan false else v

/-- A code as a small two's complement number. -/
def signed4 (c : Nat) : Int := if 8 ≤ c then (c : Int) - 16 else c

/-- The outlier value of a payload (R238). -/
def payloadVal (c : Nat) : Dy := ⟨8 ≤ c, 1, (c % 8 + 3 : Nat), false⟩

/-- The value of element k of a Q4X pair with codes e and o (R238). -/
def q4xVal (e o : Nat) (odd : Bool) : Dy :=
  if e = 0b1000 then (if odd then Dy.zero false else payloadVal o)
  else if o = 0b1000 then (if odd then payloadVal e else Dy.zero false)
  else Dy.ofInt (signed4 (if odd then o else e))

/-- The value of element k of a block with the given code of each position (R225, R238); under FTZ a subnormal E4M3 or E5M2 element is
read as a zero of its sign (R227). -/
def blockVal (f : BlockFmt) (ftz : Bool) (scale : Nat) (code : Nat → Nat) (k : Nat) : Val :=
  match f with
  | .q4x => scaled scale (.fin (q4xVal (code (k / 2 * 2)) (code (k / 2 * 2 + 1)) (k % 2 = 1)))
  | .mxfp4 => scaled scale (unpack (BlockFmt.elem f) (code k))
  | .mxfp8e4 | .mxfp8e5 => scaled scale (unpackIn (BlockFmt.elem f) ftz (code k))

/-- One product of a group: an exact number, an infinity, or NaN (R241). -/
def prodVal (a w : Val) : Val := if a.isNan || w.isNan then .nan false else (mulVal a w).1

/-- The exact sum of two products or partial sums; opposite infinities give NaN (R241). -/
def accVal (a b : Val) : Val := if a.isNan || b.isNan then .nan false else (addVal 0 a b).1

/-- The sum of one group: −0 when every product is −0, +0 for any other exact zero (R241). -/
def groupSum : List Val → Val
  | [] => .fin (Dy.zero false)
  | [p] => p
  | p :: ps => accVal p (groupSum ps)

/-- One group added to an accumulator of format f, twice rounded to nearest-even (R241). -/
def accumulate (f : Fmt) (acc : Nat) (products : List Val) : Nat :=
  let s := (round f .plain (groupSum products)).1
  (floatOp f .plain .add acc s 0).1

end Sys2Proof.Machine
end

