-- ==== Sys2Proof/Machine/Fun.lean ====
section
/-!
DEFINITION. The functions of R230 (spec/08): each is enclosed between two fixed-point numbers of 640 fraction bits, and the
result is the Round of the enclosure. The last resort, ends that round apart, is log entry 7.
-/

namespace Sys2Proof.Machine

namespace Fun

/-- Fraction bits of the fixed-point numbers. -/
def P : Nat := 640
/-- ⌊ln 2 × 2^640⌋. -/
def ln2 : Nat := 0xb17217f7d1cf79abc9e3b39803f2f6af40f343267298b62d8a0d175b8baafa2be7b876206debac98559552fb4afa1b10ed2eae35c138214427573b291169b8253e96ca16224ae8c51acbda11317c387e
/-- ⌊π ÷ 2 × 2^840⌋. -/
def halfPi : Nat := 0x1921fb54442d18469898cc51701b839a252049c1114cf98e804177d4c76273644a29410f31c6809bbdf2a33679a748636605614dbe4be286e9fc26adadaa3848bc90b6aecc4bcfd8de89885d34c6fdad617feb96de80d6fdbdc70d7f6b5133f4b5d3e4822f8963fcc92

def one : Int := (2 ^ P : Nat)
/-- The product of two fixed-point numbers. -/
def mulP (a b : Int) : Int := a * b / one

/-- Σ t^k ÷ k! from the term of index k on. -/
def expSum : Nat → Int → Int → Int → Int
  | 0, _, _, _ => 0
  | n + 1, k, term, t => term + expSum n (k + 1) (mulP term t / (k + 1)) t
/-- e^t for |t| < 1. -/
def expP (t : Int) : Int := expSum 140 0 one t

/-- Σ z^(2j+1) ÷ (2j+1), the area tangent. -/
def atanhSum : Nat → Int → Int → Int → Int
  | 0, _, _, _ => 0
  | n + 1, k, zk, z2 => zk / k + atanhSum n (k + 2) (mulP zk z2) z2

/-- The alternating series of sine (k = 1, term = r) and cosine (k = 0, term = 1). -/
def trigSum : Nat → Int → Int → Int → Int
  | 0, _, _, _ => 0
  | n + 1, k, term, r2 => term - trigSum n (k + 2) (mulP term r2 / ((k + 1) * (k + 2))) r2

def squares : Nat → Int → Int
  | 0, x => x
  | n + 1, x => squares n (mulP x x)

/-- A fixed-point number as an inexact magnitude. -/
def approx (n : Int) (e : Int) : Dy := ⟨n < 0, n.natAbs, e, true⟩

/-- The value between n − err and n + err at exponent e, rounded. -/
def enclose (f : Fmt) (r : RMode) (n err e : Int) : Nat × Flags :=
  let lo := roundDy f r (approx (n - err) e)
  let hi := roundDy f r (approx (n + err) e)
  if lo = hi then hi else lo

/-- 2^x for a number x. -/
def exp2 (f : Fmt) (r : RMode) (x : Dy) : Nat × Flags :=
  let X := x.num (-(P : Int))
  let n := X / one
  let frac := X % one
  if frac = 0 && n.natAbs < 2000 then roundDy f r ⟨false, 1, n, false⟩
  else if 1000 ≤ n then roundDy f r ⟨false, 1, 1000, true⟩
  else if n ≤ -1000 then roundDy f r ⟨false, 1, -1000, true⟩
  else enclose f r (expP (mulP frac ln2)) (2 ^ 16 : Nat) (n - P)

/-- log2 x for a positive number x. -/
def log2 (f : Fmt) (r : RMode) (x : Dy) : Nat × Flags :=
  let k := Nat.log2 x.m
  let ex : Int := x.e + k
  if x.m = 2 ^ k then roundDy f r (Dy.ofInt ex)
  else
    let y : Int := shl x.m ((P : Int) - k)
    let z := (y - one) * one / (y + one)
    let l := 2 * atanhSum 220 1 z (mulP z z) * one / ln2
    enclose f r (ex * one + l) (2 ^ 16 : Nat) (-P)

/-- The quadrant of |x| and its distance above a multiple of π ÷ 2. -/
def reduce (x : Dy) : Nat × Int :=
  let X := shl x.m (x.e + 840)
  (X / halfPi, ((X % halfPi) / 2 ^ 200 : Nat))

def sinP (t : Int) : Int := trigSum 80 1 t (mulP t t)
def cosP (t : Int) : Int := trigSum 80 0 one (mulP t t)

/-- sin x for a number x other than zero. -/
def sin (f : Fmt) (r : RMode) (x : Dy) : Nat × Flags :=
  let (q, t) := reduce x
  let v := if q % 2 = 0 then sinP t else cosP t
  let v := if (q / 2 % 2 = 1) != x.neg then -v else v
  enclose f r v (2 ^ 16 : Nat) (-P)

/-- cos x for a number x other than zero. -/
def cos (f : Fmt) (r : RMode) (x : Dy) : Nat × Flags :=
  let (q, t) := reduce x
  let v := if q % 2 = 0 then cosP t else sinP t
  let v := if (q + 1) / 2 % 2 = 1 then -v else v
  enclose f r v (2 ^ 16 : Nat) (-P)

/-- tanh x for a number x other than zero. -/
def tanh (f : Fmt) (r : RMode) (x : Dy) : Nat × Flags :=
  let a := shl x.m (x.e + P)
  if (128 * 2 ^ P : Nat) ≤ a then roundDy f r ⟨x.neg, 2 ^ 200 - 1, -200, true⟩
  else
    let u := squares 16 (expP (-((2 * a / 2 ^ 16 : Nat) : Int)))
    let v := (one - u) * one / (one + u)
    enclose f r (if x.neg then -v else v) (2 ^ 40 : Nat) (-P)

end Fun

/-- The functions of R230. -/
inductive TOp where
  | exp2 | log2 | sin | cos | tanh
  deriving DecidableEq, Repr

/-- One function of R230 on one element, its special inputs first. -/
def transOp (f : Fmt) (r : RMode) (op : TOp) (a : Nat) : Nat × Flags :=
  match op, unpackIn f r.ftz a with
  | _, .nan s => (f.nan, if s then .nv else 0)
  | .exp2, .inf n => if n then (0, 0) else finish f r (.inf false, 0)
  | .log2, .inf n => if n then finish f r Raw.invalid else finish f r (.inf false, 0)
  | .sin, .inf _ => finish f r Raw.invalid
  | .cos, .inf _ => finish f r Raw.invalid
  | .tanh, .inf n => roundDy f r (Dy.ofInt (if n then -1 else 1))
  | .exp2, .fin x => if x.isZero then roundDy f r (Dy.ofInt 1) else Fun.exp2 f r x
  | .log2, .fin x =>
    if x.isZero then finish f r (.inf true, .dz) else if x.neg then finish f r Raw.invalid else Fun.log2 f r x
  | .sin, .fin x => if x.isZero then roundDy f r x else Fun.sin f r x
  | .cos, .fin x => if x.isZero then roundDy f r (Dy.ofInt 1) else Fun.cos f r x
  | .tanh, .fin x => if x.isZero then roundDy f r x else Fun.tanh f r x

end Sys2Proof.Machine
end

