-- ==== Sys2Proof/Machine/Flags.lean ====
section
/-!
DEFINITION. The MODE register: its fields, its sticky flags and the writes of `mode`, `modes` and `clrflg` (spec/09 R250, R251;
spec/08 R228; spec/11 R299 to R302).
-/

namespace Sys2Proof.Machine

/-- MODE at a warp's start (R250). -/
def modeReset : Word := 0x00000744

/-- The fields of MODE (R250). -/
def modeT (m : Word) : Nat := m.toNat % 16
def modeCT (m : Word) : Nat := m.toNat / 2 ^ 4 % 16
def modeG (m : Word) : Nat := m.toNat / 2 ^ 8 % 8
def modeGN (m : Word) : Bool := m.toNat / 2 ^ 11 % 2 = 1
def modeRM (m : Word) : RMode := ⟨m.toNat / 2 ^ 12 % 4, m.toNat / 2 ^ 14 % 2 = 1, m.toNat / 2 ^ 15 % 2 = 1⟩
/-- The flags, bits [30:24] (R228). -/
def modeFlags (m : Word) : Flags := BitVec.ofNat 7 (m.toNat / 2 ^ 24)

/-- The flags moved to their place in MODE. -/
def flagWord (f : Flags) : Word := (f.setWidth 32) <<< 24

/-- Flags ORed into MODE (R228). -/
def orFlags (m : Word) (f : Flags) : Word := m ||| flagWord f
/-- Flags cleared in MODE. -/
def clearFlags (m : Word) (f : Flags) : Word := m &&& ~~~(flagWord f)
/-- MODE[15:0] written, the rest kept (R299). -/
def writeMode (m : Word) (v : BitVec 16) : Word := (m &&& 0xFFFF0000) ||| v.setWidth 32
/-- All of MODE written: bits [23:16] and 31 of the source are ignored (R250, R300). -/
def writeModeAll (v : Word) : Word := v &&& 0x7F00FFFF

end Sys2Proof.Machine
end

