-- ==== Sys2Proof/Machine/Warp.lean ====
section
/-!
DEFINITION. The state of one warp: registers, MODE and the special registers it keeps, its two slots, its spill pointer and its
trap frame (spec/07 R191 to R193; spec/09 R255; spec/16 R391, R397), with the one operation that reads or writes each.
-/

namespace Sys2Proof.Machine

/-- The two program-counter slots of a warp (R191). -/
inductive Side where
  | home | away
  deriving DecidableEq, Repr

def Side.other : Side → Side
  | .home => .away
  | .away => .home

/-- What keeps a slot from issuing, beside the scoreboard, lookahead, joins and collective waits, which are derived. The number
is that of the request waited for. -/
inductive Hold where
  /-- Nothing. -/
  | none
  /-- An instruction fetch that missed the core's TLB and is not answered, or is parked (R143). -/
  | fetch (id : Nat)
  /-- A refill read of the spill stack that is outstanding (R288). -/
  | refill (id : Nat)
  /-- A `cwait` (R346). -/
  | cwait (id : Nat)
  /-- A `nap` until the core cycle given (R388). -/
  | nap (till : Nat)
  /-- An `svc` or `post` that is not accepted or published (R379, R386). -/
  | post (id : Nat)
  /-- A copy that the engine has not accepted (R347). -/
  | copy (id : Nat)
  /-- An `exit` that waits for the slot's requests and results (R289). -/
  | exit
  deriving DecidableEq, Repr

/-- One slot: program counter, lane mask, join PC (R191); empty when the mask is zero. -/
structure Slot where
  pc : DWord
  mask : Word
  join : Option DWord
  hold : Hold
  deriving DecidableEq, Repr

def Slot.empty : Slot := ⟨0, 0, none, .none⟩
/-- A live slot has a lane (R191). -/
def Slot.live (s : Slot) : Bool := s.mask ≠ 0
/-- A slot waits at its join when its next PC is its join PC (R286). -/
def Slot.waiting (s : Slot) : Bool := s.live && s.join = some s.pc && (match s.hold with
  | .none | .fetch _ => true
  | _ => false)

/-- What trap entry keeps across a handler (R391, R397). -/
structure Frame where
  home : Slot
  away : Slot
  depth : Nat
  trapped : Side
  deriving DecidableEq, Repr

/-- An entry of the spill stack (R193, R288): bit 0 of `pc` marks a path waiting at its join. -/
structure SpillEntry where
  pc : DWord
  mask : Word
  joinOff : Word
  deriving DecidableEq, Repr

/-- A warp. `v` is keyed 32 × register + lane, `s` by register, `p` by predicate number, a lane a bit. -/
structure Warp where
  /-- The workgroup the warp belongs to. -/
  wg : Nat
  /-- Warp number in the workgroup. -/
  number : Nat
  home : Slot
  away : Slot
  /-- The spill pointer d (R288). -/
  depth : Nat
  v : Map Word
  s : Map Word
  p : Map Word
  mode : Word
  /-- CSTAT (R115). -/
  cstat : Nat
  trapPc : DWord
  trapCode : Word
  trapInfo : Word
  modq : DWord
  clkhi : Word
  /-- The frame of the trap whose handler the warp runs; InHandler is its presence (R391, R397). -/
  frame : Option Frame
  /-- The top entry of the spill stack as a read for join resolution returned it, and the read when it is outstanding (R288). -/
  top : Option SpillEntry
  topReq : Option Nat
  /-- The situation for which join resolution was last applied, 0 for none (R287). -/
  resolved : Nat
  /-- Whether the stage table has been read for this warp's entry PC (R195). -/
  entered : Bool
  /-- The park token of a restored warp, for which its requests wait (R157, R159); 0 for none. -/
  token : Nat
  deriving DecidableEq, Repr

namespace Warp

/-- A warp at its start (R192). -/
def start (wg number : Nat) (entry : DWord) (entered : Bool) : Warp :=
  { wg, number, home := ⟨entry, 0xFFFFFFFF, none, .none⟩, away := Slot.empty, depth := 0, v := [], s := [], p := [], mode := modeReset,
    cstat := 0, trapPc := 0, trapCode := 0, trapInfo := 0, modq := 0, clkhi := 0, frame := none, top := none,
    topReq := none, resolved := 0, entered, token := 0 }

def slot (w : Warp) : Side → Slot
  | .home => w.home
  | .away => w.away

def setSlot (w : Warp) (sd : Side) (x : Slot) : Warp :=
  match sd with
  | .home => { w with home := x }
  | .away => { w with away := x }

/-- V[r] of a lane (R191). -/
def vreg (w : Warp) (r l : Nat) : Word := w.v.get 0 (32 * r + l)
def setV (w : Warp) (r l : Nat) (x : Word) : Warp := { w with v := w.v.put 0 (32 * r + l) x }

/-- S[r]; S0 reads 0 and discards writes (R247). -/
def sreg (w : Warp) (r : Nat) : Word := if r = 0 then 0 else w.s.get 0 r
def setS (w : Warp) (r : Nat) (x : Word) : Warp := if r = 0 then w else { w with s := w.s.put 0 r x }

/-- P[p] of every lane; P7 reads true and discards writes (R247). -/
def preg (w : Warp) (p : PReg) : Word := if p = 7 then 0xFFFFFFFF else w.p.get 0 p.toNat
def setP (w : Warp) (p : PReg) (x : Word) : Warp := if p = 7 then w else { w with p := w.p.put 0 p.toNat x }

/-- The 64-bit value of an S pair (R248). -/
def spair (w : Warp) (r : Nat) : DWord := DWord.ofPair (w.sreg r) (w.sreg (r + 1))
def setSPair (w : Warp) (r : Nat) (x : DWord) : Warp := (w.setS r x.lo).setS (r + 1) x.hi
/-- The 64-bit value of a V pair of a lane (R248). -/
def vpair (w : Warp) (r l : Nat) : DWord := DWord.ofPair (w.vreg r l) (w.vreg (r + 1) l)
def setVPair (w : Warp) (r l : Nat) (x : DWord) : Warp := (w.setV r l x.lo).setV (r + 1) l x.hi

/-- The spill entries below this depth are not active: the handler's depth inside a handler (R391). -/
def baseDepth (w : Warp) : Nat :=
  match w.frame with
  | some f => f.depth
  | none => 0

/-- InHandler (R391). -/
def inHandler (w : Warp) : Bool := w.frame.isSome

end Warp

/-- Bit l of a lane mask. -/
def lane (m : Word) (l : Nat) : Bool := m.getLsbD l
/-- The lanes of a mask in rising order. -/
def lanes (m : Word) : List Nat := (List.range 32).filter (fun l => m.getLsbD l)
/-- The mask of the lanes that satisfy a test. -/
def maskOf (f : Nat → Bool) : Word := BitVec.ofNat 32 ((List.range 32).foldr (fun l n => (if f l then 1 else 0) + 2 * n) 0)

/-- The trap codes of R390. -/
inductive TrapCode where
  | illegal | illtype | fmtdiv | colldiv | pairing | align | spillovf | scrbound | bkpt | trap
  deriving DecidableEq, Repr

def TrapCode.code : TrapCode → Nat
  | .illegal => 0x01 | .illtype => 0x02 | .fmtdiv => 0x03 | .colldiv => 0x04 | .pairing => 0x05 | .align => 0x06
  | .spillovf => 0x07 | .scrbound => 0x08 | .bkpt => 0x09 | .trap => 0x0A

/-- A precise trap: its code and the TRAPINFO it leaves (R390). -/
structure Trap where
  code : TrapCode
  info : Word
  deriving DecidableEq, Repr

end Sys2Proof.Machine
end

