-- ==== Sys2Proof/Machine/Operands.lean ====
section
/-!
DEFINITION. Operand forms of the vector and predicate instructions: participation, pairs, S operands, packed elements, and the
checks 2 and 3 of R266 (spec/09 R248 to R254, R266; spec/12 R303 to R305; spec/08 R232).
-/

namespace Sys2Proof.Machine

/-- What the checks of an instruction read beside its warp: registers per warp of the job card, the lanes of the issuing
slot, and the instruction word. -/
structure LCtx where
  regs : Nat
  mask : Word
  word : Word
  deriving DecidableEq, Repr

/-- The effect of an instruction that acts on its warp alone: a trap, or the warp after it. -/
abbrev Local := LCtx → Warp → Except Trap Warp

/-- The guard of every lane (R253). -/
def guardMask (w : Warp) : Word :=
  if modeG w.mode = 7 then 0xFFFFFFFF
  else if modeGN w.mode then ~~~(w.preg (BitVec.ofNat 3 (modeG w.mode))) else w.preg (BitVec.ofNat 3 (modeG w.mode))

/-- Lanes that participate: active in the issuing slot, with their guard passing (R303). -/
def partMask (w : Warp) (mask : Word) : Word := mask &&& guardMask w

def illegal (c : LCtx) : Except Trap Warp := .error ⟨.illegal, c.word⟩
def illtype (w : Warp) : Trap := ⟨.illtype, w.mode⟩

/-- MODE.T when the instruction accepts it (R251, R254). -/
def needType (w : Warp) (ok : Ty → Bool) : Except Trap Ty :=
  match Ty.ofCode (modeT w.mode) with
  | some t => if ok t then .ok t else .error (illtype w)
  | none => .error (illtype w)

/-- Any of the codes 0 to 14, for the raw-bit instructions (R305). -/
def anyTy (_ : Ty) : Bool := true
def numTy (t : Ty) : Bool := t.isInt || t.isFloat

/-- A V operand is even when it is a pair, and lies within the allocation (R248, R249). -/
def vOk (c : LCtx) (pair : Bool) (r : Reg) : Bool :=
  if pair then r.toNat % 2 = 0 && r.toNat + 1 < c.regs else r.toNat < c.regs

/-- A b operand under the same rules; an S pair is even (R304). -/
def srcOk (c : LCtx) (pair : Bool) : SrcB → Bool
  | .v r => vOk c pair r
  | .s r => !pair || r.toNat % 2 = 0

/-- A V register or pair of a lane, as a number. -/
def rdV (w : Warp) (pair : Bool) (r : Reg) (l : Nat) : Nat :=
  if pair then (w.vpair r.toNat l).toNat else (w.vreg r.toNat l).toNat
def wrV (w : Warp) (pair : Bool) (r : Reg) (l n : Nat) : Warp :=
  if pair then w.setVPair r.toNat l (BitVec.ofNat 64 n) else w.setV r.toNat l (BitVec.ofNat 32 n)

/-- A b operand of a lane: an S register is read by every lane (R247). -/
def rdB (w : Warp) (pair : Bool) (b : SrcB) (l : Nat) : Nat :=
  match b with
  | .v r => rdV w pair r l
  | .s r => if pair then (w.spair r.toNat).toNat else (w.sreg r.toNat).toNat

/-- Lane results written in rising lane order. -/
def wrLanes (w : Warp) (pair : Bool) (r : Reg) (res : List (Nat × Nat)) : Warp :=
  res.foldl (fun w p => wrV w pair r p.1 p.2) w

/-- Flags ORed into the warp's MODE (R228). -/
def Warp.raise (w : Warp) (f : Flags) : Warp := { w with mode := orFlags w.mode f }

/-- An operation on each of n packed elements of a given width (R232), with the flags of all. -/
def mapElems (bits : Nat) (f : Nat → Nat → Nat → Nat × Flags) : Nat → Nat → Nat → Nat → Nat × Flags
  | 0, _, _, _ => (0, 0)
  | n + 1, x, y, z =>
    let b := 2 ^ bits
    let (r, fl) := f (x % b) (y % b) (z % b)
    let (rest, fs) := mapElems bits f n (x / b) (y / b) (z / b)
    (r % b + b * rest, fl ||| fs)

/-- A result of each lane with its flags, written to d. -/
def writeResults (w : Warp) (pair : Bool) (d : Reg) (res : List (Nat × Nat × Flags)) : Warp :=
  (wrLanes w pair d (res.map fun p => (p.1, p.2.1))).raise (res.foldl (fun f p => f ||| p.2.2) 0)

/-- The shape of the elementwise vector instructions (R307): d, a and b under the type, an operation on each element. -/
def vecOp (ok : Ty → Bool) (f : Ty → RMode → Nat → Nat → Nat → Nat × Flags) (d a : Reg) (b : SrcB) : Local := fun c w =>
  match needType w ok with
  | .error e => .error e
  | .ok t =>
    if vOk c t.pair d && vOk c t.pair a && srcOk c t.pair b then
      .ok (writeResults w t.pair d ((lanes (partMask w c.mask)).map fun l =>
        (l, mapElems t.bits (f t (modeRM w.mode)) t.elems (rdV w t.pair a l) (rdB w t.pair b l) (rdV w t.pair d l))))
    else illegal c

/-- The shape of the unary group (R311). -/
def vecUn (ok : Ty → Bool) (f : Ty → RMode → Nat → Nat × Flags) (d a : Reg) : Local := fun c w =>
  match needType w ok with
  | .error e => .error e
  | .ok t =>
    if vOk c t.pair d && vOk c t.pair a then
      .ok (writeResults w t.pair d ((lanes (partMask w c.mask)).map fun l =>
        (l, mapElems t.bits (fun x _ _ => f t (modeRM w.mode) x) t.elems (rdV w t.pair a l) 0 0)))
    else illegal c

/-- A floating operation, or an integer one, by the type (R307). -/
def arith (fo : FOp) (io : IOp) (t : Ty) (r : RMode) (x y z : Nat) : Nat × Flags :=
  match t.fmt? with
  | some f => floatOp f r fo x y z
  | none => intOp t r.sat io x y z
def arithUn (fo : FOp) (io : IOp) (t : Ty) (r : RMode) (x : Nat) : Nat × Flags := arith fo io t r x 0 0
/-- A floating function of one element. -/
def floatUn (fo : FOp) (t : Ty) (r : RMode) (x : Nat) : Nat × Flags :=
  match t.fmt? with
  | some f => floatOp f r fo x 0 0
  | none => (0, 0)
def transUn (o : TOp) (t : Ty) (r : RMode) (x : Nat) : Nat × Flags :=
  match t.fmt? with
  | some f => transOp f r o x
  | none => (0, 0)
/-- An integer operation that only the integer types reach. -/
def intBin (io : IOp) (t : Ty) (r : RMode) (x y z : Nat) : Nat × Flags := intOp t r.sat io x y z
def intUn (io : IOp) (t : Ty) (r : RMode) (x : Nat) : Nat × Flags := intOp t r.sat io x 0 0

/-- The widening multiply (R308). -/
def mulWide (t : Ty) (x y : Nat) : Nat :=
  let n := if t.bits = 8 then 2 else 1
  let go := fun k => lowBits (2 * t.bits) (intVal t (x / 2 ^ (t.bits * k) % 2 ^ t.bits) * intVal t (y / 2 ^ (t.bits * k) % 2 ^ t.bits))
  if n = 2 then go 0 + 2 ^ (2 * t.bits) * go 1 else go 0

def vecMulw (d a : Reg) (b : SrcB) : Local := fun c w =>
  match needType w (fun t => t.isInt && t.bits ≤ 32) with
  | .error e => .error e
  | .ok t =>
    let wide := t.bits = 32
    if vOk c wide d && vOk c false a && srcOk c false b then
      .ok (wrLanes w wide d ((lanes (partMask w c.mask)).map fun l => (l, mulWide t (rdV w false a l) (rdB w false b l))))
    else illegal c

/-- The compare of one lane: true when it holds for every element (R316). -/
def cmpLane (t : Ty) (ftz : Bool) (cond : Cond) : Nat → Nat → Nat → Bool × Flags
  | 0, _, _ => (true, 0)
  | n + 1, x, y =>
    let b := 2 ^ t.bits
    let (r, fl) := match t.fmt? with
      | some f => floatCmp f ftz cond (x % b) (y % b)
      | none => (intCmp t cond (x % b) (y % b), 0)
    let (rest, fs) := cmpLane t ftz cond n (x / b) (y / b)
    (r && rest, fl ||| fs)

def combine (m : Combine) (old new : Bool) : Bool :=
  match m with
  | .set => new
  | .and => old && new
  | .or => old || new

/-- A predicate written in the lanes of a mask, the others kept. -/
def mergeP (old mask new : Word) : Word := (old &&& ~~~mask) ||| (new &&& mask)

def vecCmp (cond : Cond) (m : Combine) (p : PReg) (a : Reg) (b : SrcB) : Local := fun c w =>
  match needType w (fun t => t.isFloat || (t.isInt && cond ≠ .unord && cond ≠ .ord)) with
  | .error e => .error e
  | .ok t =>
    if vOk c t.pair a && srcOk c t.pair b then
      let pm := partMask w c.mask
      let res := (lanes pm).map fun l =>
        (l, cmpLane t (modeRM w.mode).ftz cond t.elems (rdV w t.pair a l) (rdB w t.pair b l))
      let new := res.foldl (fun (n : Word) q => if combine m ((w.preg p).getLsbD q.1) q.2.1 then n ||| (1 : Word) <<< q.1 else n) 0
      .ok ((w.setP p (mergeP (w.preg p) pm new)).raise (res.foldl (fun f q => f ||| q.2.2) 0))
    else illegal c

/-- `vsel`: every active lane takes a where its guard passes and b elsewhere (R317). -/
def vecSel (d a : Reg) (b : SrcB) : Local := fun c w =>
  match needType w anyTy with
  | .error e => .error e
  | .ok t =>
    if vOk c t.pair d && vOk c t.pair a && srcOk c t.pair b then
      .ok (wrLanes w t.pair d ((lanes c.mask).map fun l =>
        (l, if (guardMask w).getLsbD l then rdV w t.pair a l else rdB w t.pair b l)))
    else illegal c

/-- `vmov` (R310). -/
def vecMov (d : Reg) (a : SrcB) : Local := fun c w =>
  match needType w anyTy with
  | .error e => .error e
  | .ok t =>
    if vOk c t.pair d && srcOk c t.pair a then
      .ok (wrLanes w t.pair d ((lanes (partMask w c.mask)).map fun l => (l, rdB w t.pair a l)))
    else illegal c

/-- `vmovi`: the sign-extended immediate (R310). -/
def vecMovi (d : Reg) (imm : BitVec 17) : Local := fun c w =>
  match needType w anyTy with
  | .error e => .error e
  | .ok t =>
    if vOk c t.pair d then
      .ok (wrLanes w t.pair d ((lanes (partMask w c.mask)).map fun l => (l, (imm.signExtend 64).toNat)))
    else illegal c

/-- `vmovhi`: bits [31:16] of one register (R310). -/
def vecMovhi (d : Reg) (imm : BitVec 16) : Local := fun c w =>
  match needType w anyTy with
  | .error e => .error e
  | .ok t =>
    if vOk c t.pair d then
      .ok (wrLanes w false d ((lanes (partMask w c.mask)).map fun l =>
        (l, imm.toNat * 2 ^ 16 + (w.vreg d.toNat l).toNat % 2 ^ 16)))
    else illegal c

/-- `vaddi`: the exact sum with the signed immediate, fitted or rounded (R310). -/
def addImm (imm : Int) (t : Ty) (r : RMode) (x : Nat) : Nat × Flags :=
  match t.fmt? with
  | some f =>
    let v := unpackIn f r.ftz x
    finish f r (nanGuard [v] (addVal r.rm v (.fin (Dy.ofInt imm))))
  | none => fit t r.sat (intVal t x + imm)

/-- `vclass`: one register whatever T is (R314). -/
def vecClass (d a : Reg) : Local := fun c w =>
  match needType w Ty.isFloat with
  | .error e => .error e
  | .ok t =>
    if vOk c false d && vOk c t.pair a then
      .ok (wrLanes w false d ((lanes (partMask w c.mask)).map fun l =>
        (l, (mapElems t.bits (fun x _ _ => ((match t.fmt? with
          | some f => classMask f x
          | none => 0), 0)) t.elems (rdV w t.pair a l) 0 0).1)))
    else illegal c

/-- The low elements of a converted into d, the rest of d zero (R315). -/
def cvtLane (t ct : Ty) (r : RMode) (q : Nat) : Nat → Nat → Nat × Flags
  | 0, _ => (0, 0)
  | n + 1, x =>
    let (y, fl) := convert t ct r q (x % 2 ^ t.bits)
    let (rest, fs) := cvtLane t ct r q n (x / 2 ^ t.bits)
    (y % 2 ^ ct.bits + 2 ^ ct.bits * rest, fl ||| fs)

/-- The trap of an instruction that computes modulo an invalid q (R233). -/
def badQ (w : Warp) : Trap := ⟨.illtype, w.modq.lo⟩

def vecCvt (d a : Reg) : Local := fun c w =>
  match needType w anyTy, Ty.ofCode (modeCT w.mode) with
  | .error e, _ => .error e
  | _, none => .error (illtype w)
  | .ok t, some ct =>
    if !cvtOk t ct then .error (illtype w)
    else if (t = .mod64 || ct = .mod64) && !qValid w.modq.toNat then .error (badQ w)
    else if vOk c ct.pair d && vOk c t.pair a then
      .ok (writeResults w ct.pair d ((lanes (partMask w c.mask)).map fun l =>
        (l, cvtLane t ct (modeRM w.mode) w.modq.toNat (Nat.min t.elems ct.elems) (rdV w t.pair a l))))
    else illegal c

/-- The source lane of a shuffle (R319). -/
inductive Shuffle where
  | idx | xor | up | dn
  deriving DecidableEq, Repr

def shuffleLane (s : Shuffle) (l c : Nat) : Int :=
  match s with
  | .idx => c
  | .xor => l ^^^ (c % 32)
  | .up => (l : Int) - c
  | .dn => (l : Int) + c

def vecShuffle (s : Shuffle) (d a : Reg) (b : SrcB) : Local := fun c w =>
  match needType w anyTy with
  | .error e => .error e
  | .ok t =>
    if vOk c t.pair d && vOk c t.pair a && srcOk c false b then
      let pm := partMask w c.mask
      .ok (wrLanes w t.pair d ((lanes pm).map fun l =>
        let j := shuffleLane s l (rdB w false b l)
        (l, rdV w t.pair a (if 0 ≤ j && j ≤ 31 && pm.getLsbD j.toNat then j.toNat else l))))
    else illegal c

/-- `vvote` (R320). -/
def vote (op : VoteOp) (neg : Bool) (d : Reg) (p : PReg) : Local := fun c w =>
  let pm := partMask w c.mask
  let m := pm &&& (if neg then ~~~(w.preg p) else w.preg p)
  let r : Word := match op with
    | .ballot => m
    | .any => if m ≠ 0 then 1 else 0
    | .all => if m = pm then 1 else 0
  .ok (w.setS d.toNat r)

/-- The butterfly of R240 over 32 lanes, each with a value when it is present; one pass at distance d. A lane combined with none is copied, a NaN
with its own bits (R222; log 103). -/
def butterflyPass (op : Nat → Nat → Nat × Flags) (d : Nat) (xs : List (Option Nat)) : List (Option Nat) × Flags :=
  let r := (List.range 32).map fun l =>
    match xs.getD l none, xs.getD (l ^^^ d) none with
    | some x, some y => let (z, fl) := op x y; (some z, fl)
    | some x, none => (some x, (0 : Flags))
    | none, some y => (some y, 0)
    | none, none => (none, 0)
  (r.map (·.1), r.foldl (fun f p => f ||| p.2) 0)

def butterfly (op : Nat → Nat → Nat × Flags) : List Nat → List (Option Nat) → Flags → Nat × Flags
  | [], xs, fl => ((xs.getD 0 none).getD 0, fl)
  | d :: ds, xs, fl =>
    let (ys, f) := butterflyPass op d xs
    butterfly op ds ys (fl ||| f)

/-- The operation of `vred` and `vscan` on one element position (R321). -/
def redOp (t : Ty) (r : RMode) (q : Nat) (o : RedOp) (x y : Nat) : Nat × Flags :=
  match o with
  | .add => if t = .mod64 then (modAdd q x y, 0) else arith .add .add t r x y 0
  | .min => arith .min .min t r x y 0
  | .max => arith .max .max t r x y 0
  | .and => (x &&& y, 0)
  | .or => (x ||| y, 0)
  | .xor => (x ^^^ y, 0)

/-- A reduction of the present lanes for every element position, packed again (R321); floating elements are read under FTZ, a lone one too (R227,
R305; log 103). -/
def reduceElems (t : Ty) (r : RMode) (q : Nat) (o : RedOp) (vals : List (Option Nat)) : Nat → Nat × Flags
  | 0 => (0, 0)
  | n + 1 =>
    let k := t.elems - (n + 1)
    let read := fun (x : Nat) => match t.fmt? with
      | some f => flushBits f r.ftz x
      | none => x
    let xs := vals.map fun v => v.map fun x => read (x / 2 ^ (t.bits * k) % 2 ^ t.bits)
    let (y, fl) := butterfly (redOp t r q o) [16, 8, 4, 2, 1] xs 0
    let y := if t = .mod64 then y % q else y
    let (rest, fs) := reduceElems t r q o vals n
    (y % 2 ^ t.bits * 2 ^ (t.bits * k) + rest, fl ||| fs)

def redTypeOk (o : RedOp) (t : Ty) : Bool :=
  match o with
  | .add => numTy t || t = .mod64
  | .min | .max => numTy t
  | _ => t.isInt

/-- `vred` (every lane over all participating lanes) and `vscan` (lane l over those no higher than l) (R321). -/
def vecReduce (scan : Bool) (o : RedOp) (d a : Reg) : Local := fun c w =>
  match needType w (redTypeOk o) with
  | .error e => .error e
  | .ok t =>
    if t = .mod64 && !qValid w.modq.toNat then .error (badQ w)
    else if vOk c t.pair d && vOk c t.pair a then
      let pm := partMask w c.mask
      let vals := fun top => (List.range 32).map fun l => if pm.getLsbD l && l ≤ top then some (rdV w t.pair a l) else none
      let red := fun top => reduceElems t (modeRM w.mode) w.modq.toNat o (vals top) t.elems
      if scan then .ok (writeResults w t.pair d ((lanes pm).map fun l => (l, red l)))
      else if pm = 0 then .ok w
      else
        let all := red 31
        .ok (writeResults w t.pair d ((lanes pm).map fun l => (l, all)))
    else illegal c

/-- The modular instructions: T is MOD64 and q valid, then the pairs within the allocation (R322, R233). -/
def needQ (w : Warp) : Except Trap Nat :=
  match needType w (fun t => t = .mod64) with
  | .error e => .error e
  | .ok _ => if qValid w.modq.toNat then .ok w.modq.toNat else .error (badQ w)

def vecMod (f : Nat → Nat → Nat → Nat) (d a : Reg) (b : SrcB) : Local := fun c w =>
  match needQ w with
  | .error e => .error e
  | .ok q =>
    if vOk c true d && vOk c true a && srcOk c true b then
      .ok (wrLanes w true d ((lanes (partMask w c.mask)).map fun l => (l, f q (rdV w true a l) (rdB w true b l))))
    else illegal c

/-- `vbfly`: V[d] first, V[a] last (R322). -/
def vecBfly (d a : Reg) (b : SrcB) : Local := fun c w =>
  match needQ w with
  | .error e => .error e
  | .ok q =>
    if vOk c true d && vOk c true a && srcOk c true b then
      let res := (lanes (partMask w c.mask)).map fun l =>
        let x := rdV w true d l % q
        let p := modMul q (rdV w true a l) (rdB w true b l)
        (l, modAdd q x p, modSub q x p)
      .ok (wrLanes (wrLanes w true d (res.map fun r => (r.1, r.2.1))) true a (res.map fun r => (r.1, r.2.2)))
    else illegal c

/-- The types of `vqnt` and `vdeq` (R254). -/
def quantTy (t : Ty) : Bool := t = .f16 || t = .bf16 || t = .f32

/-- Word j of the register image of a block (R324). -/
def imageWord (f : BlockFmt) (b : Block) (j : Nat) : Nat :=
  let per := 32 / BlockFmt.codeBits f
  if j < BlockFmt.bytes f / 4 then packCodes (BlockFmt.codeBits f) ((b.codes.drop (per * j)).take per)
  else if j = BlockFmt.bytes f / 4 then b.scale
  else 0

def vecQnt (f : BlockFmt) (d a : Reg) : Local := fun c w =>
  match needType w quantTy with
  | .error e => .error e
  | .ok t =>
    if vOk c false d && vOk c false a then
      let pm := partMask w c.mask
      let fm := t.fmt?.getD .f32
      let xs := (List.range 32).map fun l =>
        if pm.getLsbD l then unpackIn fm (modeRM w.mode).ftz ((w.vreg a.toNat l).toNat % 2 ^ t.bits) else .fin (Dy.zero false)
      let b := encodeBlock f xs
      if pm = 0 then .ok w
      else .ok ((wrLanes w false d ((lanes pm).map fun l => (l, imageWord f b l))).raise b.flags)
    else illegal c

/-- Code k of the image in V[a], lanes 0 upward (R324, R326). -/
def imageCode (f : BlockFmt) (w : Warp) (a : Reg) (k : Nat) : Nat :=
  let per := 32 / BlockFmt.codeBits f
  (w.vreg a.toNat (k / per)).toNat / 2 ^ (BlockFmt.codeBits f * (k % per)) % 2 ^ BlockFmt.codeBits f

/-- Element k of a block as `vdeq` writes it in a format: a conversion, in which a signalling NaN sets NV; under scale 0xFF no element is read
(R222, R239; log 103). -/
def deqElem (f : BlockFmt) (g : Fmt) (r : RMode) (scale : Nat) (code : Nat → Nat) (k : Nat) : Nat × Flags :=
  let v := blockVal f r.ftz scale code k
  finish g r (nanGuard [v] (v, 0))

def vecDeq (f : BlockFmt) (d a : Reg) : Local := fun c w =>
  match needType w quantTy with
  | .error e => .error e
  | .ok t =>
    if vOk c false d && vOk c false a then
      let scale := (w.vreg a.toNat (BlockFmt.bytes f / 4)).toNat % 256
      .ok (writeResults w false d ((lanes (partMask w c.mask)).map fun l =>
        (l, deqElem f (t.fmt?.getD .f32) (modeRM w.mode) scale (imageCode f w a) l)))
    else illegal c

/-- `plop` (R318). -/
def predOp (d x y : PReg) (tt : BitVec 4) : Local := fun c w =>
  let new := maskOf fun l => tt.getLsbD ((if (w.preg x).getLsbD l then 2 else 0) + (if (w.preg y).getLsbD l then 1 else 0))
  .ok (w.setP d (mergeP (w.preg d) (partMask w c.mask) new))

/-- `pmovs` to S and to P (R318). -/
def predToS (d : Reg) (p : PReg) : Local := fun c w => .ok (w.setS d.toNat (w.preg p &&& partMask w c.mask))
def predFromS (p : PReg) (a : Reg) : Local := fun c w =>
  .ok (w.setP p (mergeP (w.preg p) (partMask w c.mask) (w.sreg a.toNat)))

/-- `pset` (R318). -/
def predSet (op : PsetOp) (p : PReg) : Local := fun c w =>
  match op with
  | .f => .ok (w.setP p (mergeP (w.preg p) (partMask w c.mask) 0))
  | .t => .ok (w.setP p (mergeP (w.preg p) (partMask w c.mask) 0xFFFFFFFF))
  | .nz a =>
    if vOk c false a then
      .ok (w.setP p (mergeP (w.preg p) (partMask w c.mask) (maskOf fun l => w.vreg a.toNat l ≠ 0)))
    else illegal c

end Sys2Proof.Machine
end

