-- ==== Sys2Proof/Machine/Group.lean ====
section
/-!
DEFINITION. The state of workgroups, tasks, queues, the save path, the matrix array and the quadrants (spec/07 R194 to R218;
spec/14 R356 to R370; spec/16 R393 to R406).
-/

namespace Sys2Proof.Machine

/-- The fields of a job card (R197). -/
structure Card where
  entry : DWord
  args : DWord
  nx : Nat
  ny : Nat
  nz : Nat
  stages : Nat
  warps : Nat
  flags : Nat
  regs : Nat
  scratchKiB : Nat
  tiles : Nat
  timelines : Nat
  expected : Nat
  handler : DWord
  residency : DWord
  spill : DWord
  deriving DecidableEq, Repr

namespace Card
def empty : Card := ⟨0, 0, 1, 1, 1, 1, 1, 0, 16, 0, 0, 0, 0, 0, 0, 0⟩
/-- SCRSIZE in bytes: 1 KiB when the field is 0 and there are timelines (R50, R255). -/
def scrSize (c : Card) : Nat := if c.scratchKiB = 0 && c.timelines ≠ 0 then 1024 else 1024 * c.scratchKiB
def restartable (c : Card) : Bool := c.flags % 2 = 1
def pclass (c : Card) : Nat := c.flags / 2 % 4
def colocate (c : Card) : Bool := c.flags / 8 % 2 = 1
def usesArray (c : Card) : Bool := c.flags / 16 % 2 = 1
/-- Workgroups of one stage (R193). -/
def grid (c : Card) : Nat := c.nx * c.ny * c.nz
end Card

/-- A weight plane: 16 KiB of elements, 1 KiB of scales, the recorded format (R356). -/
structure Plane where
  elems : Map Byte
  scales : Map Byte
  fmt : Option Nat
  deriving DecidableEq, Repr

def Plane.zero : Plane := ⟨[], [], none⟩

/-- How a workgroup stands. -/
inductive WgPhase where
  /-- Its warps may issue. -/
  | running
  /-- It ends by a trap, a freeze or ABANDON: its warps issue nothing more, and it ends when R211 is met. -/
  | stopping
  /-- Its warps are stopped for a save (R398). -/
  | saving
  deriving DecidableEq, Repr

/-- The outcome of a workgroup that failed (R212). -/
inductive Status where
  | ok | illegal
  | trap (code : Nat)
  | memerr | abandoned | frozen | reset
  deriving DecidableEq, Repr

/-- The status byte and trap code of a completion record (R212). -/
def Status.code : Status → Nat
  | .ok => 0 | .illegal => 1 | .trap _ => 2 | .memerr => 3 | .abandoned => 4 | .frozen => 5 | .reset => 6
def Status.trapCode : Status → Nat
  | .trap c => c
  | _ => 0

/-- A resident workgroup. `scr` holds the scratchpad bytes, `absent` the lines whose presence bit is clear (R52), `tiles` the
tile words keyed 4096 × tile + 128 × row + word. -/
structure Workgroup where
  task : Nat
  world : Nat
  partition : Nat
  card : Card
  stage : Nat
  linear : Nat
  core : Nat
  /-- Warp slot 0 to 63 of each warp of the workgroup on its core. -/
  slots : List Nat
  scr : Map Byte
  absent : List Nat
  tiles : Map Word
  planeA : Plane
  planeB : Plane
  /-- The active-plane indicator: false for plane A (R356). -/
  activeB : Bool
  /-- The last copy number of each timeline (R130), and the timelines frozen under R412. -/
  copyNum : Map Nat
  frozenTl : List Nat
  /-- The scratchpad lines that the copies behind each timeline's counter wrote (R102). -/
  lines : Map (List Nat)
  /-- The cycle of dispatch or restore (R213), and the order of it (R216). -/
  since : Nat
  order : Nat
  phase : WgPhase
  status : Status
  /-- A drain in progress, with the cycle at which it gives way to a save, 0 for one that does not (R214, R401). -/
  drain : Option Nat
  /-- The request time and bound of the pre-emption in progress (R214). -/
  preempt : Option (Nat × Nat)
  deriving DecidableEq, Repr

namespace Workgroup
/-- Coordinates of a workgroup (R194). -/
def x (g : Workgroup) : Nat := g.linear % g.card.nx
def y (g : Workgroup) : Nat := g.linear / g.card.nx % g.card.ny
def z (g : Workgroup) : Nat := g.linear / (g.card.nx * g.card.ny)
end Workgroup

/-- A workgroup named by stage and linear id, to be dispatched again after a flush (R214). -/
abbrev WgName := Nat × Nat

/-- A task. `next` lists, for each stage, the lowest linear id not yet dispatched (R207). -/
structure Task where
  /-- The task id of R212. -/
  id : Nat
  queue : Nat
  world : Nat
  partition : Nat
  priority : Nat
  bound : Nat
  cardPa : Nat
  card : Card
  /-- Completion counter and record in the form of R202; 0 for none. -/
  counter : Nat
  record : Nat
  next : List Nat
  /-- Workgroups dispatched, flushed or saved and not ended. -/
  live : Nat
  again : List WgName
  /-- The squad where each workgroup of a co-located task was placed, keyed 16 × linear id + stage (R208). -/
  squads : Map Nat
  status : Status
  failStage : Nat
  failLinear : Nat
  ended : Nat
  missed : Nat
  /-- The task that posted it and the root of the posting chain, when this task was posted (R211). -/
  parent : Option Nat
  root : Option Nat
  /-- Tasks posted by this one that have not ended with posts under way; calls accepted and not completed (R383). -/
  children : Nat
  calls : Nat
  /-- The workgroups named by the request in progress for this task's room (R450). -/
  named : List Nat
  /-- ABANDON or a partition reset has ended its dispatch. -/
  cancelled : Bool
  deriving DecidableEq, Repr

/-- A queue-table entry as read when its queue was enabled (R201). -/
structure QEntry where
  base : Nat
  slots : Nat
  partition : Nat
  postTarget : Bool
  everyDie : Bool
  produced : Nat
  consumed : Nat
  reserved : Nat
  deriving DecidableEq, Repr

/-- The packet a queue has begun and not finished. -/
inductive QBusy where
  | none
  /-- A FENCE with its slot count and the entries not yet met: counter PA and threshold (R203). -/
  | fence (slots : Nat) (entries : List (Nat × Nat))
  deriving DecidableEq, Repr

/-- A hardware queue (R200, R205). -/
structure Queue where
  enabled : Bool
  entry : QEntry
  busy : QBusy
  /-- Launches taken so far (R212). -/
  launches : Nat
  deriving DecidableEq, Repr

/-- A post that has reached a dispatcher (R386): the operation that sent it, with its warp (65,536 above
once that has left its slot), slot, PC and selector. -/
structure Post where
  id : Nat
  warp : Nat
  side : Side
  pc : DWord
  sel : Word
  task : Nat
  partition : Nat
  cardPa : Nat
  /-- The lookahead left of its result (R217). -/
  la : Nat
  /-- The queue it is for and the index reserved there, once reserved. -/
  place : Option (Nat × Nat)
  /-- Written and published, its LAUNCH not yet taken. -/
  published : Bool
  /-- Its selector named no queue: its slot takes the trap once it runs (R386). -/
  refused : Bool
  /-- It has reached its dispatcher. -/
  arrived : Bool
  deriving DecidableEq, Repr

/-- An entry of a die's saved-workgroup table (R401). -/
structure Saved where
  /-- The number of the workgroup, which it keeps when it is restored. -/
  wg : Nat
  image : Nat
  length : Nat
  stamp : Nat
  task : Nat
  world : Nat
  partition : Nat
  stage : Nat
  linear : Nat
  /-- First extent and number of extents in the partition's pool. -/
  extent : Nat
  extents : Nat
  refused : Bool
  /-- The cycle of the save (R209). -/
  since : Nat
  /-- Saved from a core that is being retired (R402). -/
  retire : Bool
  /-- What R158 leaves unnamed, warp by warp (log 14): whether the stage table has been read, and for each held record which of the
  instructions of its access type it is, with what it continues and the CSTAT code of what has been performed, and the slot that waits
  for it, 4 for none. -/
  marks : List (Bool × List (Nat × Nat))
  /-- Timelines frozen under R412. -/
  frozenTl : List Nat
  /-- The lines behind each timeline's counter (R102; log 85). -/
  lines : Map (List Nat)
  /-- The die that has asked for it to restore it, and whether it has the answer (R401). -/
  asked : Option (Nat × Bool)
  deriving DecidableEq, Repr

/-- An instruction in a core's array queue, with the registers read at issue (R358). -/
inductive ArrOp where
  /-- `mldw`: weight format and the source bytes once read (R364). -/
  | ldw (wf : Nat) (data : Option (List Byte))
  | swap
  /-- `mstr`: first tile, format word, modulus, the rows of the active lanes (R366). -/
  | str (tile word q : Nat) (rows : List (Nat × List Word))
  /-- `mdrn`: tile, quarter, destination base, active lanes, MODE at issue (R367). -/
  | drn (tile quarter t : Nat) (mask mode : Word)
  | zero (tile : Nat)
  | lda (tile quarter : Nat) (rows : List (Nat × List Word))
  deriving DecidableEq, Repr

/-- An array queue entry: its workgroup, the warp and slot that issued it, the operation that reads an `mldw`'s source, and the
lookahead left of an `mdrn`. -/
structure ArrEntry where
  wg : Nat
  key : Nat
  side : Side
  /-- Both slots issued it (R361). -/
  merged : Bool
  op : ArrOp
  load : Nat
  la : Nat
  deriving DecidableEq, Repr

/-- A place in the field of a quadrant: warp slot, cycle of entry, cycle of the last issue (R216, R218). -/
structure FieldPlace where
  slot : Nat
  entered : Nat
  issued : Nat
  deriving DecidableEq, Repr

/-- A quadrant: its field, its bench, and since when each warp slot's sides have been ready, keyed 2 × slot + (1 for away). -/
structure Quad where
  field : List FieldPlace
  bench : List Nat
  ready : Map Nat
  /-- The warp slots that substitutions under way hold, each until the cycle given (R218). -/
  swaps : List (Nat × Nat)
  /-- One more than the cycle of the quadrant's last issue. -/
  lastIssue : Nat
  /-- One more than the cycle in which the quadrant last had a matrix instruction enter the array queue (R358). -/
  lastArray : Nat
  /-- The cycle of each warp slot's last issue, in the field or not (R218). -/
  issued : Map Nat
  deriving DecidableEq, Repr

def Quad.empty : Quad := ⟨[], [], [], [], 0, 0, []⟩

end Sys2Proof.Machine
end

