-- ==== Sys2Proof/Machine/Requests.lean ====
section
/-!
DEFINITION. Memory operations of warps and copies with their line requests, and the state of a die translation unit: TLBs, miss
queue, dugout, park records, hot-page tracker and command rings (spec/01 R23 to R48; spec/03 R78 to R88; spec/05 R139 to R161).
-/

namespace Sys2Proof.Machine

/-- Access types as a park record names them (R147). -/
inductive Access where
  | ld | st | atom | ctr | cwait | fetch | copyRead | copyWrite
  deriving DecidableEq, Repr

def Access.code : Access → Nat
  | .ld => 0 | .st => 1 | .atom => 2 | .ctr => 3 | .cwait => 4 | .fetch => 5 | .copyRead => 6 | .copyWrite => 7

/-- What a leaf must permit (R25). -/
inductive Perm where
  | read | write | atomic | ctrMod | ctrRead | exec
  deriving DecidableEq, Repr

/-- The causes of a park (R147). -/
inductive Cause where
  | notPresent | write | exec | atomic | ctr | hostOwned | badAttr
  deriving DecidableEq, Repr

def Cause.code : Cause → Nat
  | .notPresent => 1 | .write => 2 | .exec => 3 | .atomic => 4 | .ctr => 5 | .hostOwned => 6 | .badAttr => 7

/-- A translation as a TLB entry carries it: world, page of 2^size bytes, the leaf's attribute bits [15:0], the aperture, the
physical address of the page within the aperture, and the leaf's own address for the D bit (R17, R27, R30). -/
structure TlbEntry where
  world : Nat
  /-- VA divided by the page size. -/
  vpn : Nat
  /-- 15, 21 or 24. -/
  size : Nat
  attr : Nat
  ap : Nat
  pa : Nat
  leafPa : Nat
  /-- Recency of the last hit or fill. -/
  stamp : Nat
  deriving DecidableEq, Repr

/-- The translation of one request: aperture, physical address in it, attribute bits [15:0]. -/
structure Xlated where
  ap : Nat
  pa : Nat
  attr : Nat
  deriving DecidableEq, Repr

/-- The attribute bits of a leaf (R17). -/
def attrBit (a k : Nat) : Bool := a / 2 ^ k % 2 = 1
def Xlated.ma (x : Xlated) : Bool := attrBit x.attr 10
def Xlated.rp (x : Xlated) : Bool := attrBit x.attr 9
def Xlated.pn (x : Xlated) : Bool := attrBit x.attr 13

/-- One lane's part of a line request: lane, byte offset in the line, size, the bytes it carries, the bytes it received. -/
structure Piece where
  lane : Nat
  off : Nat
  size : Nat
  data : List Byte
  got : Option (List Byte)
  deriving DecidableEq, Repr

/-- A line request by operation and position. -/
abbrev ReqRef := Nat × Nat

/-- Where a line request stands. -/
inductive Stage where
  /-- In the core: queued, or held behind a parked request (R106, R142). -/
  | core
  /-- In the core until its core has fewer than 16 misses, or the miss queue a free entry (R31). -/
  | limited
  /-- At the die translation unit, waiting for a walk (R31). -/
  | miss
  /-- In the dugout of a die, with its park sequence (R141). -/
  | parked (die seq : Nat)
  /-- Translated, and waiting until its source may inject (R182) or, after RELEASE, for the earlier requests of its master (R150). -/
  | walked
  /-- Sent, with so many replies outstanding. -/
  | sent (replies : Nat)
  /-- Registered as a waiter at its home (R119); its slot at a peer being cancelled (R119 to R121). -/
  | waiter
  | cancelling
  | done
  deriving DecidableEq, Repr

/-- A line request, or the one request of a fetch, a descriptor read or a copy sector (R140). -/
structure Req where
  va : DWord
  pieces : List Piece
  xl : Option Xlated
  stage : Stage
  /-- The CSTAT code its home answered (R115). -/
  code : Nat
  /-- The dies and park sequences under which it has stood in a dugout, the latest first (R157; log 62). -/
  seqs : List (Nat × Nat)
  /-- Sectors of its line that its read may not fill into L1: a store, a copy write or an acquire of the core has come since it left (R94). -/
  stale : List Nat
  /-- It has waited for translation: no younger request of its warp leaves the core before it has been performed (R32, R106). -/
  waited : Bool
  deriving DecidableEq, Repr

/-- The counter operations of R114. -/
inductive CtrKind where
  | add | raise | init | read | test | wait
  deriving DecidableEq, Repr

def CtrKind.modifies : CtrKind → Bool
  | .add | .raise | .init => true
  | _ => false

/-- What a memory operation does. -/
inductive OpKind where
  | load (m : MemWidth) (sx : Bool) (t : Nat)
  | loadS (m : MemWidth) (sx : Bool) (t : Nat)
  | store
  | atomic (op : AtomOp) (t : Nat) (ret : Bool)
  | counter (k : CtrKind) (scope : Scope) (sc : Bool) (t : Nat) (uni : Bool)
  | pref (m : PrefMode)
  | cmntInv
  | cmntWbi
  | fetch
  /-- The read of the stage table at a warp's first fetch (R195). -/
  | stage
  | push
  /-- Reads of the spill stack: to refill a slot, to test the top entry (R288). -/
  | refill
  | top
  /-- The descriptor read of a tensor copy: direction, clear, timeline, the S block (R347, R350). -/
  | desc (out clr : Bool) (tl : Nat) (block : List Word)
  /-- A linear copy and a gather that the engine has not accepted, with what they read at issue (R347, R353, R354). -/
  | linear (clr : Bool) (tl : Nat) (src dst : DWord) (len : Nat)
  | gather (tl bytes : Nat) (soff : Word) (xs : List (Nat × DWord))
  /-- The job card read of a `post` with its selector (R386). -/
  | card (sel : Word)
  /-- An `svc`: number and S[d] to S[d + 3] (R379). -/
  | svc (number : Nat) (block : List Word)
  /-- The source read of an `mldw` (R364). -/
  | mldw
  /-- Sector requests of the copy engine (R144, R351): a read for the scratchpad, or for the global destination given. -/
  | copyRead (dst : Option DWord)
  | copyWrite
  deriving DecidableEq, Repr

/-- Who made an operation. -/
inductive Owner where
  /-- A warp, by 64 × core + warp slot, and the slot that issued. -/
  | warp (key : Nat) (side : Side)
  /-- A copy, by its number in State. -/
  | copy (cid : Nat)
  /-- A warp that has been saved or has ended; the request goes on (R156, R392). -/
  | gone
  deriving DecidableEq, Repr

/-- An operation that has issued and is not complete. Operations are keyed by a number that rises with issue, so the operations
of one warp stand in its program order. -/
structure MemOp where
  owner : Owner
  core : Nat
  wg : Nat
  world : Nat
  partition : Nat
  task : Nat
  kind : OpKind
  /-- Lookahead left, 15 for no limit; and whether the outstanding result is open (R217, R331). -/
  la : Nat
  opened : Bool
  /-- In the warp's held queue (R142). -/
  held : Bool
  /-- The PC of the instruction, for traps and records that come later. -/
  pc : DWord
  /-- The participating lanes at issue (R328). -/
  mask : Word
  reqs : List Req
  /-- The Lamport timestamp of an `.sc` operation (R98). -/
  ts : Nat
  /-- The function field f[4:0] of its instruction (R158). -/
  fn : Nat
  /-- The warp slot that records name, 0xFF for a copy engine (R147), and the number of the warp in its workgroup, by which a restored
  warp is known again (R87). -/
  slot : Nat
  number : Nat
  deriving DecidableEq, Repr

/-- A copy engine made it, though its copy may have gone (R8, R147). -/
def MemOp.byEngine (o : MemOp) : Bool := o.slot = 0xFF

/-- An entry of the miss queue: a page and the requests that joined (R31). The table reads of a walk are one step, so that no command
falls among them; the walk of an aperture-4 leaf goes on until the peer has answered (R26, R32). -/
structure Miss where
  world : Nat
  /-- VA[56:15]. -/
  page : Nat
  refs : List ReqRef
  /-- The translation that the peer has been asked about, with the number of the question. -/
  asked : Option (TlbEntry × Nat)
  /-- A device agent waits for the answer (R26, R382, R437). -/
  agent : Bool
  deriving DecidableEq, Repr

/-- A table entry in the walk cache: world, level 1 to 3, VA above the level's region, the entry (R30). -/
structure WalkEntry where
  world : Nat
  level : Nat
  key : Nat
  entry : Nat
  stamp : Nat
  deriving DecidableEq, Repr

/-- A parked request in a dugout; chained data occupies several entries (R140, R141). -/
structure Parked where
  seq : Nat
  ref : ReqRef
  world : Nat
  page : Nat
  partition : Nat
  task : Nat
  cause : Cause
  access : Access
  va : DWord
  agent : Nat
  slot : Nat
  units : Nat
  overflow : Bool
  deriving DecidableEq, Repr

/-- A page with requests parked on it and its record (R146 to R148). -/
structure ParkPage where
  world : Nat
  page : Nat
  since : Nat
  first : Parked
  /-- The park id once the record is posted, and the count it carried. -/
  posted : Option Nat
  /-- A HOST-OWNED record still to be posted to the captain's queue (R148). -/
  captainDue : Bool
  deriving DecidableEq, Repr

/-- A region of the hot-page tracker (R43 to R45). -/
structure Region where
  world : Nat
  region : Nat
  count : Nat
  homes : Nat
  advised : Bool
  barred : Bool
  deriving DecidableEq, Repr

/-- A command a unit has taken from a ring and not completed (R37, R38, R150). -/
structure Command where
  slotPa : Nat
  bytes : List Byte
  /-- The requests it waits for. -/
  waits : List ReqRef
  deriving DecidableEq, Repr

/-- The outcome of a walk (R23). -/
inductive Walked where
  | ok (e : TlbEntry)
  | park (c : Cause)
  /-- The master is frozen: the world that owns the frame, or 0xFFFF, and the frame's address (R35, R414). -/
  | freeze (owner : Nat) (pa : Nat)
  deriving DecidableEq, Repr

/-- The state of one die translation unit. -/
structure Dtu where
  missQ : List Miss
  tlb : List TlbEntry
  walkCache : List WalkEntry
  parked : List Parked
  /-- Requests that must park while the dugout and its overflow area are full (R155). -/
  waiting : List Parked
  pages : List ParkPage
  nextSeq : Nat
  nextPark : Nat
  tracker : List Region
  epochStart : Nat
  posted : Nat
  /-- The command in progress of each partition's ring. -/
  commands : Map Command
  /-- Partitions stopped under R155; 64 stands for the whole die. -/
  stopped : List Nat
  /-- Questions put to peers so far (R26). -/
  asks : Nat
  /-- Records for repair queues that have had no free slot: partition and bytes, oldest first (R48, R148). -/
  owed : List (Nat × List Byte)
  /-- Questions of other dies' cores for a park token not met yet: who asks, for which warp, the token (R159). -/
  questions : List (Nat × Nat × Nat)
  /-- Regions advised or barred in this epoch whose place in the tracker another has taken (R44, R45). -/
  passed : List Region
  /-- What peers have found amiss with the pages of device agents, until these have seen it: world, page, how the walk ends, none where it was
  not performed (R26). -/
  refusals : List (Nat × Nat × Option Walked)
  deriving DecidableEq, Repr

def Dtu.empty : Dtu := ⟨[], [], [], [], [], [], 1, 0, [], 0, 0, [], [], 0, [], [], [], []⟩

end Sys2Proof.Machine
end

