-- ==== Sys2Proof/Machine/Packets.lean ====
section
/-!
DEFINITION. Packets, flows, output queues and links of the fabric (spec/06 R162 to R190).
-/

namespace Sys2Proof.Machine

/-- Packet types (R163). -/
inductive PType where
  | rd | rdr | wr | wra | atm | atmr | ctr | ctrr | svc | ack | rreq | noroute
  deriving DecidableEq, Repr

def PType.code : PType → Nat
  | .rd => 1 | .rdr => 2 | .wr => 3 | .wra => 4 | .atm => 5 | .atmr => 6 | .ctr => 7 | .ctrr => 8 | .svc => 9
  | .ack => 10 | .rreq => 11 | .noroute => 12

/-- Requests proper: the types a device answers with NOROUTE when it cannot route them (R186). -/
def PType.isRequest : PType → Bool
  | .rd | .wr | .atm | .ctr => true
  | _ => false

/-- Responses, whose ADDR holds the tag of their request (R162). -/
def PType.isResponse : PType → Bool
  | .rdr | .wra | .atmr | .ctrr => true
  | _ => false

/-- A tag as ADDR holds it, and from there (R162; log 35). -/
def tagBits (t : ReqRef) : Nat := (t.1 * 2 ^ 16 + t.2 % 2 ^ 16) % 2 ^ 64
def tagOf (a : Nat) : ReqRef := (a / 2 ^ 16, a % 2 ^ 16)

/-- An endpoint by its 32-bit number (R164). -/
abbrev Endpoint := Nat

namespace Endpoint
def make (dev die cls idx : Nat) : Endpoint := dev * 2 ^ 20 + die * 2 ^ 16 + cls * 2 ^ 12 + idx
def dev (e : Endpoint) : Nat := e / 2 ^ 20
def die (e : Endpoint) : Nat := e / 2 ^ 16 % 16
def cls (e : Endpoint) : Nat := e / 2 ^ 12 % 16
def idx (e : Endpoint) : Nat := e % 2 ^ 12
end Endpoint

/-- How a home or a peer answers a request (R26, R69, R114). -/
inductive Answer where
  | done
  /-- Poisoned data: an uncorrectable unit (R69). -/
  | poison
  /-- World mismatch with the world it carries, and frame free or reserved (R26). -/
  | mismatch (world : Nat)
  | badFrame
  /-- No route to the destination (R186). -/
  | noRoute
  /-- A counter result: the CSTAT code (R115). -/
  | cstat (code : Nat)
  /-- A `cwait` has taken a slot at a peer, or has had it cancelled (R119; log 65). -/
  | granted
  | cancelled
  deriving DecidableEq, Repr

/-- A packet (R162). `fn` holds what OPS names: sectors, atomic operation, counter instruction and function field; `tag` names
the line request at its source; `pieces` is the payload by lane. -/
structure Packet where
  type : PType
  trimmed : Bool
  /-- Virtual channel of origin (R163). -/
  vc : Nat
  promoted : Bool
  flowStart : Bool
  /-- Payload flits. -/
  len : Nat
  dst : Endpoint
  src : Endpoint
  flow : Nat
  seq : Nat
  addr : Nat
  age : Nat
  fn : Nat
  world : Nat
  tag : ReqRef
  answer : Answer
  pieces : List Piece
  /-- The requester of another device for whom an ingress port performs the request, with its tag (R167). -/
  via : Option (Endpoint × Nat)
  /-- The Lamport timestamp of an `.sc` request and of its answer, 0 for others; and the warp slot, with `src` or `via` the originator's
  place in the order of R97 (R98). -/
  ts : Nat
  slot : Nat
  /-- The function field f[4:0] of a CTR packet (R163). -/
  f : Nat
  /-- The cycle at which the home of a read took the bytes (R94, R95). -/
  taken : Nat
  deriving DecidableEq, Repr

/-- The channel a packet occupies (R163). -/
def Packet.channel (p : Packet) : Nat := if p.trimmed || p.type = .rreq then 0 else p.vc

/-- Flits of a packet: its header, and its payload unless trimmed. -/
def Packet.flits (p : Packet) : Nat := if p.trimmed then 1 else 1 + p.len

/-- An event of pacing (R177). -/
inductive FlowEvent where
  | clean | trim
  deriving DecidableEq, Repr

/-- A packet the source keeps until it is acknowledged: whether it was trimmed or sent again, when it was last sent or named,
whether its flow's interval is held for it (R168, R177, R187). -/
structure Unacked where
  packet : Packet
  resent : Bool
  last : Nat
  held : Bool
  deriving DecidableEq, Repr

/-- A flow at its source (R166, R177). -/
structure SrcFlow where
  src : Endpoint
  dst : Endpoint
  vc : Nat
  id : Nat
  nextSeq : Nat
  unacked : List Unacked
  interval : Nat
  notBefore : Nat
  lastEvent : FlowEvent
  /-- Sequence numbers queued for retransmission. -/
  resend : List Nat
  deriving DecidableEq, Repr

/-- A flow at its destination (R168, R178, R180). -/
structure DstFlow where
  src : Endpoint
  id : Nat
  vc : Nat
  expected : Nat
  holes : List Nat
  buffered : List Packet
  /-- Deliveries since the last ACK and the cycle of the first of them. -/
  due : Nat
  dueSince : Nat
  /-- Recency of use. -/
  stamp : Nat
  deriving DecidableEq, Repr

/-- An output of a switch: four channels, oldest first, and the visits left of its round (R170, R171). -/
structure OutQueue where
  vc0 : List Packet
  vc1 : List Packet
  vc2 : List Packet
  vc3 : List Packet
  round : List Nat
  busyTill : Nat
  /-- Packets at the inputs, in the order of their arrival: each waits for its channel under credits (R174). -/
  input : List Packet
  deriving DecidableEq, Repr

def OutQueue.empty : OutQueue := ⟨[], [], [], [], [], 0, []⟩

/-- A Birrak port: lanes retired as a 16-bit mask, retraining until, and whether it has trained since reset (R185, R190). -/
structure Birrak where
  badLanes : Nat
  retrainTill : Nat
  trained : Bool
  deriving DecidableEq, Repr

def Birrak.empty : Birrak := ⟨0, 0, false⟩

/-- The fabric. Outputs are keyed 32 × switch + port: a die's crossbar by the die, the local crossbar of a squad by 16 + 16 × die + squad,
its ports 0 to 7 the cores, 8 the uplink, 9 to 12 the vaults. Inboxes and destination flows are keyed by endpoint. -/
structure Fabric where
  outs : Map OutQueue
  srcFlows : List SrcFlow
  dstFlows : Map (List DstFlow)
  inbox : Map (List Packet)
  /-- Retired halves of die-to-die links, keyed 16 × lower die + higher die, bit 0 and bit 1 (R184); 8 and 9 are the I/O dies. -/
  links : Map Nat
  /-- The cycles of the link replays of the last window, keyed 16 × (32 × die + port) + half or lane (R183, R184). -/
  replays : Map (List Nat)
  birrak : Map Birrak
  nextFlow : Nat
  /-- Packets that have left through a Birrak port, newest last. -/
  egress : List Packet
  /-- Packets whose source may not inject yet, oldest first (R166, R182). -/
  held : List Packet
  /-- Requests of peers delivered at ingress ports and not yet performed, in flow order, each with its port and whether it is under way
  (R105). -/
  incoming : List (Endpoint × Packet × Bool)
  /-- What was delivered of flows whose state was replaced: the next number of each, keyed 2^48 × destination + 2^16 × source + flow id
  (R168, R180; log 73). -/
  closed : Map Nat
  /-- Control packets that could not be routed, with the fabric cycle at which they are sent again (R187). -/
  bounced : List (Nat × Packet)
  deriving DecidableEq, Repr

def Fabric.empty : Fabric := ⟨[], [], [], [], [], [], [], 0, [], [], [], [], []⟩

end Sys2Proof.Machine
end

