-- ==== Sys2Proof/Machine/State.lean ====
section
/-!
DEFINITION. The state of the machine, as plain data, and the state after reset (INVENTORY.md, '## State', names the rule and
the reset value of every item).
-/

namespace Sys2Proof.Machine

/-- Reasons the machine stops with. No meaning of this model ends in one: every failed check takes the trap, park, freeze or
status that the spec gives. -/
inductive Fault where
  /-- Raised by nothing: kept so that the type has a name for a stop the model does not make. Safe. -/
  | none
  deriving DecidableEq, Repr

/-- Reasons an instruction is refused. -/
inductive Refusal where
  /-- Raised by an arm of `exec` whose instruction has no meaning yet. Safe: nothing can be proved of its effect. -/
  | notModelled (mnemonic : String)
  deriving DecidableEq, Repr

/-- Memory outside the core: cells keyed 2^64 × aperture + physical address, for apertures 0, 1, 3, 4 and 5; a peer's frame
keeps its device id in PA[54:43] (R17, R20). -/
abbrev Memory := List Host.Cell

/-- An access of a battery to a physical address in the form of R202, of no more than a line (R424 to R426, R429), with the world that it carries
to a peer (R26). What a battery's firmware accesses the spec leaves to it, so that such accesses are turns of the agenda. -/
inductive BatteryAccess where
  | load (world form n : Nat)
  | store (world form : Nat) (bytes : List Byte)
  /-- Bytes of any number read line by line, and stored elsewhere. -/
  | copy (world src dst n : Nat)
  /-- `cadd` at DEV scope or wider. -/
  | add (world form n : Nat)
  /-- The later accesses come once a counter has reached a threshold. -/
  | await (world form t : Nat)
  /-- A command into the ring of its partition on a die, when that has room (R36, R424). -/
  | submit (die : Nat) (bytes : List Byte)
  /-- A command likewise, whose completion the later accesses wait for: its completion counter then passes what it held (R37, R416). -/
  | perform (die : Nat) (bytes : List Byte)
  deriving DecidableEq, Repr

/-- What runs next, in the order the model's agenda gives it (log 2). -/
inductive Turn where
  /-- A slot of a warp issues, when it is ready. -/
  | issue (key : Nat) (side : Side)
  /-- A step of the device. -/
  | event (i : Instr)
  /-- So many core cycles pass (log 4). -/
  | tick (n : Nat)
  /-- An access of a battery, behind its earlier ones. -/
  | battery (b : Nat) (a : BatteryAccess)
  /-- A battery takes the next park record of its queue on a die and begins the repair that R416 and R424 to R426 give it, with a counter for its
  commands, a free frame, and the attribute bits of a leaf where it stores one for a page not present. -/
  | repair (b die counter frame attr : Nat)
  /-- A host reads its window (R437). -/
  | hostRead (ld off size : Nat)
  deriving DecidableEq, Repr

/-- A sector held in an L1, or a line staged for a squad, with the bytes as filled (R54, R342). -/
structure Held where
  /-- Memory key of the first byte. -/
  addr : Nat
  bytes : List Byte
  filled : Nat
  used : Nat
  deriving DecidableEq, Repr

/-- A line that an L2 slice holds, by memory key: whether it is dirty, the cycle of its last use (R60), and whether a copy with the no-allocate
hint brought it in (R349). -/
structure L2Line where
  addr : Nat
  dirty : Bool
  used : Nat
  hint : Bool
  deriving DecidableEq, Repr

/-- Who waits in a waiter slot (R118). -/
inductive Waiting where
  /-- A lane group of a `cwait`: the line request and its piece. -/
  | warp (ref : ReqRef)
  /-- A `cwait` of a peer's warp, performed for it by an ingress port (R167). -/
  | peer (ingress : Endpoint) (via : Endpoint × Nat)
  /-- Watches of agents: the entries of a queue's FENCE, a logical device, a die's unit on the produced counter of a partition's command
  ring and on the consumed counter of its repair queue, and a dispatcher on a queue's and, for a post, on the consumed and produced counters of its queue, and a battery (R36, R118, R134, R148, R203, R205, R437). -/
  | fence (q : Nat)
  | host (ld : Nat)
  | ring (die part : Nat)
  | repair (die part : Nat)
  | queue (q : Nat)
  | post (id : Nat)
  | battery (b : Nat)
  deriving DecidableEq, Repr

/-- A waiter registered at a home (R114, R118, R119). -/
structure Waiter where
  /-- Home number: 16 × die + slice, 1,024 + 64 × die + vault, 2,048 + core. -/
  home : Nat
  /-- Agent pool or warp pool. -/
  agent : Bool
  slot : Nat
  /-- Memory key of the counter word; for a scratchpad, 2^68 × (workgroup + 1) + offset. -/
  addr : Nat
  threshold : Nat
  who : Waiting
  /-- The translation it came by: world and VA (R121). -/
  world : Nat
  va : Nat
  /-- The timestamp of an `.sc` wait, 0 for others (R98). -/
  ts : Nat
  deriving DecidableEq, Repr

/-- A watch of an agent that found its home's pool full and polls the counter, with the cycle of the last read (R122). -/
structure Poll where
  home : Nat
  addr : Nat
  threshold : Nat
  who : Waiting
  last : Nat
  /-- The translation it came by: world and VA (R121). -/
  world : Nat
  va : Nat
  deriving DecidableEq, Repr

/-- A write to an RP line on its way to the replica of a die (R96): the line, and the memory keys and bytes that it writes at once (R83). -/
structure Propagation where
  die : Nat
  line : Nat
  parts : List (Nat × List Byte)
  since : Nat
  /-- Whose write it is, and for which task, for the releases that wait for it (R102, R136). -/
  owner : Owner
  task : Nat
  /-- The workgroup and number of the warp that wrote, by which its releases wait after a restore too (R87). -/
  warp : Option (Nat × Nat)
  /-- The core whose warp or engine wrote: its L1 does not take the sector from the replica before the write (R84). -/
  core : Option Nat
  deriving DecidableEq, Repr

/-- One sector's part of a copy (R351, R353, R354). A part names the byte offset in the line of the global address, a length and a
scratchpad offset. -/
inductive Move where
  | load (line : DWord) (parts : List (Nat × Nat × Nat))
  | store (line : DWord) (parts : List (Nat × Nat × Nat))
  /-- Ragged bytes filled with zero: scratchpad offsets and lengths. -/
  | fill (parts : List (Nat × Nat))
  /-- Within the scratchpad: source, destination, length. -/
  | shift (src dst len : Nat)
  /-- Between global addresses: source, destination, length within one destination sector. -/
  | relay (src dst : DWord) (len : Nat)
  deriving DecidableEq, Repr

/-- An accepted copy that has not completed (R129, R347). -/
structure Copy where
  wg : Nat
  core : Nat
  tl : Nat
  number : Nat
  /-- The warp that issued it and the first operation number after it: earlier requests of the warp come first (R101). -/
  key : Nat
  after : Nat
  /-- What it has still to issue. -/
  moves : List Move
  /-- Lines whose presence bit it clears, with the bytes it has still to write there (R52). -/
  clears : List (Nat × Nat)
  dropped : Bool
  /-- What it has read for scratchpad sectors of which more is to come: offset and bytes (R53, R353). -/
  arrived : List (Nat × List Byte)
  /-- The scratchpad lines it writes (R102). -/
  lines : List Nat
  /-- Its descriptor has the no-allocate hint (R349). -/
  hint : Bool
  deriving DecidableEq, Repr

/-- A service call that a battery has accepted (R379, R383). -/
structure Call where
  battery : Nat
  number : Nat
  agent : Nat
  slot : Nat
  task : Nat
  world : Nat
  arg : Nat
  counter : Nat
  /-- The operation that made it, and the addresses by which that named the block and the counter (R38, R41). -/
  op : Nat
  argVa : DWord
  counterVa : DWord
  /-- Firmware switches before its acceptance. -/
  version : Nat
  /-- Result and status once served (R382). -/
  served : Option (Nat × Nat)
  /-- Its header is written; its release still waits for writes that replicas have not taken (R96, R382). -/
  closing : Bool
  /-- Its header is on its way to a peer. -/
  due : Bool
  /-- What its service has read at peers: physical address and length with the bytes, none where a read failed; and the read that is not
  answered (R382). -/
  got : List ((Nat × Nat) × Option (List Byte))
  asking : Option (Nat × Nat)
  /-- Its writes to peers that are not answered; and its add to a peer's counter is on its way (R38, R382). -/
  owes : Nat
  adding : Bool
  deriving DecidableEq, Repr

/-- A handle of a host file or connection, by its number (R381). -/
structure Handle where
  partition : Nat
  file : Bool
  deriving DecidableEq, Repr

/-- What the last CXL.mem read or window read of a host answered: Completer Abort, poison, bytes, or a register's value (R42, R437). -/
inductive HostReply where
  | none
  | abort
  | poison
  | data (bytes : List Byte)
  | value (v : DWord)
  deriving DecidableEq, Repr

/-- How a counter operation that a logical device has sent to a peer stands. -/
inductive FarStage where
  /-- Not answered: later requests of the port wait (R104). -/
  | sent
  /-- A watch that stands at the peer, or asks there again. -/
  | armed
  /-- A watch that found no slot, with the cycle (R122). -/
  | refused (since : Nat)
  /-- A watch being cancelled there by a command, to be issued again (R121). -/
  | cancelling
  deriving DecidableEq, Repr

/-- A counter operation that a logical device has sent to a peer, by its number (R127, R437): a watch or a read, the world and the VA, the
physical address in aperture 4, the threshold. -/
structure FarOp where
  number : Nat
  watch : Bool
  world : Nat
  va : Nat
  pa : Nat
  threshold : Nat
  stage : FarStage
  deriving DecidableEq, Repr

/-- A request of a host at its port: a read or a write of its window, or an access to device memory (R42, R437). -/
inductive HostRequest where
  | read (off size : Nat)
  | write (off : Nat) (v : DWord)
  | mem (ap pa size : Nat) (data : Option (List Byte))
  deriving DecidableEq, Repr

/-- A logical device's window and port (R437): HCADDR, HCOPND, HCWAIT, HCSTAT, HEVENT, the MSI-X vectors raised, the port frozen
(R413) or refusing during a reset or for good (R442, R444), and the requests of services forwarded to the host (R380). -/
structure HostPort where
  addr : DWord
  operand : DWord
  wait : DWord
  status : Nat
  events : Nat
  vectors : Nat
  frozen : Bool
  refusing : Bool
  reply : HostReply
  forwarded : List (List Byte)
  /-- Counter operations sent to peers that are not answered or wait there (R127). -/
  far : List FarOp
  /-- Requests that wait behind one not answered, oldest first (R104). -/
  later : List HostRequest
  /-- The VA and the threshold of a watch that a command has cancelled and that is to be issued again (R121). -/
  again : Option (Nat × Nat)
  deriving DecidableEq, Repr

def HostPort.empty : HostPort := ⟨0, 0, 0, 0, 0, 0, false, false, .none, [], [], [], none⟩

/-- A key slot bound to a world (R405). -/
structure KeySlot where
  world : Nat
  /-- The draw that gave its sealing key and its XTS key pair (log 6). -/
  draw : Nat
  counter : Nat
  deriving DecidableEq, Repr

/-- A memory channel: refresh balance, corrected units, those of the window of 2^26 cycles with the given number, evacuation state (R66,
R68, R72). -/
structure Channel where
  balance : Int
  corrected : Nat
  window : Nat
  since : Nat
  ev : Nat
  deriving DecidableEq, Repr

def Channel.empty : Channel := ⟨0, 0, 0, 0, 0⟩

/-- The requests beside the negotiation that the SPDM responder supports (R446). -/
inductive SpdmCap where
  | digests | certificate | challenge | measurements | vendorDefined
  deriving DecidableEq, Repr

/-- An answer of the SPDM responder (R446): the versions it speaks, major and minor; what it supports; the signature and the hash chosen, by
their bits of the request (log 23). -/
inductive SpdmReply where
  | none
  | error
  | version (versions : List (Nat × Nat))
  | capabilities (caps : List SpdmCap)
  | algorithms (sign hash : Nat)
  | digests (chains : List (BitVec 384))
  | certificate (bytes : List Byte)
  | challenge (signature : List Byte)
  | measurements (blocks : List (List Byte)) (signature : List Byte)
  | vendor (signature : List Byte)
  deriving DecidableEq, Repr

/-- The SPDM responder of one requester: which negotiations are done, the requests of the transcript, the hash last signed, the last
answer (R446). -/
structure Spdm where
  version : Bool
  capabilities : Bool
  algorithms : Bool
  transcript : List (List Byte)
  signed : Option (BitVec 384)
  reply : SpdmReply
  deriving DecidableEq, Repr

def Spdm.empty : Spdm := ⟨false, false, false, [], none, .none⟩

/-- How a battery's first access stands that goes to a peer: not sent, sent with so many answers to come, answered, or a wait that found no slot
there, with the cycle (R122). -/
inductive Asked where
  | none
  | sent (left : Nat)
  | answered
  | refused (since : Nat)
  deriving DecidableEq, Repr

def Asked.left : Asked → Nat
  | .sent n => n
  | _ => 0

/-- A battery (R441, R442): consecutive heartbeat reads without an advance, the value last seen and the cycle of that read, failed
restarts in a row, whether it is retired and its partition's reset has begun; its calls are in `State.calls`. Its accesses to come, the bytes
that its last read gave, and of its first access, when it goes to a peer, whether the answer is awaited (R424, R425). -/
structure Battery where
  misses : Nat
  seen : Nat
  checked : Nat
  restarts : Nat
  retired : Bool
  wiped : Bool
  todo : List BatteryAccess
  got : List Byte
  asked : Asked
  deriving DecidableEq, Repr

/-- Its cores are stopped, until a restart succeeds (R442). -/
def Battery.stopped (b : Battery) : Bool := b.retired || b.restarts ≠ 0
def Battery.empty : Battery := ⟨0, 0, 0, 0, false, false, [], [], .none⟩
/-- Its first access is a wait at a counter. -/
def Battery.awaits (b : Battery) : Bool := match b.todo with
  | .await _ _ _ :: _ => true
  | _ => false

/-- The state of the module and of what it reaches outside. -/
structure State where
  /-- Turns to come (log 2) and the warp slot whose instruction runs. -/
  agenda : List Turn
  curKey : Nat
  curSide : Side
  /-- Core cycles and fabric cycles since reset (R3), and CLK at 800 MHz in parts of 1/720,720 (R255, R449). -/
  clk : Nat
  fclk : Nat
  wall : Nat
  /-- Free values drawn so far (log 6). -/
  draws : Nat
  mem : Memory
  /-- Page ownership entries keyed 2^40 × aperture + frame (R33); host ownership bits likewise (R40). -/
  pot : Map Nat
  hostOwned : Map Nat
  /-- The worlds whose own frames are under the keys of a slot, and whether die 0's root table has been written since that was last compared with
  it (R57; log 50). -/
  confs : List Nat
  rootWritten : Bool
  /-- Frames that something has been written to since reset, keyed 2^40 × aperture + frame, the latest first (R57; log 50). -/
  written : List Nat
  /-- Register values by aperture-6 address, those at their reset value not listed (R434). -/
  mmio : Map Nat
  /-- Disabled cores (R2) and cores being retired (R215, R450). -/
  disabled : List Nat
  retiring : List Nat
  warps : Map Warp
  quads : Map Quad
  coreTlb : Map (List TlbEntry)
  l1 : Map (List Held)
  /-- Instruction words fetched from a peer's frame, keyed 2^64 × (2 × warp + (1 for away)) + PC. -/
  fetched : Map Word
  /-- Instruction lines that a core's instruction cache holds, by memory key (R155; log 71). -/
  ilines : Map (List Nat)
  staging : Map (List Held)
  lamport : Map Nat
  arrays : Map (List ArrEntry)
  wgs : Map Workgroup
  ops : Map MemOp
  nextOp : Nat
  copies : Map Copy
  dtus : Map Dtu
  /-- Replica lines keyed 2^72 × die + memory key, with their bytes (R96). -/
  replicas : Map (List Byte)
  propagating : List Propagation
  /-- The lines of each L2 slice, keyed 16 × die + slice: those of its home, and those of its die's replicas (R59, R60, R62). -/
  l2 : Map (List L2Line)
  waiters : List Waiter
  polls : List Poll
  /-- Lamport stamps of counter words by memory key (R98). -/
  stamps : Map Nat
  fabric : Fabric
  queues : Map Queue
  tasks : Map Task
  posts : List Post
  saved : Map Saved
  /-- Order of dispatch and restore so far (R216). -/
  nextOrder : Nat
  /-- The queue each die's dispatcher served last, among queues of equal priority (R205). -/
  lastQueue : Map Nat
  calls : Map Call
  handles : Map Handle
  batteries : Map Battery
  /-- Firmware switches since reset: a call keeps the number at its acceptance (R443). -/
  switches : Nat
  /-- Takeover records: the new captain, posted to every battery (R441). -/
  takeovers : List Nat
  /-- The cycle of the captain's last heartbeat (R440), and partitions whose reset has begun and not ended (R444). -/
  beat : Nat
  resetting : List Nat
  hosts : Map HostPort
  keys : Map KeySlot
  channels : Map Channel
  /-- Spare channels used by stack, 16 for the tier (R72). -/
  spares : Map Nat
  /-- Activation counters of rows, keyed 2^64 × (72 × die + channel) + row; each stands at 0 after reset, for which the spec has no value (R67;
  log 22). -/
  rows : Map Nat
  /-- Symbols in error of a stored unit (R68): by memory key in a vault or channel, by the keys of Homes.lean in an L2 or L1, and by those
  of Lsu.lean in a core's arrays. -/
  errors : Map Nat
  spdm : Map Spdm
  /-- The draw that gave the identity keys (R445; log 6). -/
  identity : Nat
  /-- Records posted to the captain or the management interface, newest last (R185, R187, R449). -/
  records : List (List Byte)
  /-- Whether the module has power (R449). -/
  powered : Bool
  deriving DecidableEq, Repr

/-- The machine right after reset. No core is disabled: which of them the module ships disabled the spec leaves open (R2; log 24). -/
def State.reset : State where
  agenda := []
  curKey := 0
  curSide := .home
  clk := 0
  fclk := 0
  wall := 0
  draws := 0
  mem := []
  pot := []
  hostOwned := []
  confs := []
  rootWritten := false
  written := []
  mmio := []
  disabled := []
  retiring := []
  warps := []
  quads := []
  coreTlb := []
  l1 := []
  fetched := []
  ilines := []
  staging := []
  lamport := []
  arrays := []
  wgs := []
  ops := []
  nextOp := 1
  copies := []
  dtus := []
  replicas := []
  propagating := []
  l2 := []
  waiters := []
  polls := []
  stamps := []
  fabric := Fabric.empty
  queues := []
  tasks := []
  posts := []
  saved := []
  nextOrder := 0
  lastQueue := []
  calls := []
  handles := []
  batteries := []
  switches := 0
  takeovers := []
  beat := 0
  resetting := []
  hosts := []
  keys := []
  channels := []
  spares := []
  rows := []
  errors := []
  spdm := []
  identity := 0
  records := []
  powered := true

end Sys2Proof.Machine
end

