-- ==== Sys2Proof/Machine/Ops.lean ====
section
/-!
DEFINITION. The named operations over memory, warps and workgroups that the meanings share, and taking a trap and returning from
it (spec/16 R390 to R392; spec/15 R377).
-/

namespace Sys2Proof.Machine

/-- The outcome of a step of this machine. -/
abbrev Out := Host.Outcome State Fault Refusal

namespace Memory

/-- What an address that is not listed reads as (log 1). -/
def blank : Byte := 0

/-- The canonical form: rising addresses, no entry equal to what an unlisted address reads as. -/
abbrev wf (m : Memory) : Prop := Map.Canon blank m

def read (m : Memory) (a : Nat) : Byte := Map.get blank m a
def write (m : Memory) (a : Nat) (b : Byte) : Memory := Map.put blank m a b

/-- n bytes from an address upward. -/
def readBytes (m : Memory) (a : Nat) : Nat → List Byte
  | 0 => []
  | n + 1 => read m a :: readBytes m (a + 1) n
def writeBytes (m : Memory) (a : Nat) : List Byte → Memory
  | [] => m
  | b :: bs => writeBytes (write m a b) (a + 1) bs

/-- The little-endian number of n bytes (R330). -/
def readNat (m : Memory) (a n : Nat) : Nat := leNat (readBytes m a n)
def writeNat (m : Memory) (a n v : Nat) : Memory := writeBytes m a (leBytes n v)

end Memory

/-- A field of a descriptor, a command or a record: n bytes from an offset, low first. -/
def field (d : List Byte) (off n : Nat) : Nat := leNat ((d.drop off).take n)

/-- The least recently used of a list. -/
def oldest {α : Type} (f : α → Nat) (xs : List α) : Option α :=
  xs.foldl (fun m x =>
    match m with
    | some y => if f x < f y then some x else some y
    | none => some x) none

/-- The key of a byte: aperture and physical address (R20). -/
def memKey (ap pa : Nat) : Nat := ap * 2 ^ 64 + pa
/-- The key, at the peer, of an aperture-4 physical address: bits [27:26] of the peer's frame number name HBM, the capacity tier, the
vaults or MMIO there, and the bits below them the frame in it (R17, R20; log 64). -/
def peerKey (pa : Nat) : Nat :=
  let f := pa / 2 ^ 15 % 2 ^ 28
  memKey ([0, 1, 3, 6].getD (f / 2 ^ 26) 0) (f % 2 ^ 26 * 2 ^ 15 + pa % 2 ^ 15)
/-- The key of a physical address in the form of R202: aperture in [58:56], address in [54:0]. -/
def formKey (a : Nat) : Nat := memKey (a / 2 ^ 56 % 8) (a % 2 ^ 55)

namespace State

/-- The page ownership entry of a frame (R33). -/
def potEntry (s : State) (ap frame : Nat) : Nat := s.pot.get 0 (ap * 2 ^ 40 + frame)

def warp? (s : State) (k : Nat) : Option Warp := s.warps.find? k
def setWarp (s : State) (k : Nat) (w : Warp) : State := { s with warps := s.warps.insert k w }
def wg? (s : State) (g : Nat) : Option Workgroup := s.wgs.find? g
def setWg (s : State) (g : Nat) (x : Workgroup) : State := { s with wgs := s.wgs.insert g x }
def onWarp (s : State) (k : Nat) (f : Warp → Warp) : State := { s with warps := s.warps.adjust k f }
def onWg (s : State) (g : Nat) (f : Workgroup → Workgroup) : State := { s with wgs := s.wgs.adjust g f }
def dtu (s : State) (die : Nat) : Dtu := s.dtus.get Dtu.empty die
def onDtu (s : State) (die : Nat) (f : Dtu → Dtu) : State := { s with dtus := s.dtus.put Dtu.empty die (f (s.dtu die)) }
def onOp (s : State) (n : Nat) (f : MemOp → MemOp) : State := { s with ops := s.ops.adjust n f }

/-- The task id that records name (R212). -/
def taskId (s : State) (task : Nat) : Nat := ((s.tasks.find? task).map Task.id).getD 0

/-- The job card of a warp's workgroup. -/
def cardOf (s : State) (w : Warp) : Card :=
  match s.wg? w.wg with
  | some g => g.card
  | none => Card.empty

/-- The core of a warp slot's key. -/
def coreOf (k : Nat) : Nat := k / 64
def dieOfCore (c : Nat) : Nat := c / 128
def squadOfCore (c : Nat) : Nat := c / 8

/-- The key of a word fetched for a slot. -/
def fetchKey (k : Nat) (sd : Side) (pc : DWord) : Nat := 2 ^ 64 * (2 * k + if sd = .away then 1 else 0) + pc.toNat

/-- A new operation, numbered after every earlier one. -/
def newOp (s : State) (o : MemOp) : State := { s with ops := s.ops.insert s.nextOp o, nextOp := s.nextOp + 1 }

/-- CLK, which counts at 800 MHz whatever the core clock (R255, R449). -/
def clkNow (s : State) : Nat := s.wall / 720720

/-- A workgroup ends early: its warps issue nothing more, and the first reason stands (R392). -/
def stopWg (s : State) (g : Nat) (st : Status) : State :=
  s.onWg g fun x => if x.phase = .stopping then x else { x with phase := .stopping, status := st }

end State

/-- The slot moved to the next instruction. -/
def Warp.advance (w : Warp) (sd : Side) : Warp :=
  w.setSlot sd { w.slot sd with pc := (w.slot sd).pc + 4 }

/-- The checks' view of an instruction at a slot. -/
def lctx (s : State) (w : Warp) (sd : Side) (i : Instr) : LCtx :=
  ⟨(s.cardOf w).regs, (w.slot sd).mask, encode i⟩

/-- What a precise trap leaves in the warp (R391). -/
def Warp.record (w : Warp) (pc : DWord) (t : Trap) : Warp :=
  { w with trapPc := pc, trapCode := BitVec.ofNat 32 t.code.code, trapInfo := t.info }

/-- The warp in its handler: the frame keeps both slots, the depth and the trapping slot (R391). A warp that traps at its first fetch
does not read its stage table again (R195; log 80). -/
def Warp.enter (w : Warp) (handler : DWord) (sd : Side) : Warp :=
  { w with
    frame := some ⟨w.home, w.away, w.depth, sd⟩
    home := ⟨handler, w.home.mask ||| w.away.mask, none, .none⟩
    away := Slot.empty
    top := none
    topReq := none
    resolved := 0
    entered := true }

/-- Taking a precise trap in a slot of a warp (R391): into the handler, or the end of the workgroup (R392). -/
def trapEntry (s : State) (k : Nat) (sd : Side) (t : Trap) : State :=
  match s.warp? k with
  | none => s
  | some w =>
    let h := (s.cardOf w).handler
    let r := w.record (w.slot sd).pc t
    if h = 0 || w.inHandler then (s.setWarp k r).stopWg w.wg (.trap t.code.code)
    else if h.toNat % 4 ≠ 0 then
      (s.setWarp k (r.record (w.slot sd).pc ⟨.align, h.lo⟩)).stopWg w.wg (.trap TrapCode.align.code)
    else s.setWarp k (r.enter h sd)

/-- The return of R377: both slots as stopped, the trapping slot at r; the handler's spill entries are dropped (R391). -/
def Warp.leave (w : Warp) (f : Frame) (r : DWord) : Warp :=
  let w := { w with frame := none, home := f.home, away := f.away, depth := f.depth, top := none, topReq := none, resolved := 0 }
  w.setSlot f.trapped { w.slot f.trapped with pc := r, hold := .none }

/-- Where `rtrap` resumes: after the instruction for TRAP and BKPT, at it for every other code (R377). -/
def Warp.resumePc (w : Warp) : DWord :=
  if w.trapCode = 0x09 || w.trapCode = 0x0A then w.trapPc + 4 else w.trapPc

/-- The effect of an instruction on its own warp, then the next instruction; or the trap it raises. -/
def runLocal (f : Local) (i : Instr) (s : State) : Out :=
  match s.warp? s.curKey with
  | none => .next s
  | some w =>
    match f (lctx s w s.curSide i) w with
    | .ok w' => .next (s.setWarp s.curKey (w'.advance s.curSide))
    | .error t => .next (trapEntry s s.curKey s.curSide t)

/-- A control instruction: it sets its slot's next PC itself (R282). -/
def runControl (f : Local) (i : Instr) (s : State) : Out :=
  match s.warp? s.curKey with
  | none => .next s
  | some w =>
    match f (lctx s w s.curSide i) w with
    | .ok w' => .next (s.setWarp s.curKey w')
    | .error t => .next (trapEntry s s.curKey s.curSide t)

end Sys2Proof.Machine
end

