-- ==== Sys2Proof/Machine/Regs.lean ====
section
/-!
DEFINITION. The register blocks of aperture 6: addresses, reset values, saturating counters (spec/23 R434; spec/01 R46, R47;
spec/02 R65, R73; spec/04 R126; spec/05 R161; spec/06 R188 to R190; spec/07 R220; spec/16 R403, R404; spec/23 R436, R438).
-/

namespace Sys2Proof.Machine

namespace Reg
def dtu (d off : Nat) : Nat := d * 2 ^ 24 + off
def memory (d off : Nat) : Nat := d * 2 ^ 24 + 0x10000 + off
def counter (d off : Nat) : Nat := d * 2 ^ 24 + 0x20000 + off
def dispatcher (d off : Nat) : Nat := d * 2 ^ 24 + 0x30000 + off
/-- Fabric blocks; dies 8 and 9 are I/O dies A and B. -/
def fabric (d off : Nat) : Nat := d * 2 ^ 24 + 0x40000 + off
def port (d p off : Nat) : Nat := fabric d (p * 0x80 + off)
def host (off : Nat) : Nat := 0x08100000 + off
def module (off : Nat) : Nat := 0x09100000 + off
end Reg

/-- Reset values other than zero of a compute die's blocks, by offset in the die (R46, R65, R73, R161, R189). -/
def dieReset (o : Nat) : Nat :=
  if o = 0x010 then 0x0400000000100000
  else if o = 0x208 then 0x40
  else if 0x10020 ≤ o && o ≤ 0x10038 && o % 8 = 0 then 2 ^ 40
  else if o = 0x10050 then 0x400
  else if o = 0x10058 then 0x1000
  else if o = 0x41000 then 0x10000000214
  else 0

/-- Reset values of the I/O dies' and the module's registers (R189, R190, R448; MCLK by R3; LCSTATE and FWSTAT by log 10). -/
def moduleReset (a : Nat) : Nat :=
  if a = Reg.fabric 8 0x1000 || a = Reg.fabric 9 0x1000 then 0x10000000214
  else if a = Reg.fabric 8 0x1188 || a = Reg.fabric 9 0x1188 then 0x40
  else if a = Reg.module 0x220 then 3600
  else if a = Reg.module 0x228 then 800
  else if a = Reg.module 0x230 then 2
  else 0

/-- The reset value of a register. -/
def regReset (a : Nat) : Nat := if a < 0x08000000 then dieReset (a % 2 ^ 24) else moduleReset a

namespace State

/-- A register's value. -/
def reg (s : State) (a : Nat) : Nat := s.mmio.get (regReset a) a
def setReg (s : State) (a v : Nat) : State := { s with mmio := s.mmio.put (regReset a) a v }
/-- A 64-bit counter that saturates (R47). -/
def bump (s : State) (a n : Nat) : State := s.setReg a (Nat.min (s.reg a + n) (2 ^ 64 - 1))

end State
end Sys2Proof.Machine
end

