-- ==== Sys2Proof/Machine/Fabric.lean ====
section
/-!
DEFINITION. The fabric: endpoints and routes, flows with their pacing and reorder state, output queues with trimming and
arbitration, links (spec/06 R162 to R190).
-/

namespace Sys2Proof.Machine

/-- This device's id: BRID, which the captain writes alike on both I/O dies (R190). -/
def State.devId (s : State) : Nat := s.reg (Reg.fabric 8 0x1180) % 2 ^ 12

/-- The bytes of a sector that the pieces of a packet write, as a mask (R163). -/
def sectorMask (ps : List Piece) : Nat :=
  (ps.map fun p => (List.range p.data.length).map fun i => (p.off + i) % 32).flatten.eraseDups.foldl (fun m i => m + 2 ^ i) 0

/-- The operation-specific bytes of a header (R163). -/
def Packet.ops (p : Packet) : List Byte :=
  match p.type with
  | .rd => leBytes 1 p.pieces.length ++ leBytes 5 0
  | .wr => leBytes 4 (if p.len = 1 then sectorMask p.pieces else 0) ++ leBytes 2 0
  | .atm => leBytes 1 p.fn ++ leBytes 1 p.pieces.length ++ leBytes 4 0
  | .ctr => leBytes 1 p.fn ++ leBytes 1 p.f ++ leBytes 4 0
  | .ctrr => leBytes 1 (match p.answer with
      | .cstat c => c
      | _ => 0) ++ leBytes 5 0
  | .ack => leBytes 2 p.seq ++ leBytes 4 0
  | .noroute => leBytes 2 p.seq ++ leBytes 1 p.fn ++ leBytes 3 0
  | _ => leBytes 6 0

/-- The ADDR field of a header: the address of the first byte, its aperture in [58:56] (log 64); the tag of a response; the destination that a
NOROUTE speaks of (R162). -/
def Packet.address (p : Packet) : Nat :=
  if p.type = .noroute then p.addr
  else if p.type.isResponse then tagBits p.tag
  else p.addr / 2 ^ 64 % 8 * 2 ^ 56 + p.addr % 2 ^ 55 + ((p.pieces.head?).map (·.off)).getD 0

/-- The header flit of a packet (R162). -/
def Packet.header (p : Packet) : List Byte :=
  let flags := (if p.trimmed then 1 else 0) + 2 * (p.vc % 4) + (if p.promoted then 8 else 0) + (if p.flowStart then 16 else 0)
  leBytes 1 p.type.code ++ leBytes 1 flags ++ leBytes 2 p.len ++ leBytes 4 p.dst ++ leBytes 4 p.src ++ leBytes 2 p.flow ++
    leBytes 2 p.seq ++ leBytes 8 p.address ++ leBytes 2 p.age ++ p.ops

namespace Endpoint
/-- The squad whose local crossbar a core, a copy engine or a vault controller is attached to (R188). -/
def squad (e : Endpoint) : Option Nat :=
  match cls e with
  | 0 | 1 => some (idx e / 8)
  | 3 => some (idx e / 4)
  | _ => none
/-- The switch an endpoint injects at. -/
def switch (e : Endpoint) : Nat :=
  match squad e with
  | some q => 16 + 16 * die e + q
  | none => die e
/-- The port an endpoint is attached to, by die and port number (R188; logical devices share the two CXL ports by parity). -/
def port (e : Endpoint) : Nat :=
  match cls e with
  | 0 | 1 => idx e / 8
  | 3 => idx e / 4
  | 6 => 8 + idx e % 3
  | 7 => 12 + idx e % 2
  | _ => 25
/-- Packets in the retransmit buffer (R182). -/
def buffer (e : Endpoint) : Nat :=
  match cls e with
  | 1 => 1024
  | 2 | 3 => 512
  | 6 => 4096
  | _ => 256
end Endpoint

/-- Whether a sequence number is covered by an acknowledgement of another. -/
def covered (seq ack : Nat) : Bool := (ack + 2 ^ 16 - seq) % 2 ^ 16 < 2 ^ 15

/-- A flow after an ACK: covered packets leave the buffer; each delivered untrimmed on first sending halves the interval (R177). -/
def SrcFlow.acked (f : SrcFlow) (ack : Nat) : SrcFlow :=
  let done := f.unacked.filter fun u => covered u.packet.seq ack
  let clean := (done.filter fun u => !u.resent).length
  { f with
    unacked := f.unacked.filter fun u => !covered u.packet.seq ack
    resend := f.resend.filter fun q => !covered q ack
    interval := if clean = 0 then f.interval else Nat.max (f.interval / 2 ^ clean) 64
    lastEvent := if clean = 0 then f.lastEvent else .clean }

/-- A flow after an RREQ for a sequence number (R177), and after a NOROUTE, whose interval is held at 4,096 (R187) and goes on from there (log 101). -/
def SrcFlow.rreq (f : SrcFlow) (seq now : Nat) (held : Bool) : SrcFlow :=
  if f.unacked.any (fun u => u.packet.seq = seq) then
    { f with
      interval := if held then 4096 else if f.lastEvent = .trim then Nat.min (2 * f.interval) 4096 else f.interval
      lastEvent := .trim
      resend := if f.resend.contains seq then f.resend else f.resend ++ [seq]
      unacked := f.unacked.map fun u =>
        if u.packet.seq = seq then { u with resent := true, last := now, held := u.held || held } else u }
  else f

/-- The pacing interval of a flow: 4,096 while a packet is kept under R187. -/
def SrcFlow.pace (f : SrcFlow) : Nat := if f.unacked.any (·.held) then 4096 else f.interval

/-- The lowest queued sequence number, counted from the oldest packet that is kept. -/
def SrcFlow.lowest (f : SrcFlow) : Option Unacked := f.unacked.find? fun u => f.resend.contains u.packet.seq

namespace State

def coreEnd (s : State) (c : Nat) : Endpoint := Endpoint.make s.devId (c / 128) 0 (c % 128)
def engineEnd (s : State) (c : Nat) : Endpoint := Endpoint.make s.devId (c / 128) 1 (c % 128)
def sliceEnd (s : State) (d k : Nat) : Endpoint := Endpoint.make s.devId d 2 k
def vaultEnd (s : State) (d k : Nat) : Endpoint := Endpoint.make s.devId d 3 k
def dtuEnd (s : State) (die : Nat) : Endpoint := Endpoint.make s.devId die 4 0
def batteryEnd (s : State) (b : Nat) : Endpoint := Endpoint.make s.devId (b / 8) 5 (b % 8)
/-- A logical device stands on I/O die A (R188). -/
def deviceEnd (s : State) (ld : Nat) : Endpoint := Endpoint.make s.devId 8 7 ld
def dispatcherEnd (s : State) (die : Nat) : Endpoint := Endpoint.make s.devId die 8 0
/-- The die and squad of a local crossbar, and the die of any switch. -/
def switchSquad (sw : Nat) : Nat := (sw - 16) % 16
def switchDie (sw : Nat) : Nat := if sw < 16 then sw else (sw - 16) / 16
/-- The counters of a switch's port; those of a local crossbar's outputs are the uplink's, which R188 numbers (log 74). -/
def portReg (sw port off : Nat) : Nat := if sw < 16 then Reg.port sw port off else Reg.port (switchDie sw) (switchSquad sw) off

/-- Birrak port p: ports 0 to 2 on I/O die A, 3 to 5 on B (R188). -/
def birrakEnd (s : State) (p : Nat) : Endpoint := Endpoint.make s.devId (8 + p / 3) 6 p

/-- A link between two dies has a half in service (R184); the I/O bridge always has. -/
def linkUp (s : State) (a b : Nat) : Bool := s.fabric.links.get 0 (16 * Nat.min a b + Nat.max a b) < 3

/-- One level of the search for the shortest path of in-service links, lowest intermediate dies first (R184). -/
def grow (s : State) (paths seen : List (List Nat)) : List (List Nat) :=
  paths.foldl (fun acc p => (List.range 10).foldl (fun acc n =>
    if (seen ++ acc).any (fun q => q.getLast? = some n) || !s.linkUp (p.getLast?.getD 0) n then acc else acc ++ [p ++ [n]]) acc) []

def search (s : State) (dst : Nat) : Nat → List (List Nat) → List (List Nat) → Option (List Nat)
  | 0, _, _ => none
  | n + 1, paths, seen =>
    match paths.find? (fun p => p.getLast? = some dst) with
    | some p => some p
    | none => search s dst n (s.grow paths seen) (seen ++ s.grow paths seen)

/-- The next die on the way from one die to another, none when it is unreachable (R184). -/
def nextDie (s : State) (a b : Nat) : Option Nat :=
  if s.linkUp a b then some b else ((s.search b 10 [[a]] [[a]]).bind fun p => p[1]?)

/-- The port of a die on which the link to another die stands (R188). -/
def linkPort (a b : Nat) : Nat :=
  if a < 8 then (if b < 8 then 16 + (if b < a then b else b - 1) else 15 + b)
  else if b < 8 then b else 11

/-- The role of a Birrak port and the device of a direct one (R190). -/
def brRole (s : State) (p : Nat) : Nat := s.reg (Reg.fabric (8 + p / 3) (0x1100 + 0x20 * (p % 3))) % 8
def brDir (s : State) (p : Nat) : Nat := s.reg (Reg.fabric (8 + p / 3) (0x1100 + 0x20 * (p % 3))) / 2 ^ 20 % 2 ^ 12

/-- The width of a port from its retired lanes (R185). -/
def birrakWidth (bad : Nat) : Nat :=
  if bad % 2 ^ 16 = 0 then 16
  else if bad % 2 ^ 8 = 0 || bad / 2 ^ 8 % 2 ^ 8 = 0 then 8
  else if bad % 16 = 0 || bad / 16 % 16 = 0 || bad / 256 % 16 = 0 || bad / 4096 % 16 = 0 then 4
  else 0

def birrakOf (s : State) (p : Nat) : Birrak := s.fabric.birrak.get Birrak.empty p
/-- A port that has not trained since reset, or has no wholly good quarter, is down (R185, R190). -/
def birrakDown (s : State) (p : Nat) : Bool := !(s.birrakOf p).trained || birrakWidth (s.birrakOf p).badLanes = 0

/-- The Birrak port for another device (R186): a direct one, else by column, else by row; of two with the role, the one named by
bit 0 of the flow id, the lower-numbered by 0, or the one that is not down; of more the first two (log 92). -/
def meshPort (s : State) (dev flow : Nat) : Option Nat :=
  let mine := s.devId
  let direct := (List.range 6).filter fun p => s.brRole p = 5 && s.brDir p = dev
  let role := if dev % 64 ≠ mine % 64 then (if mine % 64 < dev % 64 then 1 else 2) else (if mine / 64 < dev / 64 then 3 else 4)
  let ports := if direct ≠ [] then direct else (List.range 6).filter fun p => s.brRole p = role
  match ports with
  | p :: q :: _ =>
    if s.birrakDown p && !s.birrakDown q then some q
    else if s.birrakDown q && !s.birrakDown p then some p
    else some (if flow % 2 = 0 then p else q)
  | [p] => some p
  | [] => none

/-- Where a packet goes next from a switch: an output port; none when no port has the required role (R186). A local crossbar keeps
what is for its squad; a die's crossbar reaches vaults by the lateral network (R58, R188). -/
def route (s : State) (sw : Nat) (p : Packet) : Option Nat :=
  let mine := Endpoint.dev p.dst = s.devId
  if 16 ≤ sw then
    some (if mine && Endpoint.switch p.dst = sw then (if Endpoint.cls p.dst = 3 then 9 + Endpoint.idx p.dst % 4 else Endpoint.idx p.dst % 8)
      else 8)
  else
    let goTo := fun d port => if d = sw then some port else (s.nextDie sw d).map (linkPort sw)
    if mine then goTo (Endpoint.die p.dst) (if Endpoint.cls p.dst = 3 then 26 else Endpoint.port p.dst)
    else (s.meshPort (Endpoint.dev p.dst) p.flow).bind fun b => goTo (8 + b / 3) (8 + b % 3)

/-- The switch on the other side of an output port, none for an endpoint or another device. -/
def across (sw port : Nat) : Option Nat :=
  if 16 ≤ sw then (if port = 8 then some (switchDie sw) else none)
  else if sw < 8 then
    (if port < 16 then some (16 + 16 * sw + port)
     else if port ≤ 22 then some (if port - 16 < sw then port - 16 else port - 15)
     else if port = 23 || port = 24 then some (port - 15) else none)
  else if port < 8 then some port
  else if port = 11 then some (17 - sw)
  else none

/-- The port through which a packet from another switch arrives. -/
def entrance (sw sender : Nat) : Nat := if 16 ≤ sw then 8 else if 16 ≤ sender then switchSquad sender else linkPort sw sender

def onFabric (s : State) (f : Fabric → Fabric) : State := { s with fabric := f s.fabric }
def outOf (s : State) (die port : Nat) : OutQueue := s.fabric.outs.get OutQueue.empty (32 * die + port)
def setOut (s : State) (die port : Nat) (o : OutQueue) : State :=
  s.onFabric fun f => { f with outs := f.outs.put OutQueue.empty (32 * die + port) o }

/-- A packet waits at the input of the output queue its route names; one for a die with no link in service goes nowhere, and its
source sends it again under R187. The switch is numbered as in `Fabric`. -/
def place (s : State) (die : Nat) (p : Packet) : State :=
  match s.route die p with
  | some port => s.setOut die port { s.outOf die port with input := (s.outOf die port).input ++ [p] }
  | none => s

/-- No port has the role that a packet for another device needs (R186). -/
def unroutable (s : State) (die : Nat) (p : Packet) : Bool :=
  die < 16 && Endpoint.dev p.dst ≠ s.devId && (s.meshPort (Endpoint.dev p.dst) p.flow).isNone

/-- A packet that is not a request is discarded for want of a route: FNOROUTE of the port of arrival, and a route record (R187). -/
def discard (s : State) (die port : Nat) : State :=
  let s := s.bump (Reg.port die port 0x48) 1
  { s with records := s.records ++ [[BitVec.ofNat 8 1, BitVec.ofNat 8 die, BitVec.ofNat 8 port]] }

/-- A packet for which no port has the required role: a request is answered with NOROUTE (R186); of the others all but a NOROUTE
are discarded with a NOROUTE to their source, counted at the port of arrival, with a route record for the captain (R187). The NOROUTE
names as its source the Birrak port 0 of the die where routing fails (log 70), and says which kind of packet it was and where it was
going; one that finds no route itself is discarded like any. -/
def noRoute (s : State) (die port : Nat) (p : Packet) : State :=
  let kind := if p.type.isRequest then (if p.trimmed then 5 else 1) else if p.type = .ack then 2 else if p.type = .rreq then 3 else 0
  let q : Packet :=
    ⟨.noroute, false, 3, false, false, 0, p.src, Endpoint.make s.devId die 6 0, p.flow, p.seq, p.dst, 0, kind, 0, p.tag, .noRoute, [], p.via,
      0, 0, 0, 0⟩
  let back := fun (s : State) => if s.unroutable die q then s.discard die port else s.place die q
  if p.type.isRequest && !p.trimmed then back s
  else if p.type = .noroute then s.discard die port
  else back (s.discard die port)

/-- A packet reaches a switch, through the port given. -/
def arriveFrom (s : State) (die port : Nat) (p : Packet) : State :=
  if s.unroutable die p then s.noRoute die port p else s.place die p

/-- A packet enters its source's switch. -/
def arriveAt (s : State) (die : Nat) (p : Packet) : State := s.arriveFrom die (Endpoint.port p.src) p

/-- The port of another device through which a packet of a flow enters it: the one whose role is the opposite of the last hop's, of two the one
that bit 0 of the flow id names there too, on a peer whose ports have the roles of this device's (R167, R186; logs 64, 92). -/
def ingressOf (s : State) (dev flow : Nat) : Nat :=
  let mine := s.devId
  let direct := (List.range 6).any fun p => s.brRole p = 5 && s.brDir p = dev
  let role := if direct then 5 else if dev / 64 ≠ mine / 64 then (if mine / 64 < dev / 64 then 4 else 3)
    else if mine % 64 < dev % 64 then 2 else 1
  match (List.range 6).filter fun p => s.brRole p = role with
  | p :: q :: _ => if flow % 2 = 0 then p else q
  | [p] => p
  | [] => 0

/-- The destination of a flow for a packet: its final unit, or the ingress port of another device (R167). -/
def flowDst (s : State) (d : Endpoint) (flow : Nat) : Endpoint :=
  if Endpoint.dev d = s.devId then d else let p := s.ingressOf (Endpoint.dev d) flow; Endpoint.make (Endpoint.dev d) (8 + p / 3) 6 p

/-- Two destinations lie on one flow: the same unit of this device, or units of one other device (R166, R167). -/
def together (s : State) (a b : Endpoint) : Bool := if Endpoint.dev b = s.devId then a = b else Endpoint.dev a = Endpoint.dev b

/-- Whether a source may inject on a flow: a free place in its retransmit buffer, under 1,024 unacknowledged, and nothing of the flow
waiting before it (R166, R182). -/
def canSend (s : State) (src dst : Endpoint) (vc : Nat) : Bool :=
  let mine := s.fabric.srcFlows.filter fun f => f.src = src
  (mine.foldl (fun n f => n + f.unacked.length) 0) < Endpoint.buffer src &&
    (match mine.find? fun f => s.together f.dst dst && f.vc = vc with
     | some f => f.unacked.length < 1024
     | none => true) &&
    !s.fabric.held.any fun p => p.src = src && s.together p.dst dst && p.vc = vc

/-- A flow id that none of a source's open flows has (R166). -/
def freeFlow (s : State) (src : Endpoint) : Nat :=
  let used := (s.fabric.srcFlows.filter fun f => f.src = src).map (·.id)
  (((List.range (used.length + 1)).map fun i => (s.fabric.nextFlow + i) % 2 ^ 16).find? fun i => !used.contains i).getD 0

/-- Inject a packet: its flow is opened when there is none, the packet takes the next sequence number and is kept until it is
acknowledged (R166, R168). -/
def inject (s : State) (p : Packet) : State :=
  let isFlow := fun (f : SrcFlow) => f.src = p.src && s.together f.dst p.dst && f.vc = p.vc
  let (s, f) := match s.fabric.srcFlows.find? isFlow with
    | some f => (s, f)
    | none =>
      let id := s.freeFlow p.src
      let f : SrcFlow := ⟨p.src, s.flowDst p.dst id, p.vc, id, 0, [], 64, 0, .clean, []⟩
      (s.onFabric fun g => { g with srcFlows := g.srcFlows ++ [f], nextFlow := g.nextFlow + 1 }, f)
  let p := { p with flow := f.id, seq := f.nextSeq % 2 ^ 16, flowStart := f.nextSeq = 0, age := 0 }
  let f' := { f with nextSeq := f.nextSeq + 1, unacked := f.unacked ++ [⟨p, false, s.fclk, false⟩] }
  let s := s.onFabric fun g => { g with srcFlows := g.srcFlows.map fun x => if isFlow x then f' else x }
  s.arriveAt (Endpoint.switch p.src) p

/-- A packet leaves its source when it may be injected, and waits there until then. -/
def send (s : State) (p : Packet) : State :=
  if s.canSend p.src p.dst p.vc then s.inject p else s.onFabric fun g => { g with held := g.held ++ [p] }

/-! SVC packets: what the spec lets them carry the service defines; OPS here numbers what is carried, and `tag` the request or the answer at its
source (R163; log 59). -/

/-- An SVC packet between units of this device, on virtual channel 3. -/
def svcPacket (fn : Nat) (src dst : Endpoint) (tag : ReqRef) (bytes : List Byte) : Packet :=
  ⟨.svc, false, 3, false, false, (bytes.length + 31) / 32, dst, src, 0, 0, 0, 0, fn, 0, tag, .done, [⟨0, 0, bytes.length, bytes, none⟩], none,
    0, 0xFF, 0, 0⟩
/-- A service call's record to a battery; a post to its dispatcher; a question for a park token and its answer; a question for a saved
workgroup and its answer (R159, R379, R386, R401). -/
def svcCall : Nat := 1
def svcPost : Nat := 2
def svcToken : Nat := 3
def svcTokenMet : Nat := 4
def svcSaved : Nat := 5
def svcEntry : Nat := 6

/-- Packets that waited at their sources go when they may, each flow in order. -/
def sendHeld (s : State) : State :=
  s.fabric.held.foldl State.send (s.onFabric fun g => { g with held := [] })

/-- A control packet outside the numbering of flows: ACK, RREQ and NOROUTE name the flow they speak of (R168, R176, R187). -/
def control (s : State) (ty : PType) (vc : Nat) (src dst : Endpoint) (flow seq : Nat) : State :=
  s.arriveAt (Endpoint.switch src)
    ⟨ty, false, vc, false, false, 0, dst, src, flow, seq, 0, 0, 0, 0, (0, 0), .done, [], none, 0, 0, 0, 0⟩

/-- The port counters of an endpoint (R188). -/
def bumpPort (s : State) (e : Endpoint) (off n : Nat) : State := s.bump (Reg.port (Endpoint.die e) (Endpoint.port e) off) n

def flowsAt (s : State) (e : Endpoint) : List DstFlow := s.fabric.dstFlows.get [] e
def setFlowsAt (s : State) (e : Endpoint) (fs : List DstFlow) : State :=
  s.onFabric fun f => { f with dstFlows := f.dstFlows.put [] e fs }
def inbox (s : State) (e : Endpoint) : List Packet := s.fabric.inbox.get [] e
def setInbox (s : State) (e : Endpoint) (ps : List Packet) : State :=
  s.onFabric fun f => { f with inbox := f.inbox.put [] e ps }

/-- An ACK for a flow, with the highest sequence delivered in order (R168). -/
def sendAck (s : State) (e : Endpoint) (f : DstFlow) : State :=
  s.control .ack 3 e f.src f.id ((f.expected + 2 ^ 16 - 1) % 2 ^ 16)

/-- An RREQ for a sequence number of a flow (R176, R179). -/
def sendRreq (s : State) (e : Endpoint) (src : Endpoint) (flow seq : Nat) : State :=
  (s.control .rreq 0 e src flow seq).bumpPort e 0x10 1

def sameFlow (p : Packet) (f : DstFlow) : Bool := f.src = p.src && f.id = p.flow

/-- A flow with no hole and nothing buffered may be replaced, least recently used first (R180). -/
def evictable (fs : List DstFlow) : Option DstFlow :=
  (fs.filter fun f => f.holes = [] && f.buffered = []).foldl (fun m f =>
    match m with
    | some g => if f.stamp < g.stamp then some f else some g
    | none => some f) none

/-- The key of a flow whose state was replaced. -/
def closedKey (e src : Endpoint) (id : Nat) : Nat := 2 ^ 48 * e + 2 ^ 16 * src + id

/-- The flow state for an arriving packet: found, opened, or none when the packet is trimmed at the receiver (R178, R180). A flow opens
at its first number. A flow-start packet may replace an idle flow, whose due ACK is sent; a later packet of a replaced flow opens it
again at the number it stood at, so that nothing is delivered twice (R168; log 73). Where state stands, the flow-start flag says nothing: a flow
opened anew under an id in use or used before is not told from the earlier one (log 101). -/
def openFlow (s : State) (e : Endpoint) (p : Packet) : Option (State × DstFlow) :=
  let fs := s.flowsAt e
  match fs.find? (sameFlow p) with
  | some f => some (s, f)
  | none =>
    let k := closedKey e p.src p.flow
    let known := s.fabric.closed.find? k
    let f : DstFlow := ⟨p.src, p.flow, p.vc, known.getD 0, [], [], 0, 0, s.fclk⟩
    let put := fun (s : State) (fs : List DstFlow) => (s.onFabric fun g => { g with closed := g.closed.erase k }).setFlowsAt e (fs ++ [f])
    if fs.length < 512 then some (put s fs, f)
    else if !p.flowStart && known.isNone then none
    else match evictable fs with
      | some g =>
        let s := if g.due = 0 then s else s.sendAck e g
        let s := s.onFabric fun x => { x with closed := x.closed.insert (closedKey e g.src g.id) g.expected }
        some (put s (fs.filter (· ≠ g)), f)
      | none => none

def putFlow (s : State) (e : Endpoint) (f : DstFlow) : State :=
  s.setFlowsAt e ((s.flowsAt e).map fun g => if g.src = f.src && g.id = f.id then f else g)

/-- How far a sequence number lies beyond the expected one, numbers wrapping at 65,536 (R166). -/
def ahead (f : DstFlow) (seq : Nat) : Nat := (seq + 2 ^ 16 - f.expected) % 2 ^ 16

/-- Take the head of an endpoint's inbox when it is a whole packet of one of the types: deliver it in order and serve it, buffer it
behind a hole, drop a duplicate, or trim it at the receiver (R168, R178 to R180). Buffered packets that continue the sequence
stand at the head of the inbox afterwards, each to be delivered by a step of its own. -/
def receive (s : State) (e : Endpoint) (want : PType → Bool) (serve : Packet → State → State) : State :=
  match s.inbox e with
  | [] => s
  | p :: rest =>
    if p.trimmed || !want p.type then s
    else
      let s := s.setInbox e rest
      match s.openFlow e p with
      | none => (s.bumpPort e 0x28 1).sendRreq e p.src p.flow p.seq
      | some (s, f) =>
        if ahead f p.seq = 0 then
          let next := (p.seq + 1) % 2 ^ 16
          let ready := f.buffered.filter fun q => q.seq = next
          let due := f.due + 1
          let f := { f with
            expected := next
            holes := f.holes.filter (· ≠ p.seq)
            buffered := f.buffered.filter fun q => q.seq ≠ next
            due := if due = 8 then 0 else due
            dueSince := if f.due = 0 then s.fclk else f.dueSince
            stamp := s.fclk }
          let s := (s.putFlow e f).setInbox e (ready ++ s.inbox e)
          serve p (if due = 8 then s.sendAck e f else s)
        else if 2 ^ 15 ≤ ahead f p.seq || f.buffered.any (fun q => q.seq = p.seq) then s
        else if ((s.flowsAt e).foldl (fun n g => n + g.buffered.length) 0) < 64 then
          s.putFlow e { f with buffered := f.buffered ++ [p], stamp := s.fclk }
        else
          ((s.putFlow e { f with holes := p.seq :: f.holes.filter (· ≠ p.seq) }).bumpPort e 0x28 1).sendRreq e p.src p.flow p.seq

/-- A bunt at the head of an inbox: an RREQ to the source (R176), and a hole unless its packet has been delivered or is buffered (R178). -/
def receiveBunt (s : State) (e : Endpoint) : State :=
  match s.inbox e with
  | [] => s
  | p :: rest =>
    if !p.trimmed then s
    else
      let s := (s.setInbox e rest).bumpPort e 0x08 1
      match s.openFlow e p with
      | none => (s.bumpPort e 0x28 1).sendRreq e p.src p.flow p.seq
      | some (s, f) =>
        let known := 2 ^ 15 ≤ ahead f p.seq || f.buffered.any fun q => q.seq = p.seq
        (if known then s else s.putFlow e { f with holes := p.seq :: f.holes.filter (· ≠ p.seq), stamp := s.fclk }).sendRreq e p.src p.flow p.seq

/-- Change the source flow that a control packet speaks of. -/
def onSrcFlow (s : State) (src : Endpoint) (id : Nat) (f : SrcFlow → SrcFlow) : State :=
  s.onFabric fun g => { g with srcFlows := g.srcFlows.map fun x => if x.src = src && x.id = id then f x else x }

/-- One retransmission of a flow, when a sequence is queued and the time has come (R177). -/
def retransmit (s : State) (src : Endpoint) (id : Nat) : State :=
  match s.fabric.srcFlows.find? (fun f => f.src = src && f.id = id) with
  | none => s
  | some f =>
    match f.lowest with
    | none => s
    | some u =>
      if s.fclk < f.notBefore then s
      else
        let s := s.onSrcFlow src id fun f => { f with
          resend := f.resend.filter (· ≠ u.packet.seq)
          notBefore := s.fclk + f.pace
          unacked := f.unacked.map fun x => if x.packet.seq = u.packet.seq then { x with resent := true, last := s.fclk } else x }
        (s.bumpPort src 0x18 1).arriveAt (Endpoint.switch src) { u.packet with age := 0, promoted := false, trimmed := false }

/-- A packet kept for 65,536 fabric cycles with no ACK, RREQ or NOROUTE for it is queued again, under the same pacing (R187); once it is acknowledged
the flow has the interval that it had (log 101). -/
def resendOld (s : State) (src : Endpoint) (id : Nat) : State :=
  s.onSrcFlow src id fun f => { f with
    resend := f.resend ++ ((f.unacked.filter fun u => u.last + 65536 ≤ s.fclk && !f.resend.contains u.packet.seq).map (·.packet.seq))
    unacked := f.unacked.map fun u => if u.last + 65536 ≤ s.fclk then { u with resent := true, last := s.fclk, held := true } else u }

/-- An endpoint sends the ACKs that are due 32 fabric cycles after the first unacknowledged delivery (R168). -/
def ackDue (s : State) (e : Endpoint) : State :=
  (s.flowsAt e).foldl (fun s f =>
    if f.due ≠ 0 && f.dueSince + 32 ≤ s.fclk then (s.putFlow e { f with due := 0 }).sendAck e f else s) s

end State

namespace OutQueue
def flits (ps : List Packet) : Nat := ps.foldl (fun n p => n + p.flits) 0
def channel (o : OutQueue) : Nat → List Packet
  | 0 => o.vc0
  | 1 => o.vc1
  | 2 => o.vc2
  | _ => o.vc3
def setChannel (o : OutQueue) (c : Nat) (ps : List Packet) : OutQueue :=
  match c with
  | 0 => { o with vc0 := ps }
  | 1 => { o with vc1 := ps }
  | 2 => { o with vc2 := ps }
  | _ => { o with vc3 := ps }
def push (o : OutQueue) (p : Packet) : OutQueue := o.setChannel p.channel (o.channel p.channel ++ [p])

/-- The packet at the input is admitted, trimmed or held under credits (R173, R174). The flag says that it was trimmed. One that is to be trimmed
while channel 0 is full stays whole at the input and is tested again, so that it may then be admitted untrimmed (log 101). -/
def letIn (o : OutQueue) (p : Packet) : Option (OutQueue × Bool) :=
  let occ := flits (o.channel p.channel)
  if 1 ≤ p.len && !p.trimmed then
    if 24 < occ then
      let b := { p with trimmed := true }
      if flits o.vc0 < 32 then some (o.push b, true) else none
    else some (o.push p, false)
  else if occ < 32 then some (o.push p, false)
  else none

/-- The first packet at the inputs that its channel admits: each channel is first-in first-out, and one that is blocked holds back no
other (R170, R174). The flag says that it was trimmed. -/
def takeInput (o : OutQueue) (blocked : List Nat) : List Packet → Option (OutQueue × Bool × List Packet)
  | [] => none
  | p :: rest =>
    let later := fun (b : List Nat) => (takeInput o b rest).map fun r => (r.1, r.2.1, p :: r.2.2)
    if blocked.contains p.channel then later blocked
    else match o.letIn p with
      | some (o, trimmed) => some (o, trimmed, rest)
      | none => later (p.channel :: blocked)

/-- One round of visits from the weights (R171): passes over channels 1, 3, 2. -/
def rounds (w1 w2 w3 : Nat) : Nat → List Nat
  | 0 => []
  | n + 1 =>
    (if 0 < w1 then [1] else []) ++ (if 0 < w3 then [3] else []) ++ (if 0 < w2 then [2] else []) ++ rounds (w1 - 1) (w2 - 1) (w3 - 1) n

/-- Whether a head of channel 2 or 3 is promoted (R172); with promotion disabled one that comes promoted still is (R189; log 93). -/
def isPromoted (promo : Nat) (p : Packet) : Bool := p.promoted || (promo ≠ 0 && promo ≤ p.age)

/-- The channel a visit grants from (R171, R172): at channel 1 the oldest of its head and the promoted heads. -/
def visit (o : OutQueue) (promo c : Nat) : Option Nat :=
  if c = 1 then
    let cands := [1, 3, 2].filter fun k =>
      match (o.channel k).head? with
      | some p => k = 1 || isPromoted promo p
      | none => false
    let age := fun k => ((o.channel k).head?.map (·.age)).getD 0
    cands.foldl (fun m k =>
      match m with
      | some j => if age j < age k then some k else some j
      | none => some k) none
  else if (o.channel c).isEmpty then none else some c

/-- The visits until one grants, and those left of the round. -/
def choose (o : OutQueue) (promo : Nat) : List Nat → Option (Nat × List Nat)
  | [] => none
  | c :: cs =>
    match o.visit promo c with
    | some k => some (k, cs)
    | none => choose o promo cs
end OutQueue

namespace State

/-- A packet at the inputs of an output reaches its queue (R173, R174); a trim counts in FTRIM. -/
def queueArrival (s : State) (die port : Nat) : State :=
  let o := s.outOf die port
  match o.takeInput [] o.input with
  | some (o, trimmed, rest) =>
    let s := s.setOut die port { o with input := rest }
    if trimmed then s.bump (portReg die port 0x00) 1 else s
  | none => s

/-- A packet may cross an output: at the next switch no packet of its channel waits for a place at the output it goes on to (R170). -/
def crossable (s : State) (die port : Nat) (p : Packet) : Bool :=
  match (across die port).bind fun d => (s.route d p).map fun q => s.outOf d q with
  | some o => !o.input.any fun q => q.channel = p.channel
  | none => true

/-- A packet has crossed an output: to the next switch, to its endpoint, or out of the device. -/
def cross (s : State) (die port : Nat) (p : Packet) : State :=
  match across die port with
  | some d => s.arriveFrom d (entrance d die) p
  | none =>
    if Endpoint.dev p.dst = s.devId then s.setInbox p.dst (s.inbox p.dst ++ [p])
    else s.onFabric fun f => { f with egress := f.egress ++ [p] }

/-- Whether an output's link can carry a flit: a Birrak port that is down or retraining holds everything (R185). -/
def outputOpen (s : State) (die port : Nat) : Bool :=
  if (die = 8 || die = 9) && 8 ≤ port && port ≤ 10 then
    let b := (die - 8) * 3 + (port - 8)
    !s.birrakDown b && (s.birrakOf b).retrainTill ≤ s.fclk
  else true

/-- Weights of the round and the promotion age of a switch's die (R189). -/
def farb (s : State) (die : Nat) : Nat := s.reg (Reg.fabric (switchDie die) 0x1000)
def weight (n : Nat) : Nat := if n % 16 = 0 then 1 else n % 16

/-- The channels of an output whose heads may cross. -/
def eligibleHeads (s : State) (die port : Nat) (o : OutQueue) : OutQueue :=
  (List.range 4).foldl (fun o c =>
    match (o.channel c).head? with
    | some p => if s.crossable die port p then o else o.setChannel c []
    | none => o) o

/-- An output grants its next packet that has a place downstream: by the visits left of its round, and when none of them grants by those of a new one
(R170 to R172). -/
def grant (s : State) (die port : Nat) : State :=
  let o := s.outOf die port
  if !s.outputOpen die port || s.fclk < o.busyTill then s
  else
    let fb := s.farb die
    let promo := fb / 2 ^ 32 % 2 ^ 10
    let round := OutQueue.rounds (weight fb) (weight (fb / 16)) (weight (fb / 256)) 15
    let free := s.eligibleHeads die port o
    let pick := if !free.vc0.isEmpty then some (0, o.round) else (free.choose promo o.round).or (free.choose promo round)
    match pick with
    | none => s
    | some (c, left) =>
      match o.channel c with
      | [] => s
      | p :: rest =>
        let promoted := (c = 2 || c = 3) && OutQueue.isPromoted promo p
        let s := s.setOut die port { o.setChannel c rest with round := left, busyTill := s.fclk + p.flits }
        let s := if promoted && !p.promoted then s.bump (portReg die port 0x30) 1 else s
        s.cross die port { p with promoted := p.promoted || promoted }

end State
end Sys2Proof.Machine
end

