-- ==== Sys2Proof/Machine/Homes.lean ====
section
/-!
DEFINITION. What is done at the home of an address: its place, reads and writes with the code of the stored units, replicas,
counters with their waiters and wakes, rings of records (spec/02 R58 to R64, R68 to R70; spec/03 R84, R96 to R99; spec/04 R110 to
R122; spec/05 R146 to R148).
-/

namespace Sys2Proof.Machine

/-- Aperture and address of a memory key. -/
def keyAp (k : Nat) : Nat := k / 2 ^ 64
def keyPa (k : Nat) : Nat := k % 2 ^ 64
/-- The line and the unit of a byte. -/
def lineOf (k : Nat) : Nat := k / 128 * 128
def unitOf (k : Nat) : Nat := k / 32 * 32

/-- The first device-reserved frame of HBM (R20). -/
def reservedFrame : Nat := 0x01FF0000

/-- The hash of R59 over PA[42:7]. -/
def sliceHash (pa : Nat) : Nat := (List.range 9).foldl (fun h i => h ^^^ (pa / 2 ^ (7 + 4 * i) % 16)) 0

/-- The die of a channel or vault, and the channel's number in CHOWN of that die (R58, R63, R64, R73). -/
def channelOf (ap pa : Nat) : Nat × Nat :=
  if ap = 0 then (pa / 2 ^ 15 % 512 / 64, pa / 2 ^ 15 % 64)
  else if ap = 1 then (pa / 2 ^ 15 % 64 / 8, 64 + pa / 2 ^ 15 % 8)
  else (pa / 2 ^ 28 % 8, 0)

namespace State

/-- The partition of an assigned unit of 16 cores (R438). -/
def unitPart (s : State) (n : Nat) : Option Nat :=
  let v := s.reg (Reg.module (8 * n))
  if v / 2 ^ 7 % 2 = 1 then some (v % 64) else none
/-- The unit of a core: two squads (R438). -/
def unitOfCore (c : Nat) : Nat := c / 16
def corePart (s : State) (c : Nat) : Option Nat := s.unitPart (unitOfCore c)

/-- The partition that owns the channel, or the squad above the vault, of an address (R34, R59). -/
def framePart (s : State) (ap pa : Nat) : Option Nat :=
  if ap = 3 then s.unitPart (pa / 2 ^ 28 % 8 * 8 + pa / 2 ^ 22 % 64 / 8)
  else
    let (d, n) := channelOf ap pa
    let v := s.reg (Reg.memory d (0x800 + 8 * n))
    if v / 2 ^ 7 % 2 = 1 then some (v % 64) else none

/-- The slices of a die that serve an address (R59). -/
def slicesFor (s : State) (die ap pa : Nat) : List Nat :=
  let all := List.range 16
  if ap = 0 && reservedFrame ≤ pa / 2 ^ 15 then all
  else match s.framePart ap pa with
    | none => all
    | some p => all.filter fun k => (s.reg (Reg.memory die (0x200 + 8 * p))).testBit k

/-- The endpoint of a home (R58, R59); an empty list of slices does not come about under R61, and then slice 0 stands. -/
def homeEnd (s : State) (ap pa : Nat) : Endpoint :=
  let d := (channelOf ap pa).1
  if ap = 3 then s.vaultEnd d (pa / 2 ^ 22 % 64)
  else
    let l := s.slicesFor d ap pa
    s.sliceEnd d (l.getD (sliceHash pa % l.length) 0)

/-- Where a load of an RP page goes: the reading die's slice when the partition holds one there (R62). -/
def replicaEnd (s : State) (die ap pa : Nat) : Endpoint :=
  let l := s.slicesFor die ap pa
  if l.isEmpty then s.homeEnd ap pa else s.sliceEnd die (l.getD (sliceHash pa % l.length) 0)

/-- The number of a home in the lists of waiters. -/
def homeNo (e : Endpoint) : Nat := if Endpoint.cls e = 3 then 1024 + 64 * Endpoint.die e + Endpoint.idx e else 16 * Endpoint.die e + Endpoint.idx e
/-- Warp waiter and agent watch slots of a home (R118). -/
def warpSlots (home : Nat) : Nat := if home < 1024 then 2048 else if home < 2048 then 512 else 256
def agentSlots (home : Nat) : Nat := if home < 1024 then 128 else if home < 2048 then 32 else 0
def dieOfHome (home : Nat) : Nat := if home < 1024 then home / 16 else if home < 2048 then (home - 1024) / 64 else (home - 2048) / 128

/-- The lowest free slot of a pool. -/
def freeSlot (s : State) (home : Nat) (agent : Bool) : Option Nat :=
  let used := (s.waiters.filter fun w => w.home = home && w.agent = agent).map (·.slot)
  (List.range (Nat.min (used.length + 1) (if agent then agentSlots home else warpSlots home))).find? fun k => !used.contains k

/-- Register a waiter when a slot is free; CWPEAK keeps the largest use of warp slots (R119, R126). Slots in use when it is cleared count again
with the next registration (log 90). -/
def addWaiter (s : State) (home : Nat) (agent : Bool) (addr threshold : Nat) (who : Waiting) (world va ts : Nat) : Option State :=
  (s.freeSlot home agent).map fun k =>
    let s := { s with waiters := s.waiters ++ [⟨home, agent, k, addr, threshold, who, world, va, ts⟩] }
    let n := (s.waiters.filter fun w => w.home = home && !w.agent).length
    let r := Reg.counter (dieOfHome home) 0x18
    if agent then s else s.setReg r (Nat.max (s.reg r) n)

/-- A request that has been performed counts in DGREL when it had been released from a dugout (R161). -/
def countReleased (s : State) (r : Req) : State :=
  match r.seqs, r.stage with
  | [], _ | _, .done | _, .parked _ _ => s
  | (d, _) :: _, _ => s.bump (Reg.dtu d 0x230) 1

/-- Deliver a value to every piece of a request, which is then done. -/
def fulfil (s : State) (ref : ReqRef) (got : List Byte) : State :=
  let s := match (s.ops.find? ref.1).bind fun o => o.reqs[ref.2]? with
    | some r => s.countReleased r
    | none => s
  s.onOp ref.1 fun o => { o with
    reqs := o.reqs.mapIdx fun i r =>
      if i = ref.2 then { r with stage := .done, pieces := r.pieces.map fun p => { p with got := some got } } else r }

/-- The core endpoint a request's result goes to. -/
def ownerEnd (s : State) (n : Nat) : Endpoint :=
  match s.ops.find? n with
  | some o => if o.byEngine then s.engineEnd o.core else s.coreEnd o.core
  | none => s.coreEnd 0

/-- The packet of a counter result or a wake (R163). -/
def ctrrPacket (src dst : Endpoint) (tag : ReqRef) (code value : Nat) (via : Option (Endpoint × Nat)) (ts : Nat) : Packet :=
  ⟨.ctrr, false, 3, false, false, 1, dst, src, 0, 0, 0, 0, 0, 0, tag, .cstat code, [⟨0, 0, 8, leBytes 8 value, none⟩], via, ts,
    0, 0, 0⟩

/-- The endpoint of a home number. -/
def endOfHome (s : State) (home : Nat) : Endpoint :=
  if home < 1024 then s.sliceEnd (home / 16) (home % 16) else s.vaultEnd ((home - 1024) / 64) ((home - 1024) % 64)

/-- The place of an `.sc` operation in the order of its counter (R98): the timestamp it is performed with. -/
def stampCtr (s : State) (key ts : Nat) : State × Nat :=
  if ts = 0 then (s, 0)
  else
    let last := s.stamps.get 0 key
    let fin := if ts ≤ last then last + 1 else ts
    ({ s with stamps := s.stamps.put 0 key fin }, fin)

/-- The timestamp a request came back with. -/
def noteTs (s : State) (n ts : Nat) : State := s.onOp n fun o => { o with ts := Nat.max o.ts ts }

/-- A request of an `.sc` operation has returned: the core's clock takes its timestamp in, and the operation's next request, which is an
operation of its own, has the next one (R75, R98, R111; log 86). -/
def laneDone (s : State) (n ts : Nat) : State :=
  if ts = 0 then s
  else match (s.noteTs n ts).ops.find? n with
    | none => s
    | some o =>
      let s := s.noteTs n ts
      if o.reqs.all fun r => decide (r.stage = .done) then s
      else
        let c := Nat.max (s.lamport.get 0 o.core) o.ts + 1
        ({ s with lamport := s.lamport.put 0 o.core c }).onOp n fun o => { o with ts := c }

/-- One woken waiter (R114): the value goes to a warp by a packet of its home, at once from a scratchpad controller; an agent's
watch ends, a host's raises MSI-X vector 1 (R437), and a unit, a dispatcher or a battery goes on. -/
def wakeOne (s : State) (w : Waiter) (value code : Nat) : State :=
  let (s, ts) := s.stampCtr w.addr w.ts
  match w.who with
  | .warp ref =>
    if 2048 ≤ w.home then (s.fulfil ref (leBytes 8 value)).laneDone ref.1 ts
    else s.send (ctrrPacket (s.endOfHome w.home) (s.ownerEnd ref.1) ref code value none ts)
  | .peer ing via => s.send (ctrrPacket (s.endOfHome w.home) ing (0, 0) code value (some via) ts)
  | .host ld => { s with hosts := s.hosts.insert ld (let h := s.hosts.get HostPort.empty ld
      { h with vectors := h.vectors ||| 2, status := if h.status = 5 then 0 else h.status }) }
  | .ring _ _ | .repair _ _ | .queue _ | .post _ | .battery _ => s
  | .fence q => { s with queues := s.queues.adjust q fun x =>
      match x.busy with
      | .fence n es => { x with busy := .fence n (es.filter fun e => !(formKey e.1 = w.addr && e.2 ≤ value)) }
      | _ => x }

/-- Order of wakes: warp slots first, then agent slots, each rising (R114). -/
def wakeKey (w : Waiter) : Nat := (if w.agent then 2 ^ 16 else 0) + w.slot

def insertWaiter (w : Waiter) : List Waiter → List Waiter
  | [] => [w]
  | x :: xs => if wakeKey w ≤ wakeKey x then w :: x :: xs else x :: insertWaiter w xs

/-- Wake(): every registered waiter of the counter whose threshold is met (R114). -/
def wake (s : State) (addr value : Nat) : State :=
  let hit := s.waiters.filter fun w => w.addr = addr && w.threshold ≤ value
  if hit.isEmpty then s
  else
    let s := { s with waiters := s.waiters.filter fun w => !(w.addr = addr && w.threshold ≤ value) }
    (hit.foldr insertWaiter []).foldl (fun s w => s.wakeOne w value 0) s

/-- The waiters of the words in a range are compared after a store to it (R113). -/
def wakeRange (s : State) (addr n : Nat) : State :=
  ((s.waiters.map (·.addr)).filter fun a => a < addr + n && addr < a + 8).eraseDups.foldl
    (fun s a => s.wake a (s.mem.readNat a 8)) s

/-- The captain's battery, whose partition is its number (R438, R440). -/
def captain (s : State) : Nat := s.reg (Reg.module 0x200) % 64

/-- A memory error record (R70). -/
def memErrorBytes (pa level symbols agent world task : Nat) : List Byte :=
  leBytes 8 pa ++ leBytes 1 level ++ leBytes 1 (if symbols ≤ 4 then symbols else 0) ++ leBytes 2 agent ++
    leBytes 2 world ++ leBytes 2 0 ++ leBytes 4 task ++ leBytes 12 0

/-! The lines of L2 slices (R59, R60, R62, R69). `mem` holds the bytes that the home of an address answers with, the line in its L2
slice or not; a line's place in the slice decides where an error of its units lies, and what a read of it does. -/

/-- The key among `State.errors` of a unit's copy in its home slice, and in the slice of a die that holds its replica. -/
def l2Unit (u : Nat) : Nat := 2 ^ 122 + u
def replicaUnit (die u : Nat) : Nat := 2 ^ 122 + 2 ^ 72 * (die + 1) + u

/-- The units of a line. -/
def unitsOfLine (l : Nat) : List Nat := (List.range 4).map fun i => l + 32 * i

/-- The slice that is the home of an HBM or tier address, and the slice where a die holds its replica. -/
def homeSlice (s : State) (key : Nat) : Nat := homeNo (s.homeEnd (keyAp key) (keyPa key))
def replicaSlice (s : State) (die key : Nat) : Nat := homeNo (s.replicaEnd die (keyAp key) (keyPa key))

def l2Of (s : State) (n : Nat) : List L2Line := s.l2.get [] n
def setL2 (s : State) (n : Nat) (l : List L2Line) : State := { s with l2 := s.l2.put [] n l }
def l2Line? (s : State) (n line : Nat) : Option L2Line := (s.l2Of n).find? fun x => x.addr = line
/-- A line is dirty in its home slice. -/
def isDirty (s : State) (line : Nat) : Bool := ((s.l2Line? (s.homeSlice line) line).map (·.dirty)).getD false

def setErrors (s : State) (u n : Nat) : State := { s with errors := if n = 0 then s.errors.erase u else s.errors.insert u n }

/-- A memory error record of a unit kept at its die's unit for its partition and for the captain, until it is posted (R70; log 69). -/
def keepError (s : State) (u : Nat) (bytes : List Byte) : State :=
  let parts := ((s.framePart (keyAp u) (keyPa u)).toList ++ [s.captain]).eraseDups
  s.onDtu (channelOf (keyAp u) (keyPa u)).1 fun d => { d with owed := d.owed ++ parts.map fun p => (p, bytes) }

/-- A record for an uncorrectable unit of a dirty line that is written to its channel (R69, R70). -/
def evictionRecord (s : State) (u n : Nat) : State :=
  let e := s.potEntry (keyAp u) (keyPa u / 2 ^ 15)
  s.keepError u (memErrorBytes (keyPa u) 3 n 0xFFFF (if e / 2 ^ 12 % 4 = 1 then e % 2 ^ 12 else 0) 0)

/-- A line leaves a slice: a dirty one is written to its channel symbol for symbol (R60, R69); a replica's bytes go. -/
def dropLine (s : State) (n : Nat) (x : L2Line) : State :=
  let home := n = s.homeSlice x.addr
  let err := fun u => if home then l2Unit u else replicaUnit (n / 16) u
  let s := (unitsOfLine x.addr).foldl (fun s u =>
    let k := s.errors.get 0 (err u)
    let s := if x.dirty then (if 3 ≤ k then s.evictionRecord u k else s).setErrors u k else s
    s.setErrors (err u) 0) s
  let s := s.setL2 n ((s.l2Of n).filter fun y => y.addr ≠ x.addr)
  if home then s else { s with replicas := s.replicas.erase (n / 16 * 2 ^ 72 + x.addr) }

/-- The line that leaves a full slice: one that a copy with the no-allocate hint brought in when there is one, the least recently used of them (R4,
R60, R349; log 72). -/
def victim (l : List L2Line) : Option L2Line := (oldest L2Line.used (l.filter L2Line.hint)).or (oldest L2Line.used l)

/-- A line is used in a slice, which takes it when it does not hold it: of 32,768 lines one leaves (R4, R60). An error of a unit comes along from
the channel. -/
def useLine (s : State) (n line : Nat) (dirty : Bool) : State :=
  match s.l2Line? n line with
  | some x => s.setL2 n ((s.l2Of n).map fun y => if y.addr = line then ⟨line, x.dirty || dirty, s.clk, x.hint⟩ else y)
  | none =>
    let s := if (s.l2Of n).length < 32768 then s else (match victim (s.l2Of n) with
      | some x => s.dropLine n x
      | none => s)
    let s := if n = s.homeSlice line then (unitsOfLine line).foldl (fun s u => s.setErrors (l2Unit u) (s.errors.get 0 u)) s else s
    s.setL2 n (s.l2Of n ++ [⟨line, dirty, s.clk, false⟩])

/-- Units that a write covers wholly have a new code (R69). -/
def newCode (s : State) (key n : Nat) : State :=
  let f := fun (e : Nat × Nat) => if 2 ^ 122 ≤ e.1 then e.1 - 2 ^ 122 else e.1
  { s with errors := s.errors.filter fun e => !(key ≤ f e && f e + 32 ≤ key + n && (keyAp key = 3 || 2 ^ 122 ≤ e.1)) }

/-- The frame of a memory key as `State.written` has it. -/
def frameKey (k : Nat) : Nat := 2 ^ 40 * keyAp k + keyPa k / 2 ^ 15

/-- A frame has been written to (R57; log 50). -/
def noteWritten (l : List Nat) (frame : Nat) : List Nat := if l.contains frame then l else frame :: l
def framesOf (key n : Nat) : List Nat := (List.range ((key + n - 1) / 2 ^ 15 - key / 2 ^ 15 + 1)).map fun i => frameKey (key + 2 ^ 15 * i)

/-- Bytes written at a home, which may be of the root table (R57): the line is dirty in its L2 slice for HBM and the tier (R60), waiters are compared (R113). -/
def poke (s : State) (key : Nat) (bs : List Byte) : State :=
  let root := s.reg (Reg.dtu 0 0) % 2 ^ 55 / 2 ^ 16 * 2 ^ 16
  let s := { s with
    mem := s.mem.writeBytes key bs
    rootWritten := s.rootWritten || (root < key + bs.length && key < root + 65536)
    written := (framesOf key bs.length).foldl noteWritten s.written }
  let s := if keyAp key ≤ 1 then s.useLine (s.homeSlice key) (lineOf key) true else s
  (s.newCode key bs.length).wakeRange key bs.length

/-- The units that parts of memory touch, those whose bytes they cover together, and those they do not (R69). -/
def unitsOf (key n : Nat) : List Nat := if n = 0 then [] else (List.range ((key + n - 1) / 32 - key / 32 + 1)).map fun i => unitOf key + 32 * i
def partsUnits (ps : List (Nat × List Byte)) : List Nat := ((ps.map fun q => unitsOf q.1 q.2.length).flatten).eraseDups
def coversUnit (ps : List (Nat × List Byte)) (u : Nat) : Bool :=
  (List.range 32).all fun j => ps.any fun q => q.1 ≤ u + j && u + j < q.1 + q.2.length
def partialParts (ps : List (Nat × List Byte)) : List Nat := (partsUnits ps).filter fun u => !coversUnit ps u
def coveredParts (ps : List (Nat × List Byte)) : List Nat := (partsUnits ps).filter (coversUnit ps)
/-- Those of one run of bytes that a write of it does not cover. -/
def partialUnits (key n : Nat) : List Nat := (unitsOf key n).filter fun u => !(key ≤ u && u + 32 ≤ key + n)

/-- The parts of one write written at a home, in their order; the units that they cover together have a new code (R69). -/
def pokeAll (s : State) (ps : List (Nat × List Byte)) : State :=
  (coveredParts ps).foldl (fun s u => s.newCode u 32) (ps.foldl (fun s q => s.poke q.1 q.2) s)

/-- The key of a die's replica of a line. -/
def replicaKey (die line : Nat) : Nat := die * 2 ^ 72 + line

/-- A write that an agent made for a task sets out for the dies that hold replicas of its lines (R96). -/
def spread (s : State) (key : Nat) (bs : List Byte) (task : Nat) : State :=
  { s with propagating := s.propagating ++ s.replicas.filterMap fun (e : Nat × List Byte) =>
      let line := e.1 % 2 ^ 72
      let first := Nat.max key line
      if line < key + bs.length && key < line + 128 then
        some ⟨e.1 / 2 ^ 72, line, [(first, (bs.drop (first - key)).take (line + 128 - first))], s.clk, .gone, task, none, none⟩
      else none }

/-- A corrected unit counts in its channel, in the block of 2^26 cycles in which it falls (R68, R72, R73; log 66). -/
def countCorrected (s : State) (key : Nat) : State :=
  if keyAp key ≤ 1 then
    let (d, n) := channelOf (keyAp key) (keyPa key)
    let k := 72 * d + n
    let c := s.channels.get Channel.empty k
    let now := s.clk / 2 ^ 26
    { s with channels := s.channels.put Channel.empty k { c with
        corrected := Nat.min (c.corrected + 1) (2 ^ 32 - 1), window := if c.since = now then c.window + 1 else 1, since := now } }
  else s

/-- A stored unit, under a key among the errors, is read (R68): none when it is found uncorrectable, with the symbols found. With five or
more in error it may be corrected to a wrong value. -/
def readStored (s : State) (key unit : Nat) : Except (State × Nat) (State × Bool) :=
  match s.errors.get 0 key with
  | 0 => .ok (s, false)
  | n =>
    if n ≤ 2 then .ok ({ s with errors := s.errors.erase key }, true)
    else if n ≤ 4 then .error (s, n)
    else
      let s := { s with draws := s.draws + 1 }
      match Config.freeUnit s.draws with
      | some v => .ok ({ s with errors := s.errors.erase key, mem := s.mem.writeNat unit 32 v.toNat }, true)
      | none => .error (s, n)

/-- A unit read in its vault or channel, where a corrected one counts (R68, R72). -/
def readChannel (s : State) (unit : Nat) : Except (State × Nat) State :=
  match s.readStored unit unit with
  | .ok (s, fixed) => .ok (if fixed then s.countCorrected unit else s)
  | .error e => .error e

/-- A unit read at its home (R60, R68, R69): a line in the L2 slice answers, a clean one whose unit is uncorrectable is discarded and read
from the channel again; a line not there is taken in. -/
def readUnit (s : State) (unit : Nat) : Except (State × Nat) State :=
  if 1 < keyAp unit then s.readChannel unit
  else
    let n := s.homeSlice unit
    let line := lineOf unit
    let fetch := fun (s : State) => match s.readChannel unit with
      | .ok s => Except.ok (s.useLine n line false)
      | .error e => .error e
    match s.l2Line? n line with
    | none => fetch s
    | some x =>
      match s.readStored (l2Unit unit) unit with
      | .ok (s, _) => .ok (s.useLine n line false)
      | .error (s, k) => if x.dirty then .error (s, k) else fetch (s.dropLine n x)

/-- The units of a range in rising order, each read; the first found uncorrectable stops the request. -/
def readUnits (s : State) : List Nat → Except (State × Nat × Nat) State
  | [] => .ok s
  | u :: us =>
    match s.readUnit u with
    | .ok s => readUnits s us
    | .error (s, n) => .error (s, n, u)

/-- The level of a unit at a home (R70). -/
def levelOf (s : State) (key : Nat) : Nat :=
  if keyAp key = 3 then 4 else if s.isDirty (lineOf key) then 3 else if keyAp key = 0 then 5 else 6

/-- Units that a device agent reads: none when one is found uncorrectable, of which a record is kept under the agent's number, with the world
and the task it acts for (R68 to R70). -/
def agentUnits (s : State) (us : List Nat) (agent world task : Nat) : Except State State :=
  match s.readUnits us with
  | .ok s => .ok s
  | .error (s, k, u) => .error (s.keepError u (memErrorBytes (keyPa u) (s.levelOf u) k agent world task))

/-- A write of a device agent, at the home and on its way to the replicas of its lines (R96); none of it where it covers an uncorrectable unit in
part, for its home decrypts what it merges (R57, R69). The bytes are for a task of State, whose identifier the record names. -/
def agentWrite (s : State) (key : Nat) (bs : List Byte) (task agent world id : Nat) : State :=
  match s.agentUnits (partialUnits key bs.length) agent world id with
  | .error s => s
  | .ok s => (s.poke key bs).spread key bs task

/-- A device agent's add to a counter, performed at the home within its own step (R136; log 12); not on a unit that is uncorrectable
(R68, R69). -/
def agentAdd (s : State) (key n agent world task : Nat) : State :=
  match s.agentUnits (unitsOf key 8) agent world task with
  | .error s => s
  | .ok s =>
    let c := s.mem.readNat key 8
    let v := Nat.min (c + n) (2 ^ 64 - 1)
    let s := if 2 ^ 64 ≤ c + n then s.bump (Reg.counter (channelOf (keyAp key) (keyPa key)).1 0x08) 1 else s
    let s := State.spread { s with mem := s.mem.writeNat key 8 v, written := noteWritten s.written (frameKey key) } key (leBytes 8 v) 0
    (if keyAp key ≤ 1 then s.useLine (s.homeSlice key) (lineOf key) true else s).wake key v

/-- A ring table's entry for a partition, none when it is unused or breaks a limit (R48): base, slots, produced, consumed. That a counter
lies in a counter-capable frame is not tested: the table gives a physical address, and the property is a leaf's (R17; log 83). -/
def ringEntry (s : State) (table n : Nat) : Option (Nat × Nat × Nat × Nat) :=
  let rd := fun off len => s.mem.readNat (table + 32 * n + off) len
  let base := rd 0 8
  let slots := rd 8 4
  let produced := rd 16 8
  let consumed := rd 24 8
  if slots = 0 || base % 32 ≠ 0 || 2 ^ 55 ≤ base || slots < 16 || 1024 < slots || 2 ^ Nat.log2 slots ≠ slots || produced % 8 ≠ 0
      || 2 ^ 55 ≤ produced || consumed % 8 ≠ 0 || 2 ^ 55 ≤ consumed then none
  else some (base, slots, produced, consumed)

/-- The units that a ring's user reads: its table entry, then its counters (R48). -/
def ringUnits (s : State) (table n : Nat) : List Nat :=
  unitOf (table + 32 * n) :: match s.ringEntry table n with
    | some (_, _, produced, consumed) => [unitOf produced, unitOf consumed]
    | none => []

/-- The table of a die's repair queues. -/
def repairTable (s : State) (die : Nat) : Nat := s.reg (Reg.dtu die 0x200) % 2 ^ 55 / 2 ^ 11 * 2 ^ 11

/-- The repair queue of a partition on a die (R148). -/
def repairRing (s : State) (die part : Nat) : Option (Nat × Nat × Nat × Nat) :=
  s.ringEntry (s.repairTable die) part

/-- A record written into a repair queue that has a free slot, then published (R148); not while a unit of the queue's table entry or
counters is uncorrectable (R69), nor between two polls of its consumed counter (R122). -/
def postRecord (s : State) (die part : Nat) (bytes : List Byte) : Option State :=
  match s.repairRing die part with
  | none => none
  | some (base, slots, produced, consumed) =>
    let p := s.mem.readNat produced 8
    if slots ≤ p - s.mem.readNat consumed 8 || s.polls.any fun y => y.who = .repair die part then none
    else match s.readUnits (s.ringUnits (s.repairTable die) part) with
      | .error _ => none
      | .ok s => some ((s.agentWrite (base + 32 * (p % slots)) bytes 0 (2134 + die) 0 0).agentAdd produced 1 (2134 + die) 0 0)

/-- A record for a repair queue: posted, or kept at the die's unit behind earlier ones until the queue has a free slot (R48, R148). -/
def postOrKeep (s : State) (die part : Nat) (bytes : List Byte) : State :=
  let keep := fun (s : State) => s.onDtu die fun d => { d with owed := d.owed ++ [(part, bytes)] }
  if (s.dtu die).owed.any fun r => r.1 = part then keep s else (s.postRecord die part bytes).getD (keep s)

/-- A memory error record, to the battery of the owning partition and to the captain (R70); for the captain's own partition it is one record
(log 69). -/
def memErrorRecord (s : State) (die : Nat) (part : Option Nat) (pa level symbols agent world task : Nat) : State :=
  let bytes := memErrorBytes pa level symbols agent world task
  let s := match part with
    | some p => s.postOrKeep die p bytes
    | none => s
  if part = some s.captain then s else s.postOrKeep die s.captain bytes

/-- A record for a unit found uncorrectable by an agent's request (R69, R70), at the repair queue of the die whose channel or vault holds
the unit (log 84). -/
def unitError (s : State) (unit symbols agent world task : Nat) : State :=
  s.memErrorRecord (channelOf (keyAp unit) (keyPa unit)).1 (s.framePart (keyAp unit) (keyPa unit)) (keyPa unit) (s.levelOf unit) symbols
    agent world task

/-- Dies that hold replicas of a line beside its primary home (R96). -/
def replicaDies (s : State) (ap pa : Nat) : List Nat :=
  (List.range 8).filter fun d => d ≠ (channelOf ap pa).1 && !(s.slicesFor d ap pa).isEmpty && (s.framePart ap pa).isSome

/-- A write to an RP line sets out for every replica (R96). -/
def propagate (s : State) (line : Nat) (ps : List (Nat × List Byte)) (owner : Owner) (task : Nat) (warp : Option (Nat × Nat))
    (core : Option Nat) : State :=
  { s with propagating := s.propagating ++
      (s.replicaDies (keyAp line) (keyPa line)).map fun d => ⟨d, line, ps, s.clk, owner, task, warp, core⟩ }

/-- A die's replica of a line, filled from the primary home when it is not held; earlier writes on their way are dropped (R96). An
uncorrectable unit there stops the fill, and one of the replica has it discarded and filled again (R69). -/
def fillReplica (s : State) (die line : Nat) : Except (State × Nat × Nat) State :=
  let n := s.replicaSlice die line
  let fill := fun (s : State) => match s.readUnits (unitsOfLine line) with
    | .error e => Except.error e
    | .ok s => .ok ({ s with
        replicas := s.replicas.insert (replicaKey die line) (s.mem.readBytes line 128)
        propagating := s.propagating.filter fun p => !(p.die = die && p.line = line) }.useLine n line false)
  if (s.replicas.find? (replicaKey die line)).isNone then fill s
  else match (unitsOfLine line).find? fun u => 3 ≤ s.errors.get 0 (replicaUnit die u) with
    | some _ => fill (s.dropLine n ⟨line, false, 0, false⟩)
    | none => .ok ({ s with errors := s.errors.filter fun e => !((unitsOfLine line).map (replicaUnit die)).contains e.1 }.useLine n line
        false)

/-- Bytes of a list overwritten from a position. -/
def overwrite (xs : List Byte) (at' : Nat) (bs : List Byte) : List Byte := xs.take at' ++ bs ++ xs.drop (at' + bs.length)

/-- Reads of a core that are on their way do not fill the sectors (R94). -/
def barFills (s : State) (core : Nat) (f : Nat → Bool) : State :=
  { s with ops := s.ops.map fun (e : Nat × MemOp) => if e.2.core = core then (e.1, { e.2 with reqs := e.2.reqs.map fun (r : Req) =>
      match r.stage, r.xl with
      | .sent _, some x => { r with stale := r.stale ++ (unitsOfLine (lineOf (memKey x.ap x.pa))).filter fun u => f u && !r.stale.contains u }
      | _, _ => r }) else e }

/-- The oldest write on its way to a die's replica of a line reaches it (R96). Reads of the core that wrote may have been served by the replica
before it: they no longer fill L1 (R84, R94). -/
def applyPropagation (s : State) (die line : Nat) : State :=
  match s.propagating.find? fun p => p.die = die && p.line = line with
  | none => s
  | some p =>
    let s := match p.core with
      | some c => if dieOfCore c = die then s.barFills c (partsUnits p.parts).contains else s
      | none => s
    { s with
      replicas := s.replicas.adjust (replicaKey die line) fun bs => p.parts.foldl (fun bs q => overwrite bs (q.1 - line) q.2) bs
      propagating := s.propagating.erase p }

/-- The writes on their way that a release waits for reach their replicas, each replica's in their order: a device agent's release takes place in
its own step, and so do they (R87, R90, R96, R137; log 100). -/
def landAll (s : State) (f : Propagation → Bool) : State :=
  (s.propagating.filter f).foldl (fun s p => s.applyPropagation p.die p.line) s

end State

/-- The value and result of one counter operation (R114): new value, value returned, CSTAT code. `busy` says that a waiter is
registered. -/
def ctrEffect (k : CtrKind) (busy : Bool) (c n : Nat) : Nat × Nat × Nat :=
  match k with
  | .add => if 2 ^ 64 - 1 - c < n then (2 ^ 64 - 1, c, 2) else (c + n, c, 0)
  | .raise => (Nat.max c n, c, 0)
  | .init => if busy then (c, c, 3) else (n, c, 0)
  | .read | .test | .wait => (c, c, 0)

/-- One data atomic: the new memory value (R337, R338). The operand holds the lane's registers from t, low first. -/
def atomicEffect (op : AtomOp) (m v : Nat) : Nat :=
  let i32 := fun n => (BitVec.ofNat 32 n).toInt
  match op with
  | .add32 => (m + v) % 2 ^ 32
  | .add64 => (m + v) % 2 ^ 64
  | .fadd32 => (floatOp .f32 RMode.plain .add m v 0).1
  | .fadd64 => (floatOp .f64 RMode.plain .add m v 0).1
  | .imin => if i32 v < i32 m then v else m
  | .imax => if i32 m < i32 v then v else m
  | .nmin => Nat.min m v
  | .nmax => Nat.max m v
  | .and => m &&& v
  | .or => m ||| v
  | .xor => m ^^^ v
  | .xchg32 | .xchg64 => v
  | .cas32 => if m = v % 2 ^ 32 then v / 2 ^ 32 % 2 ^ 32 else m
  | .cas64 => if m = v % 2 ^ 64 then v / 2 ^ 64 % 2 ^ 64 else m

end Sys2Proof.Machine
end

