-- ==== Sys2Proof/Machine/Translate.lean ====
section
/-!
DEFINITION. Translation: world roots, table walks, the checks of R23 in their order, ownership, TLBs and the miss queue (spec/01
R11 to R32).
-/

namespace Sys2Proof.Machine

/-- The first address of the scratchpad window (R12). -/
def windowBase : Nat := 0xFFFFFF0000000000
def inWindow (va : DWord) : Bool := windowBase ≤ va.toNat
/-- The offset of a window address in the allocation (R12). -/
def windowOff (va : DWord) : Nat := va.toNat - windowBase
/-- Bits [63:57] all equal bit 56 (R11). -/
def canonical (va : DWord) : Bool := va.toNat / 2 ^ 56 = 0 || va.toNat / 2 ^ 56 = 0xFF
/-- The 57-bit address and its 32 KiB page. -/
def va57 (va : DWord) : Nat := va.toNat % 2 ^ 57
def pageOf (va : DWord) : Nat := va57 va / 2 ^ 15

/-- Frames an aperture has installed (R20); region sizes bound aperture 2 (R21). -/
def apFrames (ap : Nat) : Nat :=
  match ap with
  | 0 => 0x02000000
  | 1 => 0x04000000
  | 3 => 0x00010000
  | 5 => 2 ^ 40
  | 6 => 0x00020000
  | _ => 0

/-- A frame that a leaf may name in an aperture other than 2 (R20). -/
def frameOk (ap f : Nat) : Bool := f < (if ap = 0 then reservedFrame else apFrames ap)

namespace State

/-- An interleave region: enabled, ratio h, size, first frames (R65). -/
structure Region4 where
  en : Bool
  h : Nat
  size : Nat
  hbase : Nat
  cbase : Nat

def interleave (s : State) (r : Nat) : Region4 :=
  let c := s.reg (Reg.memory 0 (0x20 + 8 * r))
  let b := s.reg (Reg.memory 0 (8 * r))
  ⟨c / 2 ^ 63 = 1, if c / 2 ^ 40 % 32 = 0 then 1 else c / 2 ^ 40 % 32, c % 2 ^ 38, b % 2 ^ 25, b / 2 ^ 32 % 2 ^ 26⟩

/-- The aperture and frame that an aperture and frame of a leaf name; none out of range (R20, R21, R22). -/
def resolve (s : State) (ap frame : Nat) : Option (Nat × Nat) :=
  if ap = 2 then
    let r := s.interleave (frame / 2 ^ 38 % 4)
    let f := frame % 2 ^ 38
    if !r.en || r.size ≤ f then none
    else
      let g := f / (r.h + 1)
      let p := f % (r.h + 1)
      let (a, t) := if p < r.h then (0, r.hbase + g * r.h + p) else (1, r.cbase + g)
      if frameOk a t then some (a, t) else none
  else if ap = 4 then (if frame / 2 ^ 28 % 2 ^ 12 = s.devId then none else some (4, frame))
  else if frameOk ap frame then some (ap, frame) else none

/-- The host ownership bit of a frame (R40). -/
def hostBit (s : State) (ap frame : Nat) : Bool := s.hostOwned.get 0 (ap * 2 ^ 40 + frame) = 1

/-- A frame command of an opcode that a unit has taken and not completed, its frames met by a test of aperture, first frame and
count (R36, R38). -/
def framesTaken (s : State) (op : Nat) (f : Nat → Nat → Nat → Bool) : Bool :=
  s.dtus.any fun e => e.2.commands.any fun c =>
    field c.2.bytes 0 1 = op && f (field c.2.bytes 6 1) (field c.2.bytes 8 8) (field c.2.bytes 0x10 4)

/-- A fill finds a frame host-owned: its bit is set, or a unit has taken the OWN-HOST that sets it (R40, R41). -/
def hostHeld (s : State) (ap frame : Nat) : Bool :=
  s.hostBit ap frame || s.framesTaken 4 fun a f n => a = ap && f ≤ frame && frame < f + n

/-- The ownership check of a frame for a world of a partition (R34): none when it passes. -/
def ownCheck (s : State) (world part ap frame : Nat) : Option Walked :=
  let e := s.potEntry ap frame
  let pa := frame * 2 ^ 15
  match e / 2 ^ 12 % 4 with
  | 1 => if e % 2 ^ 12 = world then none else some (.freeze (e % 2 ^ 12) pa)
  | 2 => if ap = 6 || s.framePart ap pa = some part then none else some (.freeze 0xFFFF pa)
  | _ => some (.park .badAttr)

/-- The world root table of a die: enabled, base (R14); an entry's two words (R15). -/
def rootEnabled (s : State) (die : Nat) : Bool := s.reg (Reg.dtu die 0) % 2 = 1
def rootEntry (s : State) (die world : Nat) : Nat :=
  s.mem.readNat (s.reg (Reg.dtu die 0) % 2 ^ 55 / 2 ^ 16 * 2 ^ 16 + 16 * world) 8
def rootHigh (s : State) (die world : Nat) : Nat :=
  s.mem.readNat (s.reg (Reg.dtu die 0) % 2 ^ 55 / 2 ^ 16 * 2 ^ 16 + 16 * world + 8) 8
/-- The unit of a world's root entry (R15, R68). -/
def rootUnits (s : State) (die world : Nat) : List Nat :=
  if s.rootEnabled die && world < 4096 then [unitOf (s.reg (Reg.dtu die 0) % 2 ^ 55 / 2 ^ 16 * 2 ^ 16 + 16 * world)] else []
def rootPart (e : Nat) : Nat := e / 2 ^ 10 % 64
def rootConf (e : Nat) : Bool := e / 2 % 2 = 1
/-- A world, one of the 4,096 of R14, has a valid root entry, and is confidential, as die 0 sees it: the captain gives every die one
table (log 13). -/
def worldValid (s : State) (die world : Nat) : Bool := world < 4096 && s.rootEnabled die && s.rootEntry die world % 2 = 1
def worldConf (s : State) (die world : Nat) : Bool := s.worldValid die world && rootConf (s.rootEntry die world)
def worldPart (s : State) (die world : Nat) : Option Nat :=
  if s.worldValid die world then some (rootPart (s.rootEntry die world)) else none

/-- The entry of a level that a die's walk cache holds for an address (R30). -/
def heldEntry (s : State) (die world va sh : Nat) : Option Nat :=
  ((s.dtu die).walkCache.find? fun y => y.world = world && y.level = (sh - 15) / 12 && y.key = va / 2 ^ sh).map (·.entry)

/-- The entries of a path from level L3 down, a level that the walk cache holds taken from there (R16, R30): table address of the
level, shift and index bits of each level below. -/
def pathFrom (s : State) (die world va : Nat) : List (Nat × Nat) → Nat → List (Nat × Nat × Nat)
  | [], _ => []
  | (sh, bits) :: rest, table =>
    let pa := table + 8 * (va / 2 ^ sh % 2 ^ bits)
    let e := (s.heldEntry die world va sh).getD (s.mem.readNat pa 8)
    let leaf := e % 2 = 0 || sh = 15 || (sh ≠ 51 && e / 2 % 2 = 0)
    (sh, pa, e) :: (if leaf then [] else pathFrom s die world va rest (e / 2 ^ 16 % 2 ^ 40 * 2 ^ 15))

/-- The path of an address of a world (R16). -/
def pathOf (s : State) (die world : Nat) (va : DWord) : List (Nat × Nat × Nat) :=
  s.pathFrom die world (va57 va) [(51, 6), (39, 12), (27, 12), (15, 12)] (s.rootEntry die world / 2 ^ 16 % 2 ^ 40 * 2 ^ 15)

/-- A table entry is well formed: reserved bits zero, and at L3 T = 1 (R17). -/
def tableOk (sh e : Nat) : Bool := e / 2 ^ 56 = 0 && e / 2 ^ 2 % 2 ^ 14 = 0 && (sh ≠ 51 || e / 2 % 2 = 1)

/-- Frames a leaf at a level covers (R19), and the bits of its frame that count. -/
def leafFrames (sh : Nat) : Nat := 2 ^ (sh - 15)
def frameField (ap f : Nat) : Nat := if ap = 2 then f % 2 ^ 38 else if ap = 4 then f % 2 ^ 28 else f

/-- Every frame of a leaf at L2 or L1 passes the range test (R19). An aperture-2 leaf rises through both targets, so its last
h + 1 frames decide. -/
def rangeOk (s : State) (ap f n : Nat) : Bool :=
  (s.resolve ap f).isSome && (if ap = 2 then (List.range (Nat.min n 33)).all fun i => (s.resolve ap (f + n - 1 - i)).isSome
    else (s.resolve ap (f + n - 1)).isSome)

/-- Pages of the run a leaf declares (R28). -/
def runPages (e : Nat) : Nat := if e / 2 ^ 11 % 4 = 1 then 64 else if e / 2 ^ 11 % 4 = 2 then 512 else 1

/-- A leaf is well formed (R24). -/
def leafOk (s : State) (sh e page : Nat) : Bool :=
  let ap := e / 4 % 8
  let f := e / 2 ^ 16 % 2 ^ 40
  let cg := e / 2 ^ 11 % 4
  let bit := fun k => e / 2 ^ k % 2 = 1
  e / 2 ^ 56 = 0 && cg ≠ 3 && (cg = 0 || (sh = 15 && f % runPages e = page % runPages e)) && ap ≠ 7 &&
    (if sh = 15 then (s.resolve ap f).isSome else frameField ap f % leafFrames sh = 0 && s.rangeOk ap f (leafFrames sh)) &&
    !(bit 9 && (bit 10 || bit 13 || (3 ≤ ap && ap ≤ 6))) && !(bit 8 && (ap = 5 || ap = 6)) && !(bit 6 && ap = 6)

/-- The size of the TLB entry a leaf gives: 32 KiB, a run of 2 or 16 MiB, or a piece of 16 MiB (R19, R28). -/
def leafSize (sh e : Nat) : Nat := if sh ≠ 15 then 24 else if e / 2 ^ 11 % 4 = 1 then 21 else if e / 2 ^ 11 % 4 = 2 then 24 else 15

/-- Every frame of a run or piece passes the checks that a fill makes of the leaf's frame (R34, R40); a peer checks its own frames,
and the host bounds those of aperture 5. -/
def wholeRun (s : State) (world part ap first n : Nat) : Bool :=
  ap = 4 || ap = 5 || (List.range n).all fun i =>
    match s.resolve ap (first + i) with
    | some (a, t) => (s.ownCheck world part a t).isNone && !(a ≤ 1 && s.hostHeld a t)
    | none => false

/-- A walk for a page of a world, by a master of a partition (R23, checks 1 to 10; check 9 of an aperture-4 leaf is the peer's,
R26). The TLB entry keeps the frame of its first page; it reaches the whole run or piece only when every frame there passes checks 9
and 10 (log 63). -/
def walk (s : State) (die world part : Nat) (va : DWord) : Walked :=
  if !canonical va || inWindow va then .park .notPresent
  else if !s.worldValid die world then .park .notPresent
  else
    let r := s.rootEntry die world
    if rootPart r ≠ part then .freeze 0xFFFF 0
    else if r / 2 ^ 56 ≠ 0 || r / 2 ^ 2 % 2 ^ 8 ≠ 0 || s.rootHigh die world ≠ 0 then .park .badAttr
    else
      let root := r / 2 ^ 16 % 2 ^ 40 * 2 ^ 15
      match (s.pathOf die world va).reverse with
      | [] => .park .notPresent
      | (sh, pa, e) :: tables =>
        let frames := root / 2 ^ 15 :: (tables.reverse.map fun t => t.2.2 / 2 ^ 16 % 2 ^ 40)
        let page := pageOf va
        let ap := e / 4 % 8
        let f0 := e / 2 ^ 16 % 2 ^ 40
        let f := f0 + page % leafFrames sh
        if e % 2 = 0 then .park .notPresent
        else if tables.any (fun t => !tableOk t.1 t.2.2) || (sh = 15 && e / 2 % 2 = 1) then .park .badAttr
        else match frames.findSome? (fun t => s.ownCheck world part 0 t) with
          | some w => w
          | none =>
            if !s.leafOk sh e page then .park .badAttr
            else
              let (a, t) := (s.resolve ap f).getD (ap, f)
              match (if a = 4 || a = 5 then none else s.ownCheck world part a t) with
              | some w => w
              | none =>
                if a ≤ 1 && s.hostHeld a t then .park .hostOwned
                else
                  let n := 2 ^ (leafSize sh e - 15)
                  let size := if s.wholeRun world part ap (f - page % n) n then leafSize sh e else 15
                  let vpn := va57 va / 2 ^ size
                  let first := f - page % 2 ^ (size - 15)
                  .ok ⟨world, vpn, size, e % 2 ^ 16, ap, first, pa, s.clk⟩

/-- The aperture and physical address that a TLB entry gives an address; frames of an interleaved entry are resolved one by one. -/
def xlate (s : State) (t : TlbEntry) (va : DWord) : Xlated :=
  let f := t.pa + pageOf va % 2 ^ (t.size - 15)
  let (a, f) := (s.resolve t.ap f).getD (t.ap, f)
  ⟨a, f * 2 ^ 15 + va.toNat % 2 ^ 15, t.attr⟩

end State

/-- Check 11 of R23 (R25): the cause when the leaf does not permit the access. -/
def permCause (p : Perm) (ap attr : Nat) : Option Cause :=
  let w := attrBit attr 5
  let ctr := ap = 3 || (attrBit attr 8 && (ap ≤ 2 || ap = 4))
  match p with
  | .read => none
  | .exec => if attrBit attr 6 then none else some .exec
  | .write => if w then none else some .write
  | .atomic => if !w then some .write else if ap ≤ 3 || (ap = 4 && attrBit attr 7) then none else some .atomic
  | .ctrMod => if !w then some .write else if ctr then none else some .ctr
  | .ctrRead => if ctr then none else some .ctr

def Perm.writes : Perm → Bool
  | .write | .atomic | .ctrMod => true
  | _ => false

namespace TlbEntry
def hits (t : TlbEntry) (world : Nat) (va : DWord) : Bool := t.world = world && t.vpn = va57 va / 2 ^ t.size
/-- The set of the last-level TLB (R30). -/
def set (t : TlbEntry) : Nat :=
  let va := t.vpn * 2 ^ t.size
  (va / 2 ^ t.size % 2 ^ 11) ^^^ (va / 2 ^ (t.size + 11) % 2 ^ 11) ^^^ (t.world % 2 ^ 11) ^^^ (t.world / 2 ^ 11 % 2 * 1024)
end TlbEntry

namespace State

def tlbOf (s : State) (core : Nat) : List TlbEntry := s.coreTlb.get [] core
def setTlb (s : State) (core : Nat) (l : List TlbEntry) : State := { s with coreTlb := s.coreTlb.put [] core l }
/-- An entry taken into a fully associative store of a size, the least recent one replaced (R30). -/
def fillStore {α : Type} [DecidableEq α] (stamp : α → Nat) (size : Nat) (l : List α) (x : α) : List α :=
  if l.length < size then l ++ [x]
  else match oldest stamp l with
    | some y => (l.erase y) ++ [x]
    | none => [x]

def fillCoreTlb (s : State) (core : Nat) (t : TlbEntry) : State :=
  let l := (s.tlbOf core).filter fun u => !(u.world = t.world && u.size = t.size && u.vpn = t.vpn)
  s.setTlb core (fillStore TlbEntry.stamp 128 l { t with stamp := s.clk })

/-- An entry of the last-level TLB is hit (R30). -/
def touchDieTlb (s : State) (die : Nat) (t : TlbEntry) : State :=
  s.onDtu die fun d => { d with tlb := d.tlb.map fun u => if u = t then { t with stamp := s.clk } else u }

/-- The last-level TLB: 12 ways a set (R30). -/
def fillDieTlb (s : State) (die : Nat) (t : TlbEntry) : State :=
  s.onDtu die fun d =>
    let l := d.tlb.filter fun u => !(u.world = t.world && u.size = t.size && u.vpn = t.vpn)
    let ways := l.filter fun u => u.set = t.set
    let out := if ways.length < 12 then l else (match oldest TlbEntry.stamp ways with
      | some y => l.erase y
      | none => l)
    { d with tlb := out ++ [{ t with stamp := s.clk }] }

/-- The table entries of a walk that passed are held in the walk cache, where later walks find them until a command takes them out
(R30, R38; log 9). -/
def fillWalkCache (s : State) (die world : Nat) (va : DWord) : State :=
  ((s.pathOf die world va).filter fun t => t.1 ≠ 15 && t.2.2 % 4 = 3).foldl (fun s t =>
    s.onDtu die fun d =>
      let x : WalkEntry := ⟨world, (t.1 - 15) / 12, va57 va / 2 ^ t.1, t.2.2, s.clk⟩
      let l := d.walkCache.filter fun y => !(y.world = x.world && y.level = x.level && y.key = x.key)
      { d with walkCache := fillStore WalkEntry.stamp 512 l x }) s

/-- The frames a TLB entry maps meet a range of frames of an aperture. -/
def mapsFrame (s : State) (ap first count : Nat) (t : TlbEntry) : Bool :=
  let n := 2 ^ (t.size - 15)
  let inRange := fun (x : Nat × Nat) => x.1 = ap && first ≤ x.2 && x.2 < first + count
  if t.ap = 2 then (List.range n).any fun i => ((s.resolve 2 (t.pa + i)).map inRange).getD false
  else t.ap = ap && t.pa < first + count && first < t.pa + n

/-- A translation falls within a POT-SET that a unit has taken: its walk goes on after the command (R32, R38). -/
def heldBack (s : State) (t : TlbEntry) : Bool := s.framesTaken 3 fun a f n => s.mapsFrame a f n t

/-- A walk starts (R47). -/
def countWalk (s : State) (die : Nat) : State := s.bump (Reg.dtu die 0x100) 1

/-- A page of 57-bit addresses as a canonical address (R11). -/
def pageVa (page : Nat) : DWord := (BitVec.ofNat 57 (page * 2 ^ 15)).signExtend 64

/-- A table entry changed by an OR of a die's unit at its home, where the bits are clear and the entry can be read (R27, R68); replicas of its line
take it in the same step, so that a reader finds it after its next acquire (R27, R96; log 100). -/
def orEntry (s : State) (die world pa bits : Nat) : State :=
  let v := s.mem.readNat pa 8 ||| bits
  if v = s.mem.readNat pa 8 then s
  else match s.agentUnits [unitOf pa] (2134 + die) world 0 with
    | .error s => s
    | .ok s => (s.agentWrite pa (leBytes 8 v) 0 (2134 + die) world 0).landAll fun p => p.line = lineOf pa
def setAccessed (s : State) (die world leafPa : Nat) : State := s.orEntry die world leafPa (2 ^ 14)
def setDirty (s : State) (die world leafPa : Nat) : State := s.orEntry die world leafPa (2 ^ 15)

/-- The first write through a translation sets D in its leaf, and in the entries that hold it (R27). -/
def markDirty (s : State) (core : Nat) (t : TlbEntry) (p : Perm) : State :=
  if p.writes && !attrBit t.attr 15 then
    let mark := fun (u : TlbEntry) => if u = t then { u with attr := u.attr + 2 ^ 15 } else u
    (s.setTlb core ((s.tlbOf core).map mark)).setDirty (dieOfCore core) t.world t.leafPa
  else s

end State
end Sys2Proof.Machine
end

