-- ==== Sys2Proof/Machine/Lsu.lean ====
section
/-!
DEFINITION. The load-store unit: line requests, the scratchpad, L1 and staging, forwarding from the store queue, misses, parks and
the packets of requests (spec/01 R30 to R32; spec/02 R52 to R56; spec/03 R78 to R96; spec/05 R139 to R155; spec/13 R327 to R345).
-/

namespace Sys2Proof.Machine

namespace OpKind
/-- What the leaf must permit (R25). -/
def perm : OpKind → Perm
  | store | push | copyWrite => .write
  | atomic _ _ _ => .atomic
  | counter k _ _ _ _ => if k.modifies then .ctrMod else .ctrRead
  | fetch | stage => .exec
  | _ => .read
/-- The access type of a park record (R147). -/
def access : OpKind → Access
  | store | push => .st
  | atomic _ _ _ => .atom
  | counter .wait _ _ _ _ => .cwait
  | counter _ _ _ _ _ => .ctr
  | fetch | stage => .fetch
  | copyRead _ => .copyRead
  | copyWrite => .copyWrite
  | _ => .ld
/-- The members of the store queue (R78, R335, R343). -/
def inStoreQueue : OpKind → Bool
  | store | push | cmntWbi | atomic _ _ _ => true
  | counter k _ _ _ _ => k.modifies
  | _ => false
def isFetch : OpKind → Bool
  | fetch | stage => true
  | _ => false
def isSvc : OpKind → Bool
  | svc _ _ => true
  | _ => false
def isWait : OpKind → Bool
  | counter .wait _ _ _ _ => true
  | _ => false
def isCounter : OpKind → Bool
  | counter _ _ _ _ _ => true
  | _ => false
/-- Loads of the warp (R79, R147). -/
def isLoad : OpKind → Bool
  | load _ _ _ | loadS _ _ _ | desc _ _ _ _ | card _ | refill | top | mldw => true
  | counter k _ _ _ _ => !k.modifies
  | _ => false
def isCopyRead : OpKind → Bool
  | copyRead _ => true
  | _ => false
/-- Counter reads acquire (R86). -/
def isAcquire : OpKind → Bool
  | counter k _ _ _ _ => !k.modifies
  | _ => false
/-- Later requests wait for it: an acquire (R88), an `atom` (R82), a `cmnt.inv` (R343). -/
def blocksLater : OpKind → Bool
  | counter k _ _ _ _ => !k.modifies
  | atomic _ _ ret => ret
  | cmntInv => true
  | _ => false
/-- Releases: counter modifications, `svc` and `post` (R86). -/
def isRelease : OpKind → Bool
  | counter k _ _ _ _ => k.modifies
  | svc _ _ | card _ => true
  | _ => false
/-- It asks nothing of its page when the translation fails (R139). -/
def quiet : OpKind → Bool
  | pref _ | cmntInv | cmntWbi => true
  | _ => false
end OpKind

/-- A run of registers: V or not, first, count. -/
structure Run where
  v : Bool
  first : Nat
  count : Nat
  deriving DecidableEq, Repr

/-- The registers an operation has still to write. -/
def OpKind.dest : OpKind → List Run
  | .load m _ t => [⟨true, t, (m.bytes + 3) / 4⟩]
  | .loadS m _ t => [⟨false, t, (m.bytes + 3) / 4⟩]
  | .atomic op t true => [⟨true, t, op.bytes / 4⟩]
  | .counter k _ _ t _ => [⟨true, t, if k = .test then 4 else 2⟩]
  | _ => []

namespace Req
def isDone (r : Req) : Bool := r.stage = .done
/-- It has not been translated. -/
def atCore (r : Req) : Bool := r.stage = .core || r.stage = .limited
def isParked (r : Req) : Bool :=
  match r.stage with
  | .parked _ _ => true
  | _ => false
/-- It has been sent to its home and has not come back. -/
def asked (r : Req) : Bool :=
  match r.stage with
  | .sent _ | .cancelling => true
  | _ => false
/-- In a dugout, under a park sequence (R141, R155). -/
def inDugout (r : Req) : Bool :=
  match r.stage with
  | .parked _ seq => seq ≠ 0
  | _ => false
/-- Parked, or released and not performed (R106, R142). -/
def stopsWarp (r : Req) : Bool := r.isParked || (r.seqs ≠ [] && !r.isDone)
/-- It holds its warp's stream: so, or waiting for translation, or not yet performed since it waited (R32, R106). -/
def holds (r : Req) : Bool := r.stopsWarp || r.stage = .miss || r.stage = .limited || (r.waited && !r.isDone)
end Req

/-- The request as it stood before it was translated and sent. -/
def Req.unsent (r : Req) : Req := { r with stage := .core, xl := none, waited := false, pieces := r.pieces.map fun (p : Piece) => { p with got := none } }

namespace MemOp
/-- What a request of the operation needs of its leaf: an `svc` translates its block as a store and its counter as a `cadd` (R379). -/
def permAt (o : MemOp) (i : Nat) : Perm :=
  match o.kind with
  | .svc _ _ => if i = 0 then .write else .ctrMod
  | k => k.perm
def accessAt (o : MemOp) (i : Nat) : Access :=
  match o.kind with
  | .svc _ _ => if i = 0 then .st else .ctr
  | k => k.access
def done (o : MemOp) : Bool := o.reqs.all Req.isDone
/-- A counter instruction with no participating lane, which performs nothing and only leaves CSTAT in its turn (R111, R115, R328). -/
def idle (o : MemOp) : Bool := o.kind.isCounter && o.reqs.isEmpty
def holdsStream (o : MemOp) : Bool := !o.kind.isFetch && o.reqs.any Req.holds
def hasParked (o : MemOp) : Bool := !o.kind.isFetch && o.reqs.any Req.stopsWarp
def setReq (o : MemOp) (i : Nat) (r : Req) : MemOp := { o with reqs := o.reqs.set i r }
/-- A request of an `.sc` operation is issued to its home once those before it have returned (R75, R98; log 86). -/
def scTurn (o : MemOp) (i : Nat) : Bool := o.ts = 0 || !o.kind.isCounter || (o.reqs.take i).all Req.isDone
end MemOp

/-- The pieces grouped into requests by a key of the address, in the order of their first lanes (R140). -/
def addPiece (base : DWord) (p : Piece) : List Req → List Req
  | [] => [⟨base, [p], none, .core, 0, [], [], false⟩]
  | r :: rs => if r.va = base then { r with pieces := r.pieces ++ [p] } :: rs else r :: addPiece base p rs

/-- The line of an address. -/
def lineVa (va : DWord) : DWord := va &&& ~~~(127 : DWord)

/-- Line requests of lane accesses: lane, address, size, data (R140). -/
def lineReqs (xs : List (Nat × DWord × Nat × List Byte)) : List Req :=
  xs.foldl (fun rs x => addPiece (lineVa x.2.1) ⟨x.1, x.2.1.toNat % 128, x.2.2.1, x.2.2.2, none⟩ rs) []

/-- Counter requests, one for each counter word (R140). -/
def counterReqs (xs : List (Nat × DWord × List Byte)) : List Req :=
  xs.foldl (fun rs x => addPiece x.2.1 ⟨x.1, 0, 8, x.2.2, none⟩ rs) []

namespace State

/-! Who and where. -/

def reqOf (s : State) (ref : ReqRef) : Option (MemOp × Req) := (s.ops.find? ref.1).bind fun o => (o.reqs[ref.2]?).map fun r => (o, r)
def onReq (s : State) (ref : ReqRef) (f : Req → Req) : State :=
  s.onOp ref.1 fun o => { o with reqs := o.reqs.mapIdx fun i r => if i = ref.2 then f r else r }
def setStage (s : State) (ref : ReqRef) (st : Stage) : State := s.onReq ref fun r => { r with stage := st }
/-- The lookahead of a `pref` ends once every request of it has left the core (R331). -/
def closePref (s : State) (n : Nat) : State :=
  match s.ops.find? n with
  | some o => (match o.kind with
    | .pref _ => if o.reqs.any Req.atCore then s else s.onOp n fun o => { o with opened := false }
    | _ => s)
  | none => s
/-- A request waits for translation, at its core or at the die translation unit (R31, R106). -/
def await (s : State) (ref : ReqRef) (st : Stage) : State := (s.onReq ref fun r => { r with stage := st, waited := true }).closePref ref.1
/-- A piece's received bytes set by position. -/
def setGot (s : State) (ref : ReqRef) (gots : List (Option (List Byte))) : State :=
  s.onReq ref fun r => { r with pieces := r.pieces.mapIdx fun j p => { p with got := (gots.getD j none).or p.got } }
/-- A request has been performed (R161). When it wrote, reads of its core that are on their way may have been served before it (R94). -/
def finishReq (s : State) (ref : ReqRef) : State :=
  match s.reqOf ref with
  | some (o, r) =>
    let s := (s.setStage ref .done).countReleased r
    (match r.xl with
      | some x => if o.kind.inStoreQueue || o.kind = .copyWrite then
          s.barFills o.core (r.pieces.map fun p => unitOf (memKey x.ap x.pa + p.off)).contains else s
      | none => s)
  | none => s
/-- A request leaves without having been performed. -/
def dropReq (s : State) (ref : ReqRef) : State := s.setStage ref .done

/-- The agent number of a requester, as records name it (R8, R147). -/
def agentOf (o : MemOp) : Nat := if o.byEngine then 1024 + o.core else o.core

/-! Scratchpad (R50 to R52). -/

/-- The lines of a byte range. -/
def linesOf (off n : Nat) : List Nat := if n = 0 then [] else (List.range ((off + n - 1) / 128 - off / 128 + 1)).map (· + off / 128)
def scrPresent (g : Workgroup) (off n : Nat) : Bool := (linesOf off n).all fun l => !g.absent.contains l
def scrRead (g : Workgroup) (off n : Nat) : List Byte := g.scr.values 0 off n
def scrWrite (g : Workgroup) (off : Nat) : List Byte → Workgroup
  | [] => g
  | b :: bs => scrWrite { g with scr := g.scr.put 0 off b } (off + 1) bs

/-- The key of a scratchpad counter word among the waiters. -/
def scrKey (wg off : Nat) : Nat := 2 ^ 68 * (wg + 1) + off
def scrHome (core : Nat) : Nat := 2048 + core

/-! Soft errors of a core's arrays (R68, R69): keys among `State.errors`. A scratchpad unit has the key of its first byte. -/

/-- A V register's unit of eight lanes, and an S register, of a warp. -/
def vUnit (k r u : Nat) : Nat := 2 ^ 120 + 8192 * k + 4 * r + u
def sUnit (k r : Nat) : Nat := 2 ^ 120 + 8192 * k + 4096 + r
/-- A unit of an accumulator tile, and of weight plane A or B with its scales. -/
def tileUnit (g tile u : Nat) : Nat := 2 ^ 121 + 65536 * g + 512 * tile + u
def planeUnit (g u : Nat) (b : Bool) : Nat := 2 ^ 121 + 65536 * g + 16384 + (if b then 1024 else 0) + u

/-- The units of a run of registers with a lane of a mask, or with `all` those all of whose lanes are in it. An S register has no lanes: it is read
when any lane takes part, and written at once for all (R303). -/
def runUnits (k : Nat) (mask : Word) (all : Bool) (r : Run) : List Nat :=
  if r.v then ((List.range r.count).map fun i => (List.range 4).filterMap fun u =>
      let m := mask.toNat / 2 ^ (8 * u) % 256
      if (if all then m = 255 else m ≠ 0) then some (vUnit k (r.first + i) u) else none).flatten
  else if all || mask ≠ 0 then (List.range r.count).map fun i => sUnit k (r.first + i) else []

/-- Units of a core's array are read: those corrected are written back, and the first found uncorrectable is named. -/
def readCore (s : State) (us : List Nat) : State × Option (Nat × Nat) :=
  ({ s with errors := s.errors.filter fun e => !(us.contains e.1 && e.2 ≤ 2) },
    us.findSome? fun u => let n := s.errors.get 0 u; if 3 ≤ n then some (u, n) else none)

/-- Units that a write covers have a new code. -/
def recode (s : State) (f : Nat → Bool) : State := { s with errors := s.errors.filter fun e => !f e.1 }

/-- Registers of a warp are written in the lanes of a mask: the units that this covers have a new code (R69). -/
def recodeRuns (s : State) (k : Nat) (mask : Word) (rs : List Run) : State := s.recode ((rs.map (runUnits k mask true)).flatten).contains

/-- An uncorrectable unit of a core's array, read by the core or its engine: a memory error record, and its workgroup ends with MEMERR
(R69, R70). -/
def coreFault (s : State) (g level pa symbols : Nat) (engine : Bool) : State :=
  match s.wg? g with
  | none => s
  | some x =>
    if x.phase = .stopping then s
    else (s.memErrorRecord (dieOfCore x.core) (some x.partition) pa level symbols (if engine then 1024 + x.core else x.core) x.world
      (((s.tasks.find? x.task).map Task.id).getD 0)).stopWg g .memerr

/-- A store to the scratchpad, with the waiters of its words compared (R113). -/
def scrStore (s : State) (wg off : Nat) (bs : List Byte) : State :=
  let s := s.recode fun u => scrKey wg off ≤ u && u + 32 ≤ scrKey wg off + bs.length
  let s := s.onWg wg fun g => scrWrite g off bs
  ((s.waiters.map (·.addr)).filter fun a => a < scrKey wg off + bs.length && scrKey wg off < a + 8).eraseDups.foldl
    (fun s a => s.wake a (leNat (((s.wg? wg).map fun g => scrRead g (a - scrKey wg 0) 8).getD []))) s

/-- The parts of one write to the scratchpad, in their order; the units that they cover together have a new code (R69). -/
def scrStores (s : State) (wg : Nat) (ps : List (Nat × List Byte)) : State :=
  (ps.foldl (fun s q => s.scrStore wg q.1 q.2) s).recode (coveredParts (ps.map fun q => (scrKey wg q.1, q.2))).contains

/-- One counter operation at a home: the value and code delivered with the timestamp it was performed with, or none when a waiter was registered,
in a slot for warps or for a device agent (R98, R114, R118, R119, R126). `rd` and `wr` reach the word. -/
def counterAt (s : State) (home : Nat) (agent : Bool) (key : Nat) (k : CtrKind) (n : Nat) (who : Waiting) (world va ts : Nat) (rd : State → Nat)
    (wr : State → Nat → State) : State × Option (Nat × Nat × Nat) :=
  let c := rd s
  let blk := fun off => Reg.counter (dieOfHome home) off
  let busy := s.waiters.any fun w => w.addr = key
  let (v, old, code) := ctrEffect k busy c n
  if k = .wait then
    let (t, fin) := s.stampCtr key ts
    if n ≤ c then (t, some (c, 0, fin))
    else match s.addWaiter home agent key n who world va ts with
      | some s => (s, none)
      | none => (if agent then t else t.bump (blk 0x00) 1, some (c, 1, fin))
  else
    let s := if code = 2 then s.bump (blk 0x08) 1 else if code = 3 then s.bump (blk 0x10) 1 else s
    let (s, fin) := s.stampCtr key ts
    let s := if k.modifies && code ≠ 3 then (wr s v).wake key v else s
    (s, some (old, code, fin))

/-- What a counter request gives at its home: the values of its pieces, none of them when a waiter was registered, the CSTAT code, and the
timestamp of its last operation (R98). -/
structure CtrDone where
  vals : List (Option Nat)
  code : Nat
  ts : Nat
  deriving DecidableEq, Repr

/-- Pieces of one counter request at its home, in lane order (R112); the waiting threshold of a `cwait` is the largest (R119). -/
def counterPieces (s : State) (home : Nat) (agent : Bool) (key : Nat) (k : CtrKind) (who : Waiting) (world va ts : Nat) (rd : State → Nat)
    (wr : State → Nat → State) (ps : List Piece) : State × CtrDone :=
  if k = .wait then
    let t := ps.foldl (fun m p => Nat.max m (leNat p.data)) 0
    match s.counterAt home agent key k t who world va ts rd wr with
    | (s, some (v, code, fin)) => (s, ⟨ps.map fun _ => some v, code, fin⟩)
    | (s, none) => (s, ⟨ps.map fun _ => none, 0, 0⟩)
  else
    ps.foldl (fun (acc : State × CtrDone) p =>
      match acc.1.counterAt home agent key k (leNat p.data) who world va ts rd wr with
      | (s, some (v, code, fin)) => (s, ⟨acc.2.vals ++ [some v], Nat.max acc.2.code code, fin⟩)
      | (s, none) => (s, { acc.2 with vals := acc.2.vals ++ [none] })) (s, ⟨[], 0, 0⟩)

/-- Atomics of the pieces of a line applied in lane order (R339): the values returned. -/
def atomicPieces (op : AtomOp) (rd : State → Nat → Nat) (wr : State → Nat → Nat → State) (s : State) (ps : List Piece) :
    State × List (Option (List Byte)) :=
  ps.foldl (fun (acc : State × List (Option (List Byte))) p =>
    let m := rd acc.1 p.off
    (wr acc.1 p.off (atomicEffect op m (leNat p.data)), acc.2 ++ [some (leBytes op.bytes m)])) (s, [])

/-- A request of a window access at the scratchpad controller, when its lines are present (R12, R52). -/
def scratchReq (s : State) (ref : ReqRef) : State :=
  match s.reqOf ref with
  | none => s
  | some (o, r) =>
    match s.wg? o.wg with
    | none => s
    | some g =>
      let base := windowOff r.va
      let reads := match o.kind with
        | .store | .push | .pref _ | .cmntInv | .cmntWbi => []
        | _ => (r.pieces.map fun p => unitsOf (scrKey o.wg (base + p.off)) p.size).flatten
      if !(r.pieces.all fun p => scrPresent g (base + p.off) p.size) || !o.scTurn ref.2 then s
      else match s.readCore reads with
      | (s, some (u, n)) => (s.coreFault o.wg 1 (u - scrKey o.wg 0) n false).finishReq ref
      | (s, none) =>
        match o.kind with
        | .store | .push => (s.scrStores o.wg (r.pieces.map fun p => (base + p.off, p.data))).finishReq ref
        | .atomic op _ _ =>
          let rd := fun (s : State) off => leNat (((s.wg? o.wg).map fun g => scrRead g (base + off) op.bytes).getD [])
          let (s, gots) := atomicPieces op rd (fun s off v => s.scrStore o.wg (base + off) (leBytes op.bytes v)) s r.pieces
          (s.setGot ref gots).finishReq ref
        | .counter k _ _ _ _ =>
          let rd := fun (s : State) => leNat (((s.wg? o.wg).map fun g => scrRead g base 8).getD [])
          let wr := fun (s : State) v => s.onWg o.wg fun g => scrWrite g base (leBytes 8 v)
          let (s, c) := s.counterPieces (scrHome o.core) false (scrKey o.wg base) k (.warp ref) o.world r.va.toNat o.ts rd wr r.pieces
          let s := (s.setGot ref (c.vals.map fun v => some (leBytes 8 (v.getD (rd s))))).onReq ref fun r => { r with code := Nat.max r.code c.code }
          if c.vals.contains none then s.setStage ref .waiter else (s.finishReq ref).laneDone ref.1 c.ts
        | .pref _ | .cmntInv | .cmntWbi => s.finishReq ref
        | _ => (s.setGot ref (r.pieces.map fun p => p.got.or (some (scrRead g (base + p.off) p.size)))).finishReq ref

/-! L1 and staging (R54 to R56, R94, R95, R342). -/

def l1Of (s : State) (core : Nat) : List Held := s.l1.get [] core
def setL1 (s : State) (core : Nat) (l : List Held) : State := { s with l1 := s.l1.put [] core l }
def stagedOf (s : State) (squad : Nat) : List Held := s.staging.get [] squad
def setStaged (s : State) (squad : Nat) (l : List Held) : State := { s with staging := s.staging.put [] squad l }

/-- Within its lifetime (R95). -/
def fresh (s : State) (h : Held) : Bool := s.clk < h.filled + 65536

/-- A sector as L1 holds it (R94). -/
def l1Sector (s : State) (core sector : Nat) : Option (List Byte) :=
  ((s.l1Of core).find? fun h => h.addr = sector && s.fresh h).map Held.bytes

/-- Requests of a core's warps and engine that write a sector and are on their way, to the home (R94) or from it to the replica that the
core reads (R84). -/
def writePending (s : State) (core sector : Nat) : Bool :=
  (s.propagating.any fun p => p.core = some core && p.die = dieOfCore core && p.parts.any fun q => (unitsOf q.1 q.2.length).contains sector) ||
  s.ops.any fun e => e.2.core = core && (e.2.kind.inStoreQueue || e.2.kind = .copyWrite) && e.2.reqs.any fun r =>
    match r.xl, r.stage with
    | some x, .sent _ => r.pieces.any fun p => unitOf (memKey x.ap x.pa + p.off) = sector
    | _, _ => false

/-- The key among the errors of a sector in a core's L1. -/
def l1Unit (core sector : Nat) : Nat := 2 ^ 123 + 2 ^ 72 * core + sector

/-- A sector filled into a core's L1 of 1,024 lines (R54), the line least recently used leaving. What is there stays when it is of a later cycle,
and an older line staged for the squad goes, so that no later load takes what is older (R84). -/
def fillL1 (s : State) (core sector : Nat) (bs : List Byte) (filled : Nat) : State :=
  if s.writePending core sector || (s.l1Of core).any fun h => h.addr = sector && filled < h.filled && s.fresh h then s
  else
    let s := s.setStaged (squadOfCore core) ((s.stagedOf (squadOfCore core)).filter fun h => h.addr ≠ lineOf sector || filled ≤ h.filled)
    let l := (s.l1Of core).filter fun h => h.addr ≠ sector
    let linesHeld := (l.map fun h => lineOf h.addr).eraseDups
    let l := if linesHeld.contains (lineOf sector) || linesHeld.length < 1024 then l
      else match oldest Held.used l with
        | some h => l.filter fun g => lineOf g.addr ≠ lineOf h.addr
        | none => l
    State.setL1 { s with errors := s.errors.erase (l1Unit core sector) } core (l ++ [⟨sector, bs, filled, s.clk⟩])

/-- Sectors of L1 read with their code (R68, R69): one found uncorrectable is discarded, to be fetched again from the home. -/
def checkL1 (s : State) (core : Nat) (sectors : List Nat) : State :=
  sectors.foldl (fun s u =>
    let n := s.errors.get 0 (l1Unit core u)
    if n = 0 then s
    else
      let s := { s with errors := s.errors.erase (l1Unit core u) }
      let discard := fun (s : State) => s.setL1 core ((s.l1Of core).filter fun h => h.addr ≠ u)
      if n ≤ 2 then s
      else if n ≤ 4 then discard s
      else
        let s := { s with draws := s.draws + 1 }
        match Config.freeUnit s.draws with
        | some v => s.setL1 core ((s.l1Of core).map fun h => if h.addr = u then { h with bytes := leBytes 32 v.toNat } else h)
        | none => discard s) s

/-- Sectors that miss L1 and lie in a staged line of the squad are filled from it, as of the staging (R342). -/
def fillStaged (s : State) (core : Nat) (sectors : List Nat) : State :=
  sectors.foldl (fun s u =>
    if (s.l1Sector core u).isSome then s
    else match (s.stagedOf (squadOfCore core)).find? fun h => h.addr = lineOf u && s.fresh h with
      | some h => s.fillL1 core u ((h.bytes.drop (u - lineOf u)).take 32) h.filled
      | none => s) s

/-- A line staged for a squad, in the place of the one staged longest ago (R342); not while a write to it by a core of the squad is on
its way, which would bar that core from the fill (R94). -/
def stageLine (s : State) (squad line : Nat) : State :=
  if (List.range 8).any fun i => (unitsOfLine line).any (s.writePending (8 * squad + i)) then s
  else
    let l := (s.stagedOf squad).filter fun h => h.addr ≠ line
    let l := if l.length < 512 then l else (match oldest Held.filled l with
      | some h => l.erase h
      | none => l)
    s.setStaged squad (l ++ [⟨line, s.mem.readBytes line 128, s.clk, s.clk⟩])

/-- A store or copy write of a core invalidates the sectors it hits, and the squad's staged lines (R56, R94, R342). -/
def dropSectors (s : State) (core : Nat) (sectors : List Nat) : State :=
  let s := s.barFills core sectors.contains
  let s := s.setL1 core ((s.l1Of core).filter fun h => !sectors.contains h.addr)
  s.setStaged (squadOfCore core) ((s.stagedOf (squadOfCore core)).filter fun h => !(sectors.map lineOf).contains h.addr)

/-- An acquire at SQ scope or wider, and `cmnt.inv`: all of the core's L1 and its squad's staged lines (R88, R94, R342). -/
def emptyL1 (s : State) (core : Nat) : State :=
  ((s.barFills core fun _ => true).setL1 core []).setStaged (squadOfCore core) []

/-! Parks (R139 to R147). -/

def usedUnits (d : Dtu) (overflow : Bool) : Nat := (d.parked.filter fun p => p.overflow = overflow).foldl (fun n p => n + p.units) 0

/-- The park sequences of a die that an entry holds, or a request that has not been performed since (R157; log 62). -/
def seqsHeld (s : State) (die : Nat) : List Nat :=
  (s.dtu die).parked.map (·.seq) ++ (s.ops.map fun e => (e.2.reqs.map fun r =>
    if r.isDone then [] else (r.seqs.filter fun q => q.1 = die).map (·.2)).flatten).flatten

/-- The next park sequence: 29 bits, never 0, never one that is held (R141, R157). -/
def nextSeqFrom (held : List Nat) : Nat → Nat → Nat
  | 0, q => q
  | n + 1, q =>
    let q' := if q % 2 ^ 29 = 0 then 1 else q % 2 ^ 29
    if held.contains q' then nextSeqFrom held n (q' + 1) else q'

/-- A die's dugout has room for a request: on the die, or in the overflow area (R154). -/
def dugoutRoom (d : Dtu) (p : Parked) : Bool := usedUnits d false + p.units ≤ 8192 || usedUnits d true + p.units ≤ 262144

/-- A request takes its entries in a die's dugout, on the die or else in the overflow area (R154). DGPEAK takes in here what stands, after a clear
too (R161; log 90). -/
def takeEntries (s : State) (die : Nat) (p : Parked) : State :=
  let d := s.dtu die
  let onDie := usedUnits d false + p.units ≤ 8192
  let held := s.seqsHeld die
  let q := nextSeqFrom held (held.length + 1) d.nextSeq
  let p := { p with seq := q, overflow := !onDie }
  let newPage := !d.parked.any fun x => x.world = p.world && x.page = p.page
  let s := s.onDtu die fun d => { d with
    parked := d.parked ++ [p]
    nextSeq := q + 1
    pages := if newPage then d.pages ++ [⟨p.world, p.page, s.clk, p, none, false⟩] else d.pages }
  let s := s.onReq p.ref fun r => { r with stage := .parked die q, seqs := (die, q) :: r.seqs }
  let s := (s.bump (Reg.dtu die 0x228) 1).bump (Reg.dtu die 0x240) (if onDie then 0 else p.units)
  let peak := Reg.dtu die 0x250
  s.setReg peak (Nat.max (s.reg peak) (usedUnits (s.dtu die) false + usedUnits (s.dtu die) true))

/-- A request must park: it enters its die's dugout, or waits at the unit while the dugout is full or others wait there before it; one
that waits stands at sequence 0, which is none (R155, R157). -/
def enterDugout (s : State) (die : Nat) (p : Parked) : State :=
  if (s.dtu die).waiting = [] && dugoutRoom (s.dtu die) p then s.takeEntries die p
  else (s.onDtu die fun d => { d with waiting := d.waiting ++ [p] }).setStage p.ref (.parked die 0)

/-- A request that failed a check is parked with its cause; `pref` and `cmnt` end without effect (R139). -/
def parkReq (s : State) (ref : ReqRef) (c : Cause) : State :=
  match s.reqOf ref with
  | none => s
  | some (o, r) =>
    if o.kind.quiet then s.dropReq ref
    else
      let bytes := r.pieces.foldl (fun n p => n + p.data.length) 0
      let va := r.va + BitVec.ofNat 64 (((r.pieces.head?).map (·.off)).getD 0)
      let die := dieOfCore o.core
      s.enterDugout die ⟨0, ref, o.world, pageOf r.va, o.partition, o.task, c, o.accessAt ref.2, va, agentOf o, o.slot,
        Nat.max 1 ((bytes + 127) / 128), false⟩

/-- Cores and engines of a partition, or of the whole die, stopped under R155 (64 stands for the die). -/
def stoppedFor (s : State) (die part : Nat) : Bool := let l := (s.dtu die).stopped; l.contains 64 || l.contains part

/-! Requests leave the core. -/

/-- The unit at the peer that an aperture-4 address names: its home by R58, R63 and R64, the slice as if all sixteen of the home's die
served it, since the peer's masks are its own (log 64). -/
def peerEnd (pa : Nat) : Endpoint :=
  let dev := pa / 2 ^ 43 % 2 ^ 12
  let k := peerKey pa
  let d := (channelOf (keyAp k) (keyPa k)).1
  match keyAp k with
  | 3 => Endpoint.make dev d 3 (keyPa k / 2 ^ 22 % 64)
  | 6 => if keyPa k < 0x08000000 then Endpoint.make dev (keyPa k / 2 ^ 24) 4 0 else Endpoint.make dev 8 7 0
  | _ => Endpoint.make dev d 2 (sliceHash (keyPa k))

/-- The homes' endpoint for a translated access of a die. -/
def targetEnd (s : State) (die : Nat) (x : Xlated) (kind : OpKind) : Endpoint :=
  match x.ap with
  | 4 => peerEnd x.pa
  | 5 => Endpoint.make s.devId 8 7 0
  | 6 => if x.pa < 0x08000000 then Endpoint.make s.devId (x.pa / 2 ^ 24) 4 0 else Endpoint.make s.devId 8 7 0
  | _ => if x.rp && ((kind.isLoad && !kind.isCounter) || kind.isCopyRead) then s.replicaEnd die x.ap x.pa else s.homeEnd x.ap x.pa

/-- The packet type and virtual channel of a request (R163). -/
def packetKind : OpKind → PType × Nat
  | .store | .push | .cmntWbi => (.wr, 1)
  | .copyWrite => (.wr, 2)
  | .copyRead _ => (.rd, 2)
  | .atomic _ _ _ => (.atm, 1)
  | .counter _ _ _ _ _ => (.ctr, 3)
  | _ => (.rd, 1)

/-- The sectors the pieces of a line touch, as pieces of the line. -/
def sectorPieces (ps : List Piece) : List Piece := (ps.map fun p => p.off / 32).eraseDups.map fun i => ⟨i, 32 * i, 32, [], none⟩

/-- Those sectors in rising order, by runs of neighbours: a read names one run (R163). -/
def sectorRuns (ps : List Piece) : List (List Piece) :=
  ((List.range 4).filterMap fun i => (sectorPieces ps).find? fun p => p.off = 32 * i).foldr (fun p acc =>
    match acc with
    | (q :: qs) :: rest => if q.off = p.off + 32 then (p :: q :: qs) :: rest else [p] :: (q :: qs) :: rest
    | _ => [[p]]) []

/-- The pieces of a store by packets: whole neighbouring sectors in one, else one masked write for each sector (R56, R163). -/
def storePackets (ps : List Piece) : List (List Piece) :=
  let sectors := (ps.map fun p => p.off / 32).eraseDups
  let bytes := (ps.map fun p => (List.range p.data.length).map (p.off + ·)).flatten
  let whole := sectors.all fun i => (List.range 32).all fun j => bytes.contains (32 * i + j)
  if whole && (sectorRuns ps).length = 1 then [ps] else sectors.map fun i => ps.filter fun p => p.off / 32 = i

/-- The code of a counter instruction in OPS, which the spec leaves open (R163; log 95). -/
def ctrCode : CtrKind → Nat
  | .add => 0 | .wait => 1 | .read => 2 | .test => 3 | .init => 4 | .raise => 5

/-- The packet of a request (R162): the address is the line's, the tag names the request. -/
def requestPacket (s : State) (o : MemOp) (ref : ReqRef) (x : Xlated) (ps : List Piece) : Packet :=
  let (ty, vc) := packetKind o.kind
  let fn := match o.kind with
    | .atomic op _ _ => op.code
    | .counter k _ _ _ _ => ctrCode k
    | _ => ps.length
  let len := match ty with
    | .wr => Nat.min 4 (sectorPieces ps).length
    | .rd => 0
    | _ => 1
  let src := if o.byEngine then s.engineEnd o.core else s.coreEnd o.core
  ⟨ty, false, vc, false, false, len, s.targetEnd (dieOfCore o.core) x o.kind, src, 0, 0, if x.ap = 4 then peerKey x.pa else memKey x.ap x.pa, 0, fn,
    o.world, ref, .done, ps, none, o.ts, o.slot, o.fn, 0⟩

/-- The function number of a CTR packet that cancels a waiter slot at a peer (log 65). -/
def cancelFn : Nat := 6

/-- A peer's home is asked to free the slot of a request. -/
def askCancel (s : State) (o : MemOp) (ref : ReqRef) (x : Xlated) (r : Req) : State :=
  s.send { s.requestPacket o ref x r.pieces with fn := cancelFn }

/-- A registered wait is cancelled (R119 to R121): its slot at a home of this device is freed and the request stands in its core again; a
peer's home is asked to free it. One whose wake is on its way is left. -/
def cancelWait (s : State) (ref : ReqRef) : State :=
  match s.reqOf ref with
  | none => s
  | some (o, r) =>
    match r.stage with
    | .waiter =>
      let x := r.xl.getD ⟨0, 0, 0⟩
      if x.ap = 4 then (s.setStage ref .cancelling).askCancel o ref x r
      else match s.waiters.find? fun w => w.who = .warp ref with
        | some w => ({ s with waiters := s.waiters.erase w }).onReq ref Req.unsent
        | none => s
    | _ => s

/-- Whether loads of a translation use L1 (R54). -/
def cached (x : Xlated) : Bool := x.ap ≤ 3 && !x.ma

/-- Who a request's master is (R35): a workgroup, or an engine context with its timeline. -/
def masterOf (s : State) (o : MemOp) : Nat × Option Nat :=
  match o.owner with
  | .copy c => (o.wg, (s.copies.find? c).map (·.tl))
  | _ => (o.wg, none)

/-- A park sequence came before another (R141): sequences wrap at 2^29. -/
def seqBefore (a b : Nat) : Bool := a ≠ b && (b + 2 ^ 29 - a) % 2 ^ 29 < 2 ^ 28

/-- A released request waits for those of its master that were parked before it, so that they reach their homes in park order (R150). -/
def behind (s : State) (o : MemOp) (r : Req) : Bool :=
  match r.seqs with
  | [] => false
  | (d, q) :: _ => s.ops.any fun e => s.masterOf e.2 = s.masterOf o && e.2.reqs.any fun x =>
      match x.seqs with
      | [] => false
      | (c, p) :: _ => c = d && seqBefore p q && !x.isDone && !x.isParked && x.stage ≠ .waiter

/-- A lane's read of an MMIO page comes after those of the lower lanes of its instruction, as far as they may be of such a page (R332). -/
def mmioTurn (o : MemOp) (i lane : Nat) : Bool :=
  (o.reqs.mapIdx fun j r => (j, r)).all fun q => q.1 = i || q.2.isDone || ((q.2.xl.map fun x => decide (x.ap ≠ 6)).getD false) ||
    q.2.pieces.all fun p => p.got.isSome || lane < p.lane

/-- Send a translated request, when its source may inject (R182) and no released one comes before it (R150). Loads of cached pages take
the sectors L1 holds and ask for the others; those of an MMIO page go lane by lane (R332); stores and copy writes invalidate the sectors they name. -/
def sendReq (s : State) (ref : ReqRef) (x : Xlated) : State :=
  match s.reqOf ref with
  | none => s
  | some (o, r) =>
    let s := s.onReq ref fun r => { r with xl := some x }
    let base := memKey x.ap x.pa
    let go := fun (s : State) (pss : List (List Piece)) =>
      let p := s.requestPacket o ref x []
      if s.canSend p.src p.dst p.vc && !s.behind o r && o.scTurn ref.2 then
        pss.foldl (fun s ps => s.send (s.requestPacket o ref x ps)) (s.setStage ref (.sent pss.length))
      else s.setStage ref .walked
    match o.kind with
    | .fetch => if x.ap = 4 then go s (sectorRuns r.pieces) else s.finishReq ref
    | .svc _ _ => s.finishReq ref
    | .load _ _ _ | .loadS _ _ _ | .desc _ _ _ _ | .card _ | .refill | .top | .stage =>
      if o.kind ≠ .stage && cached x then
        let sectors := (r.pieces.map fun p => unitOf (base + p.off)).eraseDups
        let s := (s.checkL1 o.core sectors).fillStaged o.core sectors
        let have' := r.pieces.map fun p =>
          if p.got.isSome then p.got
          else (s.l1Sector o.core (unitOf (base + p.off))).map fun bs => (bs.drop ((base + p.off) % 32)).take p.size
        let s := s.setGot ref have'
        let missing := (r.pieces.zip have').filterMap fun q => if q.2.isNone then some q.1 else none
        if missing.isEmpty then s.finishReq ref else go s (sectorRuns missing)
      else if x.ap = 6 then (match r.pieces.find? fun p => p.got.isNone with
        | some p => if mmioTurn o ref.2 p.lane then go s [sectorPieces [p]] else s.setStage ref .walked
        | none => s.finishReq ref)
      else go s (sectorRuns (r.pieces.filter fun p => p.got.isNone))
    | .store | .push | .copyWrite =>
      go (s.dropSectors o.core (r.pieces.map fun p => unitOf (base + p.off)))
        (if x.ap = 6 then r.pieces.map fun p => [p] else storePackets r.pieces)
    | .atomic _ _ _ => go (s.dropSectors o.core (r.pieces.map fun p => unitOf (base + p.off))) [r.pieces]
    | .counter k _ _ _ _ =>
      go (if k.modifies then s.dropSectors o.core (r.pieces.map fun p => unitOf (base + p.off)) else s) [r.pieces]
    | .copyRead _ => go s (sectorRuns r.pieces)
    | .pref m =>
      let s := s.finishReq ref
      let line := lineOf base
      if 1 < x.ap || m = .tr then s
      else match s.readUnits (unitsOfLine line) with
        | .error (s, n, u) => (s.unitError u n (agentOf o) o.world (s.taskId o.task)).stopWg o.wg .memerr
        | .ok s => if m = .nv && !x.ma && !x.rp then s.stageLine (squadOfCore o.core) line else s
    | .cmntWbi =>
      let line := lineOf base
      let s := s.dropSectors o.core ((List.range 4).map fun i => line + 32 * i)
      let s := if x.ap ≤ 1 then s.l2.foldl (fun s e => (e.2.filter fun y => y.addr = line).foldl (fun s y => s.dropLine e.1 y) s) s else s
      s.finishReq ref
    | .cmntInv | .mldw | .linear _ _ _ _ _ | .gather _ _ _ _ => s.finishReq ref

/-- A request that hit in a TLB: check 11, the D bit, and on it goes (R23, R25, R27). -/
def hitReq (s : State) (ref : ReqRef) (core : Nat) (t : TlbEntry) (va : DWord) (p : Perm) : State :=
  match permCause p t.ap t.attr with
  | some c => s.parkReq ref c
  | none => (s.markDirty core t p).sendReq ref (s.xlate t va)

/-- Distinct first-level misses of a core (R31). -/
def coreMisses (s : State) (core : Nat) : List (Nat × Nat) :=
  (((s.ops.filter fun e => e.2.core = core).map fun e =>
    (e.2.reqs.filter fun r => r.stage = .miss).map fun r => (e.2.world, pageOf r.va)).flatten).eraseDups

/-- A walk of a queued miss takes in an address: of the same page, or inside the run it will install (R31). -/
def joins (s : State) (die : Nat) (o : MemOp) (va : DWord) (m : Miss) : Bool :=
  m.world = o.world && (m.page = pageOf va || (canonical va && !inWindow va &&
    match m.asked, s.walk die o.world o.partition (pageVa m.page) with
    | some (t, _), _ => t.hits o.world va
    | none, .ok t => t.hits o.world va
    | none, _ => false))

/-- Misses in the queue, those whose walk waits for a peer's answer apart (R31). -/
def queued (d : Dtu) : Nat := (d.missQ.filter fun m => m.asked.isNone).length

/-- A first-level miss at the die translation unit: the last-level TLB, or the miss queue, joining a walk that takes it in. It waits in
its core while that has 16 misses or the queue is full, where a `pref` ends (R31, R341). -/
def missReq (s : State) (ref : ReqRef) (o : MemOp) (r : Req) : State :=
  let die := dieOfCore o.core
  let key := (o.world, pageOf r.va)
  let mine := s.coreMisses o.core
  if 16 ≤ mine.length && !mine.contains key then s.await ref .limited
  else
    let d := s.dtu die
    match (if canonical r.va && !inWindow r.va then d.tlb.find? fun t => t.hits o.world r.va else none) with
    | some t => ((s.touchDieTlb die t).fillCoreTlb o.core t).hitReq ref o.core { t with stamp := s.clk } r.va (o.permAt ref.2)
    | none =>
      match d.missQ.findIdx? (s.joins die o r.va) with
      | some i =>
        ((s.onDtu die fun d => { d with missQ := d.missQ.modify i fun m => { m with refs := m.refs ++ [ref] } }).bump
          (Reg.dtu die 0x108) 1).await ref .miss
      | none =>
        if queued d < 1024 then
          (s.onDtu die fun d => { d with missQ := d.missQ ++ [⟨key.1, key.2, [ref], none, false⟩] }).await ref .miss
        else match o.kind with
          | .pref _ => s.dropReq ref
          | _ => s.await ref .limited

/-- Start a request that may leave the core. -/
def startReq (s : State) (ref : ReqRef) : State :=
  match s.reqOf ref with
  | none => s
  | some (o, r) =>
    let isCopy := match o.kind with
      | .copyRead _ | .copyWrite => true
      | _ => false
    if !r.atCore then s
    else if inWindow r.va && !isCopy && !o.kind.isFetch then (s.scratchReq ref).closePref ref.1
    else if s.stoppedFor (dieOfCore o.core) o.partition then s
    else match (if canonical r.va && !inWindow r.va then (s.tlbOf o.core).find? fun t => t.hits o.world r.va else none) with
      | some t => (s.hitReq ref o.core t r.va (o.permAt ref.2)).closePref ref.1
      | none => (s.missReq ref o r).closePref ref.1

end State
end Sys2Proof.Machine
end

