-- ==== Sys2Proof/Machine/Memory.lean ====
section
/-!
DEFINITION. The issue of the memory, atomic, maintenance and counter instructions, opcodes 0x60 to 0x6F (spec/13 R327 to R346):
checks 3 and 4 of R266, then an operation of the warp with its line requests. What becomes of the requests is the part of Pump.
-/

namespace Sys2Proof.Machine

/-- What an instruction sends: its operation, participating lanes and requests. -/
structure Plan where
  kind : OpKind
  mask : Word
  reqs : List Req
  la : Nat
  sc : Bool
  deriving DecidableEq, Repr

/-- The address of a lane, global or scratchpad, per lane or uniform (R327). -/
def addrOf (scratch : Bool) (a : AddrOp) (w : Warp) (l : Nat) : DWord :=
  match a, scratch with
  | .lane r, false => w.vpair r.toNat l
  | .uni r, false => w.spair r.toNat
  | .lane r, true => BitVec.ofNat 64 windowBase + (w.vreg r.toNat l).setWidth 64
  | .uni r, true => BitVec.ofNat 64 windowBase + (w.sreg r.toNat).setWidth 64

/-- An address operand's V registers lie within the allocation (R249). -/
def addrOk (c : LCtx) (scratch : Bool) : AddrOp → Bool
  | .lane r => vOk c (!scratch) r
  | .uni _ => true

/-- Registers t to t + n - 1 lie within the allocation (R249). -/
def groupOk (c : LCtx) (n : Nat) (t : Reg) : Bool := t.toNat + n ≤ c.regs

/-- The tests of R329 over the lanes: alignment first, then the window bound; the lowest failing lane is reported. -/
def checkAddrs (size scrSize : Nat) (xs : List (Nat × DWord)) : Option Trap :=
  match xs.find? fun x => x.2.toNat % size ≠ 0 with
  | some x => some ⟨.align, x.2.lo⟩
  | none =>
    match xs.find? fun x => inWindow x.2 && scrSize < windowOff x.2 + size with
    | some x => some ⟨.scrbound, x.2.lo⟩
    | none => none

/-- Registers from t of a lane as bytes, low first (R330). -/
def regBytes (w : Warp) (t : Nat) (l : Nat) : Nat → List Byte
  | 0 => []
  | n + 1 => leBytes 4 (w.vreg t l).toNat ++ regBytes w (t + 1) l n

/-- Participating lanes with their addresses. -/
def laneAddrs (scratch : Bool) (a : AddrOp) (w : Warp) (mask : Word) : List (Nat × DWord) :=
  (lanes (partMask w mask)).map fun l => (l, addrOf scratch a w l)

/-- Operations of a warp's stream, oldest first. -/
def State.stream (s : State) (k : Nat) : List (Nat × MemOp) :=
  s.ops.filter fun e => match e.2.owner with
    | .warp j _ => j = k && !e.2.kind.isFetch
    | _ => false

/-- Whether an outstanding result is open from issue (R331): stores end theirs on entering the store queue. -/
def OpKind.opens : OpKind → Bool
  | .store | .push | .cmntWbi => false
  | .atomic _ _ ret => ret
  | _ => true

/-- A counter instruction with no participating lane: it performs nothing (R111, R328). -/
def Plan.idle (p : Plan) : Bool := p.kind.isCounter && p.reqs.isEmpty

/-- An operation issued by a slot: it is held when a request of the warp is parked (R142); an `.sc` operation takes the core's next
timestamp (R98). One that performs nothing is neither held nor placed in that order. The last argument is the function field. -/
def State.issue (s : State) (k : Nat) (sd : Side) (w : Warp) (p : Plan) (fn : Nat) : State :=
  let core := State.coreOf k
  let st := s.stream k
  let held := !p.idle && (w.token ≠ 0 || st.any fun e => e.2.held || e.2.hasParked)
  let (s, ts) := if p.sc && !p.idle then
      ({ s with lamport := s.lamport.put 0 core (s.lamport.get 0 core + 1) }, s.lamport.get 0 core + 1)
    else (s, 0)
  let g := s.wg? w.wg
  s.newOp ⟨.warp k sd, core, w.wg, (g.map (·.world)).getD 0, (g.map (·.partition)).getD 0,
    (g.map (·.task)).getD 0, p.kind, p.la, !p.idle && (p.kind.opens || held), held, (w.slot sd).pc, p.mask, p.reqs, ts, fn, k % 64, w.number⟩

/-- The field f[4:0] of an M-format word (R256, R263). -/
def fnOf (i : Instr) : Nat := (encode i).toNat % 32

/-- An instruction with no participating lane sends nothing and completes at once (R328); a counter instruction leaves CSTAT OK, after
the warp's earlier counter instructions (R111, R115). -/
def State.sendNothing (s : State) (k : Nat) (sd : Side) (w : Warp) (p : Plan) (fn : Nat) : State :=
  if !p.kind.isCounter then s
  else if (s.stream k).any fun e => e.2.kind.isCounter then s.issue k sd w p fn
  else s.onWarp k fun w => { w with cstat := 0 }

/-- The issue of a memory or counter instruction: its checks, then its operation, which may hold its slot (R266, R328). -/
def runMemHold (plan : LCtx → Nat → Warp → Except Trap Plan) (hold : Warp → Warp) (i : Instr) (s : State) : Out :=
  match s.warp? s.curKey with
  | none => .next s
  | some w =>
    match plan (lctx s w s.curSide i) (s.cardOf w).scrSize w with
    | .error t => .next (trapEntry s s.curKey s.curSide t)
    | .ok p =>
      let w' := w.advance s.curSide
      .next (if p.reqs.isEmpty then (s.setWarp s.curKey w').sendNothing s.curKey s.curSide w p (fnOf i)
        else (s.setWarp s.curKey (hold w')).issue s.curKey s.curSide w p (fnOf i))

/-- Likewise for an instruction that does not hold its slot. -/
def runMem (plan : LCtx → Nat → Warp → Except Trap Plan) (i : Instr) (s : State) : Out := runMemHold plan (fun w => w) i s

def illegalPlan (c : LCtx) : Except Trap Plan := .error ⟨.illegal, c.word⟩

/-- A load of V registers (R334). -/
def loadPlan (scratch : Bool) (m : MemWidth) (sx : Bool) (t : Reg) (a : AddrOp) (la : Look) : LCtx → Nat → Warp → Except Trap Plan :=
  fun c scr w =>
    if groupOk c ((m.bytes + 3) / 4) t && addrOk c scratch a then
      let xs := laneAddrs scratch a w c.mask
      match checkAddrs m.bytes scr xs with
      | some e => .error e
      | none => .ok ⟨.load m sx t.toNat, partMask w c.mask, lineReqs (xs.map fun x => (x.1, x.2, m.bytes, [])), la.toNat, false⟩
    else illegalPlan c

/-- A store (R335). -/
def storePlan (scratch : Bool) (m : MemWidth) (t : Reg) (a : AddrOp) (la : Look) : LCtx → Nat → Warp → Except Trap Plan :=
  fun c scr w =>
    if groupOk c ((m.bytes + 3) / 4) t && addrOk c scratch a then
      let xs := laneAddrs scratch a w c.mask
      match checkAddrs m.bytes scr xs with
      | some e => .error e
      | none => .ok ⟨.store, partMask w c.mask,
          lineReqs (xs.map fun x => (x.1, x.2, m.bytes, (regBytes w t.toNat x.1 4).take m.bytes)), la.toNat, false⟩
    else illegalPlan c

/-- A data atomic (R337, R339). -/
def atomicPlan (scratch ret : Bool) (op : AtomOp) (t : Reg) (a : AddrOp) (la : Look) : LCtx → Nat → Warp → Except Trap Plan :=
  fun c scr w =>
    if groupOk c op.regs t && addrOk c scratch a then
      let xs := laneAddrs scratch a w c.mask
      match checkAddrs op.bytes scr xs with
      | some e => .error e
      | none => .ok ⟨.atomic op t.toNat ret, partMask w c.mask,
          lineReqs (xs.map fun x => (x.1, x.2, op.bytes, regBytes w t.toNat x.1 op.regs)), la.toNat, false⟩
    else illegalPlan c

/-- The lines of `pref` and `cmnt.wbi`: no test of the address (R341, R343). -/
def linePlan (kind : OpKind) (a : AddrOp) (la : Look) : LCtx → Nat → Warp → Except Trap Plan :=
  fun c _ w =>
    if addrOk c false a then
      .ok ⟨kind, partMask w c.mask, lineReqs ((laneAddrs false a w c.mask).map fun x => (x.1, lineVa x.2, 0, [])), la.toNat, false⟩
    else illegalPlan c

/-- A counter instruction: one operation a lane, or in the uniform form one for the lowest lane (R111, R344). -/
def counterPlan (k : CtrKind) (f : CtrField) (t : Reg) (a : AddrOp) : LCtx → Nat → Warp → Except Trap Plan :=
  fun c scr w =>
    if groupOk c (if k = .test then 4 else 2) t && addrOk c false a then
      let xs := laneAddrs false a w c.mask
      let uni := match a with
        | .uni _ => true
        | .lane _ => false
      match checkAddrs 8 scr xs with
      | some e => .error e
      | none =>
        let xs := if uni then xs.take 1 else xs
        let data := fun l => if k = .read then [] else regBytes w t.toNat l 2
        .ok ⟨.counter k f.scope f.sc t.toNat uni, partMask w c.mask, counterReqs (xs.map fun x => (x.1, x.2, data x.1)), f.la.toNat, f.sc⟩
    else illegalPlan c

/-- `ld` (R334). -/
def execLd (m : MemWidth) (sx : Bool) (t : Reg) (a : AddrOp) (la : Look) (s : State) : Out :=
  runMem (loadPlan false m sx t a la) (.ld m sx t a la) s
/-- `st` (R335). -/
def execSt (m : MemWidth) (t : Reg) (a : AddrOp) (la : Look) (s : State) : Out := runMem (storePlan false m t a la) (.st m t a la) s
/-- `lds` (R334). -/
def execLds (m : MemWidth) (sx : Bool) (t : Reg) (a : AddrOp) (la : Look) (s : State) : Out :=
  runMem (loadPlan true m sx t a la) (.lds m sx t a la) s
/-- `sts` (R335). -/
def execSts (m : MemWidth) (t : Reg) (a : AddrOp) (la : Look) (s : State) : Out := runMem (storePlan true m t a la) (.sts m t a la) s

/-- `ldu`: exactly one load, whatever the slot's mask (R336). -/
def execLdu (m : MemWidth) (sx : Bool) (t a : Reg) (la : Look) (s : State) : Out :=
  runMem (fun _ scr w =>
    let va := w.spair a.toNat
    match checkAddrs m.bytes scr [(0, va)] with
    | some e => .error e
    | none => .ok ⟨.loadS m sx t.toNat, 1, lineReqs [(0, va, m.bytes, [])], la.toNat, false⟩) (.ldu m sx t a la) s

/-- `atom` (R337). -/
def execAtom (op : AtomOp) (t : Reg) (a : AddrOp) (la : Look) (s : State) : Out := runMem (atomicPlan false true op t a la) (.atom op t a la) s
/-- `atoms` (R337). -/
def execAtoms (op : AtomOp) (t : Reg) (a : AddrOp) (la : Look) (s : State) : Out := runMem (atomicPlan true true op t a la) (.atoms op t a la) s
/-- `red` (R337). -/
def execRed (op : AtomOp) (t : Reg) (a : AddrOp) (la : Look) (s : State) : Out := runMem (atomicPlan false false op t a la) (.red op t a la) s
/-- `pref` (R341). -/
def execPref (m : PrefMode) (a : AddrOp) (la : Look) (s : State) : Out := runMem (linePlan (.pref m) a la) (.pref m a la) s
/-- `cmnt.inv` (R343): one request, which takes effect once every earlier load has been performed. -/
def execCmntInv (la : Look) (s : State) : Out :=
  runMem (fun c _ w =>
    let pm := partMask w c.mask
    .ok ⟨.cmntInv, pm, if pm = 0 then [] else [⟨0, [], none, .core, 0, [], [], false⟩], la.toNat, false⟩) (.cmntInv la) s
/-- `cmnt.wbi` (R343). -/
def execCmntWbi (a : AddrOp) (la : Look) (s : State) : Out := runMem (linePlan .cmntWbi a la) (.cmntWbi a la) s

/-- `cadd` (R114, R345). -/
def execCadd (f : CtrField) (t : Reg) (a : AddrOp) (s : State) : Out := runMem (counterPlan .add f t a) (.cadd f t a) s
/-- `cread` (R114, R345). -/
def execCread (f : CtrField) (t : Reg) (a : AddrOp) (s : State) : Out := runMem (counterPlan .read f t a) (.cread f t a) s
/-- `ctest` (R114, R345). -/
def execCtest (f : CtrField) (t : Reg) (a : AddrOp) (s : State) : Out := runMem (counterPlan .test f t a) (.ctest f t a) s
/-- `cinit` (R114, R345). -/
def execCinit (f : CtrField) (t : Reg) (a : AddrOp) (s : State) : Out := runMem (counterPlan .init f t a) (.cinit f t a) s
/-- `craise` (R114, R345). -/
def execCraise (f : CtrField) (t : Reg) (a : AddrOp) (s : State) : Out := runMem (counterPlan .raise f t a) (.craise f t a) s

/-- `cwait`: its slot is held until the wait completes (R346), not at all when it waits for nothing (R328). -/
def execCwait (f : CtrField) (t : Reg) (a : AddrOp) (s : State) : Out :=
  runMemHold (counterPlan .wait f t a) (fun w => w.setSlot s.curSide { w.slot s.curSide with hold := .cwait s.nextOp }) (.cwait f t a) s

end Sys2Proof.Machine
end

