-- ==== Sys2Proof/Machine/Control.lean ====
section
/-!
DEFINITION. The control instructions, opcodes 0x00 to 0x08, and the spill stack (spec/11 R280 to R290; spec/07 R193).
-/

namespace Sys2Proof.Machine

/-- A slot's next PC. -/
def Warp.goto (w : Warp) (sd : Side) (pc : DWord) : Warp := w.setSlot sd { w.slot sd with pc := pc }

/-- pc + 4 × off, the offset signed (R244). -/
def target {n : Nat} (pc : DWord) (off : BitVec n) : DWord := pc + (off.signExtend 64 <<< 2)

/-- The spill stack of a warp (R193). -/
def stackBase (g : Workgroup) (w : Warp) : Nat :=
  g.card.spill.toNat + ((g.stage * g.card.grid + g.linear) * g.card.warps + w.number) * 4096

/-- A path as the spill stack keeps it (R193): a path waiting at its join has bit 0 of its PC set (R288). -/
def spillEntry (s : Slot) (waiting : Bool) : SpillEntry :=
  if waiting then ⟨s.pc ||| 1, s.mask, 0⟩
  else ⟨s.pc, s.mask, match s.join with
    | some j => (j - s.pc).setWidth 32
    | none => 0⟩

/-- The path of an entry (R193, R288). -/
def SpillEntry.waiting (e : SpillEntry) : Bool := e.pc.getLsbD 0
def SpillEntry.slot (e : SpillEntry) : Slot :=
  if e.waiting then ⟨e.pc - 1, e.mask, some (e.pc - 1), .none⟩
  else ⟨e.pc, e.mask, if e.joinOff = 0 then none else some (e.pc + e.joinOff.signExtend 64), .none⟩

/-- The 16 bytes of an entry (R193). -/
def SpillEntry.toBytes (e : SpillEntry) : List Byte := leBytes 8 e.pc.toNat ++ leBytes 4 e.mask.toNat ++ leBytes 4 e.joinOff.toNat
def SpillEntry.ofBytes (bs : List Byte) : SpillEntry :=
  ⟨BitVec.ofNat 64 (leNat (bs.take 8)), BitVec.ofNat 32 (leNat ((bs.drop 8).take 4)), BitVec.ofNat 32 (leNat ((bs.drop 12).take 4))⟩

/-- The address of entry k of a warp's stack (R193). -/
def State.spillVa (s : State) (w : Warp) (entry : Nat) : DWord :=
  BitVec.ofNat 64 (((s.wg? w.wg).map fun g => stackBase g w).getD 0 + 16 * entry)

/-- The trap of an access to entry k of a warp's stack: a misaligned stack base (R198), or an entry in the window past SCRSIZE (R12). -/
def State.spillTrap (s : State) (w : Warp) (entry : Nat) : Option Trap := checkAddrs 16 (s.cardOf w).scrSize [(0, s.spillVa w entry)]

/-- An access to entry k of a warp's stack, a store or a load of its stream (R193, R288). -/
def State.spillOp (s : State) (k : Nat) (sd : Side) (w : Warp) (kind : OpKind) (entry : Nat) (data : List Byte) : State :=
  s.issue k sd w ⟨kind, 0, lineReqs [(0, s.spillVa w entry, 16, data)], 15, false⟩ 4

/-- The two parts a `brv` divides the mask into: lanes that take the branch, and the others (R285). -/
def brvTaken (w : Warp) (neg : Bool) (p : PReg) (mask : Word) : Word := mask &&& (if neg then ~~~(w.preg p) else w.preg p)

/-- `nop` (R290). -/
def execNop (s : State) : Out := runLocal (fun _ w => .ok w) .nop s

/-- `bra` (R282). -/
def execBra (off : BitVec 25) (s : State) : Out :=
  runControl (fun _ w => .ok (w.goto s.curSide (target (w.slot s.curSide).pc off))) (.bra off) s

/-- `call`: the return address in S126 and S127 of the warp (R282, R283). -/
def execCall (off : BitVec 25) (s : State) : Out :=
  runControl (fun _ w =>
    let pc := (w.slot s.curSide).pc
    .ok ((w.setSPair 126 (pc + 4)).goto s.curSide (target pc off))) (.call off) s

/-- `brz` (R282). -/
def execBrz (r : Reg) (off : BitVec 17) (s : State) : Out :=
  runControl (fun _ w =>
    let pc := (w.slot s.curSide).pc
    .ok (w.goto s.curSide (if w.sreg r.toNat = 0 then target pc off else pc + 4))) (.brz r off) s

/-- `brnz` (R282). -/
def execBrnz (r : Reg) (off : BitVec 17) (s : State) : Out :=
  runControl (fun _ w =>
    let pc := (w.slot s.curSide).pc
    .ok (w.goto s.curSide (if w.sreg r.toNat ≠ 0 then target pc off else pc + 4))) (.brnz r off) s

/-- `brv`: taken lanes go to the sibling slot, or onto the spill stack when it is live; a trap of the push leaves no effect (R285). -/
def execBrv (neg : Bool) (p : PReg) (off : BitVec 17) (s : State) : Out :=
  match s.warp? s.curKey with
  | none => .next s
  | some w =>
    let sd := s.curSide
    let x := w.slot sd
    let t := brvTaken w neg p x.mask
    let n := x.mask &&& ~~~t
    if t = 0 then .next (s.setWarp s.curKey (w.goto sd (x.pc + 4)))
    else if n = 0 then .next (s.setWarp s.curKey (w.goto sd (target x.pc off)))
    else
      let path : Slot := ⟨target x.pc off, t, x.join, .none⟩
      let w' := w.setSlot sd { x with mask := n, pc := x.pc + 4 }
      let sib := w.slot sd.other
      if !sib.live && sib.hold = .none then .next (s.setWarp s.curKey (w'.setSlot sd.other path))
      else if (s.cardOf w).spill = 0 then .next (trapEntry s s.curKey sd ⟨.spillovf, 0⟩)
      else if w.depth = 256 then .next (trapEntry s s.curKey sd ⟨.spillovf, 256⟩)
      else match s.spillTrap w w.depth with
        | some t => .next (trapEntry s s.curKey sd t)
        | none => .next ((s.setWarp s.curKey { w' with depth := w.depth + 1, top := none, topReq := none }).spillOp s.curKey sd w .push w.depth (spillEntry path false).toBytes)

/-- `rcv` (R284). -/
def execRcv (off : BitVec 25) (s : State) : Out :=
  runControl (fun _ w =>
    let x := w.slot s.curSide
    .ok (w.setSlot s.curSide { x with join := if off = 0 then none else some (target x.pc off), pc := x.pc + 4 })) (.rcv off) s

/-- `jmpr`: a target that is no multiple of 4 raises ALIGN (R282). -/
def execJmpr (a : Reg) (s : State) : Out :=
  runControl (fun _ w =>
    let t := w.spair a.toNat
    if t.toNat % 4 ≠ 0 then .error ⟨.align, t.lo⟩ else .ok (w.goto s.curSide t)) (.jmpr a) s

/-- `exit`: the slot waits for its requests and results, and then its lanes end (R289; Machine/Joins). -/
def execExit (s : State) : Out :=
  runControl (fun _ w => .ok (w.setSlot s.curSide { w.slot s.curSide with hold := .exit })) .exit s

end Sys2Proof.Machine
end

