-- ==== Sys2Proof/Machine/Matrix.lean ====
section
/-!
DEFINITION. The matrix array: collective issue, the checks of the six instructions, the array queue and the effect of its entries
(spec/14 R356 to R372; spec/08 R241, R242).
-/

namespace Sys2Proof.Machine

/-- The matrix instructions (R363). -/
def isMatrix : Instr → Bool
  | .mldw _ _ _ | .mswap _ | .mstr _ _ _ _ | .mdrn _ _ _ _ | .mzero _ _ | .mlda _ _ _ _ => true
  | _ => false

/-- An instruction line that a core may fetch: one that its instruction cache holds, when new translated requests are stopped for the
warp's partition (R155; log 71). -/
def State.mayFetchLine (s : State) (k a : Nat) : Bool :=
  match (s.warp? k).bind fun w => s.wg? w.wg with
  | some g => !s.stoppedFor (State.dieOfCore (State.coreOf k)) g.partition || (s.ilines.get [] (State.coreOf k)).contains (lineOf a)
  | none => true

/-- The word a slot would issue, when its page is translated in the core's TLB with X. -/
def State.fetchWord (s : State) (k : Nat) (sd : Side) (world : Nat) (pc : DWord) : Option (Nat × Word) :=
  match (s.tlbOf (State.coreOf k)).find? fun t => t.hits world pc with
  | none => none
  | some t =>
    if canonical pc && attrBit t.attr 6 then
      let x := s.xlate t pc
      let a := memKey x.ap x.pa
      if x.ap = 4 then (s.fetched.find? (State.fetchKey k sd pc)).map fun w => (a, w)
      else if s.mayFetchLine k a then some (a, BitVec.ofNat 32 (s.mem.readNat a 4)) else none
    else none

/-- The instruction a slot would issue next, when it can be fetched. -/
def State.peek (s : State) (k : Nat) (sd : Side) (world : Nat) (pc : DWord) : Option Instr :=
  (s.fetchWord k sd world pc).bind fun w => (decodeWord w.2).toOption

/-- How a slot meets its sibling at a matrix instruction (R361). -/
inductive Meeting where
  | alone | merged | differ | wait
  deriving DecidableEq, Repr

def State.meeting (s : State) (k : Nat) (w : Warp) (sd : Side) : Meeting :=
  let y := w.slot sd.other
  if !y.live && y.hold = .none && w.depth = w.baseDepth then .alone
  else if !y.live || y.hold ≠ .none || y.waiting then .wait
  else if y.pc = (w.slot sd).pc then .merged
  else match s.peek k sd.other (((s.wg? w.wg).map (·.world)).getD 0) y.pc with
    | some i => if isMatrix i then .differ else .wait
    | none => .wait

/-- The lanes of the instruction: the slot's, and its sibling's in a merged issue. -/
def jointMask (w : Warp) (sd : Side) (m : Meeting) : Word :=
  if m = .merged then w.home.mask ||| w.away.mask else (w.slot sd).mask

/-- Element bits and elements of a format code (R356, R366). -/
def fmtBits (c : Nat) : Nat := if c ≤ 1 then 16 else if c ≤ 5 then 8 else if c ≤ 7 then 4 else 64
def fmtK (c : Nat) : Nat := if c ≤ 1 then 64 else if c ≤ 5 then 128 else if c ≤ 7 then 256 else 16
/-- Bytes an `mldw` reads (R364). -/
def ldwBytes (wf : Nat) : Nat := if wf = 4 || wf = 5 then 16896 else if wf = 6 || wf = 7 then 17408 else 16384
/-- Registers of an activation group (R366). -/
def groupRegs (af : Nat) : Nat := if af = 4 || af = 5 then 33 else if af = 6 then 34 else 32

def wfOf (f : Nat) : Nat := f % 16
def afOf (f : Nat) : Nat := f / 16 % 16
def accOf (f : Nat) : Nat := f / 256 % 4

/-- The legal format words (R359). -/
def wordOk (f : Nat) : Bool :=
  let w := wfOf f
  let a := afOf f
  let c := accOf f
  f < 1024 &&
    ((w ≤ 1 && a ≤ 1 && c = 0) || (2 ≤ w && w ≤ 5 && 2 ≤ a && a ≤ 5 && c = 0) || ((w = 6 || w = 7) && a = 6 && c = 0) ||
      (w = 8 && a = 8 && c = 1) || (w = 9 && a = 9 && c = 2))

/-- The format word of the lanes, or the lowest lane whose word differs (R360). -/
def voteWord (w : Warp) (mask : Word) (r : Reg) : Except Nat Nat :=
  match lanes mask with
  | [] => .ok 0
  | l :: ls =>
    let f := w.vreg r.toNat l
    match ls.find? fun j => w.vreg r.toNat j ≠ f with
    | some j => .error j
    | none => .ok f.toNat

/-- The active plane (R356). -/
def Workgroup.activePlane (g : Workgroup) : Plane := if g.activeB then g.planeB else g.planeA

/-- The recorded format of the active plane as an instruction that issues now finds it in array order, after the operations that stand in
the queue (R358, R362). -/
def formatAtIssue (g : Workgroup) (queued : List ArrOp) : Option Nat :=
  (queued.foldl (fun (p : Option Nat × Option Nat) op =>
    match op with
    | .ldw wf _ => (p.1, some wf)
    | .swap => (p.2, p.1)
    | _ => p) (g.activePlane.fmt, (if g.activeB then g.planeA else g.planeB).fmt)).1

/-- Registers t to t + n - 1 of every lane of a mask. -/
def rowRegs (w : Warp) (mask : Word) (t n : Nat) : List (Nat × List Word) :=
  (lanes mask).map fun l => (l, (List.range n).map fun j => w.vreg (t + j) l)

/-- Registers an `mdrn` writes under CT (R367). -/
def drainRegs (ct : Ty) : Nat := if ct.bits = 64 then 64 else ct.bits

/-- Flag bit 4 and the tile count of the job card (R264). -/
def arrayOk (card : Card) (tile : Option Nat) : Bool :=
  card.usesArray && (match tile with
    | some n => n < card.tiles
    | none => true)

/-- The frame of a matrix instruction's checks: 1 to 3 given, then COLLDIV, which stands at the home slot (R362). -/
structure MCtx where
  lctx : LCtx
  card : Card
  /-- The active plane's format in array order. -/
  fmt : Option Nat
  mask : Word

/-- The issue of a matrix instruction (R358, R361): it enters the array queue with what it reads, both slots going on in a merged
issue. Checks of order 3 come before COLLDIV, the others after (R362). An instruction whose sibling has not come, or that finds the
queue full, is not ready: it changes nothing. -/
def runMatrix (early : MCtx → Warp → Except Trap Unit) (late : MCtx → Warp → Except Trap (ArrOp × Option Plan)) (la : Nat) (i : Instr)
    (s : State) : Out :=
  match s.warp? s.curKey with
  | none => .next s
  | some w =>
    match s.wg? w.wg with
    | none => .next s
    | some g =>
      let k := s.curKey
      let sd := s.curSide
      let core := State.coreOf k
      let m := s.meeting k w sd
      let queued := ((s.arrays.get [] core).filter fun e => e.wg = w.wg).map (·.op)
      let c : MCtx := ⟨lctx s w sd i, g.card, formatAtIssue g queued, jointMask w sd m⟩
      match early c w with
      | .error t => .next (trapEntry s k sd t)
      | .ok _ =>
        if m = .differ then .next (trapEntry s k .home ⟨.colldiv, w.away.pc.lo⟩)
        else if m = .wait || 8 ≤ (s.arrays.get [] core).length then .next s
        else match late c w with
          | .error t => .next (trapEntry s k sd t)
          | .ok (op, plan) =>
            let w' := w.advance sd
            let w' := if m = .merged then w'.advance sd.other else w'
            let s' := s.setWarp k w'
            let load := if plan.isSome then s'.nextOp else 0
            let s' := match plan with
              | some p => s'.issue k sd w p 0
              | none => s'
            .next { s' with arrays := s'.arrays.put [] core (s'.arrays.get [] core ++ [⟨w.wg, k, sd, m = .merged, op, load, la⟩]) }

def illegalM (c : MCtx) {α : Type} : Except Trap α := .error ⟨.illegal, c.lctx.word⟩

/-- `mldw` (R364): the source is read as a load of the warp. -/
def execMldw (t a : Reg) (la : Look) (s : State) : Out :=
  runMatrix (fun c _ => if arrayOk c.card none && vOk c.lctx false t then .ok () else illegalM c)
    (fun c w =>
      match voteWord w c.mask t with
      | .error l => .error ⟨.fmtdiv, BitVec.ofNat 32 l⟩
      | .ok f =>
        let x := w.sreg a.toNat
        if !wordOk f then .error ⟨.pairing, BitVec.ofNat 32 f⟩
        else if x.toNat % 128 ≠ 0 then .error ⟨.align, x⟩
        else if c.card.scrSize < x.toNat + ldwBytes (wfOf f) then .error ⟨.scrbound, x⟩
        else .ok (.ldw (wfOf f) none,
          some ⟨.mldw, c.mask, [⟨BitVec.ofNat 64 (windowBase + x.toNat), [⟨0, 0, ldwBytes (wfOf f), [], none⟩], none, .core, 0, [], [], false⟩], la.toNat, false⟩))
    15 (.mldw t a la) s

/-- `mswap` (R365). -/
def execMswap (la : Look) (s : State) : Out :=
  runMatrix (fun c _ => if arrayOk c.card none then .ok () else illegalM c) (fun _ _ => .ok (.swap, none)) 15 (.mswap la) s

/-- `mstr` (R366). -/
def execMstr (tile : BitVec 5) (t a : Reg) (la : Look) (s : State) : Out :=
  runMatrix (fun c _ => if arrayOk c.card (some tile.toNat) && vOk c.lctx false a then .ok () else illegalM c)
    (fun c w =>
      match voteWord w c.mask a with
      | .error l => .error ⟨.fmtdiv, BitVec.ofNat 32 l⟩
      | .ok f =>
        let wide := accOf f = 1 || accOf f = 2
        if !wordOk f || c.fmt ≠ some (wfOf f) then .error ⟨.pairing, BitVec.ofNat 32 f⟩
        else if accOf f = 2 && !qValid w.modq.toNat then .error (badQ w)
        else if !(t.toNat + groupRegs (afOf f) ≤ 256 && groupOk c.lctx (groupRegs (afOf f)) t) || (8 ≤ afOf f && t.toNat % 2 = 1) ||
            (wide && (tile.toNat % 2 = 1 || c.card.tiles ≤ tile.toNat + 1)) then illegalM c
        else .ok (.str tile.toNat f w.modq.toNat (rowRegs w c.mask t.toNat (groupRegs (afOf f))), none))
    15 (.mstr tile t a la) s

/-- `mdrn` (R367). -/
def execMdrn (tile : BitVec 5) (q : BitVec 2) (t : Reg) (la : Look) (s : State) : Out :=
  match (s.warp? s.curKey).map fun w => (w, Ty.ofCode (modeCT w.mode)) with
  | some (w, none) => .next (trapEntry s s.curKey s.curSide (illtype w))
  | some (w, some ct) =>
    runMatrix (fun c _ =>
        if arrayOk c.card (some tile.toNat) && groupOk c.lctx (drainRegs ct) t &&
          (ct.bits ≠ 64 || (t.toNat % 2 = 0 && tile.toNat % 2 = 0 && tile.toNat + 1 < c.card.tiles)) then .ok () else illegalM c)
      (fun c _ => .ok (.drn tile.toNat q.toNat t.toNat c.mask w.mode, none)) la.toNat (.mdrn tile q t la) s
  | none => .next s

/-- `mzero` (R368). -/
def execMzero (tile : BitVec 5) (la : Look) (s : State) : Out :=
  runMatrix (fun c _ => if arrayOk c.card (some tile.toNat) then .ok () else illegalM c) (fun _ _ => .ok (.zero tile.toNat, none)) 15
    (.mzero tile la) s

/-- `mlda` (R369). -/
def execMlda (tile : BitVec 5) (q : BitVec 2) (t : Reg) (la : Look) (s : State) : Out :=
  runMatrix (fun c _ => if arrayOk c.card (some tile.toNat) && groupOk c.lctx 32 t then .ok () else illegalM c)
    (fun c w => .ok (.lda tile.toNat q.toNat (rowRegs w c.mask t.toNat 32), none)) 15 (.mlda tile q t la) s

/-! The effect of an entry (R358). -/

namespace Workgroup

def tileWord (g : Workgroup) (n i w : Nat) : Word := g.tiles.get 0 (4096 * n + 128 * i + w)
def setTileWord (g : Workgroup) (n i w : Nat) (x : Word) : Workgroup := { g with tiles := g.tiles.put 0 (4096 * n + 128 * i + w) x }

/-- A 64-bit accumulator element of the pair from tile n (R357). -/
def tile64 (g : Workgroup) (n i j : Nat) : DWord :=
  DWord.ofPair (g.tileWord (n + j / 64) i (2 * (j % 64))) (g.tileWord (n + j / 64) i (2 * (j % 64) + 1))
def setTile64 (g : Workgroup) (n i j : Nat) (x : DWord) : Workgroup :=
  (g.setTileWord (n + j / 64) i (2 * (j % 64)) x.lo).setTileWord (n + j / 64) i (2 * (j % 64) + 1) x.hi

end Workgroup

/-- Bytes as a table, zero not listed. -/
def byteMap (base : Nat) (bs : List Byte) : Map Byte := Map.putAll 0 [] (bs.mapIdx fun i b => (base + i, b))

/-- A plane loaded from an `mldw`'s bytes; scales are kept when the format has none (R364). -/
def loadPlane (p : Plane) (wf : Nat) (bs : List Byte) : Plane :=
  ⟨byteMap 0 (bs.take 16384),
    if 4 ≤ wf && wf ≤ 7 then
      Map.putAll 0 (p.scales.filter fun e => bs.length - 16384 ≤ e.1) ((bs.drop 16384).mapIdx fun i b => (i, b))
    else p.scales, some wf⟩

/-- The code of a weight element, and its block scale (R364). -/
def planeCode (p : Plane) (k j : Nat) : Nat :=
  let b := fmtBits (p.fmt.getD 0)
  let byte := fun i => (p.elems.get 0 (128 * j + i)).toNat
  if b = 4 then byte (k / 2) / 2 ^ (4 * (k % 2)) % 16
  else leNat ((List.range (b / 8)).map fun i => p.elems.get 0 (128 * j + b / 8 * k + i))
def planeScale (p : Plane) (k j : Nat) : Nat := (p.scales.get 0 (fmtK (p.fmt.getD 0) / 32 * j + k / 32)).toNat

/-- The code of an activation element in a row, and its block scale (R366). -/
def rowCode (af : Nat) (row : List Word) (k : Nat) : Nat :=
  let b := fmtBits af
  if b = 64 then (DWord.ofPair (row.getD (2 * k) 0) (row.getD (2 * k + 1) 0)).toNat
  else (row.getD (b * k / 32) 0).toNat / 2 ^ (b * k % 32) % 2 ^ b
def rowScale (row : List Word) (k : Nat) : Nat := (row.getD (32 + k / 128) 0).toNat / 2 ^ (8 * (k / 32 % 4)) % 256

/-- The value of an element under a format code (R359, R225): plain operands have scale 1. -/
def codeVal (c scale : Nat) (code : Nat → Nat) (k : Nat) : Val :=
  match c with
  | 0 => unpack .bf16 (code k)
  | 1 => unpack .f16 (code k)
  | 2 => unpack .e4m3 (code k)
  | 3 => unpack .e5m2 (code k)
  | 4 => blockVal .mxfp8e4 false scale (fun i => code (k / 32 * 32 + i)) (k % 32)
  | 5 => blockVal .mxfp8e5 false scale (fun i => code (k / 32 * 32 + i)) (k % 32)
  | 6 => blockVal .mxfp4 false scale (fun i => code (k / 32 * 32 + i)) (k % 32)
  | 7 => blockVal .q4x false scale (fun i => code (k / 32 * 32 + i)) (k % 32)
  | _ => unpack .f64 (code k)

/-- Group size of the products (R241). -/
def groupSize (wf : Nat) : Nat := if wf ≤ 1 then 16 else if wf ≤ 7 then 32 else 4

/-- The products of group n of element (i, j). -/
def groupProducts (p : Plane) (af wf : Nat) (row : List Word) (j n : Nat) : List Val :=
  (List.range (groupSize wf)).map fun d =>
    let k := groupSize wf * n + d
    prodVal (codeVal af (rowScale row k) (rowCode af row) k) (codeVal wf (planeScale p k j) (fun k => planeCode p k j) k)

/-- One accumulator element after an `mstr` (R241, R242, R366). -/
def strElement (p : Plane) (word q : Nat) (row : List Word) (j acc : Nat) : Nat :=
  let wf := wfOf word
  let af := afOf word
  if accOf word = 2 then
    (List.range 16).foldl (fun a k => modAdd q a (modMul q (rowCode af row k) (planeCode p k j))) (acc % q)
  else
    (List.range (fmtK wf / groupSize wf)).foldl
      (fun a n => accumulate (if accOf word = 1 then .f64 else .f32) a (groupProducts p af wf row j n)) acc

/-- An `mstr` on every element (R366): an inactive lane's row is zero. -/
def strAll (g : Workgroup) (tile word q : Nat) (rows : List (Nat × List Word)) : Workgroup :=
  let p := g.activePlane
  (List.range 32).foldl (fun g i =>
    let row := ((rows.find? fun r => r.1 = i).map (·.2)).getD []
    (List.range 128).foldl (fun g j =>
      if accOf word = 0 then g.setTileWord tile i j (BitVec.ofNat 32 (strElement p word q row j (g.tileWord tile i j).toNat))
      else g.setTile64 tile i j (BitVec.ofNat 64 (strElement p word q row j (g.tile64 tile i j).toNat))) g) g

/-- One column drained under CT (R367): an FP32 value rounded, a subnormal result being flushed under FTZ, or converted to an integer. The
accumulator is read as it stands: FTZ speaks of the inputs of vector instructions (R227, R254). -/
def drainCol (ct : Ty) (r : RMode) (x : Nat) : Nat × Flags :=
  let v := unpack .f32 x
  match ct.fmt? with
  | some g => finish g r (nanGuard [v] (v, 0))
  | none => floatToInt ct r.rm v

/-- The registers an `mdrn` writes in a lane, with the flags (R367). -/
def drainLane (g : Workgroup) (ct : Ty) (r : RMode) (tile quarter i : Nat) : List (Nat × Word) × Flags :=
  if ct.bits = 64 then
    ((List.range 32).map fun m =>
      let x := g.tile64 tile i (32 * quarter + m)
      [(2 * m, x.lo), (2 * m + 1, x.hi)]).flatten |> fun l => (l, 0)
  else
    let per := 32 / ct.bits
    (List.range (32 / per)).foldl (fun (acc : List (Nat × Word) × Flags) m =>
      let (x, fl) := (List.range per).foldl (fun (a : Nat × Flags) e =>
        let c := (g.tileWord tile i (32 * quarter + per * m + e)).toNat
        let (y, f) := drainCol ct r c
        (a.1 + y * 2 ^ (ct.bits * e), a.2 ||| f)) (0, 0)
      (acc.1 ++ [(m, BitVec.ofNat 32 x)], acc.2 ||| fl)) ([], 0)

/-- The effect of an `mdrn` on its warp (R367). -/
def drainWarp (g : Workgroup) (tile quarter t : Nat) (mask mode : Word) (w : Warp) : Warp :=
  match Ty.ofCode (modeCT mode) with
  | none => w
  | some ct =>
    (lanes mask).foldl (fun w i =>
      let (regs, fl) := drainLane g ct (modeRM mode) tile quarter i
      (regs.foldl (fun w p => w.setV (t + p.1) i p.2) w).raise fl) w

/-- The registers that an `mdrn` writes from t (R367). -/
def drainRun (t : Nat) (mode : Word) : Run := ⟨true, t, ((Ty.ofCode (modeCT mode)).map drainRegs).getD 1⟩

/-- The effect of an array operation on its workgroup (R358, R364 to R369). -/
def ArrOp.onGroup (op : ArrOp) (g : Workgroup) : Workgroup :=
  match op with
  | .ldw wf data =>
    let bs := data.getD []
    if g.activeB then { g with planeA := loadPlane g.planeA wf bs } else { g with planeB := loadPlane g.planeB wf bs }
  | .swap => { g with activeB := !g.activeB }
  | .str tile word q rows => strAll g tile word q rows
  | .drn _ _ _ _ _ => g
  | .zero tile => { g with tiles := g.tiles.filter fun e => e.1 / 4096 ≠ tile }
  | .lda tile quarter rows =>
    (List.range 32).foldl (fun g i =>
      let row := ((rows.find? fun r => r.1 = i).map (·.2)).getD []
      (List.range 32).foldl (fun g m => g.setTileWord tile i (32 * quarter + m) (row.getD m 0)) g) g

/-- The units an array operation reads, and those it covers (R69). -/
def ArrOp.reads (op : ArrOp) (g : Nat) (x : Workgroup) : List Nat :=
  match op with
  | .str tile word _ _ =>
    ((List.range (if accOf word = 0 then 512 else 1024)).map fun u => State.tileUnit g tile u) ++
      (List.range 544).map fun u => State.planeUnit g u x.activeB
  | .drn tile quarter _ mask mode =>
    let wide : Bool := ((Ty.ofCode (modeCT mode)).map fun t => decide (t.bits = 64)).getD false
    ((lanes mask).map fun i =>
      if wide then (List.range 8).map fun u => State.tileUnit g (tile + quarter / 2) (16 * i + 8 * (quarter % 2) + u)
      else (List.range 4).map fun u => State.tileUnit g tile (16 * i + 4 * quarter + u)).flatten
  | _ => []
def ArrOp.covers (op : ArrOp) (g : Nat) (x : Workgroup) (unit : Nat) : Bool :=
  match op with
  | .zero tile => State.tileUnit g tile 0 ≤ unit && unit < State.tileUnit g (tile + 1) 0
  | .ldw wf _ => State.planeUnit g 0 (!x.activeB) ≤ unit && unit < State.planeUnit g (ldwBytes wf / 32) (!x.activeB)
  | .lda tile quarter _ => (List.range 32).any fun i => (List.range 4).any fun u => unit = State.tileUnit g tile (16 * i + 4 * quarter + u)
  | _ => false

/-- An `mldw` of the array queue whose source has still to be read. One whose load has gone with its workgroup's unsent requests (R152) waits no
more, and leaves without effect. -/
def State.sourceDue (s : State) (e : ArrEntry) : Bool :=
  match e.op with
  | .ldw _ none => ((s.ops.find? e.load).map fun o => o.kind = .mldw && o.owner ≠ .gone).getD false
  | _ => false

/-- The oldest instruction of a core's array takes effect, when its source has been read (ARRAY_QUEUE_EXECUTE, R358). -/
def State.arrayStep (s : State) (core : Nat) : State :=
  match s.arrays.get [] core with
  | [] => s
  | e :: rest =>
    if s.sourceDue e then s
    else
      let s' := { s with arrays := s.arrays.put [] core rest }
      let reads := ((s.wg? e.wg).map fun x => e.op.reads e.wg x).getD []
      match s'.readCore reads with
      | (s', some (_, n)) => s'.coreFault e.wg 2 0 n false
      | (s', none) =>
      let s' := s'.recode fun u => ((s.wg? e.wg).map fun x => e.op.covers e.wg x u).getD false
      match e.op, s.wg? e.wg with
      | .drn tile quarter t mask mode, some g => (s'.recodeRuns e.key mask [drainRun t mode]).onWarp e.key (drainWarp g tile quarter t mask mode)
      | .ldw _ none, some _ => s'
      | op, some _ => s'.onWg e.wg op.onGroup
      | _, none => s'

/-- ARRAY_QUEUE_EXECUTE (R358). -/
def execArrayQueueExecute (core : Nat) (s : State) : Out := .next (s.arrayStep core)

end Sys2Proof.Machine
end

