-- ==== Sys2Proof/Machine/System.lean ====
section
/-!
DEFINITION. Traps, service calls, posting and naps, opcodes 0x09 to 0x0F but `yield`; words that are no instruction (spec/15 R373
to R388; spec/09 R265, R266).
-/

namespace Sys2Proof.Machine

/-- `trap` (R375). -/
def execTrap (imm : BitVec 17) (s : State) : Out := runControl (fun _ _ => .error ⟨.trap, imm.setWidth 32⟩) (.trap imm) s

/-- `bkpt` (R375). -/
def execBkpt (imm : BitVec 17) (s : State) : Out := runControl (fun _ _ => .error ⟨.bkpt, imm.setWidth 32⟩) (.bkpt imm) s

/-- `rtrap`: back to both slots as they stopped, the trapping one at the resume point (R377). -/
def execRtrap (s : State) : Out :=
  runControl (fun _ w =>
    match w.frame with
    | none => .error ⟨.illegal, 0x14000000⟩
    | some f => if w.resumePc.toNat % 4 ≠ 0 then .error ⟨.align, w.resumePc.lo⟩ else .ok (w.leave f w.resumePc)) .rtrap s

/-- A test of an address of `svc` or `post`: a multiple, then outside the window (R378, R385). -/
def checkVa (m : Nat) (va : DWord) : Option Trap :=
  if va.toNat % m ≠ 0 then some ⟨.align, va.lo⟩ else if inWindow va then some ⟨.scrbound, va.lo⟩ else none

/-- An instruction that holds its slot until the operation it issues has been accepted or published. -/
def runHeld (plan : LCtx → Warp → Except Trap Plan) (i : Instr) (hold : Nat → Hold) (s : State) : Out :=
  match s.warp? s.curKey with
  | none => .next s
  | some w =>
    match plan (lctx s w s.curSide i) w with
    | .error t => .next (trapEntry s s.curKey s.curSide t)
    | .ok p =>
      let w' := w.advance s.curSide
      let w' := w'.setSlot s.curSide { w'.slot s.curSide with hold := hold s.nextOp }
      .next ((s.setWarp s.curKey w').issue s.curKey s.curSide w p (fnOf i))

/-- `svc`: the translations of its block and its counter; 0 names none (R378, R379). -/
def execSvc (d : Reg) (imm : BitVec 17) (s : State) : Out :=
  runHeld (fun _ w =>
    let arg := w.spair d.toNat
    let ctr := w.spair (d.toNat + 2)
    match (checkVa 64 arg).or (checkVa 8 ctr) with
    | some t => .error t
    | none =>
      let req := fun (va : DWord) => (⟨va, [⟨0, 0, 0, [], none⟩], none, if va = 0 then .done else .core, 0, [], [], false⟩ : Req)
      .ok ⟨.svc imm.toNat [w.sreg d.toNat, w.sreg (d.toNat + 1), w.sreg (d.toNat + 2), w.sreg (d.toNat + 3)], 0, [req arg, req ctr], 15, false⟩)
    (.svc d imm) Hold.post s

/-- Sixteen-byte pieces of a block that a core reads as a load. -/
def blockPieces (n : Nat) : List Piece := (List.range (n / 16)).map fun i => ⟨i, 16 * i, 16, [], none⟩

/-- `post` (R385, R386). -/
def execPost (t a : Reg) (la : Look) (s : State) : Out :=
  runHeld (fun _ w =>
    let sel := w.sreg a.toNat
    let va := w.spair t.toNat
    if 5 < sel.toNat then .error ⟨.illegal, sel⟩
    else match checkVa 64 va with
      | some t => .error t
      | none =>
        .ok ⟨.card sel, 0, [⟨lineVa va, (blockPieces 64).map fun p => { p with off := p.off + va.toNat % 128 }, none, .core, 0, [], [], false⟩], la.toNat, false⟩)
    (.post t a la) Hold.post s

/-- `nap`: no earlier than S[a] cycles (R388). -/
def execNap (a : Reg) (s : State) : Out :=
  runControl (fun _ w =>
    let w' := w.advance s.curSide
    let n := (w.sreg a.toNat).toNat
    .ok (if n = 0 then w' else w'.setSlot s.curSide { w'.slot s.curSide with hold := .nap (s.clk + n) })) (.nap a) s

/-- NAP_END (R388): the slot is ready again when its cycles have passed. -/
def execNapEnd (key : Nat) (away : Bool) (s : State) : Out :=
  let side := if away then Side.away else Side.home
  .next (s.onWarp key fun w =>
    match (w.slot side).hold with
    | .nap t => if t ≤ s.clk then w.setSlot side { w.slot side with hold := .none } else w
    | _ => w)

/-- A word that is no instruction raises ILLEGAL at its address (R265, R266). -/
def execIllegalInstruction (w : Word) (s : State) : Out := runControl (fun _ _ => .error ⟨.illegal, w⟩) (.illegalInstruction w) s

end Sys2Proof.Machine
end

