-- ==== Sys2Proof/Machine/Copies.lean ====
section
/-!
DEFINITION. Copies: the checks at acceptance, the moves of a copy by sectors, presence bits, the copy engine's work, and the
advance of a timeline (spec/13 R347 to R355; spec/02 R52, R53; spec/03 R101, R102; spec/05 R144).
-/

namespace Sys2Proof.Machine

/-- The sector of an address. -/
def sectorVa (va : DWord) : Nat := va.toNat / 32 * 32

/-- Put a part with the earlier parts of its sector, in the order in which the sectors first come up. -/
def addPart (sector : Nat) (part : Nat × Nat × Nat) : List (Nat × List (Nat × Nat × Nat)) → List (Nat × List (Nat × Nat × Nat))
  | [] => [(sector, [part])]
  | (k, ps) :: rest => if k = sector then (k, ps ++ [part]) :: rest else (k, ps) :: addPart sector part rest

/-- The moves of elements given by global address, length and scratchpad offset, one for each global sector. -/
def sectorMoves (mk : DWord → List (Nat × Nat × Nat) → Move) (xs : List (DWord × Nat × Nat)) : List Move :=
  (xs.foldl (fun acc x => addPart (sectorVa x.1) (x.1.toNat % 128, x.2.1, x.2.2) acc) []).map fun g =>
    mk (lineVa (BitVec.ofNat 64 g.1)) g.2

/-! Tensor copies (R349 to R352). -/

/-- A tensor descriptor's rank, element size, swizzle, strides and boxes (R349). -/
def descRank (d : List Byte) : Nat := field d 0 1
def descElem (d : List Byte) : Nat := 2 ^ field d 1 1
def descStride (d : List Byte) (k : Nat) : DWord := BitVec.ofNat 64 (field d (0x10 + 8 * k) 8)
def descBox (d : List Byte) (k : Nat) : Nat := field d (0x58 + 4 * k) 4
/-- Elements of the first k dimensions of the box. -/
def boxProduct (d : List Byte) (k : Nat) : Nat := (List.range k).foldl (fun n i => n * descBox d i) 1

/-- Offsets of the fields that break check 3 of R352, in ascending order. -/
def badFields (d : List Byte) : List Nat :=
  let r := descRank d
  if r = 0 || 9 < r then [0]
  else if 4 < field d 1 1 then [1]
  else
    let e := descElem d
    let ks := List.range r
    let strides := (ks.filter fun k => (descStride d k).toNat % e ≠ 0).map fun k => 0x10 + 8 * k
    let zeros := ks.filter fun k => descBox d k = 0
    let boxes := if zeros ≠ [] then zeros
      else (ks.filter fun k => 262144 < e * boxProduct d (k + 1)).take 1
    (if 1 < field d 2 1 then [2] else []) ++ (if 3 < field d 3 1 then [3] else []) ++ (if field d 4 12 ≠ 0 then [4] else []) ++
      strides ++ boxes.map (fun k => 0x58 + 4 * k) ++ (if field d 0x7C 4 ≠ 0 then [0x7C] else [])

/-- Swz of R351: bits [3 + z : 4] xor bits [6 + z : 7]. -/
def swizzle (z o : Nat) : Nat := o ^^^ (o / 2 ^ 7 % 2 ^ z * 2 ^ 4)

/-- The index vector of element n of a box. -/
def indexOf (d : List Byte) (n : Nat) : Nat → List Nat
  | 0 => []
  | k + 1 => indexOf d n k ++ [n / boxProduct d k % descBox d k]

/-- The elements of a tensor copy: global address, scratchpad offset, and whether they lie inside the extents (R351). -/
def elements (d : List Byte) (block : List Word) : List (DWord × Nat × Bool) :=
  let r := descRank d
  let base := DWord.ofPair (block.getD 0 0) (block.getD 1 0)
  let soff := (block.getD 2 0).toNat
  (List.range (boxProduct d r)).map fun n =>
    let ix := indexOf d n r
    let g := (ix.zip (List.range r)).foldl (fun a p => a + BitVec.ofNat 64 p.1 * descStride d p.2) base
    let inside := (ix.zip (List.range r)).all fun p => 4 ≤ p.2 || p.1 < (block.getD (4 + p.2) 0).toNat
    (g, swizzle (field d 3 1 % 4) (soff + descElem d * n), inside)

/-- Checks 3 to 5 of R352 (R347 step 3). -/
def tensorCheck (card : Card) (d : List Byte) (block : List Word) : Option Trap :=
  let e := descElem d
  let base := DWord.ofPair (block.getD 0 0) (block.getD 1 0)
  let soff := (block.getD 2 0).toNat
  let size := e * boxProduct d (descRank d)
  match badFields d with
  | off :: _ => some ⟨.illegal, BitVec.ofNat 32 (0x00010000 + off)⟩
  | [] =>
    if 1 < (block.getD 3 0).toNat then some ⟨.illegal, 0x00020003⟩
    else if base.toNat % e ≠ 0 then some ⟨.align, base.lo⟩
    else if soff % e ≠ 0 then some ⟨.align, block.getD 2 0⟩
    else if card.scrSize < soff + size || soff < 8 * card.timelines ||
        (elements d block).any (fun x => x.2.1 < soff || soff + size < x.2.1 + e) then some ⟨.scrbound, block.getD 2 0⟩
    else none

/-- The moves of a tensor copy (R351). -/
def tensorMoves (out : Bool) (d : List Byte) (block : List Word) : List Move :=
  let xs := elements d block
  let ins := (xs.filter fun x => x.2.2).map fun x => (x.1, descElem d, x.2.1)
  let ragged := (xs.filter fun x => !x.2.2).map fun x => (x.2.1, descElem d)
  if out then sectorMoves .store ins
  else sectorMoves .load ins ++ (if (block.getD 3 0).getLsbD 0 || ragged = [] then [] else [.fill ragged])

/-! Linear copies and gathers (R353, R354). -/

/-- The pieces of a range that do not cross a 32-byte boundary of the address given: offset from the start, length. -/
def chunks (start len : Nat) : List (Nat × Nat) :=
  (List.range (len / 32 + 2)).filterMap fun i =>
    let a := Nat.max start (start / 32 * 32 + 32 * i)
    let b := Nat.min (start + len) (start / 32 * 32 + 32 * (i + 1))
    if a < b then some (a - start, b - a) else none

/-- A scratchpad side of a linear copy lies in the allocation, clear of the timeline counters (R353). -/
def sideCheck (card : Card) (start : DWord) (len : Nat) : Option Trap :=
  if inWindow start && len ≠ 0 && (card.scrSize < windowOff start + len || windowOff start < 8 * card.timelines) then
    some ⟨.scrbound, start.lo⟩
  else none

/-- The moves of a linear copy. -/
def linearMoves (src dst : DWord) (len : Nat) : List Move :=
  match inWindow src, inWindow dst with
  | false, true => sectorMoves .load ((chunks src.toNat len).map fun c => (src + BitVec.ofNat 64 c.1, c.2, windowOff dst + c.1))
  | true, false => sectorMoves .store ((chunks dst.toNat len).map fun c => (dst + BitVec.ofNat 64 c.1, c.2, windowOff src + c.1))
  | true, true => (chunks (windowOff dst) len).map fun c => .shift (windowOff src + c.1) (windowOff dst + c.1) c.2
  | false, false => (chunks dst.toNat len).map fun c => .relay (src + BitVec.ofNat 64 c.1) (dst + BitVec.ofNat 64 c.1) c.2

/-- The tests of a gather (R354). -/
def gathCheck (card : Card) (e : Nat) (soff : Word) (xs : List (Nat × DWord)) : Option Trap :=
  let h := xs.foldl (fun m x => Nat.max m x.1) 0
  match xs.find? fun x => x.2.toNat % e ≠ 0 with
  | some x => some ⟨.align, x.2.lo⟩
  | none =>
    if soff.toNat % e ≠ 0 then some ⟨.align, soff⟩
    else if xs ≠ [] && (card.scrSize < soff.toNat + (h + 1) * e || soff.toNat < 8 * card.timelines) then some ⟨.scrbound, soff⟩
    else none

/-! Acceptance (R347). -/

/-- The scratchpad ranges that a move writes. -/
def Move.writes : Move → List (Nat × Nat)
  | .load _ ps => ps.map fun p => (p.2.2, p.2.1)
  | .fill ps => ps
  | .shift _ dst len => [(dst, len)]
  | _ => []

/-- Bytes added to the counts of the lines of a range. -/
def countLines (acc : Map Nat) (off len : Nat) : Map Nat :=
  (State.linesOf off len).foldl (fun m l =>
    m.insert l (m.get 0 l + (Nat.min (off + len) (128 * (l + 1)) - Nat.max off (128 * l)))) acc

/-- The timeline of a copy that waits for the engine. -/
def OpKind.timeline : OpKind → Option Nat
  | .desc _ _ tl _ | .linear _ tl _ _ _ | .gather tl _ _ _ => some tl
  | _ => none

namespace State

/-- A timeline has a free entry for an operation: 64 copies accepted or about to be (R347 step 1). -/
def hasRoom (s : State) (n g tl : Nat) : Bool :=
  (s.copies.filter fun e => e.2.wg = g && e.2.tl = tl).length + (s.ops.filter fun e => e.1 < n && e.2.wg = g && e.2.kind.timeline = some tl).length < 64

/-- A copy is accepted: it takes its number and clears presence bits when asked (R347 step 4, R52). -/
def acceptCopy (s : State) (n k g tl : Nat) (clr hint : Bool) (moves : List Move) : State :=
  match s.wg? g with
  | none => s
  | some x =>
    let number := x.copyNum.get 0 tl + 1
    let counts := ((moves.map Move.writes).flatten).foldl (fun m r => countLines m r.1 r.2) []
    let clears := if clr then counts else []
    let s := s.setWg g { x with copyNum := x.copyNum.put 0 tl number, absent := (x.absent ++ clears.map (·.1)).eraseDups }
    { s with copies := s.copies.insert (Map.nextKey s.copies) ⟨g, x.core, tl, number, k, n, moves, clears, false, [],
      counts.map (·.1), hint⟩ }

end State

/-- The issue of a copy: check 3, a frozen timeline, then its request to the engine, for which its slot waits (R264, R347, R412). -/
def runCopy (tl : Nat) (legal : LCtx → Bool) (plan : LCtx → Card → Warp → Except Trap Plan) (i : Instr) (s : State) : Out :=
  match s.warp? s.curKey with
  | none => .next s
  | some w =>
    let c := lctx s w s.curSide i
    let frozen := ((s.wg? w.wg).map fun g => g.frozenTl.contains tl).getD false
    if !legal c || (s.cardOf w).timelines ≤ tl then .next (trapEntry s s.curKey s.curSide ⟨.illegal, c.word⟩)
    else if frozen then .next (trapEntry s s.curKey s.curSide ⟨.illegal, BitVec.ofNat 32 (0x00040000 + tl)⟩)
    else match plan c (s.cardOf w) w with
      | .error t => .next (trapEntry s s.curKey s.curSide t)
      | .ok p =>
        let w' := w.advance s.curSide
        let w' := w'.setSlot s.curSide { w'.slot s.curSide with hold := .copy s.nextOp }
        .next ((s.setWarp s.curKey w').issue s.curKey s.curSide w p (fnOf i))

/-- Orders 1 and 2 of R352, the tests of a descriptor's address, which come once the timeline has room (R347). -/
def descCheck (card : Card) (va : DWord) : Option Trap :=
  if va.toNat % 128 ≠ 0 then some ⟨.align, va.lo⟩
  else if inWindow va && card.scrSize < windowOff va + 128 then some ⟨.scrbound, va.lo⟩
  else none

/-- `copy`: its request to the engine, whose descriptor is read as a load (R347, R350). -/
def execCopy (out clr : Bool) (tl : BitVec 2) (t a : Reg) (la : Look) (s : State) : Out :=
  runCopy tl.toNat (fun _ => true) (fun _ _ w =>
    let va := w.spair t.toNat
    .ok ⟨.desc out clr tl.toNat ((List.range 8).map fun j => w.sreg (a.toNat + j)), 0, [⟨va, blockPieces 128, none, .core, 0, [], [], false⟩], la.toNat, false⟩)
    (.copy out clr tl t a la) s

/-- `copyl` (R353). -/
def execCopyl (clr : Bool) (tl : BitVec 2) (a : Reg) (la : Look) (s : State) : Out :=
  runCopy tl.toNat (fun _ => true) (fun _ _ w =>
    .ok ⟨.linear clr tl.toNat (w.spair a.toNat) (w.spair (a.toNat + 2)) (w.sreg (a.toNat + 4)).toNat, 0, [], la.toNat, false⟩)
    (.copyl clr tl a la) s

/-- `gath` (R354). -/
def execGath (e : GathElem) (tl : BitVec 2) (t a : Reg) (la : Look) (s : State) : Out :=
  runCopy tl.toNat (fun c => vOk c true t) (fun c _ w =>
    .ok ⟨.gather tl.toNat e.bytes (w.sreg a.toNat) ((lanes c.mask).map fun l => (l, w.vpair t.toNat l)), 0, [], la.toNat, false⟩)
    (.gath e tl t a la) s

/-- The engine's checks and moves of a linear copy and of a gather (R353, R354). -/
def linearPlan (card : Card) (src dst : DWord) (len : Nat) : Except Trap (List Move) :=
  match (sideCheck card src len).or (sideCheck card dst len) with
  | some e => .error e
  | none => .ok (linearMoves src dst len)
def gatherPlan (card : Card) (e : Nat) (soff : Word) (xs : List (Nat × DWord)) : Except Trap (List Move) :=
  match gathCheck card e soff xs with
  | some t => .error t
  | none => .ok (sectorMoves .load (xs.map fun x => (x.2, e, soff.toNat + x.1 * e)))
/-- Those of a tensor copy, from its descriptor (R352). -/
def tensorPlan (card : Card) (out : Bool) (d : List Byte) (block : List Word) : Except Trap (List Move) :=
  match tensorCheck card d block with
  | some t => .error t
  | none => .ok (tensorMoves out d block)

namespace State

/-! The engine's work (R348, R351). -/

/-- Bytes a copy writes into the scratchpad, with the presence of the lines it has then completed (R52). -/
def copyWrite (s : State) (cid off : Nat) (bs : List Byte) : State :=
  match s.copies.find? cid with
  | none => s
  | some c =>
    let s := s.scrStore c.wg off bs
    let n := fun l => Nat.min (off + bs.length) (128 * (l + 1)) - Nat.max off (128 * l)
    let clears := c.clears.map fun (e : Nat × Nat) => if (linesOf off bs.length).contains e.1 then (e.1, e.2 - n e.1) else e
    let full := (clears.filter fun e => e.2 = 0).map (·.1)
    let s := { s with copies := s.copies.insert cid { c with clears := clears.filter fun e => e.2 ≠ 0 } }
    s.onWg c.wg fun g => { g with absent := g.absent.filter fun l => !full.contains l }

/-- An operation of the engine. -/
def engineOp (s : State) (cid : Nat) (c : Copy) (kind : OpKind) (reqs : List Req) : State :=
  match s.wg? c.wg with
  | none => s
  | some g => s.newOp ⟨.copy cid, c.core, c.wg, g.world, g.partition, g.task, kind, 15, false, false, 0, 0, reqs, 0, 0, 0xFF, 0⟩

/-- Operations of a copy. -/
def copyOps (s : State) (cid : Nat) : List (Nat × MemOp) := s.ops.filter fun e => e.2.owner = .copy cid

/-- Pages of a copy on which a sector of it is parked; those of the copies of a timeline of which one stands in the dugout (R144). -/
def pagesWith (s : State) (f : Req → Bool) (cid : Nat) : List Nat :=
  (((s.copyOps cid).map fun e => (e.2.reqs.filter f).map fun r => pageOf r.va).flatten).eraseDups
def parkedPages (s : State) (cid : Nat) : List Nat := s.pagesWith Req.isParked cid
def timelinePages (s : State) (c : Copy) : List Nat :=
  ((s.copies.filter fun e => e.2.wg = c.wg && e.2.tl = c.tl).map fun e => s.pagesWith Req.inDugout e.1).flatten.eraseDups

/-- The engine keeps a sector request in its own queue: one of the page is parked, or released and not performed, or being walked, or comes
before it (R144). -/
def queuedBehind (s : State) (cid n i : Nat) (r : Req) : Bool :=
  (s.copyOps cid).any fun e => (e.2.reqs.mapIdx fun j x => (j, x)).any fun q =>
    (e.1 ≠ n || q.1 ≠ i) && pageOf q.2.va = pageOf r.va && (q.2.isParked || q.2.stage = .miss ||
      (q.2.stopsWarp && (r.seqs = [] || e.1 < n || (e.1 = n && q.1 < i))) || (q.2.atCore && (e.1 < n || (e.1 = n && q.1 < i))))

end State

/-- The pages of global addresses that a move reaches, and the scratchpad ranges it reads. -/
def Move.pages : Move → List Nat
  | .load l _ | .store l _ => [pageOf l]
  | .relay src dst len => [pageOf src, pageOf (src + BitVec.ofNat 64 (len - 1)), pageOf dst]
  | _ => []
def Move.reads : Move → List (Nat × Nat)
  | .store _ ps => ps.map fun p => (p.2.2, p.2.1)
  | .shift src _ len => [(src, len)]
  | _ => []

/-- A line request of pieces that carry the scratchpad offset where a lane request carries its lane. -/
def partReq (line : DWord) (ps : List Piece) : Req := ⟨line, ps, none, .core, 0, [], [], false⟩

namespace State

/-- Earlier requests of the issuing warp that the copy waits for (R101). -/
def copyHeld (s : State) (c : Copy) : Bool :=
  s.ops.any fun e => e.1 < c.after && !e.2.kind.isFetch && (match e.2.owner with
    | .warp k _ => k = c.key && e.2.wg = c.wg
    | _ => false)

/-- Bytes of a workgroup's scratchpad. -/
def scrBytes (s : State) (g off n : Nat) : List Byte := ((s.wg? g).map fun x => scrRead x off n).getD []

/-- Scratchpad ranges that the engine reads: it goes on when no unit of them is uncorrectable (R69). -/
def withScr (s : State) (c : Copy) (ranges : List (Nat × Nat)) (f : State → State) : State :=
  match s.readCore ((ranges.map fun r => unitsOf (scrKey c.wg r.1) r.2).flatten) with
  | (s, some (u, n)) => s.coreFault c.wg 1 (u - scrKey c.wg 0) n true
  | (s, none) => f s

/-- The scratchpad sectors for which a copy has bytes to come. -/
def awaited (s : State) (cid : Nat) (c : Copy) : List Nat :=
  let toCome := (if c.dropped then [] else (c.moves.map Move.writes).flatten) ++ ((s.copyOps cid).map fun e => match e.2.kind with
    | .copyRead none => (e.2.reqs.map fun r => r.pieces.map fun p => (p.lane, p.size)).flatten
    | _ => []).flatten
  (toCome.map fun r => (List.range ((r.1 + r.2 - 1) / 32 - r.1 / 32 + 1)).map (r.1 / 32 + ·)).flatten

/-- Bytes have come for the scratchpad: every sector of which nothing more is to come is written at once, and the units that its parts cover
together have a new code (R53, R69, R353). -/
def takeParts (s : State) (cid : Nat) (parts : List (Nat × List Byte)) : State :=
  match s.copies.find? cid with
  | none => s
  | some c =>
    let cut := (parts.map fun p => (chunks p.1 p.2.length).map fun q => (p.1 + q.1, (p.2.drop q.1).take q.2)).flatten
    let later := s.awaited cid c
    let (wait, ready) := (c.arrived ++ cut).partition fun p => later.contains (p.1 / 32)
    (ready.foldl (fun (s : State) p => s.copyWrite cid p.1 p.2) { s with copies := s.copies.insert cid { c with arrived := wait } }).recode
      (coveredParts (ready.map fun p => (scrKey c.wg p.1, p.2))).contains

/-- One move of a copy starts. -/
def startMove (s : State) (cid : Nat) (c : Copy) : Move → State
  | .load l ps => s.engineOp cid c (.copyRead none) [partReq l (ps.map fun p => ⟨p.2.2, p.1, p.2.1, [], none⟩)]
  | .store l ps => s.withScr c (ps.map fun p => (p.2.2, p.2.1)) fun s =>
    s.engineOp cid c .copyWrite [partReq l (ps.map fun p => ⟨p.2.2, p.1, p.2.1, s.scrBytes c.wg p.2.2 p.2.1, none⟩)]
  | .fill ps => s.takeParts cid (ps.map fun p => (p.1, List.replicate p.2 0))
  | .shift src dst len => s.withScr c [(src, len)] fun s => s.copyWrite cid dst (s.scrBytes c.wg src len)
  | .relay src dst len =>
    s.engineOp cid c (.copyRead (some dst))
      ((chunks src.toNat len).map fun p =>
        let va := src + BitVec.ofNat 64 p.1
        partReq (lineVa va) [⟨p.1, va.toNat % 128, p.2, [], none⟩])

/-- A copy's next move, when it may issue one: earlier requests of its warp are done (R101), fewer than 8 pages of its timeline are
parked, no sector of it is on its way, the move's pages have none parked, and the lines it reads are present (R52, R144). -/
def nextMove (s : State) (cid : Nat) (c : Copy) : Option Move :=
  let parked := s.parkedPages cid
  let waits := (s.copyOps cid).any fun e => (e.2.reqs.mapIdx fun i r => (i, r)).any fun q =>
    !q.2.isDone && !q.2.isParked && !s.queuedBehind cid e.1 q.1 q.2
  if c.dropped || s.copyHeld c || 8 ≤ (s.timelinePages c).length || waits then none
  else c.moves.find? fun m => (m.pages.all fun p => !parked.contains p) && (m.reads.all fun r =>
    match s.wg? c.wg with
    | some g => scrPresent g r.1 r.2
    | none => false)

/-- A sector request of the engine that has been performed. -/
def finishCopyOp (s : State) (n : Nat) (o : MemOp) (cid : Nat) : State :=
  let s := { s with ops := s.ops.erase n }
  let ps := (o.reqs.map (·.pieces)).flatten
  match o.kind, s.copies.find? cid with
  | .copyRead none, some _ => s.takeParts cid (ps.map fun p => (p.lane, p.got.getD []))
  | .copyRead (some dst), some c =>
    if c.dropped then s
    else
    let bytes := (ps.map fun p => p.got.getD []).flatten
    s.engineOp cid c .copyWrite [partReq (lineVa dst) [⟨0, dst.toNat % 128, bytes.length, bytes, none⟩]]
  | _, _ => s

/-- The engine's work on one copy: requests go out, performed ones are taken, the next move starts; a dropped copy with nothing left
on its way is gone (R152). -/
def pumpCopy (s : State) (cid : Nat) : State :=
  let full := ((s.copies.find? cid).map fun c => decide (8 ≤ (s.timelinePages c).length)).getD false
  let s := (s.copyOps cid).foldl (fun s e => (List.range e.2.reqs.length).foldl (fun s i =>
    match s.reqOf (e.1, i) with
    | some (_, r) => if s.queuedBehind cid e.1 i r || (full && r.stage = .core) then s else s.startReq (e.1, i)
    | none => s) s) s
  let s := (s.copyOps cid).foldl (fun s e => if e.2.done then s.finishCopyOp e.1 e.2 cid else s) s
  match s.copies.find? cid with
  | none => s
  | some c =>
    if c.dropped && (s.copyOps cid).isEmpty then let s := s.takeParts cid []; { s with copies := s.copies.erase cid }
    else match s.nextMove cid c with
      | none => s
      | some m => ({ s with copies := s.copies.insert cid { c with moves := c.moves.erase m } }).startMove cid c m

/-- A copy that has performed everything, its writes to RP pages having reached every replica and the scratchpad lines it wrote being
present, and those that the earlier copies of its timeline wrote (R102). -/
def copyDone (s : State) (cid : Nat) (c : Copy) : Bool :=
  c.moves.isEmpty && (s.copyOps cid).isEmpty && !(s.propagating.any fun p => p.owner = .copy cid) &&
    !((s.wg? c.wg).map fun g => (c.lines ++ g.lines.get [] c.tl).any g.absent.contains).getD false

/-- TIMELINE_ADVANCE: the counter of a timeline rises to the number of its oldest copy, which is complete (R102, R129). -/
def advanceTimeline (s : State) (g tl : Nat) : State :=
  match oldest (fun (e : Nat × Copy) => e.2.number) (s.copies.filter fun e => e.2.wg = g && e.2.tl = tl) with
  | none => s
  | some (cid, c) =>
    if c.dropped || !s.copyDone cid c then s
    else match s.wg? g with
      | none => s
      | some x =>
        let v := Nat.max (leNat (scrRead x (8 * tl) 8)) c.number
        let s := { s with copies := s.copies.erase cid }
        (s.onWg g fun x => scrWrite { x with lines := x.lines.insert tl (x.lines.get [] tl ++ c.lines).eraseDups } (8 * tl) (leBytes 8 v)).wake (scrKey g (8 * tl)) v

end State

/-- TIMELINE_ADVANCE (R102, R129). -/
def execTimelineAdvance (g tl : Nat) (s : State) : Out := .next (s.advanceTimeline g tl)

end Sys2Proof.Machine
end

