-- ==== Sys2Proof/Machine/Freeze.lean ====
section
/-!
DEFINITION. What the end of a workgroup's work takes away, and freezing (spec/01 R35; spec/05 R152, R153; spec/16 R410 to R414).
-/

namespace Sys2Proof.Machine

namespace State

/-- Every die's dugout. -/
def allDies : List Nat := List.range 8

/-- Take parked requests out of the dugouts of some dies without performing them, those that wait for room too, counted in DGABN when asked (R152,
R153, R156, R161). Their pages' records go with them when no entry of the page is left (R146). -/
def discardParked (s : State) (dies : List Nat) (count : Bool) (f : Parked → Bool) : State :=
  dies.foldl (fun s die =>
    let d := s.dtu die
    let gone := (d.parked ++ d.waiting).filter f
    if gone.isEmpty then s
    else
      let left := d.parked.filter fun p => !f p
      let s := s.onDtu die fun d => { d with
        parked := left
        waiting := d.waiting.filter fun p => !f p
        pages := d.pages.filter fun g => left.any fun p => p.world = g.world && p.page = g.page }
      if count then s.bump (Reg.dtu die 0x238) gone.length else s) s

/-- The operations of a workgroup that its warps or copies made. -/
def opsOfWg (s : State) (g : Nat) : List (Nat × MemOp) := s.ops.filter fun e => e.2.wg = g

/-- Requests of a workgroup that have not been sent leave without effect, and so does the record of an `svc` that no battery has accepted;
those sent, and those parked on other dies than the ones given, go on, with no one to receive them unless their owner is kept. -/
def dropUnsent (s : State) (dies : List Nat) (g : Nat) (f : MemOp → Bool) (keep : Bool) : State :=
  let gone := ((s.opsOfWg g).filter fun e => f e.2).map (·.1)
  let unsend := fun (k : OpKind) (r : Req) => match r.stage with
    | .sent _ => if k.isSvc then { r with stage := .done } else r
    | .parked d _ => if dies.contains d then { r with stage := .done } else r
    | _ => { r with stage := .done }
  let ops := s.ops.map fun (e : Nat × MemOp) =>
    if gone.contains e.1 then (e.1, { e.2 with owner := if keep then e.2.owner else Owner.gone, reqs := e.2.reqs.map (unsend e.2.kind) }) else e
  let drop := fun (e : Nat × Dtu) => (e.1, { e.2 with missQ := e.2.missQ.map fun (m : Miss) =>
      { m with refs := m.refs.filter fun r => !gone.contains r.1 } })
  { s with ops := ops.filter fun (e : Nat × MemOp) => !(gone.contains e.1 && e.2.done), dtus := s.dtus.map drop }

/-- Waiter slots of operations freed, those at peers by asking (R120). -/
def freeWaiters (s : State) (f : Nat → Bool) : State :=
  let s := (s.ops.filter fun e => f e.1).foldl (fun s (e : Nat × MemOp) =>
    (e.2.reqs.mapIdx fun i r => (i, r)).foldl (fun s q =>
      match q.2.stage, q.2.xl with
      | .waiter, some x => if x.ap = 4 then s.askCancel e.2 (e.1, q.1) x q.2 else s
      | _, _ => s) s) s
  { s with waiters := s.waiters.filter fun w => match w.who with
      | .warp ref => !f ref.1
      | _ => true }

/-- The waits that some operations have registered are cancelled and stand in their cores again (R120, R398). -/
def cancelWaits (s : State) (f : Nat → MemOp → Bool) : State :=
  (s.ops.filter fun e => f e.1 e.2).foldl (fun s (e : Nat × MemOp) => (List.range e.2.reqs.length).foldl (fun s i => s.cancelWait (e.1, i)) s) s

/-- Copies of a workgroup on some timelines stop: sectors issued are performed, the others dropped (R152). -/
def stopCopies (s : State) (g : Nat) (f : Nat → Bool) : State :=
  { s with copies := s.copies.map fun (e : Nat × Copy) => if e.2.wg = g && f e.2.tl then (e.1, { e.2 with dropped := true }) else e }

/-- The root of a task's posting chain (R211). -/
def rootOf (s : State) (task : Nat) : Nat := ((s.tasks.find? task).bind Task.root).getD task

/-- A failure goes into the record of the root: the first one sets it, and ABANDON and a partition reset override the status
(R211, R212). -/
def failTask (s : State) (task : Nat) (st : Status) (stage linear : Nat) : State :=
  { s with tasks := s.tasks.adjust (s.rootOf task) fun t =>
      if t.status = .ok then { t with status := st, failStage := stage, failLinear := linear }
      else if st = .abandoned || st = .reset then { t with status := st } else t }

/-- A workgroup that was dispatched has ended (R211, R212). -/
def countEnd (s : State) (task : Nat) (st : Status) (stage linear : Nat) : State :=
  let s := if st = .ok then s else s.failTask task st stage linear
  let s := { s with tasks := s.tasks.adjust task fun t => { t with live := t.live - 1 } }
  { s with tasks := s.tasks.adjust (s.rootOf task) fun t => { t with ended := t.ended + 1 } }

/-- A saved workgroup is ended, its image discarded, with what it has parked on some dies (R152, R400). -/
def endSaved (s : State) (dies : List Nat) (id : Nat) (st : Status) : State :=
  match s.saved.find? id with
  | none => s
  | some x =>
    let mine := (s.opsOfWg x.wg).map (·.1)
    let s := (s.discardParked dies true fun p => mine.contains p.ref.1).dropUnsent dies x.wg (fun _ => true) false
    { s with saved := s.saved.erase id, stamps := s.stamps.filter fun e => e.1 / 2 ^ 68 ≠ x.wg + 1 }.countEnd x.task st x.stage x.linear

/-- A workgroup ends without its held work: requests parked on some dies discarded, waiters freed, copies stopped (R152, R410). The reason
given stands over one that is in progress (R411). -/
def endWg (s : State) (dies : List Nat) (g : Nat) (st : Status) : State :=
  let mine := (s.opsOfWg g).map (·.1)
  let s := s.discardParked dies true fun p => mine.contains p.ref.1
  let s := s.freeWaiters mine.contains
  let s := s.dropUnsent dies g (fun _ => true) false
  let s := s.stopCopies g fun _ => true
  s.onWg g fun x => { x with phase := .stopping, status := st }

/-- A record in the repair queues of a partition's battery and of the captain (R408). -/
def postBoth (s : State) (die part : Nat) (bytes : List Byte) : State :=
  let s := s.postOrKeep die part bytes
  if part = s.captain then s else s.postOrKeep die s.captain bytes

/-- A freeze record (R414). -/
def freezeRecord (s : State) (die part va agent master access world task owner which pa : Nat) : State :=
  (s.postBoth die part (leBytes 8 va ++ leBytes 2 agent ++ leBytes 1 master ++ leBytes 1 access ++ leBytes 2 world ++ leBytes 1 0 ++
    leBytes 1 2 ++ leBytes 4 task ++ leBytes 2 owner ++ leBytes 1 which ++ leBytes 1 0 ++ leBytes 8 pa)).bump (Reg.dispatcher die 0xA8) 1

/-- A frozen engine context: its timeline stops, sectors it has issued being performed, and its counter stands at 2^64 - 1 (R152, R412). -/
def freezeTimeline (s : State) (g tl : Nat) : State :=
  let copies := (s.copies.filter fun e => e.2.wg = g && e.2.tl = tl).map (·.1)
  let isMine := fun (o : MemOp) => match o.owner with
    | .copy c => copies.contains c
    | _ => false
  let ids := ((s.opsOfWg g).filter fun e => isMine e.2).map (·.1)
  let s := s.discardParked allDies true fun p => ids.contains p.ref.1
  let s := s.dropUnsent allDies g isMine true
  let s := s.stopCopies g fun k => k = tl
  let s := s.onWg g fun x => { x with frozenTl := if x.frozenTl.contains tl then x.frozenTl else tl :: x.frozenTl }
  let s := s.scrStore g (8 * tl) (leBytes 8 (2 ^ 64 - 1))
  match s.wg? g with
  | some x => s.failTask x.task .frozen x.stage x.linear
  | none => s

/-- The master of a request is frozen: its workgroup, or its engine context (R35, R410, R412, R414). -/
def freezeReq (s : State) (ref : ReqRef) (owner pa : Nat) : State :=
  match s.reqOf ref with
  | none => s
  | some (o, r) =>
    let die := dieOfCore o.core
    let task := ((s.tasks.find? o.task).map Task.id).getD 0
    let copy := match o.owner with
      | .copy c => s.copies.find? c
      | _ => none
    let va := r.va.toNat + ((r.pieces.head?).map (·.off)).getD 0
    let s := s.freezeRecord die o.partition va (agentOf o) (if copy.isSome then 1 else 0) (o.accessAt ref.2).code o.world task owner
      ((copy.map (·.tl)).getD 0) pa
    match copy with
    | some c => s.freezeTimeline o.wg c.tl
    | none =>
      if (s.wg? o.wg).isSome then s.endWg allDies o.wg .frozen
      else match List.find? (fun e => e.2.wg = o.wg) s.saved with
        | some e => s.endSaved allDies e.1 .frozen
        | none => s

end State
end Sys2Proof.Machine
end

