-- ==== Sys2Proof/Machine/Complete.lean ====
section
/-!
DEFINITION. What becomes of an operation of a warp whose requests have all been performed: registers, CSTAT, slots that waited, the
acceptance of copies, service calls and posts (spec/13 R331 to R347; spec/04 R115, R119; spec/11 R288; spec/15 R379, R386).
-/

namespace Sys2Proof.Machine

/-- The number of the operation a slot waits for. -/
def Hold.waits (n : Nat) : Hold → Bool
  | .fetch m | .refill m | .cwait m | .post m | .copy m => m = n
  | _ => false

def Slot.release (n : Nat) (x : Slot) : Slot := if x.hold.waits n then { x with hold := .none } else x

namespace Warp

/-- Change both slots, and both as the frame keeps them. -/
def mapSlots (w : Warp) (f : Slot → Slot) : Warp :=
  { w with
    home := f w.home
    away := f w.away
    frame := w.frame.map fun r => { r with home := f r.home, away := f r.away } }

/-- A slot of the warp as it runs, not as its frame keeps it, waits for an operation. -/
def waitsNow (w : Warp) (n : Nat) : Bool := w.home.hold.waits n || w.away.hold.waits n

/-- Consecutive V registers of a lane written from bytes, low first (R330). -/
def setBytes (w : Warp) (t l : Nat) : List Byte → Nat → Warp
  | _, 0 => w
  | bs, n + 1 => setBytes (w.setV t l (BitVec.ofNat 32 (leNat (bs.take 4)))) (t + 1) l (bs.drop 4) n

/-- The result of a load in one lane (R334). -/
def loadLane (w : Warp) (m : MemWidth) (sx : Bool) (t : Nat) (p : Piece) : Warp :=
  let bs := p.got.getD []
  if m.bytes < 4 then w.setV t p.lane (narrow m sx bs) else w.setBytes t p.lane bs (m.bytes / 4)
where
  /-- Eight or sixteen bits extended to a register (R330). -/
  narrow (m : MemWidth) (sx : Bool) (bs : List Byte) : Word :=
    let x := leNat (bs.take m.bytes)
    if sx then (BitVec.ofNat (8 * m.bytes) x).signExtend 32 else BitVec.ofNat 32 x

/-- The result of a uniform load (R336). -/
def loadScalar (w : Warp) (m : MemWidth) (sx : Bool) (t : Nat) (p : Piece) : Warp :=
  let bs := p.got.getD []
  match m with
  | .d => w.setSPair t (BitVec.ofNat 64 (leNat bs))
  | m => w.setS t (loadLane.narrow m sx bs)

/-- The value a lane receives from a counter instruction (R344); a `ctest` tells whether it meets the threshold. -/
def counterLane (w : Warp) (k : CtrKind) (t l v n : Nat) : Warp :=
  let w := w.setVPair t l (BitVec.ofNat 64 v)
  if k = .test then (w.setV (t + 2) l (if n ≤ v then 1 else 0)).setV (t + 3) l 0 else w

/-- The results of a counter instruction in its lanes; in the uniform form every participating lane takes the one result (R345). -/
def counterLanes (w : Warp) (k : CtrKind) (t : Nat) (uni : Bool) (mask : Word) (ps : List Piece) : Warp :=
  let val := fun (p : Piece) => leNat (p.got.getD [])
  if uni then
    match ps with
    | [] => w
    | p :: _ => (lanes mask).foldl (fun w l => w.counterLane k t l (val p) (leNat p.data)) w
  else ps.foldl (fun w p => w.counterLane k t p.lane (val p) (leNat p.data)) w

end Warp

/-- A physical address in the form of R202. -/
def Xlated.form (x : Xlated) : Nat := x.ap * 2 ^ 56 + x.pa

namespace State

/-- An operation that leaves the warp's stream: the slot that waited for it goes on. -/
def dropOp (s : State) (n k : Nat) : State :=
  ({ s with ops := s.ops.erase n }).onWarp k fun w => w.mapSlots (Slot.release n)

/-- A `cwait` that was refused at a counter is complete when every home has answered, and gives back its slots, those at peers by
asking (R119); an `.sc` one goes on to its further counters, which have not been asked (log 86). -/
def cancelRefused (s : State) (n : Nat) (o : MemOp) : State :=
  let answered := o.reqs.all fun r => r.isDone || r.stage = .waiter || (o.ts ≠ 0 && !r.asked)
  if o.kind.isCounter && answered && o.reqs.any (fun r => r.code = 1) && o.reqs.any (fun r => r.stage = .waiter) then
    (s.freeWaiters fun m => m = n).onOp n fun o => { o with reqs := o.reqs.map fun r => if r.stage = .waiter then { r with stage := .done } else r }
  else s

/-- A copy that has not been accepted takes a trap at its address; a slot that a trap's frame keeps takes it when it runs again (R347). -/
def copyTrap (s : State) (n k : Nat) (sd : Side) (o : MemOp) (t : Trap) : State :=
  if ((s.warp? k).map fun w => w.waitsNow n).getD false then
    trapEntry (({ s with ops := s.ops.erase n }).onWarp k fun w => w.setSlot sd { w.slot sd with pc := o.pc, hold := .none }) k sd t
  else s

/-- The engine makes its checks on a copy (R347 step 3): the copy is accepted, or its slot takes the trap. A timeline frozen meanwhile raises ILLEGAL (R412). -/
def finishCopy (s : State) (n k : Nat) (sd : Side) (o : MemOp) (clr hint : Bool) (tl : Nat) (plan : Card → Except Trap (List Move)) : State :=
  match s.warp? k with
  | none => s.dropOp n k
  | some w =>
    let frozen := ((s.wg? w.wg).map fun g => g.frozenTl.contains tl).getD false
    match (if frozen then .error ⟨.illegal, BitVec.ofNat 32 (0x00040000 + tl)⟩ else plan (s.cardOf w)) with
    | .ok moves => (s.acceptCopy n k w.wg tl clr hint moves).dropOp n k
    | .error t => s.copyTrap n k sd o t

/-- The physical addresses that the requests of an `svc` were given, 0 for none. -/
def svcForm (o : MemOp) (i : Nat) : Nat := ((o.reqs[i]?.bind fun r => r.xl).map Xlated.form).getD 0

/-- The request record of an `svc` leaves for the battery of the partition (R379 step 3). -/
def sendCall (s : State) (n k : Nat) (o : MemOp) (number : Nat) : State :=
  if !s.canSend (s.coreEnd o.core) (s.batteryEnd o.partition) 3 then s
  else (s.setStage (n, 0) (.sent 1)).send (svcPacket svcCall (s.coreEnd o.core) (s.batteryEnd o.partition) (n, 0)
    (leBytes 4 number ++ leBytes 2 o.core ++ leBytes 1 (k % 64) ++ leBytes 1 0 ++ leBytes 4 (s.taskId o.task) ++ leBytes 2 o.world ++ leBytes 2 0 ++
      leBytes 8 (svcForm o 0) ++ leBytes 8 (svcForm o 1)))

/-- The record of an `svc` stands at its battery: code 1 of its first request. -/
def callAt (o : MemOp) : Bool := o.kind.isSvc && ((o.reqs.head?).map fun r => r.stage = .sent 1 && r.code = 1).getD false

/-- A record reaches a battery; its `svc` may have gone meanwhile (R383). -/
def takeCallRecord (s : State) (p : Packet) : State :=
  s.onOp p.tag.1 fun o => if o.kind.isSvc then { o with reqs := o.reqs.mapIdx fun i r => if i = 0 && r.stage = .sent 1 then { r with code := 1 } else r } else o

/-- The partition's battery accepts a call, at most 256 in service (R379). -/
def acceptCall (s : State) (n k : Nat) (o : MemOp) (number : Nat) : State :=
  if 256 ≤ (s.calls.filter fun e => e.2.battery = o.partition).length then s
  else
    let pa := svcForm o
    let va := fun (i : Nat) => (o.reqs[i]?.map Req.va).getD 0
    let s := { s with
      calls := s.calls.insert (Map.nextKey s.calls) ⟨o.partition, number, o.core, k % 64, o.task, o.world,
        pa 0, pa 1, n, va 0, va 1, s.switches, none, false, false, [], none, 0, false⟩
      tasks := s.tasks.adjust o.task fun t => { t with calls := t.calls + 1 } }
    s.dropOp n k

/-- The records that stand at their batteries, each accepted as soon as there is room and the battery runs (R379 step 4, R442). -/
def acceptCalls (s : State) : State :=
  (s.ops.filter fun e => callAt e.2).foldl (fun s e =>
    match e.2.owner, e.2.kind with
    | .warp k _, .svc number _ => if (s.batteries.get Battery.empty e.2.partition).stopped then s else s.acceptCall e.1 k e.2 number
    | _, _ => s) s

/-- A post leaves for the dispatcher of its die; its slot goes on waiting (R386 step 3). -/
def sendPost (s : State) (n k : Nat) (sd : Side) (o : MemOp) (sel : Word) : State :=
  let to' := s.dispatcherEnd (dieOfCore o.core)
  if !s.canSend (s.coreEnd o.core) to' 3 then s else
  let pa := ((o.reqs.head?).bind fun r => r.xl.map fun x => x.form + (((r.pieces.head?).map (·.off)).getD 0)).getD 0
  State.send { s with
    ops := s.ops.erase n
    posts := s.posts ++ [⟨n, k, sd, o.pc, sel, o.task, o.partition, pa, o.la, none, false, false, false⟩]
    tasks := s.tasks.adjust o.task fun t => { t with children := t.children + 1 } }
    (svcPacket svcPost (s.coreEnd o.core) to' (n, 0) (leBytes 8 pa ++ leBytes 4 sel.toNat))

/-- A post reaches its dispatcher, which may have dropped it meanwhile (R387). -/
def takePost (s : State) (p : Packet) : State :=
  { s with posts := s.posts.map fun x => if x.id = p.tag.1 then { x with arrived := true } else x }

/-- The effect of an operation of a warp whose requests are all done. -/
def completeOp (s : State) (n k : Nat) (sd : Side) (o : MemOp) : State :=
  let s := s.recodeRuns k o.mask o.kind.dest
  let ps := (o.reqs.map (·.pieces)).flatten
  let drop := fun (s : State) => s.dropOp n k
  match o.kind with
  | .load m sx t => drop (s.onWarp k fun w => ps.foldl (fun w p => w.loadLane m sx t p) w)
  | .loadS m sx t => drop (s.onWarp k fun w => ps.foldl (fun w p => w.loadScalar m sx t p) w)
  | .store | .push | .pref _ | .cmntWbi => drop s
  | .fetch =>
    drop (match (ps.map fun p => p.got.getD []).flatten with
      | [] => s
      | bs => { s with fetched := s.fetched.insert (fetchKey k sd o.pc) (BitVec.ofNat 32 (leNat bs)) })
  | .atomic op t ret =>
    drop (if ret then s.onWarp k fun w => ps.foldl (fun w p => w.setBytes t p.lane (p.got.getD []) (op.bytes / 4)) w else s)
  | .counter kd sc seq t uni =>
    let code := o.reqs.foldl (fun m r => Nat.max m r.code) 0
    let s := s.onWarp k fun w => { w.counterLanes kd t uni o.mask ps with cstat := code }
    let s := if seq then { s with lamport := s.lamport.put 0 o.core (Nat.max (s.lamport.get 0 o.core) o.ts) } else s
    drop (if !kd.modifies && sc ≠ .wg && o.reqs ≠ [] then s.emptyL1 o.core else s)
  | .cmntInv => drop (s.emptyL1 o.core)
  | .stage =>
    drop (s.onWarp k fun w =>
      { w with home := { w.home with pc := BitVec.ofNat 64 (leNat ((ps.map fun p => p.got.getD []).flatten)) }, entered := true })
  | .refill =>
    let e := SpillEntry.ofBytes ((ps.map fun p => p.got.getD []).flatten)
    drop (s.onWarp k fun w => w.mapSlots fun x => if x.hold = .refill n then e.slot else x)
  | .top =>
    let e := SpillEntry.ofBytes ((ps.map fun p => p.got.getD []).flatten)
    drop (s.onWarp k fun w => if w.topReq = some n then { w with top := some e, topReq := none } else w)
  | .mldw =>
    let bs := (ps.map fun p => p.got.getD []).flatten
    drop { s with arrays := s.arrays.put [] o.core ((s.arrays.get [] o.core).map fun e =>
      match e.op with
      | .ldw wf none => if e.load = n then { e with op := .ldw wf (some bs) } else e
      | _ => e) }
  | .desc out clr tl block =>
    let d := (ps.map fun p => p.got.getD []).flatten
    s.finishCopy n k sd o clr (field d 2 1 % 2 = 1) tl fun card => tensorPlan card out d block
  | .linear clr tl src dst len => s.finishCopy n k sd o clr false tl fun card => linearPlan card src dst len
  | .gather tl e soff xs => s.finishCopy n k sd o false false tl fun card => gatherPlan card e soff xs
  | .svc number _ => s.sendCall n k o number
  | .card sel => s.sendPost n k sd o sel
  | .copyRead _ | .copyWrite => s

end State
end Sys2Proof.Machine
end

