-- ==== Sys2Proof/Machine/Pump.lean ====
section
/-!
DEFINITION. The stream of a warp: which of its operations may act, in the order of spec/03, what the store queue forwards, and when
operations complete (spec/03 R78 to R91, R106; spec/05 R140, R142; spec/04 R115).
-/

namespace Sys2Proof.Machine

/-- The bytes of a piece, by virtual address. -/
def Req.span (r : Req) (p : Piece) : Nat × Nat := (r.va.toNat + p.off, Nat.max p.size p.data.length)
def overlaps (a b : Nat × Nat) : Bool := a.1 < b.1 + b.2 && b.1 < a.1 + a.2

/-- What the store queue holds for a range: nothing, the bytes of the youngest overlapping store when it covers all of them, or a
store that must be performed first (R80). -/
inductive Forward where
  | none
  | bytes (bs : List Byte)
  | wait
  deriving DecidableEq, Repr

/-- The queued lane stores of operations, youngest first: range, bytes, whether a plain store (R78). -/
def queuedStores (ops : List (Nat × MemOp)) : List ((Nat × Nat) × List Byte × Bool) :=
  ((ops.filter fun e => e.2.kind.inStoreQueue).map fun e =>
    let plain := e.2.kind = .store || e.2.kind = .push
    ((e.2.reqs.filter fun r => !r.isDone).map fun r => r.pieces.map fun p => (r.span p, p.data, plain)).flatten).flatten.reverse

namespace State

/-- The physical page of an address of a warp, by its TLB or a walk; none in the window and where a walk fails. -/
def pagePlace (s : State) (o : MemOp) (va : DWord) : Option (Nat × Nat) :=
  if inWindow va then none
  else match (if canonical va then (s.tlbOf o.core).find? fun t => t.hits o.world va else none) with
    | some t => some ((s.xlate t va).ap, (s.xlate t va).pa / 2 ^ 15)
    | none => match s.walk (dieOfCore o.core) o.world o.partition va with
      | .ok t => some ((s.xlate t va).ap, (s.xlate t va).pa / 2 ^ 15)
      | _ => none

/-- The bytes of two accesses of a warp overlap: by virtual address, or in one physical page (R80, R84). -/
def meets (s : State) (o : MemOp) (a b : Nat × Nat) : Bool :=
  overlaps a b || (a.1 / 2 ^ 15 ≠ b.1 / 2 ^ 15 && overlaps (a.1 % 2 ^ 15, a.2) (b.1 % 2 ^ 15, b.2) &&
    match s.pagePlace o (BitVec.ofNat 64 a.1) with
    | some x => s.pagePlace o (BitVec.ofNat 64 b.1) = some x
    | none => false)

def forward (s : State) (o : MemOp) (ops : List (Nat × MemOp)) (range : Nat × Nat) : Forward :=
  match (queuedStores ops).find? fun q => s.meets o q.1 range with
  | none => .none
  | some (q, data, plain) =>
    let a := q.1 % 2 ^ 15
    let b := range.1 % 2 ^ 15
    if plain && a ≤ b && b + range.2 ≤ a + data.length then .bytes ((data.drop (b - a)).take range.2) else .wait

/-- A write of the warp to a replicated page has not reached the replica that serves a load of its bytes (R84). -/
def awaitsReplica (s : State) (o : MemOp) (range : Nat × Nat) : Bool :=
  s.propagating.any fun p => p.warp = some (o.wg, o.number) && p.die = dieOfCore o.core &&
    p.parts.any (fun q => overlaps (keyPa q.1 % 2 ^ 15, q.2.length) (range.1 % 2 ^ 15, range.2)) &&
    s.pagePlace o (BitVec.ofNat 64 range.1) = some (keyAp p.line, keyPa p.line / 2 ^ 15)

/-- An earlier load of the warp that has not been performed reads bytes that an operation writes (R84). -/
def readsFirst (s : State) (o : MemOp) (earlier : List (Nat × MemOp)) : Bool :=
  let writes := (o.reqs.map fun r => r.pieces.map r.span).flatten
  earlier.any fun e => e.2.kind.isLoad && e.2.reqs.any fun r => !r.isDone && r.pieces.any fun p => writes.any (s.meets o (r.span p))

/-- Every earlier request of the warp has been performed, and its writes to RP pages have reached the replicas that the scope asks for; at
DEV and SYS scope so have all others, which the warp may have acquired from whoever wrote (R87, R90, R91; log 87). -/
def released (s : State) (n k : Nat) (o : MemOp) (wide : Bool) : Bool :=
  !((s.stream k).any fun e => e.1 < n && !e.2.idle && (match e.2.kind with
      | .pref _ => false
      | _ => true)) &&
    !s.propagating.any fun p => (p.warp = some (o.wg, o.number) && (wide || p.die = dieOfCore o.core)) || wide

/-- A `svc` or a `post`, which releases and has not been sent (R86, R87). -/
def OpKind.isSending : OpKind → Bool
  | .svc _ _ | .card _ => true
  | _ => false

/-- An operation may act, given the earlier ones of its warp (R78, R79, R82, R86, R87, R115, R343). -/
def eligible (s : State) (n k : Nat) (o : MemOp) (before : List (Nat × MemOp)) : Bool :=
  let earlier := before.filter fun e => !e.2.idle
  let noLoad := !earlier.any fun e => e.2.kind.isLoad
  let first := !(earlier.any fun e => e.2.kind.inStoreQueue || OpKind.isSending e.2.kind) && !s.readsFirst o earlier
  match o.kind with
  | .store | .push | .cmntWbi => first
  | .atomic _ _ ret => first && (!ret || noLoad)
  | .counter kd sc _ _ _ =>
    if o.idle then !before.any fun e => e.2.kind.isCounter
    else if kd.modifies then s.released n k o (sc = .dev || sc = .sys)
    else noLoad && !(earlier.any fun e => e.2.kind.isCounter) &&
      o.reqs.all fun r => s.forward o earlier (r.va.toNat, 8) = .none && !s.awaitsReplica o (r.va.toNat, 8)
  | .svc _ _ | .card _ => s.released n k o true
  | .pref _ => true
  | .desc _ _ tl _ => noLoad && s.hasRoom n o.wg tl
  | .linear _ tl _ _ _ | .gather tl _ _ _ => s.hasRoom n o.wg tl
  | _ => noLoad

/-- Requests of a load at the core take the bytes that the store queue holds for them, and go out unless a store must come first
(R80). -/
def driveLoad (s : State) (n : Nat) (o : MemOp) (earlier : List (Nat × MemOp)) : State :=
  (List.range o.reqs.length).foldl (fun s i =>
    match o.reqs[i]? with
    | none => s
    | some r =>
      let fs := r.pieces.map fun p => s.forward o earlier (r.span p)
      if !r.atCore || fs.contains .wait || (r.pieces.zip fs).any (fun q => q.2 = .none && s.awaitsReplica o (r.span q.1)) then s
      else
        let gots := fs.map fun f =>
          match f with
          | .bytes bs => some bs
          | _ => none
        let s := s.setGot (n, i) gots
        let card := match o.kind with
          | .card _ => true
          | _ => false
        if !gots.contains none && !card then s.finishReq (n, i) else s.startReq (n, i)) s

/-- The next request of an operation with a store effect: one at a time, in lane order (R140). -/
def driveStore (s : State) (n : Nat) (o : MemOp) : State :=
  match o.reqs.findIdx? fun r => !r.isDone with
  | some i => s.startReq (n, i)
  | none => s

/-- The requests of an operation that may act; a descriptor's address is tested first (R347). -/
def drive (s : State) (n : Nat) (o : MemOp) (earlier : List (Nat × MemOp)) : State :=
  if o.kind.inStoreQueue then s.driveStore n o
  else match o.kind with
    | .counter _ _ _ _ _ | .svc _ _ | .pref _ => (List.range o.reqs.length).foldl (fun s i => s.startReq (n, i)) s
    | .cmntInv => (List.range o.reqs.length).foldl (fun s i => s.finishReq (n, i)) s
    | .desc _ _ _ _ =>
      match o.owner, o.reqs.head? with
      | .warp k sd, some r => (match (if r.atCore then descCheck ((s.warp? k).map s.cardOf |>.getD Card.empty) r.va else none) with
        | some t => s.copyTrap n k sd o t
        | none => s.driveLoad n o earlier)
      | _, _ => s
    | _ => s.driveLoad n o earlier

/-- A held operation leaves the held queue when no earlier request is parked; a store enters the store queue when that has room (R142, R331). -/
def unhold (s : State) (n : Nat) (earlier : List (Nat × MemOp)) : State :=
  let full := 16 ≤ (earlier.filter fun e => e.2.kind.inStoreQueue && !e.2.held).length
  s.onOp n fun o => if o.held && !earlier.any (fun e => e.2.hasParked) && !(o.kind.inStoreQueue && full) then
    { o with held := false, opened := o.kind.opens } else o

/-- The side of a warp's operation. -/
def sideOf (o : MemOp) : Side :=
  match o.owner with
  | .warp _ sd => sd
  | _ => .home

/-- An `mldw` of the warp, or of an operation's number or a later one, has still to read its source: a save waits for it, and so for the
requests before it (R372, R398). -/
def beforeMldw (s : State) (n : Nat) (o : MemOp) : Bool :=
  match o.owner with
  | .warp k _ => (s.stream k).any fun e => n ≤ e.1 && e.2.kind = .mldw && !e.2.done
  | _ => false

/-- Requests that do not leave a workgroup that is being saved: held ones, waits, and services, posts and copies that have not been
accepted (R398), but for those before an `mldw` (R372). -/
def stays (s : State) (n : Nat) (o : MemOp) : Bool :=
  ((s.wg? o.wg).map fun g => decide (g.phase = WgPhase.saving)).getD false && !o.done && !s.beforeMldw n o && (o.held || (match o.kind with
    | .svc _ _ | .card _ | .desc _ _ _ _ | .linear _ _ _ _ _ | .gather _ _ _ _ | .counter .wait _ _ _ _ => true
    | _ => false))

/-- An operation that stands behind others: one that holds the stream, or blocks what is later (R88, R106), or has to come first. -/
def heldBehind (s : State) (k n : Nat) (o : MemOp) : Bool :=
  let earlier := (s.stream k).filter fun e => e.1 < n
  earlier.any (fun e => e.2.holdsStream || (e.2.kind.blocksLater && !e.2.idle)) || !s.eligible n k o earlier

/-- The operations of a warp in program order: each acts when it may, and completes when its requests are done; none passes an
operation that holds the stream (R88, R106). -/
def pumpStream (s : State) (k : Nat) : List Nat → State
  | [] => s
  | n :: rest =>
    let earlier := (s.stream k).filter fun e => e.1 < n
    let idle := ((s.ops.find? n).map fun o => o.idle && s.eligible n k o earlier).getD false
    if idle then pumpStream (match s.ops.find? n with
      | some o => s.completeOp n k (sideOf o) o
      | none => s) k rest
    else if earlier.any fun e => e.2.holdsStream || (e.2.kind.blocksLater && !e.2.idle) then pumpStream s k rest
    else
      let s := if ((s.ops.find? n).map (s.stays n)).getD false then s else s.unhold n earlier
      match s.ops.find? n with
      | none => pumpStream s k rest
      | some o =>
        if s.stays n o || o.held || !s.eligible n k o earlier then pumpStream s k rest
        else
          let s := s.drive n o earlier
          let s := match s.ops.find? n with
            | some o => s.cancelRefused n o
            | none => s
          let s := match s.ops.find? n with
            | some o => if o.done then s.completeOp n k (sideOf o) o else s
            | none => s
          pumpStream s k rest

/-- The fetches of a warp, which no request holds (R143). -/
def pumpFetches (s : State) (k : Nat) : State :=
  (s.ops.filter fun e => e.2.kind.isFetch && (match e.2.owner with
    | .warp j _ => j = k
    | _ => false)).foldl (fun s e =>
      let s := s.startReq (e.1, 0)
      match s.ops.find? e.1 with
      | some o => if o.done then s.completeOp e.1 k (sideOf o) o else s
      | none => s) s

/-- A park token is met when no request holds its sequence on the die it names: the one that parked under it has been performed
(R108, R156 to R159; log 62). -/
def tokenMet (s : State) (token : Nat) : Bool := !(s.seqsHeld (token / 2 ^ 29)).contains (token % 2 ^ 29)

/-- The requests of a restored warp wait for its token: its core sees whether its own die's unit holds it, and of another die's waits for the
answer, which clears the token (R159). -/
def pumpWarp (s : State) (k : Nat) : State :=
  let s := s.pumpFetches k
  match s.warp? k with
  | none => s.pumpStream k ((s.stream k).map (·.1))
  | some w =>
    if w.token ≠ 0 && !(w.token / 2 ^ 29 = dieOfCore (coreOf k) && s.tokenMet w.token) then s
    else (if w.token = 0 then s else s.setWarp k { w with token := 0 }).pumpStream k ((s.stream k).map (·.1))

/-- Warps with operations, or with a token to ask for. -/
def busyWarps (s : State) : List Nat :=
  ((s.ops.filterMap fun e => match e.2.owner with
    | .warp k _ => some k
    | _ => none) ++ (s.warps.filter fun e => e.2.token ≠ 0).map (·.1)).eraseDups

/-- An earlier operation of the warp of an operation holds the stream, so that nothing younger leaves the core (R106). -/
def heldUp (s : State) (n : Nat) (o : MemOp) : Bool :=
  match o.owner with
  | .warp k _ => (s.stream k).any fun e => e.1 < n && e.2.holdsStream
  | _ => false

/-- Translated requests that waited for their source go, in the order of their operations, where none before them holds the stream (R106, R150,
R182). -/
def pumpWalked (s : State) : State :=
  s.ops.foldl (fun s (e : Nat × MemOp) =>
    (e.2.reqs.mapIdx fun i r => (i, r)).foldl (fun s q =>
      match q.2.stage, q.2.xl with
      | .walked, some x => if s.heldUp e.1 e.2 then s else s.sendReq (e.1, q.1) x
      | _, _ => s) s) s

/-- Requests whose warp is gone and that wait for translation ask again (R31). -/
def pumpGone (s : State) : State :=
  s.ops.foldl (fun s (e : Nat × MemOp) =>
    if e.2.owner = .gone then (List.range e.2.reqs.length).foldl (fun s i => s.startReq (e.1, i)) s else s) s

/-- Everything that may leave the cores does. Operations whose warp is gone end when their requests are done (R156, R392). -/
def pump (s : State) : State :=
  let s := s.pumpWalked.pumpGone
  let saving := (s.wgs.filter fun g => g.2.phase = WgPhase.saving).map (·.1)
  let s := if saving.isEmpty then s else s.cancelWaits fun n o => saving.contains o.wg && !s.beforeMldw n o
  let s := s.acceptCalls
  let s := s.busyWarps.foldl pumpWarp s
  let s := (s.copies.map (·.1)).foldl pumpCopy s
  { s with ops := s.ops.filter fun e => !(e.2.owner = .gone && e.2.done) }

end State
end Sys2Proof.Machine
end

