-- ==== Sys2Proof/Machine/Dugout.lean ====
section
/-!
DEFINITION. Walks of the die translation unit, park records, the overflow area, and the stops of a die under its limits (spec/01 R23,
R31, R32; spec/05 R139 to R155).
-/

namespace Sys2Proof.Machine

namespace State

/-- A walk's outcome reaches a request (R23): it goes on by the translation, which the TLBs take (R27, R30), parks or freezes its
master; `pref` and `cmnt` end without effect when it fails (R139). -/
def giveOutcome (s : State) (die : Nat) (ref : ReqRef) (w : Walked) : State :=
  match s.reqOf ref with
  | none => s
  | some (o, r) =>
    match w with
    | .ok t =>
      let s := (s.fillWalkCache die o.world r.va).setAccessed die o.world t.leafPa
      ((s.fillDieTlb die t).fillCoreTlb o.core t).hitReq ref o.core { t with stamp := s.clk } r.va (o.permAt ref.2)
    | .park c => s.parkReq ref c
    | .freeze w pa => if o.kind.quiet then s.dropReq ref else s.freezeReq ref w pa

/-- The units of the table entries that a walk reads: the root entry and those not in the walk cache (R15, R16, R30). -/
def walkUnits (s : State) (die world : Nat) (va : DWord) : List Nat :=
  if !s.rootEnabled die || 4096 ≤ world || !canonical va || inWindow va then []
  else
    let path := if s.worldValid die world then s.pathOf die world va else []
    s.rootUnits die world ++ (path.filter fun t => (s.heldEntry die world (va57 va) t.1).isNone).map fun t => unitOf t.2.1

/-- A walk starts and reads its table entries: none when a unit of them is found uncorrectable, which is recorded under the agent number
of the die translation unit (R8, R47, R69, R70). -/
def startWalk (s : State) (die world task : Nat) (va : DWord) : Except State State :=
  match (s.countWalk die).readUnits (s.walkUnits die world va) with
  | .ok s => .ok s
  | .error (s, n, u) => .error (s.unitError u n (2134 + die) world task)

/-- A request whose walk could not be performed: its workgroup ends with MEMERR (R69; log 78). -/
def walkFails (s : State) (ref : ReqRef) : State :=
  match s.ops.find? ref.1 with
  | some o => (s.dropReq ref).stopWg o.wg .memerr
  | none => s

/-- The walk that a queued miss gives one of its requests: its own page's, or for an address of the run the page that missed (R31). -/
def missWalk (s : State) (die : Nat) (m : Miss) (o : MemOp) (r : Req) : Walked :=
  s.walk die o.world o.partition (if pageOf r.va = m.page || !canonical r.va || inWindow r.va then r.va else pageVa m.page)

/-! The question to the peer of an aperture-4 leaf (R26): a read of a sector of the frame, from the die translation unit (log 64). -/

/-- The frame of a translation that holds an address of a page. -/
def frameIn (t : TlbEntry) (page : Nat) : Nat := t.pa + page % 2 ^ (t.size - 15)

/-- One of the 64 walkers is free to wait, and the unit may inject (R31, R182). -/
def mayAsk (s : State) (die : Nat) (t : TlbEntry) : Bool :=
  ((s.dtu die).missQ.filter fun m => m.asked.isSome).length < 64 && s.canSend (s.dtuEnd die) (peerEnd (t.pa * 2 ^ 15)) 1

/-- The peer is asked about the frame of a miss, whose walk goes on until the answer. -/
def ask (s : State) (die : Nat) (m : Miss) (t : TlbEntry) : State :=
  let n := (s.dtu die).asks + 1
  let pa := frameIn t m.page * 2 ^ 15
  (s.onDtu die fun d => { d with asks := n, missQ := d.missQ ++ [{ m with asked := some (t, n) }] }).send
    ⟨.rd, false, 1, false, false, 0, peerEnd pa, s.dtuEnd die, 0, 0, peerKey pa, 0, 0, m.world, (0, n), .done, [⟨0, 0, 32, [], none⟩], none,
      0, 0xFF, 0, 0⟩

/-- A request of another page than the miss's that its walk does not take in misses again. -/
def missAgain (s : State) (ref : ReqRef) : State := s.await ref .limited

/-- How a peer's answer ends the walk of a device agent: none where the question was not answered. -/
def agentOutcome (m : Miss) (t : TlbEntry) (a : Answer) : Option Walked :=
  match a with
  | .mismatch w => some (.freeze w (frameIn t m.page * 2 ^ 15))
  | .badFrame | .noRoute => some (.park .badAttr)
  | _ => none

/-- The peer's answer to a question decides the walk: freeze, park BAD-ATTR, or the translation (R26, R186), which a prefetch and a device agent
take into the last-level TLB (R341, R415). -/
def peerAnswer (s : State) (die n : Nat) (a : Answer) : State :=
  match (s.dtu die).missQ.findSome? fun m => m.asked.bind fun q => if q.2 = n then some (m, q.1) else none with
  | none => s
  | some (m, t) =>
    m.refs.foldl (fun s ref =>
      match s.reqOf ref with
      | none => s
      | some (o, r) =>
        match s.missWalk die m o r with
        | .ok _ => (match a with
          | .done => if t.hits o.world r.va then s.giveOutcome die ref (.ok t) else s.missAgain ref
          | .mismatch w => s.giveOutcome die ref (.freeze w (frameIn t m.page * 2 ^ 15))
          | .badFrame | .noRoute => s.giveOutcome die ref (.park .badAttr)
          | _ => s.missAgain ref)
        | w => if pageOf r.va = m.page then s.giveOutcome die ref w else s.missAgain ref)
      (let s := s.onDtu die fun d => { d with missQ := d.missQ.erase m }
       if m.refs ≠ [] && !m.agent then s
       else if a = .done then
         if s.heldBack t then s else ((s.fillWalkCache die m.world (pageVa m.page)).setAccessed die m.world t.leafPa).fillDieTlb die t
       else if m.agent then s.onDtu die fun d => { d with refusals := d.refusals ++ [(m.world, m.page, agentOutcome m t a)] }
       else s)

/-- The outcome of a miss's walk for each request that joined it (R31). -/
def giveAll (s : State) (die : Nat) (m : Miss) : State :=
  m.refs.foldl (fun s ref =>
    match s.reqOf ref with
    | none => s
    | some (o, r) =>
      match s.missWalk die m o r with
      | .ok t => if t.hits o.world r.va && t.ap ≠ 4 then s.giveOutcome die ref (.ok t) else s.missAgain ref
      | w => if pageOf r.va = m.page then s.giveOutcome die ref w else s.missAgain ref) s

/-- The walk of a queued miss, as its first request gives it. -/
def firstWalk (s : State) (die : Nat) (m : Miss) : Option Walked :=
  (m.refs.findSome? s.reqOf).map fun q => s.missWalk die m q.1 q.2

/-- A queued miss can be walked to its end, or to its question: no POT-SET that a unit has taken holds its frame back (R32, R38). -/
def walkable (s : State) (die : Nat) (m : Miss) : Bool :=
  m.asked.isNone && match s.firstWalk die m with
    | some (.ok t) => !s.heldBack t && (t.ap ≠ 4 || s.mayAsk die t)
    | _ => true

/-- The oldest entry of the miss queue that can be is walked; every request that joined receives the outcome (R31). -/
def walkHead (s : State) (die : Nat) : State :=
  match (s.dtu die).missQ.find? (s.walkable die) with
  | none => s
  | some m =>
    let task := ((m.refs.findSome? s.reqOf).map fun q => s.taskId q.1.task).getD 0
    match (s.onDtu die fun d => { d with missQ := d.missQ.erase m }).startWalk die m.world task (pageVa m.page) with
    | .error s => m.refs.foldl walkFails s
    | .ok s => match s.firstWalk die m with
      | some (.ok t) => if t.ap = 4 then s.ask die m t else s.giveAll die m
      | _ => s.giveAll die m

/-- One request walked again after RELEASE (R150): at once, or by the miss queue where its walk cannot end in this step. -/
def walkReq (s : State) (die : Nat) (ref : ReqRef) : State :=
  match s.reqOf ref with
  | none => s
  | some (o, r) =>
    let later := (s.onDtu die fun d => { d with missQ := d.missQ ++ [⟨o.world, pageOf r.va, [ref], none, false⟩] }).await ref .miss
    let waits := match s.walk die o.world o.partition r.va with
      | .ok t => t.ap = 4 || s.heldBack t
      | _ => false
    if waits then later
    else match s.startWalk die o.world (s.taskId o.task) r.va with
      | .error s => s.walkFails ref
      | .ok s => s.giveOutcome die ref (s.walk die o.world o.partition r.va)

/-! Park records (R146 to R148). -/

/-- The entries of a page in a die's dugout. -/
def onPage (d : Dtu) (g : ParkPage) : List Parked := d.parked.filter fun p => p.world = g.world && p.page = g.page

/-- The next park id: none that is live (R147). -/
def nextId (d : Dtu) : Nat → Nat → Option Nat
  | 0, _ => none
  | n + 1, q => if d.pages.any fun g => g.posted = some (q % 2 ^ 16) then nextId d n (q + 1) else some (q % 2 ^ 16)

def parkRecord (p : Parked) (pid count : Nat) : List Byte :=
  leBytes 8 p.va.toNat ++ leBytes 2 p.agent ++ leBytes 1 p.slot ++ leBytes 1 p.access.code ++ leBytes 2 p.world ++
    leBytes 1 p.cause.code ++ leBytes 1 0 ++ leBytes 2 pid ++ leBytes 2 count ++ leBytes 12 0

/-- The record of a page for the captain's queue, beside its partition's, when its cause is HOST-OWNED (R148); one queue takes one record
(log 69). -/
def captainCopy (s : State) (die : Nat) (g : ParkPage) (pid count : Nat) : State × Bool :=
  if g.first.cause = .hostOwned && g.first.partition ≠ s.captain then
    match s.postRecord die s.captain (parkRecord g.first pid count) with
    | some s => (s, false)
    | none => (s, true)
  else (s, false)

/-- A page's record is posted once DGWIN has passed, when an id and a slot are free (R146 to R148); it names the first request of the page,
though that may have gone (log 68). -/
def postPage (s : State) (die : Nat) (g : ParkPage) : Option State :=
  let d := s.dtu die
  let count := Nat.min (onPage d g).length 65535
  let put := fun (s : State) (g' : ParkPage) => s.onDtu die fun d => { d with pages := d.pages.map fun x => if x = g then g' else x }
  match g.posted with
  | some pid => if !g.captainDue then none else
      match s.captainCopy die g pid count with
      | (s, false) => some (put s { g with captainDue := false })
      | (_, true) => none
  | none =>
    if s.clk < g.since + s.reg (Reg.dtu die 0x208) % 2 ^ 16 then none
    else match nextId d (d.pages.length + 1) d.nextPark with
      | none => none
      | some pid =>
        match s.postRecord die g.first.partition (parkRecord g.first pid count) with
        | none => none
        | some s =>
          let (s, due) := s.captainCopy die g pid count
          some ((put s { g with posted := some pid, captainDue := due }).onDtu die fun d => { d with nextPark := (pid + 1) % 2 ^ 16 })

/-- The first record kept for a repair queue that has a free slot is posted (R48, R148). -/
def postKept (s : State) (die : Nat) : Option State :=
  (s.dtu die).owed.findSome? fun r => (s.postRecord die r.1 r.2).map fun t => t.onDtu die fun d => { d with owed := d.owed.erase r }

/-! The overflow area and the limits (R154, R155). -/

/-- The oldest overflow entry moves back to the die when it fits (R154). -/
def dugoutReturn (s : State) (die : Nat) : State :=
  match (s.dtu die).parked.find? (·.overflow) with
  | none => s
  | some p =>
    if 8192 < usedUnits (s.dtu die) false + p.units then s
    else s.onDtu die fun d => { d with parked := d.parked.map fun q => if q = p then { p with overflow := false } else q }

/-- Requests that waited at the unit enter the dugout in order as entries free (R155). -/
def enterWaiting (s : State) (die : Nat) : Nat → State
  | 0 => s
  | n + 1 =>
    match (s.dtu die).waiting with
    | [] => s
    | p :: rest =>
      if dugoutRoom (s.dtu die) p then ((s.onDtu die fun d => { d with waiting := rest }).takeEntries die p).enterWaiting die n else s

/-- The partitions stopped on a die, and the die itself as 64 (R155). -/
def newStops (s : State) (die : Nat) : List Nat :=
  let d := s.dtu die
  let parts := ((d.parked.map (·.partition)) ++ d.stopped.filter (· ≠ 64)).eraseDups
  let free := 262144 - usedUnits d true
  (parts.filter fun p =>
    let n := (d.parked.filter fun q => q.partition = p).foldl (fun n q => n + q.units) 0
    let limit := s.reg (Reg.dtu die (0x400 + 8 * p)) % 2 ^ 19
    limit ≠ 0 && (limit ≤ n || (d.stopped.contains p && 15 * limit ≤ 16 * n))) ++
    if free < 4096 || (d.stopped.contains 64 && free < 8192) then [64] else []

/-- A core of another die asks whether a park token is met; the question stands at the die's unit until it is (R157, R159). -/
def askToken (s : State) (die : Nat) (p : Packet) : State :=
  s.onDtu die fun d => { d with questions := d.questions ++ [(p.src, p.tag.1, p.tag.2)] }

/-- The tokens that are met now are answered. -/
def answerTokens (s : State) (die : Nat) : State :=
  ((s.dtu die).questions.filter fun q => !(s.seqsHeld die).contains (q.2.2 % 2 ^ 29)).foldl (fun s q =>
    (s.onDtu die fun d => { d with questions := d.questions.erase q }).send
      (svcPacket svcTokenMet (s.dtuEnd die) q.1 q.2 (leBytes 4 q.2.2))) s

/-- The answer for a token of a warp, which still waits for it. -/
def takeTokenMet (s : State) (p : Packet) : State :=
  s.onWarp p.tag.1 fun w => if w.token = p.tag.2 then { w with token := 0 } else w

/-- The dugouts after a step. -/
def keepDugouts (s : State) : State :=
  (s.dtus.map (·.1)).foldl (fun s die =>
    let s := (s.enterWaiting die (s.dtu die).waiting.length).answerTokens die
    s.onDtu die fun d => { d with stopped := s.newStops die }) s

end State

/-- WALK (R23). -/
def execWalk (die : Nat) (s : State) : Out := .next (s.walkHead die)
/-- PARK_RECORD (R146, R148): the first record kept for want of a slot, or the first page whose record can be posted. -/
def execParkRecord (die : Nat) (s : State) : Out :=
  .next ((s.postKept die).getD (((s.dtu die).pages.findSome? (s.postPage die)).getD s))
/-- DUGOUT_RETURN (R154). -/
def execDugoutReturn (die : Nat) (s : State) : Out := .next (s.dugoutReturn die)

end Sys2Proof.Machine
end

