-- ==== Sys2Proof/Machine/Queues.lean ====
section
/-!
DEFINITION. The dispatcher's queues: job cards, packets, posts, and the end of tasks (spec/07 R197 to R206, R211, R212; spec/15 R386,
R387; spec/04 R133 to R137).
-/

namespace Sys2Proof.Machine

/-- A physical address in the form of R202 with an alignment. -/
def formOk (a align : Nat) : Bool :=
  let ap := a / 2 ^ 56 % 8
  (ap = 0 || ap = 1 || ap = 3) && a / 2 ^ 59 = 0 && a / 2 ^ 55 % 2 = 0 && a % align = 0

/-- A counter's address: in that form, 8-byte aligned, in a frame that the aperture has (R110, R201). -/
def ctrFormOk (a : Nat) : Bool := formOk a 8 && a % 2 ^ 55 / 2 ^ 15 < apFrames (a / 2 ^ 56 % 8)

/-- A job card from its 64 bytes (R197). -/
def Card.ofBytes (b : List Byte) : Card where
  entry := BitVec.ofNat 64 (field b 0 8)
  args := BitVec.ofNat 64 (field b 8 8)
  nx := field b 0x10 4
  ny := field b 0x14 4
  nz := field b 0x18 4
  stages := field b 0x1C 1
  warps := field b 0x1D 1
  flags := field b 0x1E 2
  regs := field b 0x20 2
  scratchKiB := field b 0x22 2
  tiles := field b 0x24 1
  timelines := field b 0x25 1
  expected := field b 0x26 2
  handler := BitVec.ofNat 64 (field b 0x28 8)
  residency := BitVec.ofNat 64 (field b 0x30 8)
  spill := BitVec.ofNat 64 (field b 0x38 8)

/-- The limits of R197 that the dispatcher enforces (R198). -/
def Card.ok (c : Card) : Bool :=
  let dim := fun n => 1 ≤ n && n < 2 ^ 31
  let oneTo16 := fun n => 1 ≤ n && n ≤ 16
  dim c.nx && dim c.ny && dim c.nz && oneTo16 c.stages && oneTo16 c.warps && c.flags / 2 ^ 5 = 0 && c.pclass ≠ 3 &&
    16 ≤ c.regs && c.regs ≤ 256 && c.regs % 16 = 0 && c.scratchKiB ≤ 256 && c.tiles ≤ 32 && (c.tiles = 0 || c.usesArray) &&
    c.timelines ≤ 4 && c.residency.toNat % 16 = 0

namespace State

/-! Queues (R200, R201). -/

/-- The partition of a squad's cores. -/
def squadPart (s : State) (squad : Nat) : Option Nat := s.unitPart (squad / 2)

/-- A partition has a core on a die. -/
def partOnDie (s : State) (die part : Nat) : Bool := (List.range 8).any fun i => s.unitPart (8 * die + i) = some part

/-- The queue-table entry of a queue: none when it is not enabled there, an error when R201 refuses it; a reserved field that is not
zero breaks a limit of the entry (log 26). -/
def readQueue (s : State) (q : Nat) : Except Unit (Option QEntry) :=
  let die := q / 32
  let k := q % 32
  let at' := s.reg (Reg.dispatcher die 0) + 64 * k
  let rd := fun off n => s.mem.readNat (at' + off) n
  let flags := rd 0x0D 1
  let e : QEntry := ⟨rd 0 8, rd 8 4, rd 0x0C 1, flags / 2 % 2 = 1, flags / 4 % 2 = 1, rd 0x10 8, rd 0x18 8, rd 0x20 8⟩
  if flags % 2 = 0 then .ok none
  else if e.base % 64 ≠ 0 || apFrames 0 * 2 ^ 15 < e.base + 64 * e.slots || 2 ^ 55 ≤ e.base || e.slots < 16 ||
      4096 < e.slots || 2 ^ Nat.log2 e.slots ≠ e.slots || 64 ≤ e.partition || flags / 8 ≠ 0 || rd 0x0E 2 ≠ 0 || rd 0x28 24 ≠ 0 || !ctrFormOk e.produced || !ctrFormOk e.consumed ||
      !ctrFormOk e.reserved then .error ()
  else if k < 16 && s.squadPart (16 * die + k) ≠ some e.partition then .error ()
  else if 16 ≤ k && !e.everyDie && !s.partOnDie die e.partition then .error ()
  else .ok (some e)

/-- A partition whose battery is retired stays out of service (R442); during its reset its queues stay disabled too (R444). -/
def outOfService (s : State) (part : Nat) : Bool := (s.batteries.get Battery.empty part).retired
def closed (s : State) (part : Nat) : Bool := s.outOfService part || s.resetting.contains part

/-- The watches of a queue removed: on its counters, and of its FENCE. -/
def dropWatches (s : State) (q : Nat) : State :=
  { s with
    waiters := s.waiters.filter fun w => w.who ≠ .fence q && w.who ≠ .queue q
    polls := s.polls.filter fun p => p.who ≠ .fence q && p.who ≠ .queue q }

/-- The dispatcher of a die reads units, under the agent number of the die's translation unit (R201): none when one is found
uncorrectable, with the record posted (R69, R70). -/
def agentRead (s : State) (die world task : Nat) (units : List Nat) : Except State State :=
  match s.readUnits units with
  | .ok s => .ok s
  | .error (s, n, u) => .error (s.unitError u n (2134 + die) world task)

/-- A queue is switched on or off; the register reads back as the effective state (R201, R220). -/
def enableQueue (s : State) (q : Nat) (on : Bool) : State :=
  let die := q / 32
  let err := Reg.dispatcher die 0x10
  let eff := Reg.dispatcher die 8
  let was := ((s.queues.find? q).map Queue.enabled).getD false
  let off := fun (s : State) => ({ s with
    queues := s.queues.adjust q fun x => { x with enabled := false, busy := .none } }.dropWatches q).setReg eff
      (s.reg eff - if (s.reg eff).testBit (q % 32) then 2 ^ (q % 32) else 0)
  if !on then off s
  else if was then s
  else match s.agentRead die 0 0 [s.reg (Reg.dispatcher die 0) + 64 * (q % 32), s.reg (Reg.dispatcher die 0) + 64 * (q % 32) + 32] with
  | .error s => s.setReg err (s.reg err ||| 2 ^ (q % 32))
  | .ok s => match s.readQueue q with
    | .ok none => s
    | .error _ => s.setReg err (s.reg err ||| 2 ^ (q % 32))
    | .ok (some e) =>
      if s.closed e.partition then s else
      let n := ((s.queues.find? q).map Queue.launches).getD 0
      { s with queues := s.queues.insert q ⟨true, e, .none, n⟩ }.setReg eff (s.reg eff ||| 2 ^ (q % 32))

/-! Packets (R202 to R205). -/

def counterOf (s : State) (form : Nat) : Nat := s.mem.readNat (formKey form) 8

/-- An enabled queue that has begun no packet, and whose dispatcher is not between two polls of its produced counter (R122). -/
def openQueue (s : State) (q : Nat) : Option Queue :=
  match s.queues.find? q with
  | some x => if x.enabled && x.busy = .none && !s.polls.any (fun p => p.who = .queue q) then some x else none
  | none => none

/-- Slots that produced covers and consumed does not. -/
def pending (s : State) (e : QEntry) : Nat := s.counterOf e.produced - s.counterOf e.consumed

/-- Memory key of the i-th slot from the head. -/
def slotKey (s : State) (e : QEntry) (i : Nat) : Nat := e.base + 64 * ((s.counterOf e.consumed + i) % e.slots)
def slotBytes (s : State) (e : QEntry) (i : Nat) : List Byte := s.mem.readBytes (s.slotKey e i) 64

/-- Slots taken: consumed advances (R205). -/
def consume (s : State) (q : Nat) (e : QEntry) (n : Nat) : State := s.agentAdd (formKey e.consumed) n (2134 + q / 32) 0 0

/-- The watches and polls that stand for a waiting agent. -/
def watching (s : State) (who : Waiting) : List Nat :=
  (s.waiters.filter fun w => w.who = who).map (·.addr) ++ (s.polls.filter fun p => p.who = who).map (·.addr)
def unwatch (s : State) (who : Waiting) : State :=
  { s with waiters := s.waiters.filter fun w => w.who ≠ who, polls := s.polls.filter fun p => p.who ≠ who }

/-- A post that becomes no task goes away: its poster no longer waits for it (R211, R387). -/
def dropPost (s : State) (p : Post) : State :=
  { s.unwatch (.post p.id) with
    posts := s.posts.filter fun x => x.id ≠ p.id
    tasks := s.tasks.adjust p.task fun t => { t with children := t.children - 1 } }

/-- The post published in the slot at the head of a queue. -/
def postAt (s : State) (q : Nat) (e : QEntry) : Option Post := s.posts.find? fun p => p.published && p.place = some (q, s.counterOf e.consumed)

/-- A bad packet is skipped and counted; of a post that published it there comes no task (R202, R211). -/
def badPacket (s : State) (q : Nat) (e : QEntry) (n : Nat) : State :=
  ((match s.postAt q e with
    | some p => s.dropPost p
    | none => s).consume q e n).bump (Reg.dispatcher (q / 32) 0x18) 1

/-- The units of a queue's counters that its dispatcher reads to serve it. -/
def queueUnits (e : QEntry) : List Nat := [unitOf (formKey e.produced), unitOf (formKey e.consumed)]

/-- The slots of a packet read: a packet that can not be read is taken as a bad one (log 79). -/
def readSlots (s : State) (q : Nat) (e : QEntry) (n : Nat) : Except State State :=
  match s.agentRead (q / 32) 0 0 ((List.range n).map fun i => [s.slotKey e i, s.slotKey e i + 32]).flatten with
  | .ok s => .ok s
  | .error s => .error (s.badPacket q e n)

/-- An agent that found a unit uncorrectable reads again after 256 cycles, as it polls a counter (R122; log 79). -/
def retry (s : State) (key : Nat) (who : Waiting) : State :=
  { s with polls := s.polls ++ [⟨homeNo (s.homeEnd (keyAp key) (keyPa key)), key, 0, who, s.clk, 0, 0⟩] }

/-- A dispatcher serves a queue whose head is due, its counters having been read (R68, R205). -/
def serveQueue (s : State) (q : Nat) (due : Queue → Bool) (f : Queue → State → State) : State :=
  match s.openQueue q with
  | none => s
  | some x =>
    if s.pending x.entry = 0 || !due x then s
    else match s.agentRead (q / 32) 0 0 (queueUnits x.entry) with
      | .error s => s.retry (formKey x.entry.produced) (.queue q)
      | .ok s => f x s

end State

/-- Every byte of a range is zero. -/
def zeros (b : List Byte) (off n : Nat) : Bool := field b off n = 0

/-- A LAUNCH whose form is right (R202). -/
def launchOk (b : List Byte) : Bool :=
  field b 1 1 < 4 && formOk (field b 8 8) 64 && formOk (field b 0x10 8) 8 && formOk (field b 0x18 8) 32 && zeros b 0x20 32
/-- A SIGNAL whose form is right (R204). -/
def signalOk (b : List Byte) : Bool := zeros b 1 7 && formOk (field b 8 8) 8 && zeros b 0x18 40
/-- The slots a FENCE occupies (R203). -/
def fenceSlots (n : Nat) : Nat := if n = 0 || 12 < n then 1 else 1 + n / 4
/-- The entries of a FENCE from the bytes of its slots. -/
def fenceEntries (b : List Byte) : List (Nat × Nat) :=
  (List.range (field b 1 1)).map fun i => (field b (16 + 16 * i) 8, field b (24 + 16 * i) 8)
def fenceOk (b : List Byte) : Bool :=
  1 ≤ field b 1 1 && field b 1 1 ≤ 12 && zeros b 2 14 && (fenceEntries b).all fun e => formOk e.1 8

namespace State

/-- A LAUNCH at the head of a queue with its bytes. -/
def headLaunch (s : State) (q : Nat) : Option (Queue × List Byte) :=
  match s.openQueue q with
  | none => none
  | some x =>
    if s.pending x.entry = 0 then none
    else
      let b := s.slotBytes x.entry 0
      if field b 0 1 = 1 && launchOk b then some (x, b) else none

/-- The queue whose LAUNCH a die's dispatcher serves next: highest priority, then round-robin by number (R205). -/
def nextLaunch (s : State) (die : Nat) : Option Nat :=
  let cands := (List.range 32).filterMap fun k => (s.headLaunch (32 * die + k)).map fun x => (32 * die + k, field x.2 1 1)
  let top := cands.foldl (fun m c => Nat.max m c.2) 0
  let best := (cands.filter fun c => c.2 = top).map (·.1)
  let last := s.lastQueue.get 0 die
  (best.find? fun q => last < q).or best.head?

/-- A world's key slot (R405). -/
def keySlot (s : State) (world : Nat) : Option (Nat × KeySlot) := List.find? (fun e => e.2.world = world) s.keys

/-- A translation of the device's own for a world: from the die's last-level TLB, or by a walk, which installs what it finds when it passes
checks 1 to 10 and sets A (R23, R30, R415); none when a table entry can not be read. The leaf of an aperture-4 page gives none and installs
nothing before the peer is asked (R26). -/
def lookup (s : State) (die world part task : Nat) (va : DWord) : State × Option Walked :=
  match (if canonical va && !inWindow va then (s.dtu die).tlb.find? fun t => t.hits world va else none) with
  | some t => (s.touchDieTlb die t, some (.ok t))
  | none => match s.startWalk die world task va with
    | .error s => (s, none)
    | .ok s => match s.walk die world part va with
      | .ok t => if t.ap = 4 then (s, some (.ok t))
          else (((s.fillWalkCache die world va).setAccessed die world t.leafPa).fillDieTlb die t, some (.ok t))
      | w => (s, some w)

/-- The translate-prefetch of a page (R199, R341), which fails without a park or a record; for an aperture-4 page the peer is asked, and its
answer fills the TLB (R26). -/
def prefetchPage (s : State) (die world part task : Nat) (va : DWord) : State × Option TlbEntry :=
  let held := (s.dtu die).tlb.any fun t => t.hits world va
  match s.lookup die world part task va with
  | (s, some (.ok t)) =>
    if t.ap ≠ 4 || held then (s, some t)
    else (if s.mayAsk die t && !s.heldBack t then s.ask die ⟨world, pageOf va, [], none, false⟩ t else s, none)
  | (s, _) => (s, none)

/-- The translation of an access of a device agent (R382, R415, R437): none while the peer of an aperture-4 leaf is asked about the frame, whose
answer ends the walk (R26); within, none where an entry or an answer can not be had. -/
def agentWalk (s : State) (die world part task : Nat) (va : DWord) : State × Option (Option Walked) :=
  let mine := fun (w p : Nat) => decide (w = world && p = pageOf va)
  match (s.dtu die).refusals.find? fun x => mine x.1 x.2.1 with
  | some x => (s.onDtu die fun d => { d with refusals := d.refusals.erase x }, some x.2.2)
  | none =>
    if (s.dtu die).missQ.any fun m => m.agent && m.asked.isSome && mine m.world m.page then (s, none)
    else
      let held := (s.dtu die).tlb.any fun t => t.hits world va
      match s.walk die world part va with
      | .ok t =>
        if t.ap ≠ 4 || held then let (s, w) := s.lookup die world part task va; (s, some w)
        else if !s.mayAsk die t || s.heldBack t then (s, none)
        else match s.startWalk die world task va with
          | .error s => (s, some none)
          | .ok s => (s.ask die ⟨world, pageOf va, [], none, true⟩ t, none)
      | _ => let (s, w) := s.lookup die world part task va; (s, some w)

/-- Those of every page of a range. -/
def prefetchPages (s : State) (die world part task : Nat) (va : DWord) (n : Nat) : State :=
  (List.range n).foldl (fun s i => (s.prefetchPage die world part task (va + BitVec.ofNat 64 (32768 * i))).1) s

/-- An entry of a residency list: its address and length, none when it can not be read. -/
def residencyEntry (s : State) (die world part task : Nat) (va : DWord) : State × Option (DWord × Nat) :=
  match s.prefetchPage die world part task va with
  | (s, none) => (s, none)
  | (s, some t) =>
    let x := s.xlate t va
    match s.agentRead die world task [unitOf (memKey x.ap x.pa)] with
    | .error s => (s, none)
    | .ok s => (s, some (BitVec.ofNat 64 (s.mem.readNat (memKey x.ap x.pa) 8), s.mem.readNat (memKey x.ap x.pa + 8) 8))

/-- The prefetches of a residency list of at most so many entries (R199; log 15). -/
def residencyFrom (s : State) (die world part task : Nat) (va : DWord) : Nat → State
  | 0 => s
  | n + 1 => match s.residencyEntry die world part task va with
    | (s, some (a, len)) => if len = 0 then s
        else residencyFrom (s.prefetchPages die world part task a ((a.toNat % 32768 + len + 32767) / 32768)) die world part task (va + 16) n
    | (s, none) => s
def residency (s : State) (die world part task : Nat) (card : Card) : State :=
  if card.residency = 0 then s else s.residencyFrom die world part task card.residency 4

/-- A LAUNCH is taken: its job card is read and checked, and its task starts, or ends at once with ILLEGAL (R198, R202, R205,
R409), with MEMERR when its card or its world's root entry can not be read (log 79). The task of a post is counted with its poster; an abandoned root takes it
with it (R387). -/
def takeLaunch (s : State) (q : Nat) (x : Queue) (b : List Byte) : State :=
  let die := q / 32
  let world := field b 2 2
  let part := x.entry.partition
  let cardPa := field b 8 8
  let fa := cardPa / 2 ^ 56 % 8
  let frame := cardPa % 2 ^ 55 / 2 ^ 15
  let post := s.postAt q x.entry
  let c := x.launches % (2 ^ 24 - 1) + 1
  let card := Card.ofBytes (s.mem.readBytes (formKey cardPa) 64)
  let id := q * 2 ^ 24 + c
  let allowed := s.worldPart die world = some part && (s.ownCheck world part fa frame).isNone
  let (s, readable) := match s.agentRead die world id (s.rootUnits die world ++
      if allowed then [unitOf (formKey cardPa), unitOf (formKey cardPa) + 32] else []) with
    | .ok s => (s, true)
    | .error s => (s, false)
  let ok := allowed && readable && card.ok && (!s.worldConf die world || (s.keySlot world).isSome)
  let root := post.map fun p => s.rootOf p.task
  let doomed := ((root.bind fun r => s.tasks.find? r).map Task.cancelled).getD false
  let t : Task :=
    { id, queue := q, world, partition := part, priority := field b 1 1, bound := field b 4 4, cardPa, card
      counter := field b 0x10 8, record := field b 0x18 8, next := List.replicate card.stages 0, live := 0, again := [], squads := []
      status := .ok, failStage := 0, failLinear := 0, ended := 0, missed := 0, parent := post.map Post.task, root, children := 0
      calls := 0, named := [], cancelled := !ok || doomed }
  let key := Map.nextKey s.tasks
  let s := { s with
    tasks := s.tasks.insert key t
    queues := s.queues.insert q { x with launches := c }
    posts := s.posts.filter fun p => some p ≠ post
    lastQueue := s.lastQueue.put 0 die q }
  let s := if ok then s.residency die world part id card else s.failTask key (if readable then .illegal else .memerr) 0 0
  s.consume q x.entry 1

/-- LAUNCH: the packet at the head of a queue, when it is this queue's turn; a packet of no type, or an ill-formed LAUNCH, is
skipped (R202, R205). -/
def launch (s : State) (q : Nat) : State :=
  let head := fun (x : Queue) => s.slotBytes x.entry 0
  let good := fun (b : List Byte) => field b 0 1 = 1 && launchOk b
  s.serveQueue q (fun x => field (head x) 0 1 ≠ 2 && field (head x) 0 1 ≠ 3 && (!good (head x) || s.nextLaunch (q / 32) = some q)) fun x s =>
    match s.readSlots q x.entry 1 with
    | .error s => s
    | .ok s => if good (head x) then s.takeLaunch q x (head x) else s.badPacket q x.entry 1

/-- A device agent watches a counter until it reaches a threshold, or polls it when its home has no free slot (R118, R122), by a translation of a
world and a VA when it named the counter so (R121). -/
def watchVia (s : State) (key threshold : Nat) (who : Waiting) (world va : Nat) : State :=
  let home := homeNo (s.homeEnd (keyAp key) (keyPa key))
  match s.addWaiter home true key threshold who world va 0 with
  | some s => s
  | none => { s with polls := s.polls ++ [⟨home, key, threshold, who, s.clk, world, va⟩] }
def watch (s : State) (key threshold : Nat) (who : Waiting) : State := s.watchVia key threshold who 0 0

/-- An agent that waits for a counter to reach a threshold reads it and watches it, once; one that no longer waits for it has no watch of it, and one
that could not read it, or has to read again, waits for that (R68, R122; log 79). -/
def keepWatch (s : State) (who : Waiting) (agent : Nat) (waits : Option (Nat × Nat)) : State :=
  if s.polls.any (fun p => p.who = who && p.threshold = 0) then s
  else match waits with
  | none => if (s.watching who).isEmpty then s else s.unwatch who
  | some (key, threshold) =>
    if s.watching who ≠ [] && (s.watching who).all fun a => a = key then s
    else if s.mem.readNat key 8 < threshold then (match s.agentUnits (unitsOf key 8) agent 0 0 with
      | .ok s => (s.unwatch who).watch key threshold who
      | .error s => (s.unwatch who).retry key who)
    else s

/-- What a dispatcher waits for at a queue: that produced covers the packet at its head (R205). -/
def queueWaits (s : State) (q : Nat) : Option (Nat × Nat) :=
  match s.queues.find? q with
  | none => none
  | some x =>
    if !x.enabled || x.busy ≠ .none then none
    else
      let b := s.slotBytes x.entry 0
      let n := if s.pending x.entry ≠ 0 && field b 0 1 = 2 then fenceSlots (field b 1 1) else 1
      some (formKey x.entry.produced, s.counterOf x.entry.consumed + n)
def keepQueues (s : State) : State := s.queues.foldl (fun s e => s.keepWatch (.queue e.1) (2134 + e.1 / 32) (s.queueWaits e.1)) s

/-- FENCE: begun once produced covers its slots; the entries not met are watched (R203, R205). -/
def fence (s : State) (q : Nat) : State :=
  let head := fun (x : Queue) => s.slotBytes x.entry 0
  s.serveQueue q (fun x => field (head x) 0 1 = 2 && fenceSlots (field (head x) 1 1) ≤ s.pending x.entry) fun x s =>
    let n := fenceSlots (field (head x) 1 1)
    match s.readSlots q x.entry n with
    | .error s => s
    | .ok s =>
      let b := ((List.range n).map (s.slotBytes x.entry)).flatten
      if !fenceOk b then s.badPacket q x.entry n
      else match s.agentRead (q / 32) 0 0 ((fenceEntries b).map fun e => unitOf (formKey e.1)) with
      | .error s => s.retry (formKey x.entry.produced) (.queue q)
      | .ok s =>
        let unmet := (fenceEntries b).filter fun e => s.counterOf e.1 < e.2
        let s := { s with queues := s.queues.insert q { x with busy := .fence n unmet } }
        unmet.foldl (fun s e => s.watch (formKey e.1) e.2 (.fence q)) s

/-- FENCE_MET: every threshold has been met (R203). What the entries acquire happens before all that the queue begins then, on whichever die: the
writes to RP pages on their way reach their replicas (R90, R136; log 100). -/
def fenceMet (s : State) (q : Nat) : State :=
  match s.queues.find? q with
  | none => s
  | some x =>
    match x.enabled, x.busy with
    | true, .fence n [] => (State.landAll { s with queues := s.queues.insert q { x with busy := .none } } fun _ => true).consume q x.entry n
    | _, _ => s

/-- SIGNAL: a release of what the queue acquired, after the writes to RP pages have reached their replicas (R90, R137, R204; log 100). -/
def signal (s : State) (q : Nat) : State :=
  let head := fun (x : Queue) => s.slotBytes x.entry 0
  s.serveQueue q (fun x => field (head x) 0 1 = 3) fun x s =>
    let b := head x
    match s.readSlots q x.entry 1 with
    | .error s => s
    | .ok s => if !signalOk b then s.badPacket q x.entry 1
      else ((s.landAll fun _ => true).agentAdd (formKey (field b 8 8)) (field b 0x10 8) (2134 + q / 32) 0 0).consume q x.entry 1

/-! Posts (R206, R385 to R387). -/

/-- The squad a selector names from a posting squad: itself, north, east, south, west (R6, R206). -/
def squadAt (squad sel : Nat) : Option Nat :=
  match sel with
  | 0 => some squad
  | 1 => if squad / 4 = 0 then none else some (squad - 4)
  | 2 => if squad % 4 = 3 then none else some (squad + 1)
  | 3 => if squad / 4 = 3 then none else some (squad + 4)
  | _ => if squad % 4 = 0 then none else some (squad - 1)

/-- The queue a post names (R206, R386). -/
def postQueue (s : State) (p : Post) : Option (Nat × Queue) :=
  let core := coreOf (p.warp % 65536)
  let die := dieOfCore core
  let good := fun q => ((s.queues.find? q).bind fun x => if x.enabled && x.entry.partition = p.partition then some (q, x) else none)
  if p.sel.toNat = 5 then (List.range 16).findSome? fun k => (good (32 * die + 16 + k)).bind fun e => if e.2.entry.postTarget then some e else none
  else (squadAt (core % 128 / 8) p.sel.toNat).bind fun k => good (32 * die + k)

/-- The LAUNCH that a post writes (R206). -/
def postBytes (t : Task) (cardPa : Nat) : List Byte :=
  leBytes 1 1 ++ leBytes 1 t.priority ++ leBytes 2 t.world ++ leBytes 4 t.bound ++ leBytes 8 cardPa ++ leBytes 8 t.counter ++
    leBytes 8 t.record ++ leBytes 32 0

def setPost (s : State) (p : Post) : State := { s with posts := s.posts.map fun x => if x.id = p.id then p else x }

/-- A slot of the warp waits for an operation in the frame of a trap. -/
def framed (w : Warp) (n : Nat) : Bool := (w.frame.map fun f => f.home.hold.waits n || f.away.hold.waits n).getD false

/-- The refusal of a post: the slot that waits takes ILLEGAL at the `post`, once it runs when its warp is in a handler (R386). -/
def refusePost (s : State) (p : Post) : State :=
  match s.warp? p.warp with
  | none => s.dropPost p
  | some w =>
    if !w.waitsNow p.id then (if framed w p.id then s.setPost { p with refused := true } else s.dropPost p)
    else trapEntry ((s.dropPost p).onWarp p.warp fun w => w.setSlot p.side { w.slot p.side with pc := p.pc, hold := .none }) p.warp p.side
      ⟨.illegal, BitVec.ofNat 32 (0x00030000 + p.sel.toNat)⟩

/-- What a dispatcher waits for at a post that has its index: room, then its turn (R134, R386). -/
def postWaits (s : State) (p : Post) : Option (Nat × Nat) :=
  match (if p.published then none else p.place.bind fun a => (s.queues.find? a.1).map fun x => (x.entry, a.2)) with
  | none => none
  | some (e, i) =>
    if e.slots ≤ i && s.counterOf e.consumed < i - e.slots + 1 then some (formKey e.consumed, i - e.slots + 1)
    else if s.counterOf e.produced < i then some (formKey e.produced, i) else none
def keepPosts (s : State) : State := s.posts.foldl (fun s p => s.keepWatch (.post p.id) (2134 + dieOfCore (coreOf (p.warp % 65536))) (s.postWaits p)) s

/-- A reserved post is written and published once its room and its turn have come, its dispatcher not being between two polls (R122, R134,
R386). -/
def publish (s : State) (p : Post) (q i : Nat) : State :=
  match s.queues.find? q, s.tasks.find? p.task with
  | some x, some t =>
    let e := x.entry
    if (s.polls.any fun y => y.who = .post p.id) || (s.postWaits { p with place := some (q, i) }).isSome then s
    else match s.agentRead (q / 32) t.world t.id (queueUnits e) with
    | .error s => s.retry (formKey e.produced) (.post p.id)
    | .ok s =>
      let s := (s.agentWrite (e.base + 64 * (i % e.slots)) (postBytes t p.cardPa) 0 (2134 + q / 32) t.world t.id).agentAdd (formKey e.produced) 1 (2134 + q / 32)
        t.world t.id
      (s.setPost { p with published := true }).onWarp p.warp fun w => w.mapSlots (Slot.release p.id)
  | _, _ => s

/-- An earlier post of the same warp to the same queue has still to take its index (R387). -/
def postBefore (s : State) (p : Post) (q : Nat) : Bool :=
  s.posts.any fun x => x.id < p.id && x.warp = p.warp && x.place = none && !x.refused && (s.postQueue x).map (·.1) = some q

/-- POST_PUBLISH of a post that has reached its dispatcher. -/
def postPublish (s : State) (n : Nat) : State :=
  match s.posts.find? fun p => p.id = n && p.arrived && !p.published with
  | none => s
  | some p =>
    match p.place with
    | some (q, i) => s.publish p q i
    | none =>
      match (if p.refused then none else s.postQueue p) with
      | none => s.refusePost p
      | some (q, x) =>
        if s.postBefore p q || (s.polls.any fun y => y.who = .post p.id) then s
        else match s.agentRead (q / 32) 0 (s.taskId p.task) [unitOf (formKey x.entry.reserved)] with
        | .error s => s.retry (formKey x.entry.reserved) (.post p.id)
        | .ok s =>
          let i := s.counterOf x.entry.reserved
          let p' := { p with place := some (q, i) }
          ((s.agentAdd (formKey x.entry.reserved) 1 (2134 + q / 32) 0 (s.taskId p.task)).setPost p').publish p' q i

/-! The end of a task (R211, R212, R383). -/

/-- Operations that a task's end waits for: effects on memory, and the sectors of copies. -/
def OpKind.effective : OpKind → Bool
  | .copyRead _ | .copyWrite | .svc _ _ | .card _ | .desc _ _ _ _ | .linear _ _ _ _ _ | .gather _ _ _ _ => true
  | k => k.inStoreQueue

/-- Everything of a task has ended, and no write that its warps may have acquired is on its way to a replica (R90, R96, R136). -/
def taskDone (s : State) (key : Nat) (t : Task) : Bool :=
  (t.cancelled || (t.again = [] && t.next.all fun n => t.card.grid ≤ n)) && t.live = 0 && t.children = 0 && t.calls = 0 &&
    !(s.ops.any fun e => e.2.task = key && OpKind.effective e.2.kind && !e.2.done) &&
    !s.propagating.any fun p => p.task = key || (s.ownCheck t.world t.partition (keyAp p.line) (keyPa p.line / 2 ^ 15)).isNone

def completionRecord (t : Task) : List Byte :=
  leBytes 4 t.id ++ leBytes 1 t.status.code ++ leBytes 1 t.status.trapCode ++ leBytes 2 t.failStage ++ leBytes 8 t.ended ++
    leBytes 8 t.failLinear ++ leBytes 4 t.missed ++ leBytes 4 0

/-- TASK_END: the record, then the counter; a posted task writes neither, and its poster goes on. -/
def endTask (s : State) (key : Nat) : State :=
  match s.tasks.find? key with
  | none => s
  | some t =>
    if !s.taskDone key t then s
    else
      let s := { s with tasks := s.tasks.erase key }
      match t.parent with
      | some p => { s with tasks := s.tasks.adjust p fun u => { u with children := u.children - 1 } }
      | none =>
        let s := if t.record = 0 then s else s.agentWrite (formKey t.record) (completionRecord t) 0 (2134 + t.queue / 32) t.world t.id
        if t.counter = 0 then s else (s.landAll fun _ => true).agentAdd (formKey t.counter) 1 (2134 + t.queue / 32) t.world t.id

end State

/-- LAUNCH (R202). -/
def execLaunch (q : Nat) (s : State) : Out := .next (s.launch q)
/-- FENCE (R203). -/
def execFence (q : Nat) (s : State) : Out := .next (s.fence q)
/-- FENCE_MET (R203). -/
def execFenceMet (q : Nat) (s : State) : Out := .next (s.fenceMet q)
/-- SIGNAL (R204). -/
def execSignal (q : Nat) (s : State) : Out := .next (s.signal q)
/-- POST_PUBLISH (R386). -/
def execPostPublish (post : Nat) (s : State) : Out := .next (s.postPublish post)
/-- TASK_END (R211). -/
def execTaskEnd (task : Nat) (s : State) : Out := .next (s.endTask task)

end Sys2Proof.Machine
end

