-- ==== Sys2Proof/Machine/Joins.lean ====
section
/-!
DEFINITION. Slots that empty, refill, wait at their joins and meet again; the end of a warp (spec/11 R286 to R289; spec/07 R192,
R193; spec/14 R361).
-/

namespace Sys2Proof.Machine

/-- How a slot stands, for join resolution. -/
inductive Standing where
  | runs
  | waits (j : DWord)
  | empty
  | refills
  /-- Held by a `cwait`, a `nap` or a collective wait (row 4 of R287). -/
  | held
  deriving DecidableEq, Repr

def Standing.code : Standing → Nat
  | .runs => 0 | .waits _ => 1 | .empty => 2 | .refills => 3 | .held => 4

/-- A path that has reached its join goes on there with none (row 3 of R287). -/
def Slot.freed (x : Slot) : Slot := { x with join := none }

namespace State

/-- A slot stands at a matrix instruction that waits for its sibling (R361). -/
def collective (s : State) (k : Nat) (w : Warp) (sd : Side) : Bool :=
  let x := w.slot sd
  x.live && x.hold = .none && !x.waiting && w.entered && s.meeting k w sd = .wait &&
    (match s.peek k sd (((s.wg? w.wg).map (·.world)).getD 0) x.pc with
      | some i => isMatrix i
      | none => false)

def standing (s : State) (k : Nat) (w : Warp) (sd : Side) : Standing :=
  let x := w.slot sd
  match x.hold with
  | .refill _ => .refills
  | .cwait _ | .nap _ => .held
  | _ => if !x.live then .empty else if x.waiting then .waits x.pc else if s.collective k w sd then .held else .runs

/-- The warp issues an array operation whose result is outstanding: an `mdrn` (R370). -/
def draining (s : State) (k : Nat) (f : ArrEntry → Bool) : Bool :=
  (s.arrays.get [] (coreOf k)).any fun e => e.key = k && f e && (match e.op with
    | .drn _ _ _ _ _ => true
    | _ => false)

/-- An `exit` ends its slot when the warp has nothing parked or held, and the slot nothing outstanding (R289). -/
def exitReady (s : State) (k : Nat) (sd : Side) : Bool :=
  ((s.warp? k).map Warp.token).getD 0 = 0 &&
    !((s.stream k).any fun e => e.2.held || e.2.hasParked || (e.2.owner = .warp k sd && e.2.opened)) &&
    !s.draining k fun e => e.merged || e.side = sd

/-- A warp ends when its slots and its stack are empty and no result is outstanding (R192). -/
def warpOver (s : State) (k : Nat) (w : Warp) : Bool :=
  s.standing k w .home = .empty && s.standing k w .away = .empty && w.depth = w.baseDepth && w.token = 0 &&
    !((s.stream k).any fun e => e.2.opened || e.2.held || e.2.hasParked) && !s.draining k fun _ => true

/-- A warp leaves its quadrant. -/
def leaveQuad (s : State) (k : Nat) : State :=
  { s with quads := s.quads.adjust (k / 16) fun q =>
      { q with
        field := q.field.filter fun f => f.slot ≠ k % 64
        bench := q.bench.filter (· ≠ k % 64)
        ready := q.ready.filter fun e => e.1 / 2 ≠ k % 64
        swaps := q.swaps.filter fun e => e.1 ≠ k % 64 } }

def endWarp (s : State) (k : Nat) : State :=
  { s with warps := s.warps.erase k, fetched := s.fetched.filter fun e => e.1 / 2 ^ 65 ≠ k }.leaveQuad k

/-- A slot refills from the top of the stack (R193, R288). -/
def refill (s : State) (k : Nat) (w : Warp) (sd : Side) : State :=
  let n := s.nextOp
  match s.spillTrap w (w.depth - 1) with
  | some t => trapEntry s k sd t
  | none => (s.spillOp k sd w .refill (w.depth - 1) []).onWarp k fun w =>
    { w.setSlot sd { Slot.empty with hold := .refill n } with depth := w.depth - 1, top := none, topReq := none }

/-- Read the entry at the top of the stack (R288). -/
def readTop (s : State) (k : Nat) (w : Warp) (sd : Side) : State :=
  let n := s.nextOp
  match s.spillTrap w (w.depth - 1) with
  | some t => trapEntry s k sd t
  | none => (s.spillOp k sd w .top (w.depth - 1) []).onWarp k fun w => { w with topReq := some n }

def setSlotOf (s : State) (k : Nat) (sd : Side) (x : Slot) : State := s.onWarp k fun w => w.setSlot sd x

/-- Both slots merge at their join (row 1 of R287). -/
def merge (s : State) (k : Nat) (w : Warp) : State :=
  s.setWarp k { w with home := { w.home with mask := w.home.mask ||| w.away.mask, join := none }, away := Slot.empty }

/-- A slot takes in the waiting entry at the top (row 2). -/
def absorb (s : State) (k : Nat) (w : Warp) (sd : Side) (e : SpillEntry) : State :=
  s.setWarp k { w.setSlot sd { (w.slot sd).freed with mask := (w.slot sd).mask ||| e.mask } with depth := w.depth - 1, top := none }

/-- The away path and the entry at the top change places (row 5). -/
def exchange (s : State) (k : Nat) (w : Warp) (e : SpillEntry) : State :=
  (s.spillOp k .away w .push (w.depth - 1) (spillEntry w.away true).toBytes).onWarp k fun w =>
    { w.setSlot .away e.slot with top := none }

/-- The rows of R287 for a warp one of whose slots waits: none when it keeps waiting. The top entry is read when a row asks for it. -/
def resolveJoin (s : State) (k : Nat) (w : Warp) : Option State :=
  let h := s.standing k w .home
  let a := s.standing k w .away
  let deep := w.baseDepth < w.depth
  let absorbs := fun (j : DWord) (e : SpillEntry) => e.waiting && e.pc - 1 = j
  match h, a with
  | .waits j, .waits j' =>
    if j = j' then some (s.merge k w)
    else if deep then
      match w.top with
      | none => if w.topReq.isSome then none else some (s.readTop k w .home)
      | some e =>
        if absorbs j e then some (s.absorb k w .home e)
        else if absorbs j' e then some (s.absorb k w .away e)
        else if e.waiting then some (s.setWarp k { w with home := w.home.freed, away := w.away.freed })
        else some (s.exchange k w e)
    else some (s.setWarp k { w with home := w.home.freed, away := w.away.freed })
  | .waits j, y => one s k w .home j y deep absorbs
  | x, .waits j => one s k w .away j x deep absorbs
  | _, _ => none
where
  /-- One slot waits: rows 2 to 4 and 7. -/
  one (s : State) (k : Nat) (w : Warp) (sd : Side) (j : DWord) (other : Standing) (deep : Bool) (absorbs : DWord → SpillEntry → Bool) :
      Option State :=
    let release := if other = .empty || other = .held then some (s.setSlotOf k sd (w.slot sd).freed) else none
    if !deep then release
    else match w.top with
      | none => if w.topReq.isSome then none else some (s.readTop k w sd)
      | some e => if absorbs j e then some (s.absorb k w sd e) else release

/-- The situation of a warp, as join resolution is applied to it. -/
def situation (s : State) (k : Nat) (w : Warp) : Nat := 1 + (s.standing k w .home).code + 5 * (s.standing k w .away).code

/-- One move of a warp between instructions: an `exit` that may end, a refill, a row of R287, the end of the warp; none when nothing
moves. The top entry counts as read only for the situation it was read in. -/
def settleOne (s : State) (k : Nat) (w : Warp) : Option State :=
  let empties := fun sd => (w.slot sd).hold = .exit && s.exitReady k sd
  let refills := fun sd => s.standing k w sd = .empty && w.baseDepth < w.depth
  if empties .home then some (s.setSlotOf k .home Slot.empty)
  else if empties .away then some (s.setSlotOf k .away Slot.empty)
  else if refills .home then some (s.refill k w .home)
  else if refills .away then some (s.refill k w .away)
  else if w.resolved ≠ s.situation k w then
    some (s.setWarp k { w with resolved := s.situation k w, top := none, topReq := none })
  else match s.resolveJoin k w with
    | some s => some s
    | none => if s.warpOver k w then some (s.endWarp k) else none

/-- Moves of a warp until none is left. -/
def settle (s : State) (k : Nat) : Nat → State
  | 0 => s
  | n + 1 =>
    match s.warp? k with
    | none => s
    | some w =>
      match s.settleOne k w with
      | some s => settle s k n
      | none => s

/-- The warps whose workgroup runs. -/
def settleAll (s : State) : State :=
  (s.warps.map (·.1)).foldl (fun s k =>
    match s.warp? k with
    | some w => (match s.wg? w.wg with
      | some g => if g.phase = .running then s.settle k 16 else s
      | none => s)
    | none => s) s

end State
end Sys2Proof.Machine
end

