-- ==== Sys2Proof/Machine/Ready.lean ====
section
/-!
DEFINITION. When a slot is ready to issue: the scoreboard, lookahead, the queues and waits of spec/07 R216, R217; spec/05 R142;
spec/13 R331; spec/14 R358 to R361; spec/11 R296 to R302.
-/

namespace Sys2Proof.Machine

def Run.meets (x y : Run) : Bool := x.v = y.v && x.first < y.first + y.count && y.first < x.first + x.count

def useV (r : Reg) (n : Nat) : Run := ⟨true, r.toNat, n⟩
def useS (r : Reg) (n : Nat) : Run := ⟨false, r.toNat, n⟩
def useB (b : SrcB) (n : Nat) : Run :=
  match b with
  | .v r => useV r n
  | .s r => useS r n
/-- The registers of an address (R327). -/
def useAddr (scratch : Bool) : AddrOp → Run
  | .lane r => useV r (if scratch then 1 else 2)
  | .uni r => useS r (if scratch then 1 else 2)

/-- Registers a type takes. -/
def widthOf (t : Option Ty) : Nat := if (t.map Ty.pair).getD false then 2 else 1

/-- The V and S registers an instruction names, read or written (R216). -/
def Instr.uses (w : Warp) (i : Instr) : List Run :=
  let n := widthOf (Ty.ofCode (modeT w.mode))
  let m := widthOf (Ty.ofCode (modeCT w.mode))
  match i with
  | .brz r _ | .brnz r _ => [useS r 1]
  | .call _ => [⟨false, 126, 2⟩]
  | .jmpr a => [useS a 2]
  | .svc d _ => [useS d 4]
  | .nap a => [useS a 1]
  | .post t a _ => [useS t 2, useS a 1]
  | .sadd d a b | .ssub d a b | .smul d a b | .smulhi d a b | .smulhn d a b | .sand d a b | .sor d a b | .sxor d a b | .sshl d a b
  | .sshr d a b | .ssra d a b | .smin d a b | .smax d a b | .sslt d a b | .ssltn d a b | .sseq d a b => [useS d 1, useS a 1, useS b 1]
  | .sadd64 d a b | .ssub64 d a b => [useS d 2, useS a 2, useS b 2]
  | .saddi d a _ | .smov d a => [useS d 1, useS a 1]
  | .smovi d _ | .smovhi d _ | .mfs d _ | .mfmode d | .vvote _ _ d _ | .pmovsS d _ => [useS d 1]
  | .srdl d a _ => [useS d 1, useV a 1]
  | .mts a _ | .modes a | .modesAll a | .pmovsP _ a => [useS a 1]
  | .mfv d _ | .vmovhi d _ => [useV d 1]
  | .vadd d a b | .vsub d a b | .vmul d a b | .vmulhi d a b | .vfma d a b | .vfnma d a b | .vmin d a b | .vmax d a b | .vdiv d a b
  | .vrem d a b | .vand d a b | .vor d a b | .vxor d a b | .vshl d a b | .vshr d a b | .vsra d a b | .vsel d a b | .vbfe d a b
  | .vbfi d a b => [useV d n, useV a n, useB b n]
  | .vmulw d a b => [useV d (if (Ty.ofCode (modeT w.mode)).map Ty.bits = some 32 then 2 else 1), useV a 1, useB b 1]
  | .vcmp _ _ _ a b => [useV a n, useB b n]
  | .vmov d a => [useV d n, useB a n]
  | .vmovi d _ => [useV d n]
  | .vaddi d a _ | .vabs d a | .vneg d a | .vnot d a | .vpopc d a | .vclz d a | .vctz d a | .vbrev d a | .vrcp d a | .vrsq d a
  | .vsqrt d a | .vexp2 d a | .vlog2 d a | .vsin d a | .vcos d a | .vtanh d a | .vrnd d a | .vfrc d a | .vred _ d a
  | .vscan _ d a => [useV d n, useV a n]
  | .vclass d a => [useV d 1, useV a n]
  | .vcvt d a => [useV d m, useV a n]
  | .vshflIdx d a b | .vshflXor d a b | .vshflUp d a b | .vshflDn d a b => [useV d n, useV a n, useB b 1]
  | .vmodmul d a b | .vmodadd d a b | .vmodsub d a b | .vbfly d a b => [useV d 2, useV a 2, useB b 2]
  | .vqnt _ d a | .vdeq _ d a => [useV d 1, useV a 1]
  | .pset (.nz a) _ => [useV a 1]
  | .ld x _ t a _ | .st x t a _ => [useV t ((x.bytes + 3) / 4), useAddr false a]
  | .lds x _ t a _ | .sts x t a _ => [useV t ((x.bytes + 3) / 4), useAddr true a]
  | .ldu x _ t a _ => [useS t ((x.bytes + 3) / 4), useS a 2]
  | .atom op t a _ | .red op t a _ => [useV t op.regs, useAddr false a]
  | .atoms op t a _ => [useV t op.regs, useAddr true a]
  | .pref _ a _ | .cmntWbi a _ => [useAddr false a]
  | .cadd _ t a | .cwait _ t a | .cread _ t a | .cinit _ t a | .craise _ t a => [useV t 2, useAddr false a]
  | .ctest _ t a => [useV t 4, useAddr false a]
  | .copy _ _ _ t a _ => [useS t 2, useS a 8]
  | .copyl _ _ a _ => [useS a 5]
  | .gath _ _ t a _ => [useV t 2, useS a 1]
  | .mldw t a _ => [useV t 1, useS a 1]
  | .mstr _ t a _ =>
    let f := ((lanes (w.home.mask ||| w.away.mask)).head?.map fun l => (w.vreg a.toNat l).toNat).getD 0
    [useV t (groupRegs (afOf f)), useV a 1]
  | .mdrn _ _ t _ => [useV t (((Ty.ofCode (modeCT w.mode)).map drainRegs).getD 1)]
  | .mlda _ _ t _ => [useV t 32]
  | _ => []

/-- Instructions that are requests of the warp's stream (R106, R142, R373). -/
def Instr.isRequest : Instr → Bool
  | .svc _ _ | .post _ _ _ | .ld _ _ _ _ _ | .st _ _ _ _ | .lds _ _ _ _ _ | .sts _ _ _ _ | .ldu _ _ _ _ _ | .atom _ _ _ _ | .atoms _ _ _ _
  | .red _ _ _ _ | .pref _ _ _ | .cmntInv _ | .cmntWbi _ _ | .cadd _ _ _ | .cwait _ _ _ | .cread _ _ _ | .ctest _ _ _ | .cinit _ _ _
  | .craise _ _ _ | .copy _ _ _ _ _ _ | .copyl _ _ _ _ | .gath _ _ _ _ _ | .mldw _ _ _ => true
  | _ => false

/-- Instructions that enter the store queue (R78). -/
def Instr.isStore : Instr → Bool
  | .st _ _ _ _ | .sts _ _ _ _ | .atom _ _ _ _ | .atoms _ _ _ _ | .red _ _ _ _ | .cmntWbi _ _ | .cadd _ _ _ | .cinit _ _ _
  | .craise _ _ _ => true
  | _ => false

/-- The SC bit of a counter instruction (R98). -/
def Instr.isSc : Instr → Bool
  | .cadd f _ _ | .cwait f _ _ | .cread f _ _ | .ctest f _ _ | .cinit f _ _ | .craise f _ _ => f.sc
  | _ => false

/-- Instructions that wait until every earlier one has ORed its flags (R299 to R302). -/
def Instr.waitsFlags : Instr → Bool
  | .mode clear _ => clear ≠ 0
  | .modesAll _ | .mfmode _ => true
  | .clrflg _ => true
  | _ => false

/-- The substitutions of a quadrant that are under way (R218). -/
def Quad.under (q : Quad) (clk : Nat) : List (Nat × Nat) := q.swaps.filter fun e => clk < e.2

namespace State

/-- The instruction of a word: one that is no instruction is ILLEGAL_INSTRUCTION (R265). -/
def instrOf (w : Word) : Instr :=
  match decodeWord w with
  | .ok i => i
  | .error _ => .illegalInstruction w

/-- Registers of a warp whose results are outstanding. -/
def outstanding (s : State) (k : Nat) : List Run :=
  ((s.stream k).map fun e => if e.2.idle then [] else e.2.kind.dest).flatten ++ (s.arrays.get [] (coreOf k)).filterMap fun e =>
    match e.op with
    | .drn _ _ t _ mode => if e.key = k then some (drainRun t mode) else none
    | _ => none

/-- The lookahead of every outstanding result allows another instruction (R217). -/
def lookaheadOk (s : State) (k : Nat) : Bool :=
  !((s.stream k).any fun e => e.2.opened && e.2.la = 0) && !((s.arrays.get [] (coreOf k)).any fun e =>
    e.key = k && e.la = 0 && (match e.op with
      | .drn _ _ _ _ _ => true
      | _ => false)) && !s.posts.any fun p => p.warp = k && !p.published && p.la = 0

/-- A `brv` that would push onto the spill stack is a store of the warp (R193). -/
def pushes (w : Warp) (sd : Side) : Instr → Bool
  | .brv neg p _ =>
    let x := w.slot sd
    let t := brvTaken w neg p x.mask
    t ≠ 0 && t ≠ x.mask && ((w.slot sd.other).live || (w.slot sd.other).hold ≠ .none)
  | _ => false

/-- An instruction may issue in a slot (R216); while a `cwait` of the warp waits, its sibling slot issues no request (R346). -/
def instrReady (s : State) (k : Nat) (sd : Side) (w : Warp) (i : Instr) : Bool :=
  let st := s.stream k
  let out := s.outstanding k
  let request := Instr.isRequest i || pushes w sd i
  let behind := w.token ≠ 0 || st.any fun e => e.2.held || e.2.hasParked
  !((Instr.uses w i).any fun u => out.any u.meets) && s.lookaheadOk k &&
    !(request && behind && 8 ≤ (st.filter fun e => e.2.held).length) &&
    !(request && !behind && st.any fun e => e.2.kind.isWait && !e.2.idle) &&
    !((Instr.isStore i || pushes w sd i) && !behind && 16 ≤ (st.filter fun e => e.2.kind.inStoreQueue && !e.2.held).length) &&
    !(Instr.isSc i && st.any fun e => (match e.2.kind with
      | .counter _ _ seq _ _ => seq
      | _ => false)) &&
    !(Instr.waitsFlags i && s.draining k fun _ => true) &&
    !((match i with
      | .mfs _ n => n = 0x11
      | _ => false) && st.any fun e => e.2.kind.isCounter) &&
    !(isMatrix i && (s.meeting k w sd = .wait || 8 ≤ (s.arrays.get [] (coreOf k)).length))

/-- The read of a stage table is still to be made (R195). -/
def needsStage (w : Warp) (c : Card) : Bool := 1 < c.stages && !w.entered

/-- A slot is ready: it may fetch, take a trap of its fetch, or issue (R216). -/
def slotReady (s : State) (k : Nat) (sd : Side) : Bool :=
  match s.warp? k with
  | none => false
  | some w =>
    match s.wg? w.wg with
    | none => false
    | some g =>
      let x := w.slot sd
      g.phase = .running && x.live && x.hold = .none && !x.waiting &&
        (needsStage w g.card || x.pc.toNat % 4 ≠ 0 || inWindow x.pc ||
          (match s.fetchWord k sd g.world x.pc with
            | none => true
            | some (_, v) => s.instrReady k sd w (instrOf v)))

def warpReady (s : State) (k : Nat) : Bool := s.slotReady k .home || s.slotReady k .away

/-! Quadrants (R216, R218). -/

/-- The quadrant of a warp slot, 4 × core + slot div 16 (R6), and the key of the warp in a slot of its core. -/
def quadOf (k : Nat) : Nat := k / 16
def quad (s : State) (q : Nat) : Quad := s.quads.get Quad.empty q
def onQuad (s : State) (q : Nat) (f : Quad → Quad) : State := { s with quads := s.quads.put Quad.empty q (f (s.quad q)) }
def keyIn (q slot : Nat) : Nat := 64 * (q / 4) + slot

def sideNo : Side → Nat
  | .home => 0 | .away => 1

/-- Since when a warp has been ready, the earlier of its slots. -/
def readySince (q : Quad) (slot : Nat) : Option Nat :=
  match q.ready.find? (2 * slot), q.ready.find? (2 * slot + 1) with
  | some a, some b => some (Nat.min a b)
  | a, b => a.or b

/-- The ready bench warp that has been ready longest (R218). -/
def benchReady (s : State) (q : Nat) : Option Nat :=
  let x := s.quad q
  oldest (fun slot => (readySince x slot).getD s.clk) (x.bench.filter fun slot => s.warpReady (keyIn q slot))

/-- A warp leaves the field for the bench and another takes its place; the change takes 2 cycles (R218). -/
def swap (s : State) (q out into : Nat) : State :=
  s.onQuad q fun x => { x with
    field := (x.field.filter fun f => f.slot ≠ out) ++ [⟨into, s.clk, x.issued.get 0 into⟩]
    bench := (x.bench.filter (· ≠ into)) ++ [out]
    swaps := x.under s.clk ++ [(out, s.clk + 2), (into, s.clk + 2)] }

/-- A warp all of whose live slots wait, on anything but a fetch that is on its way (R218). -/
def blocked (s : State) (k : Nat) : Bool :=
  match s.warp? k with
  | none => false
  | some w => !s.warpReady k && [w.home, w.away].all fun x => match x.hold with
      | .fetch n => (match s.ops.find? n with
        | some o => o.reqs.any Req.isParked
        | none => false)
      | _ => true

end State

/-- SUBSTITUTION: a blocked field warp gives its place to the bench warp ready longest, or such a warp enters a free place (R218). Of several that
are blocked the first of the field's list leaves, and one substitution is under way at a time (log 102). -/
def execSubstitution (q : Nat) (s : State) : Out :=
  let x := s.quad q
  match s.benchReady q with
  | none => .next s
  | some b =>
    let count := fun (s : State) => s.bump (Reg.dispatcher (q / 512) 0x40) 1
    if x.under s.clk ≠ [] then .next s
    else if x.field.length < 8 then
      .next (s.onQuad q fun x => { x with
        field := x.field ++ [⟨b, s.clk, x.issued.get 0 b⟩]
        bench := x.bench.filter (· ≠ b)
        swaps := x.under s.clk ++ [(b, s.clk + 2)] })
    else match x.field.find? fun f => s.blocked (State.keyIn q f.slot) with
      | some f => .next (count (s.swap q f.slot b))
      | none => .next s

/-- FORCED_ENTRY: a bench warp ready for 64 cycles replaces the field warp that has issued least recently among those that entered
at least 32 cycles before (R218). It counts in DFORCE alone (R220; log 102). -/
def execForcedEntry (q : Nat) (s : State) : Out :=
  let x := s.quad q
  match s.benchReady q with
  | none => .next s
  | some b =>
    if x.under s.clk ≠ [] || s.clk < (State.readySince x b).getD s.clk + 64 then .next s
    else match oldest FieldPlace.issued (x.field.filter fun f => f.entered + 32 ≤ s.clk) with
      | some f => .next ((s.swap q f.slot b).bump (Reg.dispatcher (q / 512) 0x48) 1)
      | none => .next s

/-- `yield` (R389): the substitution is made at once when the bench holds a ready warp, beside one that is under way. -/
def execYield (s : State) : Out :=
  match s.warp? s.curKey with
  | none => .next s
  | some w =>
    let s' := s.setWarp s.curKey (w.advance s.curSide)
    let q := State.quadOf s.curKey
    match s'.benchReady q with
    | some b => .next ((s'.swap q (s.curKey % 64) b).bump (Reg.dispatcher (q / 512) 0x40) 1)
    | none => .next s'

end Sys2Proof.Machine
end

