-- ==== Sys2Proof/Machine/Place.lean ====
section
/-!
DEFINITION. Placement of workgroups on cores, their dispatch and their end (spec/07 R194 to R196, R207 to R211; spec/16 R392, R410).
-/

namespace Sys2Proof.Machine

namespace State

/-- The workgroups resident on a core. -/
def residents (s : State) (core : Nat) : List (Nat × Workgroup) := s.wgs.filter fun e => e.2.core = core

/-- Warps of a shape in a quadrant (R194). -/
def warpsIn (n q : Nat) : Nat := (n + 3 - q) / 4

/-- A workgroup of a shape fits beside some residents (R196); a warp that has ended holds its slot but no registers (R192), unless
its workgroup drains, whose room stays free until it ends (R214). -/
def fits (ended : Workgroup → Nat → Bool) (rs : List Workgroup) (c : Card) : Bool :=
  let sum := fun (f : Workgroup → Nat) => rs.foldl (fun n g => n + f g) 0
  let inQ := fun (q : Nat) (g : Workgroup) => (g.slots.filter fun k => k / 16 = q).length
  let live := fun (q : Nat) (g : Workgroup) => (g.slots.filter fun k => k / 16 = q && (g.drain.isSome || !ended g k)).length
  ((List.range 4).all fun q => sum (inQ q) + warpsIn c.warps q ≤ 16 &&
      sum (fun g => live q g * g.card.regs) + warpsIn c.warps q * c.regs ≤ 2048) &&
    sum (fun g => g.card.scrSize) + c.scrSize ≤ 262144 && sum (fun g => g.card.tiles) + c.tiles ≤ 32 &&
    !(c.usesArray && rs.any fun g => g.card.usesArray) && sum (fun g => g.card.timelines) + c.timelines ≤ 16

/-- A core takes work of a partition (R2, R215, R438). -/
def coreOpen (s : State) (core part : Nat) : Bool :=
  core < 1024 && !s.disabled.contains core && !s.retiring.contains core && s.corePart core = some part

/-- There is room on a core once the workgroups of a list are gone. -/
def roomBut (s : State) (gone : List Nat) (core part : Nat) (c : Card) : Bool :=
  s.coreOpen core part && fits (fun _ k => (s.warp? (64 * core + k)).isNone) (((s.residents core).filter fun e => !gone.contains e.1).map (·.2)) c

/-- The placement domain of a queue (R200). -/
def domain (s : State) (q : Nat) : List Nat :=
  let die := q / 32
  let k := q % 32
  if k < 16 then (List.range 8).map fun i => 128 * die + 8 * k + i
  else if ((s.queues.find? q).map fun x => x.entry.everyDie).getD false then List.range 1024
  else (List.range 128).map fun i => 128 * die + i

/-- The cores of a domain in the squad of a workgroup of a co-located task, all of them when it has none (R208). -/
def inSquad (t : Task) (d : List Nat) (stage linear : Nat) : List Nat :=
  match (if t.card.colocate then t.squads.find? (16 * linear + stage) else none) with
  | some sq => d.filter fun c => squadOfCore c = sq
  | none => d

/-- The cores on which a workgroup of a task may stand at first dispatch, and where a saved one is restored by preference (R208). -/
def domainOf (s : State) (t : Task) (stage linear : Nat) : List Nat :=
  if stage = 0 then s.domain t.queue else inSquad t (s.domain t.queue) (stage - 1) linear
def restoreDomain (s : State) (t : Task) (stage linear : Nat) : List Nat := inSquad t (s.domain t.queue) stage linear

/-- Cores of workgroups that a task of higher priority has asked to go: their room is kept for it (R450; log 25). -/
def promised (s : State) (priority : Nat) : List Nat :=
  (s.tasks.map fun e => if priority < e.2.priority then e.2.named.filterMap fun g => (s.wg? g).map (·.core) else []).flatten

/-- The lowest core with room (log 16). -/
def pickCore (s : State) (t : Task) (cores : List Nat) : Option Nat :=
  cores.find? fun c => s.roomBut [] c t.partition t.card && !(s.promised t.priority).contains c

/-- The workgroups of a task that may be dispatched next: flushed ones, else the next of each stage under R207; none while a saved one
waits (R209). -/
def nextOf (s : State) (key : Nat) (t : Task) : List WgName :=
  if t.cancelled then []
  else if t.again ≠ [] then t.again.take 1
  else if s.saved.any fun e => e.2.task = key && !e.2.refused then []
  else (List.range t.card.stages).filterMap fun st =>
    let n := t.next.getD st 0
    if n < t.card.grid && (st = 0 || n < t.next.getD (st - 1) 0) then some (st, n) else none

/-- A workgroup that can be dispatched now, with its core. -/
def placeable (s : State) (key : Nat) (t : Task) : Option (WgName × Nat) :=
  (s.nextOf key t).findSome? fun n => (s.pickCore t (s.domainOf t n.1 n.2)).map fun c => (n, c)

/-- A task of higher priority has a workgroup that can be dispatched now (R205). -/
def outranked (s : State) (priority : Nat) : Bool := s.tasks.any fun e => priority < e.2.priority && (s.placeable e.1 e.2).isSome

/-- Free slots of a core for the warps of a shape, in warp order: warp w in quadrant w mod 4 (R6, R194). -/
def freeSlots (s : State) (core n : Nat) : List Nat :=
  let used := ((s.residents core).map fun e => e.2.slots).flatten
  (List.range n).foldl (fun acc w =>
    match ((List.range 16).map fun i => w % 4 * 16 + i).find? fun k => !used.contains k && !acc.contains k with
    | some k => acc ++ [k]
    | none => acc) []

/-- A warp enters the field of its quadrant, or the bench (R216). -/
def enterQuad (s : State) (k : Nat) : State :=
  s.onQuad (quadOf k) fun q =>
    let q := { q with issued := q.issued.erase (k % 64) }
    if q.field.length < 8 then { q with field := q.field ++ [⟨k % 64, s.clk, 0⟩] } else { q with bench := q.bench ++ [k % 64] }

/-- A workgroup comes to a core with its warps: an acquire, so that the core's L1 is emptied (R136, R206, R399). -/
def install (s : State) (g : Nat) (x : Workgroup) (ws : List Warp) : State :=
  let s := { s.setWg g x with nextOrder := s.nextOrder + 1 }.emptyL1 x.core
  (x.slots.zip ws).foldl (fun s e => ({ s with warps := s.warps.insert (64 * x.core + e.1) e.2 }).enterQuad (64 * x.core + e.1)) s

/-- A workgroup of a task starts on a core (R50, R192, R356). -/
def dispatch (s : State) (key : Nat) (t : Task) (n : WgName) (core : Nat) : State :=
  let g := s.nextOrder
  let x : Workgroup :=
    { task := key, world := t.world, partition := t.partition, card := t.card, stage := n.1, linear := n.2, core
      slots := s.freeSlots core t.card.warps, scr := [], absent := [], tiles := [], planeA := Plane.zero, planeB := Plane.zero
      activeB := false, copyNum := [], frozenTl := [], lines := [], since := s.clk, order := s.nextOrder, phase := .running, status := .ok
      drain := none, preempt := none }
  let first := !t.again.contains n
  let t := { t with
    next := if first then t.next.set n.1 (n.2 + 1) else t.next
    again := t.again.erase n
    live := if first then t.live + 1 else t.live
    squads := t.squads.insert (16 * n.2 + n.1) (squadOfCore core) }
  { s with tasks := s.tasks.insert key t }.install g x ((List.range t.card.warps).map fun w => Warp.start g w t.card.entry false)

/-- WORKGROUP_DISPATCH: the next workgroup of a task takes a core with room, unless a task of higher priority has one that would
(R205, R207, R208). -/
def dispatchNext (s : State) (key : Nat) : State :=
  match s.tasks.find? key with
  | none => s
  | some t =>
    match s.placeable key t with
    | none => s
    | some (n, core) =>
      if s.outranked t.priority then s else s.dispatch key t n core

/-! The end of a workgroup (R211). -/

/-- Requests, copies and matrix instructions that a workgroup's end waits for (R211, R419). -/
def wgBusy (s : State) (g : Nat) (x : Workgroup) : Bool :=
  ((s.arrays.get [] x.core).any fun e => e.wg = g) ||
    (s.ops.any fun e => e.2.wg = g && OpKind.effective e.2.kind && !e.2.done) || s.copies.any fun e => e.2.wg = g

/-- A unit of a core's arrays that a workgroup holds (R68). -/
def ofGroup (g : Nat) (x : Workgroup) (u : Nat) : Bool :=
  (u < 2 ^ 120 && u / 2 ^ 68 = g + 1) || (tileUnit g 0 0 ≤ u && u < tileUnit (g + 1) 0 0) ||
    x.slots.any fun k => vUnit (64 * x.core + k) 0 0 ≤ u && u < vUnit (64 * x.core + k + 1) 0 0

/-- A workgroup leaves its core: warps, array instructions, waiters on its scratchpad and the last timestamps of its counters there, which no
image keeps (R98; log 85); requests that named it are answered (R450). Posts of its warps that are under way are no warp's any more (R387). -/
def vacate (s : State) (g : Nat) (x : Workgroup) : State :=
  let s := x.slots.foldl (fun s k => s.endWarp (64 * x.core + k)) s
  { s with
    tasks := s.tasks.map fun (e : Nat × Task) => if e.2.named.contains g then (e.1, { e.2 with named := e.2.named.erase g }) else e
    arrays := s.arrays.put [] x.core ((s.arrays.get [] x.core).filter fun e => e.wg ≠ g)
    posts := s.posts.map fun (p : Post) => if x.slots.any fun k => p.warp = 64 * x.core + k then { p with warp := p.warp + 65536 } else p
    waiters := s.waiters.filter fun w => w.addr / 2 ^ 68 ≠ g + 1
    stamps := s.stamps.filter fun e => e.1 / 2 ^ 68 ≠ g + 1
    errors := s.errors.filter fun e => !ofGroup g x e.1
    wgs := s.wgs.erase g }

/-- It leaves with its parked requests, waiters and unsent requests. -/
def clearWg (s : State) (g : Nat) (x : Workgroup) : State :=
  let mine := (s.opsOfWg g).map (·.1)
  (((s.discardParked allDies false fun p => mine.contains p.ref.1).freeWaiters mine.contains).dropUnsent allDies g (fun _ => true) false).vacate g x

/-- A pre-emption past its bound (R214). -/
def missBound (s : State) (x : Workgroup) : State :=
  let s := s.bump (Reg.dispatcher (dieOfCore x.core) 0x38) 1
  { s with tasks := s.tasks.adjust (s.rootOf x.task) fun t => { t with missed := t.missed + 1 } }

/-- WORKGROUP_END: a drain that ends after its bound is counted, however the workgroup has ended (R214). -/
def finishWg (s : State) (g : Nat) : State :=
  match s.wg? g with
  | none => s
  | some x =>
    let ended := match x.phase with
      | .running => !s.warps.any fun e => e.2.wg = g
      | .stopping => true
      | .saving => false
    if !ended || s.wgBusy g x then s
    else
      let late := match x.preempt with
        | some (t, b) => x.drain.isSome && t + b < s.clk
        | none => false
      let s := if late then s.missBound x else s
      (s.clearWg g x).countEnd x.task x.status x.stage x.linear

end State

/-- WORKGROUP_DISPATCH (R207). -/
def execWorkgroupDispatch (task : Nat) (s : State) : Out := .next (s.dispatchNext task)
/-- WORKGROUP_END (R211). -/
def execWorkgroupEnd (g : Nat) (s : State) : Out := .next (s.finishWg g)

end Sys2Proof.Machine
end

