-- ==== Sys2Proof/Machine/Image.lean ====
section
/-!
DEFINITION. Save images: the records of held requests, the parts of an image, sealing, and reading an image back (spec/05 R156 to
R158; spec/15 R384; spec/16 R393 to R397, R405 to R407).
-/

namespace Sys2Proof.Machine

/-! Held requests as records (R158, R384). -/

/-- Access type of a record and, among the instructions that share it, which one (log 14). -/
def OpKind.recordType : OpKind → Nat × Nat
  | .store | .push => (1, 0)
  | .loadS _ _ _ => (0, 1)
  | .refill => (0, 2)
  | .top => (0, 3)
  | .atomic _ _ ret => (2, if ret then 0 else 1)
  | .counter .wait _ _ _ _ => (4, 0)
  | .counter .add _ _ _ _ => (3, 0)
  | .counter .read _ _ _ _ => (3, 2)
  | .counter .test _ _ _ _ => (3, 3)
  | .counter .init _ _ _ _ => (3, 4)
  | .counter .raise _ _ _ _ => (3, 5)
  | .desc _ _ _ _ => (8, 0)
  | .linear _ _ _ _ _ => (8, 1)
  | .gather _ _ _ _ => (8, 2)
  | .svc _ _ => (9, 0)
  | .card _ => (10, 0)
  | .pref _ => (11, 0)
  | .cmntInv | .cmntWbi => (12, 0)
  | _ => (0, 0)

/-- The destination register of an operation. -/
def OpKind.destReg : OpKind → Nat
  | .load _ _ t | .loadS _ _ t | .atomic _ t _ | .counter _ _ _ t _ => t
  | _ => 0

/-- Cut a list of bytes or zeros to a length. -/
def padTo (n : Nat) (bs : List Byte) : List Byte := (bs ++ List.replicate n 0).take n

/-- One held request as 192 bytes: VA, lane mask, access type, f, t, L, the 32 bytes at 0x10 and the data (R158). -/
def heldRecord (va mask access fn t la : Nat) (mid data : List Byte) : List Byte :=
  leBytes 8 va ++ leBytes 4 mask ++ leBytes 1 access ++ leBytes 1 fn ++ leBytes 1 t ++ leBytes 1 la ++ padTo 32 mid ++ padTo 128 data ++
    leBytes 16 0

/-- The pieces of a request in runs of at most 128 bytes of data (R140, R158). -/
def chains : Nat → List Piece → List (List Piece)
  | 0, ps => [ps]
  | n + 1, ps =>
    let rec' := (List.range ps.length).foldl (fun k i => if ((ps.take (i + 1)).map fun p => p.data.length).foldl (· + ·) 0 ≤ 128 then i + 1 else k) 0
    if ps.length ≤ rec' || rec' = 0 then [ps] else ps.take rec' :: chains n (ps.drop rec')

def maskNat (ls : List Nat) : Nat := (maskOf fun l => ls.contains l).toNat

/-- The records of one line request of an operation, with their marks; a continuation of a chain is marked 8 above. -/
def reqRecords (o : MemOp) (r : Req) : List (List Byte × Nat) :=
  let (access, sel) := o.kind.recordType
  let la := if o.kind.opens || o.kind.inStoreQueue then o.la else 15
  (chains 32 r.pieces).mapIdx fun i ps =>
    let mask := match o.kind with
      | .counter _ _ _ _ true => o.mask.toNat
      | .loadS _ _ _ => 0
      | _ => maskNat (ps.map (·.lane))
    let offs := (List.range 32).map fun l => ((ps.find? fun p => p.lane = l).map fun p => BitVec.ofNat 8 p.off).getD 0
    (heldRecord r.va.toNat mask access o.fn o.kind.destReg la offs (ps.map (·.data)).flatten, if i = 0 then sel else sel + 8)

/-- The records of an operation whose given requests are not performed, those of a `copyl` and a `gath` with what log 91 says; a further
request of it is marked 16 above, and the first carries 32 times the CSTAT code that its homes have answered so far (R115). -/
def opRecords (o : MemOp) (reqs : List Req) : List (List Byte × Nat) :=
  let words := fun (ws : List Word) => (ws.map fun w => leBytes 4 w.toNat).flatten
  match o.kind with
  | .svc number block => [(heldRecord number 0 9 0 0 0 (words block) [], 0)]
  | .card sel =>
    let va := ((o.reqs.head?).map fun r => r.va.toNat + ((r.pieces.head?).map (·.off)).getD 0).getD 0
    [(heldRecord va 0 10 0 0 0 (words [sel]) [], 0)]
  | .desc _ _ _ block => [(heldRecord (((o.reqs.head?).map fun r => r.va.toNat).getD 0) 0 8 (o.fn % 16) 0 o.la (words block) [], 0)]
  | .linear _ _ src dst len =>
    [(heldRecord 0 0 8 (o.fn % 16) 0 o.la (leBytes 8 src.toNat ++ leBytes 8 dst.toNat ++ leBytes 4 len) [], 1)]
  | .gather _ _ soff xs =>
    let one := fun (ys : List (Nat × DWord)) (sel : Nat) =>
      (heldRecord 0 (maskNat (ys.map (·.1))) 8 (o.fn % 16) 0 o.la (words [soff]) (ys.map fun y => leBytes 8 y.2.toNat).flatten, sel)
    one (xs.take 16) 2 :: (if xs.length ≤ 16 then [] else [one (xs.drop 16) 10])
  | .cmntInv => [(heldRecord 0 o.mask.toNat 12 0 0 15 [] [], 0)]
  | .fetch | .stage | .mldw => []
  | _ =>
    let code := o.reqs.foldl (fun m r => Nat.max m r.code) 0
    (reqs.mapIdx fun i r => (reqRecords o r).map fun x =>
      (x.1, if 8 ≤ x.2 then x.2 else if i = 0 then x.2 + 32 * code else x.2 + 16)).flatten

/-- What a record gives back: the operation, its mask and its request. -/
def readRecord (b : List Byte) (sel : Nat) : OpKind × Word × List Req :=
  let va := BitVec.ofNat 64 (field b 0 8)
  let mask := BitVec.ofNat 32 (field b 8 4)
  let fn := field b 0x0D 1
  let t := field b 0x0E 1
  let width := ([MemWidth.b, .h, .w, .d, .q][fn % 8]?).getD .w
  let sx := fn / 8 % 2 = 1
  let off := fun l => field b (0x10 + l) 1
  let piece := fun (size n : Nat) (q : Nat × Nat) =>
    (⟨q.1, off q.1, size, (b.drop (0x30 + n * q.2)).take n, none⟩ : Piece)
  let line := fun (size n : Nat) => [(⟨va, ((lanes mask).zipIdx).map (piece size n), none, .core, 0, [], [], false⟩ : Req)]
  let word := fun i => BitVec.ofNat 32 (field b (0x10 + 4 * i) 4)
  let tl := fn % 4
  match field b 0x0C 1 with
  | 0 =>
    if sel % 8 = 2 then (.refill, 0, line 16 0)
    else if sel % 8 = 3 then (.top, 0, line 16 0)
    else if sel % 8 = 1 then (.loadS width sx t, 1, [⟨va, [⟨0, off 0, width.bytes, [], none⟩], none, .core, 0, [], [], false⟩])
    else (.load width sx t, mask, line width.bytes 0)
  | 1 => (.store, mask, line width.bytes width.bytes)
  | 2 =>
    let op := (atomOf (fn % 16)).getD .add32
    (.atomic op t (sel % 8 = 0), mask, line op.bytes (4 * op.regs))
  | 8 =>
    if sel % 8 = 1 then
      (.linear sx tl (BitVec.ofNat 64 (field b 0x10 8)) (BitVec.ofNat 64 (field b 0x18 8)) (field b 0x20 4), 0, [])
    else if sel % 8 = 2 then
      (.gather tl (gathOf (fn / 4)).bytes (word 0) ((lanes mask).zipIdx.map fun q => (q.1, BitVec.ofNat 64 (field b (0x30 + 8 * q.2) 8))), 0, [])
    else (.desc (fn / 4 % 2 = 1) sx tl ((List.range 8).map word), 0, [⟨va, blockPieces 128, none, .core, 0, [], [], false⟩])
  | 9 =>
    let req := fun (va : DWord) => (⟨va, [⟨0, 0, 0, [], none⟩], none, if va = 0 then .done else .core, 0, [], [], false⟩ : Req)
    (.svc va.toNat ((List.range 4).map word), 0, [req (DWord.ofPair (word 0) (word 1)), req (DWord.ofPair (word 2) (word 3))])
  | 10 =>
    (.card (word 0), 0, [⟨lineVa va, (blockPieces 64).map fun p => { p with off := p.off + va.toNat % 128 }, none, .core, 0, [], [], false⟩])
  | 11 => (.pref ((prefOf (fn % 4)).getD .tr), mask, line 0 0)
  | 12 => if fn % 4 = 1 then (.cmntWbi, mask, line 0 0) else (.cmntInv, mask, [⟨0, [], none, .core, 0, [], [], false⟩])
  | access =>
    let k : CtrKind := if access = 4 then .wait else match sel % 8 with
      | 2 => .read | 3 => .test | 4 => .init | 5 => .raise | _ => .add
    let scope := ([Scope.wg, .sq, .die, .dev, .sys][fn % 8]?).getD .sys
    let uni := fn / 16 % 2 = 1
    let n := if k = .read then 0 else 8
    let ls := if uni then (lanes mask).take 1 else lanes mask
    (.counter k scope sx t uni, mask, if mask = 0 then [] else
      [⟨va, (ls.zipIdx).map fun q => ⟨q.1, 0, 8, (b.drop (0x30 + n * q.2)).take n, none⟩, none, .core, 0, [], [], false⟩])

/-! Parts of an image (R393 to R397). -/

def slotPc (x : Slot) : Nat := if x.mask = 0 then 0 else x.pc.toNat
def slotJoin (x : Slot) : Nat := if x.mask = 0 then 1 else (x.join.map (·.toNat)).getD 1

def warpHeader (w : Warp) (token depth held : Nat) : List Byte :=
  leBytes 8 (slotPc w.home) ++ leBytes 8 (slotPc w.away) ++ leBytes 4 w.home.mask.toNat ++ leBytes 4 w.away.mask.toNat ++
    leBytes 8 (slotJoin w.home) ++ leBytes 8 (slotJoin w.away) ++ leBytes 4 w.mode.toNat ++ leBytes 4 token ++ leBytes 2 depth ++
    leBytes 1 held ++ leBytes 1 ((if w.inHandler then 1 else 0) + 2 * (w.cstat % 4)) ++ leBytes 4 w.trapCode.toNat ++
    leBytes 4 w.trapInfo.toNat ++ leBytes 4 w.clkhi.toNat

def specials (w : Warp) : List Byte :=
  leBytes 8 w.trapPc.toNat ++ leBytes 8 w.modq.toNat ++
    match w.frame with
    | none => leBytes 48 0
    | some f =>
      leBytes 8 (slotPc f.home) ++ leBytes 8 (slotPc f.away) ++ leBytes 4 f.home.mask.toNat ++ leBytes 4 f.away.mask.toNat ++
        leBytes 8 (slotJoin f.home) ++ leBytes 8 (slotJoin f.away) ++ leBytes 2 f.depth ++
        leBytes 1 (if f.trapped = .away then 1 else 0) ++ leBytes 5 0

def warpPart (w : Warp) (regs token depth : Nat) (records : List (List Byte)) : List Byte :=
  warpHeader w token depth records.length ++
    ((w.v.values 0 0 (32 * regs)).map fun x => leBytes 4 x.toNat).flatten ++
    ((List.range 128).map fun r => leBytes 4 (w.sreg r).toNat).flatten ++
    ((List.range 32).map fun l => leBytes 1 ((List.range 7).foldl (fun n p => n + if (w.p.get 0 p).getLsbD l then 2 ^ p else 0) 0)).flatten ++
    specials w ++ records.flatten

def formatByte (p : Plane) : Nat := p.fmt.getD 0xFF

def wgRecord (id : Nat) (x : Workgroup) : List Byte :=
  leBytes 4 id ++ leBytes 2 x.stage ++ leBytes 1 x.card.warps ++
    leBytes 1 ((if x.card.usesArray then 1 else 0) + if x.activeB then 2 else 0) ++ leBytes 4 x.x ++ leBytes 4 x.y ++ leBytes 4 x.z ++
    leBytes 2 x.card.regs ++ leBytes 2 x.card.scratchKiB ++ leBytes 1 x.card.tiles ++ leBytes 1 x.card.timelines ++
    leBytes 1 (formatByte x.planeA) ++ leBytes 1 (formatByte x.planeB) ++ leBytes 4 0 ++
    ((List.range 4).map fun k => leBytes 8 (x.copyNum.get 0 k)).flatten

def arrayPart (x : Workgroup) : List Byte :=
  if x.card.usesArray then
    ((x.tiles.values 0 0 (4096 * x.card.tiles)).map fun w => leBytes 4 w.toNat).flatten ++
      ([x.planeA, x.planeB].map fun p => p.elems.values 0 0 16384 ++ p.scales.values 0 0 1024).flatten
  else []

/-- The length of an image (R393), and the bytes of R213. -/
def imageLength (c : Card) (held : List Nat) : Nat :=
  144 + held.foldl (fun n h => n + 64 + 128 * c.regs + 512 + 32 + 64 + 192 * h) 0 + c.scrSize +
    if c.usesArray then 16384 * c.tiles + 2 * 17408 else 0
def saveBytes (c : Card) (held : List Nat) : Nat := imageLength c held - 144 - 64 * held.length

def imageHeader (length world part : Nat) (isSealed : Bool) (id stamp : Nat) : List Byte :=
  leBytes 4 1 ++ leBytes 4 length ++ leBytes 2 world ++ leBytes 1 part ++ leBytes 1 (if isSealed then 1 else 0) ++ leBytes 2 id ++
    leBytes 2 0 ++ leBytes 8 stamp ++ leBytes 40 0

/-! Sealing (R405). -/

def sealIv (stamp : Nat) : List Byte := leBytes 8 stamp ++ leBytes 4 0
/-- Encryption and decryption under AES-256-GCM: the same exclusive or; the tag of a header and an encrypted body. -/
def cover (key : BitVec 256) (stamp : Nat) (body : List Byte) : List Byte :=
  byteList (Aes.gcm (keyBytes 32 key.toNat) (natBytes (sealIv stamp)) (natBytes body))
def sealTag (key : BitVec 256) (stamp : Nat) (header cipher : List Byte) : List Byte :=
  byteList (Aes.gcmTag (keyBytes 32 key.toNat) (natBytes (sealIv stamp)) (natBytes header) (natBytes cipher))

/-! Reading an image (R407). -/

/-- Offsets of the warp parts, with their held counts. -/
def warpOffsets (b : List Byte) (regs : Nat) : Nat → Nat → List Nat
  | 0, _ => []
  | n + 1, off => off :: warpOffsets b regs n (off + 64 + 128 * regs + 512 + 32 + 64 + 192 * field b (off + 0x32) 1)

/-- The parts of one warp in an image. -/
def warpBytes (b : List Byte) (regs off : Nat) : List Byte :=
  (b.drop off).take (64 + 128 * regs + 512 + 32 + 64 + 192 * field b (off + 0x32) 1)

/-- The mask is 0 exactly when the PC is 0 and the join is none; PCs and joins are multiples of 4 (R407). -/
def slotOk (pc mask join : Nat) : Bool :=
  decide (mask = 0) = (pc = 0 && join = 1) && pc % 4 = 0 && (join = 1 || join % 4 = 0)

/-- The conditions on one warp of an image (R407); the slots of a frame meet those of the header's (log 49). -/
def warpOk (b : List Byte) (c : Card) : Bool :=
  let f := field b
  let sp := 64 + 128 * c.regs + 512 + 32
  let inH := f 0x33 1 % 2 = 1
  let mode := f 0x28 4
  slotOk (f 0 8) (f 0x10 4) (f 0x18 8) && slotOk (f 8 8) (f 0x14 4) (f 0x20 8) && (f 0x10 4 &&& f 0x14 4) = 0 && f 0x30 2 ≤ 256 &&
    f 0x33 1 / 8 = 0 && mode / 2 ^ 16 % 2 ^ 8 = 0 && mode / 2 ^ 31 = 0 && (!inH || c.handler ≠ 0) &&
    ((List.range 32).all fun l => f (sp - 32 + l) 1 < 128) && zeros b (sp + 0x3B) 5 && f (sp + 0x3A) 1 < 2 &&
    (if inH then
      slotOk (f (sp + 0x10) 8) (f (sp + 0x20) 4) (f (sp + 0x28) 8) && slotOk (f (sp + 0x18) 8) (f (sp + 0x24) 4) (f (sp + 0x30) 8) &&
        (f (sp + 0x20) 4 &&& f (sp + 0x24) 4) = 0 && f (sp + 0x38) 2 ≤ 256
    else zeros b (sp + 0x10) 0x2B) &&
    (List.range (f 0x32 1)).all fun i => zeros b (sp + 64 + 192 * i + 0xB0) 16

/-- Check 4 of R407 on a decrypted image for a task's card, and the workgroup that the entry names. -/
def imageOk (b : List Byte) (c : Card) (id stage linear : Nat) : Bool :=
  let f := field b
  let offs := warpOffsets b c.regs c.warps 0x80
  let held := offs.map fun o => f (o + 0x32) 1
  f 0 4 = 1 && f 4 4 = imageLength c held && f 0x0B 1 < 2 && zeros b 0x0E 2 && zeros b 0x18 40 &&
    f 0x40 4 = id && f 0x44 2 = stage && f 0x48 4 + c.nx * (f 0x4C 4 + c.ny * f 0x50 4) = linear && f 0x48 4 < c.nx && f 0x4C 4 < c.ny &&
    f 0x46 1 = c.warps && f 0x47 1 / 4 = 0 && (f 0x47 1 % 2 = 1) = c.usesArray && f 0x54 2 = c.regs && f 0x56 2 = c.scratchKiB &&
    f 0x58 1 = c.tiles && f 0x59 1 = c.timelines && (f 0x5A 1 ≤ 9 || f 0x5A 1 = 0xFF) && (f 0x5B 1 ≤ 9 || f 0x5B 1 = 0xFF) &&
    zeros b 0x5C 4 && offs.all fun o => warpOk (warpBytes b c.regs o) c

/-- The 32-bit words of bytes, low byte first. -/
def words32 : List Byte → List Word
  | a :: b :: c :: d :: rest => BitVec.ofNat 32 (leNat [a, b, c, d]) :: words32 rest
  | _ => []

def readSlot (pc mask join : Nat) : Slot :=
  ⟨BitVec.ofNat 64 pc, BitVec.ofNat 32 mask, if join = 1 then none else some (BitVec.ofNat 64 join), .none⟩

/-- A warp from its part of an image. -/
def readWarp (b : List Byte) (regs wg number : Nat) (entered : Bool) : Warp :=
  let f := field b
  let v := 64
  let sOff := v + 128 * regs
  let p := sOff + 512
  let sp := p + 32
  { wg, number, home := readSlot (f 0 8) (f 0x10 4) (f 0x18 8), away := readSlot (f 8 8) (f 0x14 4) (f 0x20 8), depth := f 0x30 2
    v := Map.ofValues 0 (words32 ((b.drop v).take (128 * regs)))
    s := Map.ofValues 0 (0 :: words32 ((b.drop (sOff + 4)).take 508))
    p := Map.ofValues 0 ((List.range 7).map fun k => maskOf fun l => (f (p + l) 1).testBit k)
    mode := BitVec.ofNat 32 (f 0x28 4), cstat := f 0x33 1 / 2 % 4, trapPc := BitVec.ofNat 64 (f sp 8)
    trapCode := BitVec.ofNat 32 (f 0x34 4), trapInfo := BitVec.ofNat 32 (f 0x38 4), modq := BitVec.ofNat 64 (f (sp + 8) 8)
    clkhi := BitVec.ofNat 32 (f 0x3C 4)
    frame := if f 0x33 1 % 2 = 1 then
        some ⟨readSlot (f (sp + 0x10) 8) (f (sp + 0x20) 4) (f (sp + 0x28) 8), readSlot (f (sp + 0x18) 8) (f (sp + 0x24) 4) (f (sp + 0x30) 8),
          f (sp + 0x38) 2, if f (sp + 0x3A) 1 = 1 then .away else .home⟩
      else none
    top := none, topReq := none, resolved := 0, entered, token := f 0x2C 4 }

/-- The array state of an image from an offset. -/
def readArray (b : List Byte) (c : Card) (off : Nat) (x : Workgroup) : Workgroup :=
  if c.usesArray then
    let plane := fun (o fmt : Nat) =>
      (⟨Map.ofValues 0 ((b.drop o).take 16384), Map.ofValues 0 ((b.drop (o + 16384)).take 1024),
        if fmt = 0xFF then none else some fmt⟩ : Plane)
    let pl := off + 16384 * c.tiles
    { x with
      tiles := Map.ofValues 0 (words32 ((b.drop off).take (16384 * c.tiles)))
      planeA := plane pl (field b 0x5A 1)
      planeB := plane (pl + 17408) (field b 0x5B 1)
      activeB := field b 0x47 1 / 2 % 2 = 1 }
  else x

end Sys2Proof.Machine
end

