-- ==== Sys2Proof/Machine/RegRead.lean ====
section
/-!
DEFINITION. Reads of registers, with the fields that are read from the units they show (spec/01 R47; spec/02 R73; spec/05 R161;
spec/06 R190; spec/16 R403; spec/23 R434 to R438).
-/

namespace Sys2Proof.Machine

namespace State

/-- DGQRES: the page of the record that DGQSEL names (R161); a page of more than 65,535 requests shows 65,535 (log 90). -/
def dgqres (s : State) (die : Nat) : Nat :=
  let d := s.dtu die
  match d.pages.find? fun g => g.posted = some (s.reg (Reg.dtu die 0x210) % 2 ^ 16) with
  | none => 0
  | some g =>
    let n := (d.parked.filter fun p => p.world = g.world && p.page = g.page).length
    if n = 0 then 0 else 2 ^ 63 + Nat.min n 65535 * 2 ^ 32 + s.taskId g.first.task

/-- CHSTAT of a channel (R73). -/
def chstat (s : State) (die n : Nat) : Nat :=
  let c := s.channels.get Channel.empty (72 * die + n)
  Nat.min c.corrected (2 ^ 32 - 1) * 2 ^ 32 + c.ev % 4 * 2 ^ 18 + (c.balance % 256).toNat

/-- BRSTAT of a Birrak port (R190): zero until the port has trained (log 10). -/
def brstat (s : State) (p : Nat) : Nat :=
  match s.fabric.birrak.find? p with
  | none => 0
  | some b => if b.trained then (2 ^ 16 - 1 - b.badLanes % 2 ^ 16) * 2 ^ 16 + birrakWidth b.badLanes else 0

/-- The 64-bit register at an aligned address of aperture 6. -/
def readReg (s : State) (a : Nat) : Nat :=
  let die := a / 2 ^ 24
  let o := a % 2 ^ 24
  if a < 0x08000000 then
    if o = 0x218 then s.dgqres die
    else if o = 0x220 then usedUnits (s.dtu die) true * 2 ^ 32 + usedUnits (s.dtu die) false
    else if 0x10400 ≤ o && o < 0x10640 then s.chstat die ((o - 0x10400) / 8)
    else if o = 0x30090 then 4096 - (s.saved.filter fun e => e.1 / 4096 = die).length
    else s.reg a
  else if (die = 8 || die = 9) && 0x41100 ≤ o && o < 0x41160 && o % 0x20 = 8 then s.brstat ((die - 8) * 3 + (o - 0x41100) / 0x20)
  else if Reg.host 0 ≤ a && a < Reg.host 0x80 then
    s.reg a + (if (s.hosts.get HostPort.empty ((a - Reg.host 0) / 8)).frozen then 2 ^ 18 else 0)
  else s.reg a

/-- The bytes a load of aperture 6 receives: registers in 32 or 64 bits, other widths zero (R332, R434). -/
def readMmio (s : State) (pa size : Nat) : List Byte :=
  if size = 8 || size = 4 then leBytes size (s.readReg (pa / 8 * 8) / 2 ^ (8 * (pa % 8))) else leBytes size 0

end State
end Sys2Proof.Machine
end

