-- ==== Sys2Proof/Machine/Preempt.lean ====
section
/-!
DEFINITION. Pre-emption: requests, drains, flushes, saves and restores; cores that are retired (spec/07 R209, R213 to R215, R450;
spec/16 R398 to R408; spec/05 R156, R159).
-/

namespace Sys2Proof.Machine

/-- A parked request of this kind stays parked across a save (R156). -/
def OpKind.staysParked : OpKind → Bool
  | .store | .push => true
  | .atomic _ _ ret => !ret
  | _ => false

namespace MemOp
/-- It has a parked request that stays; one that waits at the unit for room in the dugout has no sequence that a token could name, and goes
as a held request (R155 to R157; log 88). -/
def keeps (o : MemOp) : Bool := o.kind.staysParked && o.reqs.any Req.inDugout
/-- Its requests that a save records. -/
def left (o : MemOp) : List Req := o.reqs.filter fun r => !(r.isDone || (o.kind.staysParked && r.inDugout))
/-- None of its requests is on its way; the record of an `svc` that no battery has accepted does not count. -/
def still (o : MemOp) : Bool := o.reqs.all fun r =>
  match r.stage with
  | .sent _ => o.kind.isSvc
  | .miss | .walked | .waiter | .cancelling => false
  | _ => true
/-- It has not been accepted (R398 step 1), or waits at a counter (step 2). -/
def unaccepted (o : MemOp) : Bool :=
  match o.kind with
  | .svc _ _ | .card _ | .desc _ _ _ _ | .linear _ _ _ _ _ | .gather _ _ _ _ | .counter .wait _ _ _ _ => true
  | _ => false
/-- Its records with their marks; a counter instruction with no lane has one that names none (R111). -/
def records (o : MemOp) : List (List Byte × Nat) :=
  if o.idle then [(heldRecord 0 0 o.kind.recordType.1 o.fn o.kind.destReg o.la [] [], o.kind.recordType.2)]
  else if o.left = [] && !o.unaccepted && o.kind ≠ .cmntInv then [] else opRecords o o.left
end MemOp

namespace State

/-- The held counts of a workgroup's warps, in warp order: what is held, and what is parked and would be cancelled (R142, R156, R213). -/
def heldCounts (s : State) (x : Workgroup) : List Nat :=
  x.slots.map fun k => (((s.stream (64 * x.core + k)).filter fun e => e.2.idle || e.2.held || e.2.reqs.any Req.isParked).map fun e =>
    { e.2 with reqs := e.2.reqs.filter fun r => e.2.held || r.isParked }.records).flatten.length

/-! What a save leaves of a warp. -/

/-- The slot that waits for an operation: home, away, and the same in the frame; 4 and 5 for an operation of home and of away that holds no
slot. -/
def holderOf (w : Warp) (n : Nat) (sd : Side) : Nat :=
  let none' := match sd with
    | .home => 4
    | .away => 5
  if w.home.hold.waits n then 0 else if w.away.hold.waits n then 1
  else match w.frame with
    | some f => if f.home.hold.waits n then 2 else if f.away.hold.waits n then 3 else none'
    | none => none'

/-- Results already received by an operation that is cancelled (R398 step 3). -/
def partialResult (w : Warp) (o : MemOp) : Warp :=
  let ps := ((o.reqs.filter Req.isDone).map (·.pieces)).flatten
  match o.kind with
  | .load m sx t => ps.foldl (fun w p => w.loadLane m sx t p) w
  | .atomic op t true => ps.foldl (fun w p => w.setBytes t p.lane (p.got.getD []) (op.bytes / 4)) w
  | .counter kd _ _ t uni => if ps = [] then w else w.counterLanes kd t uni o.mask ps
  | _ => w

/-- A park token (R157). -/
def tokenOf (st : List (Nat × MemOp)) : Nat :=
  (st.findSome? fun e => if e.2.keeps then e.2.reqs.findSome? (fun r =>
    match r.stage with
    | .parked die seq => if seq = 0 then none else some (die * 2 ^ 29 + seq)
    | _ => none) else none).getD 0

/-- A warp's part of an image, with its marks. -/
def savedWarp (s : State) (g number : Nat) (x : Workgroup) (k : Nat) : List Byte × Bool × List (Nat × Nat) :=
  let st := s.stream k
  let recs := (st.map fun e => e.2.records.map fun r => (e.1, sideOf e.2, r)).flatten
  let w := match s.warp? k with
    | some w => if w.wg = g then w else { Warp.start g number 0 true with home := Slot.empty }
    | none => { Warp.start g number 0 true with home := Slot.empty }
  let w := st.foldl (fun w e => partialResult w e.2) w
  let token := if w.token ≠ 0 then w.token else tokenOf st
  (warpPart w x.card.regs token w.depth (recs.map fun r => r.2.2.1), w.entered,
    recs.map fun r => (r.2.2.2, holderOf w r.1 r.2.1))

/-- Step 3 of R398: nothing of a workgroup is outstanding but what is parked, held or cancelled, or stands behind what stays, as what comes after
a waiting `cwait` does (R120, R346). -/
def savable (s : State) (g : Nat) (x : Workgroup) : Bool :=
  (x.slots.all fun k =>
    let st := s.stream (64 * x.core + k)
    st.all fun e => e.2.still && (e.2.held || e.2.hasParked || e.2.unaccepted ||
      st.any fun d => d.1 < e.1 && (d.2.hasParked || d.2.held || (s.stays d.1 d.2 && s.heldBehind (64 * x.core + k) e.1 e.2)))) &&
    !(s.arrays.get [] x.core).any (fun e => e.wg = g) && !s.copies.any (fun e => e.2.wg = g) &&
    !s.ops.any fun e => e.2.wg = g && e.2.kind.isFetch && !e.2.still

/-! The pool and the table (R401, R402, R48). -/

/-- The pool table's entry of a partition on a die. -/
def poolEntry (s : State) (die part : Nat) : Nat := s.reg (Reg.dispatcher die 0x80) % 2 ^ 55 / 2 ^ 10 * 2 ^ 10 + 16 * part

/-- A partition's pool: base and extents; none when the entry is not usable. -/
def pool (s : State) (die part : Nat) : Option (Nat × Nat) :=
  let at' := s.poolEntry die part
  let base := s.mem.readNat at' 8
  let n := s.mem.readNat (at' + 8) 4
  if base % 65536 ≠ 0 || 2 ^ 55 ≤ base || n = 0 then none else some (base, n)

/-- The extents kept for retirement. -/
def reserve (n : Nat) : Nat := if n < 4 then 0 else Nat.min 64 (n / 4)

/-- The first run of free extents of a length between two bounds. -/
def freeRun (s : State) (part lo hi len : Nat) : Option Nat :=
  let taken := (s.saved.filter fun e => e.2.partition = part).map fun e => (e.2.extent, e.2.extents)
  let starts := (lo :: taken.map fun t => t.1 + t.2).filter fun a =>
    lo ≤ a && a + len ≤ hi && taken.all fun t => a + len ≤ t.1 || t.1 + t.2 ≤ a
  starts.foldl (fun m a =>
    match m with
    | some b => some (Nat.min a b)
    | none => some a) none

/-- The lowest run of free extents: a retirement save's inside the reserve, any other's outside it (R401, R428). -/
def freeExtents (s : State) (part n len : Nat) (retire : Bool) : Option Nat :=
  let cut := n - reserve n
  if retire then s.freeRun part cut n len else s.freeRun part 0 cut len

/-- A free entry of a die's table, the last 64 for retirement. -/
def freeEntry (s : State) (die : Nat) (retire : Bool) : Option Nat :=
  let used := (s.saved.filter fun e => e.1 / 4096 = die).map (·.1)
  let ids := if retire then (List.range 64).map fun i => 4096 * die + 4032 + i else (List.range (Nat.min 4032 (used.length + 1))).map fun i => 4096 * die + i
  ids.find? fun i => !used.contains i

/-- The next stamp of a world's key slot: none when it is not sealed, an error when it can not be (R406). -/
def nextStamp (s : State) (die world : Nat) : Except Unit (Option (Nat × KeySlot)) :=
  if !s.worldConf die world then .ok none
  else match s.keySlot world with
    | some (i, k) => if k.counter + 1 < 2 ^ 64 then .ok (some (i, { k with counter := k.counter + 1 })) else .error ()
    | none => .error ()

/-- Step 6 of R398: the parts of a workgroup go, a parked store with its token excepted (R156); the timestamps of its scratchpad counters stay
under its number, which it keeps (R98; log 85). -/
def unload (s : State) (g : Nat) (x : Workgroup) : State :=
  let mine := ((s.opsOfWg g).filter fun e => !e.2.keeps).map (·.1)
  let s := ((s.discardParked allDies false fun p => mine.contains p.ref.1).freeWaiters mine.contains).dropUnsent allDies g (fun o => !o.keeps) false
  let s := { s with ops := s.ops.map fun (e : Nat × MemOp) =>
    if e.2.wg = g && e.2.keeps then
      (e.1, { e.2 with
        owner := Owner.gone
        held := false
        opened := false
        reqs := e.2.reqs.map fun (r : Req) => if r.inDugout then r else { r with stage := .done } })
    else e }
  { s.vacate g x with stamps := s.stamps }

/-- The key slot of a world, where it needs one, has a stamp to give (R406). -/
def stampLeft (s : State) (core world : Nat) : Bool :=
  match s.nextStamp (dieOfCore core) world with
  | .ok _ => true
  | .error _ => false

/-- A save that finds no entry, extents or stamp is not taken: the workgroup drains to its end, or waits when its core is being retired and
a stamp is left (R401, R402, R406). A workgroup drained before, and so saved at B, counts in PDRAIN again (log 94). -/
def notTaken (s : State) (g : Nat) (x : Workgroup) (retire : Bool) : State :=
  if retire && s.stampLeft x.core x.world then s
  else
    let die := dieOfCore x.core
    ((s.setWg g { x with phase := .running, drain := some 0 }).bump (Reg.dispatcher die 0x98) 1).bump (Reg.dispatcher die 0x20) 1

/-- The bytes of an image; the tag stands last. -/
def imageOf (x : Workgroup) (taskNo length id : Nat) (key : Option (Nat × KeySlot)) (warps : List (List Byte)) : List Byte :=
  let body := wgRecord taskNo x ++ warps.flatten ++ x.scr.values 0 0 x.card.scrSize ++ arrayPart x
  match key with
  | none => imageHeader length x.world x.partition false id 0 ++ body ++ leBytes 16 0
  | some (_, k) =>
    let h := imageHeader length x.world x.partition true id k.counter
    let c := cover (Config.freeKey k.draw) k.counter body
    h ++ c ++ sealTag (Config.freeKey k.draw) k.counter h c

/-- SAVE: a workgroup that has stopped and is quiet is written to its pool (R398); a pool entry that can not be read is not usable (log 79). -/
def saveWg (s : State) (g : Nat) : State :=
  match s.wg? g with
  | none => s
  | some x =>
    if x.phase ≠ .saving || !s.savable g x then s
    else match List.find? (fun (e : Nat × Nat) => ofGroup g x e.1 && 3 ≤ e.2) s.errors with
    | some (u, n) => s.coreFault g (if u < 2 ^ 120 then 1 else if u < 2 ^ 121 then 0 else 2) (if u < 2 ^ 120 then u - scrKey g 0 else 0) n false
    | none =>
      let die := dieOfCore x.core
      let retire := s.retiring.contains x.core
      let parts := x.slots.mapIdx fun i k => s.savedWarp g i x (64 * x.core + k)
      let length := imageLength x.card (parts.map fun p => p.2.2.length)
      let n := (length + 65535) / 65536
      match s.agentRead die x.world (s.taskId x.task) (unitsOf (s.poolEntry die x.partition) 12) with
      | .error s => s.notTaken g x retire
      | .ok s => match s.freeEntry die retire, s.pool die x.partition, s.nextStamp die x.world with
      | some id, some (base, size), .ok key =>
        match s.freeExtents x.partition size n retire with
        | none => s.notTaken g x retire
        | some ext =>
          let image := base + 65536 * ext
          let bytes := imageOf x (s.taskId x.task) length id key (parts.map (·.1))
          let stamp := (key.map fun k => k.2.counter).getD 0
          let late : Bool := match x.preempt with
            | some (t, b) => t + b < s.clk
            | none => false
          let s := match key with
            | some (i, k) => { s with keys := s.keys.insert i k }
            | none => s
          let s := (s.unload g x).agentWrite image bytes 0 (2134 + die) x.world (s.taskId x.task)
          let entry : Saved :=
            ⟨g, image, length, stamp, x.task, x.world, x.partition, x.stage, x.linear, ext, n, false, s.clk, retire, parts.map (·.2), x.frozenTl, x.lines, none⟩
          let s := { s with saved := s.saved.insert id entry }
          let s := s.bump (Reg.dispatcher die 0x30) 1
          if late then s.missBound x else s
      | _, _, _ => s.notTaken g x retire

/-! Restores (R399, R407, R408). -/

/-- The bytes of an image, as its header says (R393, R407): a whole image of another save may be longer than the extents of this one. -/
def imageSpan (s : State) (e : Saved) : Nat :=
  let n := s.mem.readNat (e.image + 4) 4
  if n < 80 || 2 ^ 24 < n then e.length else n

/-- Read an image back under R407: its decrypted bytes, or the status of the refusal. -/
def readImage (s : State) (id : Nat) (e : Saved) (t : Task) : Except Nat (List Byte) :=
  let length := s.imageSpan e
  let raw := s.mem.readBytes e.image length
  let conf := s.worldConf (id / 4096) e.world
  let key := (s.keySlot e.world).map fun k => Config.freeKey k.2.draw
  let head := raw.take 64
  let cipher := (raw.drop 64).take (length - 80)
  let tag := raw.drop (length - 16)
  let tagOk := match key with
    | some k => !conf || tag = sealTag k (field raw 0x10 8) head cipher
    | none => !conf
  let body := match key, conf with
    | some k, true => cover k (field raw 0x10 8) cipher
    | _, _ => cipher
  let b := head ++ body ++ tag
  if conf && key.isNone then .error 3
  else if field raw 8 2 ≠ e.world || field raw 0x0C 2 ≠ id || !tagOk then .error 2
  else if conf && field raw 0x10 8 ≠ e.stamp then .error 1
  else if !imageOk b t.card t.id e.stage e.linear then .error 4
  else .ok b

def refusalRecord (e : Saved) (id status : Nat) (t : Task) : List Byte :=
  let x := e.linear % t.card.nx
  let y := e.linear / t.card.nx % t.card.ny
  let z := e.linear / (t.card.nx * t.card.ny)
  leBytes 8 e.image ++ leBytes 2 id ++ leBytes 1 status ++ leBytes 1 e.stage ++ leBytes 2 e.world ++ leBytes 1 0 ++ leBytes 1 1 ++
    leBytes 4 t.id ++ leBytes 4 z ++ leBytes 4 x ++ leBytes 4 y

/-- The slot that a restored request holds. -/
def holdFor (kind : OpKind) (n : Nat) : Hold :=
  match kind with
  | .svc _ _ | .card _ => .post n
  | .counter .wait _ _ _ _ => .cwait n
  | .desc _ _ _ _ | .linear _ _ _ _ _ | .gather _ _ _ _ => .copy n
  | .refill => .refill n
  | _ => .none

def holdSlot (w : Warp) (h : Nat) (x : Hold) : Warp :=
  match h with
  | 0 => { w with home := { w.home with hold := x } }
  | 1 => { w with away := { w.away with hold := x } }
  | 2 => { w with frame := w.frame.map fun f => { f with home := { f.home with hold := x } } }
  | 3 => { w with frame := w.frame.map fun f => { f with away := { f.away with hold := x } } }
  | _ => w

/-- A chained record continues the request before it. -/
def extend (o : MemOp) (reqs : List Req) (kind : OpKind) : MemOp :=
  let kind' := match o.kind, kind with
    | .gather tl e soff xs, .gather _ _ _ ys => .gather tl e soff (xs ++ ys)
    | k, _ => k
  { o with
    kind := kind'
    reqs := match o.reqs.getLast?, reqs with
      | some r, q :: _ => o.reqs.dropLast ++ [{ r with pieces := r.pieces ++ q.pieces }]
      | _, _ => o.reqs }

/-- A further record of an operation is one more request of it. -/
def widen (o : MemOp) (reqs : List Req) (mask : Word) : MemOp := { o with reqs := o.reqs ++ reqs, mask := o.mask ||| mask }

/-- The PC in the slot of a warp that waits for a restored operation: one in the frame of a trap keeps it there (R393). -/
def holderPc (w : Warp) (h : Nat) : DWord :=
  match h, w.frame with
  | 2, some f => f.home.pc
  | 3, some f => f.away.pc
  | _, _ => (w.slot (if h % 2 = 1 then Side.away else .home)).pc

/-- One held record becomes a held operation again, an `.sc` one with a new timestamp (R156, R384), an `svc` or a `post` with no lookahead to keep
(R379, R386), or goes with the one before it. -/
def reissue (s : State) (k : Nat) (x : Workgroup) (g : Nat) (b : List Byte) (mark : Nat × Nat) : State :=
  let (kind, mask, reqs) := readRecord b mark.1
  if mark.1 / 8 % 2 = 1 then s.onOp (s.nextOp - 1) fun o => extend o reqs kind
  else if mark.1 / 16 % 2 = 1 then s.onOp (s.nextOp - 1) fun o => widen o reqs mask
  else
    let reqs := reqs.map fun (r : Req) => { r with code := mark.1 / 32 }
    let (s, ts) := match kind with
      | .counter _ _ true _ _ => if reqs.isEmpty then (s, 0)
        else ({ s with lamport := s.lamport.put 0 x.core (s.lamport.get 0 x.core + 1) }, s.lamport.get 0 x.core + 1)
      | _ => (s, 0)
    let n := s.nextOp
    let idle := kind.isCounter && reqs.isEmpty
    let la := match kind with
      | .svc _ _ | .card _ => 15
      | _ => field b 0x0F 1
    let sd := if mark.2 % 2 = 1 then Side.away else .home
    let pc := ((s.warp? k).map fun w => holderPc w mark.2 - 4).getD 0
    let number := ((s.warp? k).map Warp.number).getD 0
    let s := s.newOp
      ⟨.warp k sd, x.core, g, x.world, x.partition, x.task, kind, la, !idle, !idle, pc, mask, reqs, ts, field b 0x0D 1, k % 64, number⟩
    s.onWarp k fun w => holdSlot { w with topReq := if kind = .top then some n else w.topReq } mark.2 (holdFor kind n)

/-- The image of a saved workgroup loaded on a core, which asks other dies' units for the park tokens of its warps (R159, R399). -/
def load (s : State) (e : Saved) (t : Task) (b : List Byte) (core : Nat) : State :=
  let c := t.card
  let offs := warpOffsets b c.regs c.warps 0x80
  let parts := offs.map (warpBytes b c.regs)
  let scrOff := 0x80 + (parts.map List.length).foldl (· + ·) 0
  let x : Workgroup :=
    { task := e.task, world := e.world, partition := e.partition, card := c, stage := e.stage, linear := e.linear, core
      slots := s.freeSlots core c.warps
      scr := Map.ofValues 0 ((b.drop scrOff).take c.scrSize)
      absent := [], tiles := [], planeA := Plane.zero, planeB := Plane.zero, activeB := false
      copyNum := Map.ofValues 0 ((List.range 4).map fun k => field b (0x60 + 8 * k) 8)
      frozenTl := e.frozenTl, lines := e.lines, since := s.clk, order := s.nextOrder, phase := .running, status := .ok, drain := none, preempt := none }
  let x := readArray b c (scrOff + c.scrSize) x
  let s := s.install e.wg x (parts.mapIdx fun i p => readWarp p c.regs e.wg i ((e.marks[i]?.map (·.1)).getD true))
  let s := x.slots.foldl (fun s k =>
    match s.warp? (64 * core + k) with
    | some w => if w.token = 0 || w.token / 2 ^ 29 = dieOfCore core then s
        else s.send (svcPacket svcToken (s.coreEnd core) (s.dtuEnd (w.token / 2 ^ 29)) (64 * core + k, w.token) (leBytes 4 w.token))
    | none => s) s
  ((x.slots.zip parts).zipIdx).foldl (fun s q =>
    let marks := (e.marks[q.2]?.map (·.2)).getD []
    (List.range (field q.1.2 0x32 1)).foldl (fun s i =>
      s.reissue (64 * core + q.1.1) x e.wg ((q.1.2.drop (64 + 128 * c.regs + 512 + 32 + 64 + 192 * i)).take 192) (marks.getD i (0, 4))) s) s

/-- A die that is to restore a workgroup asks the die that saved it (R401). -/
def askSaved (s : State) (id : Nat) (e : Saved) (die : Nat) : State :=
  if e.asked = some (die, false) then s
  else State.send { s with saved := s.saved.insert id { e with asked := some (die, false) } }
    (svcPacket svcSaved (s.dispatcherEnd die) (s.dispatcherEnd (id / 4096)) (id, die) (leBytes 2 id))

/-- The saving die answers with its entry. -/
def giveEntry (s : State) (p : Packet) : State :=
  match s.saved.find? p.tag.1 with
  | none => s
  | some e => s.send (svcPacket svcEntry p.dst p.src p.tag
      (leBytes 8 e.image ++ leBytes 8 e.stamp ++ leBytes 4 (((s.tasks.find? e.task).map Task.id).getD 0) ++ leBytes 4 e.stage ++ leBytes 8 e.linear))

/-- The entry has come: the restore may go on. -/
def takeEntry (s : State) (p : Packet) : State :=
  { s with saved := s.saved.adjust p.tag.1 fun e => if e.asked = some (p.tag.2, false) then { e with asked := some (p.tag.2, true) } else e }

/-- RESTORE (R399): a saved workgroup is placed where its domain has room, by preference in the squad of its coordinate (R208), unless
a task of higher priority can be placed (log 25). An image that can not be read is refused like one whose tag fails (log 79). -/
def restoreWg (s : State) (id : Nat) : State :=
  match s.saved.find? id with
  | none => s
  | some e =>
    match s.tasks.find? e.task with
    | none => s
    | some t =>
      if e.refused || s.outranked t.priority then s
      else match (s.pickCore t (s.restoreDomain t e.stage e.linear)).or (s.pickCore t (s.domain t.queue)) with
        | none => s
        | some core =>
          if dieOfCore core ≠ id / 4096 && e.asked ≠ some (dieOfCore core, true) then s.askSaved id e (dieOfCore core) else
          let refuse := fun (s : State) (st : Nat) =>
            let s := { s with saved := s.saved.insert id { e with refused := true } }
            (s.bump (Reg.dispatcher (id / 4096) 0xA0) 1).postBoth (id / 4096) e.partition (refusalRecord e id st t)
          match s.agentRead (id / 4096) e.world (s.taskId e.task) (unitsOf e.image (s.imageSpan e)) with
          | .error s => refuse s 2
          | .ok s => match s.readImage id e t with
            | .ok b => { s with saved := s.saved.erase id }.load e t b core
            | .error st => refuse s st

/-! Requests (R213, R214, R450). -/

/-- A workgroup that may be asked to go: not already drained or saved (R400, R404). -/
def askable (x : Workgroup) : Bool := x.phase = .running && x.drain.isNone

/-- Save: every warp stops issuing, waits at counters are cancelled and naps discarded (R398 steps 1 and 2). -/
def beginSave (s : State) (g : Nat) (x : Workgroup) : State :=
  (s.cancelWaits fun n o => o.wg = g && !s.beforeMldw n o).setWg g { x with phase := .saving, drain := none }

/-- Flush: the workgroup ends at once and is dispatched again from its start (R214). -/
def flush (s : State) (g : Nat) (x : Workgroup) : State :=
  let s := ((s.stopCopies g fun _ => true).clearWg g x).bump (Reg.dispatcher (dieOfCore x.core) 0x28) 1
  { s with tasks := s.tasks.adjust x.task fun t => { t with again := t.again ++ [(x.stage, x.linear)] } }

/-- A pre-emption request for a workgroup with a bound (R213, R214). -/
def request (s : State) (g bound : Nat) : State :=
  match s.wg? g with
  | none => s
  | some x =>
    if !askable x then s
    else
      let elapsed := s.clk - x.since
      let total := x.card.expected * 1024
      let drains := x.card.pclass = 2 || (x.card.expected ≠ 0 && total - elapsed ≤ bound)
      let sv := (saveBytes x.card (s.heldCounts x) + 511) / 512 + 400
      let quiet := !s.ops.any fun e => e.2.wg = g && (e.2.held || e.2.reqs.any Req.isParked)
      let x := { x with preempt := some (s.clk, bound) }
      if drains then (s.setWg g { x with drain := some (Nat.max 1 (s.clk + bound)) }).bump (Reg.dispatcher (dieOfCore x.core) 0x20) 1
      else if x.card.restartable && x.card.pclass = 0 && quiet && elapsed < sv then s.flush g x
      else s.beginSave g x

/-- The priority of a workgroup: that of the root of its posting chain (R450). -/
def rootPriority (s : State) (task : Nat) : Nat := ((s.tasks.find? (s.rootOf task)).map Task.priority).getD 0

/-- Lowest priority first, then most recently placed first (R450). -/
def insertVictim (s : State) (v : Nat × Workgroup) : List (Nat × Workgroup) → List (Nat × Workgroup)
  | [] => [v]
  | u :: us =>
    let p := s.rootPriority v.2.task
    let q := s.rootPriority u.2.task
    if p < q || (p = q && u.2.order < v.2.order) then v :: u :: us else u :: insertVictim s v us

/-- The shortest run of victims whose going gives room. -/
def enough (s : State) (core part : Nat) (c : Card) : List Nat → List Nat → Option (List Nat)
  | gone, vs =>
    if s.roomBut gone core part c then some gone
    else match vs with
      | [] => none
      | v :: vs => enough s core part c (gone ++ [v]) vs
  termination_by structural _ vs => vs

/-- The workgroups a LAUNCH without room names (R450). -/
def victims (s : State) (t : Task) (cores : List Nat) : Option (List Nat) :=
  (cores.filterMap fun c =>
    let cands := (s.residents c).filter fun e => askable e.2 && s.rootPriority e.2.task < t.priority
    s.enough c t.partition t.card [] ((cands.foldr s.insertVictim []).map (·.1))).foldl (fun m v =>
      match m with
      | some u => if v.length < u.length then some v else some u
      | none => some v) none

/-- PREEMPTION_REQUEST: the next workgroup of a task with a bound finds no room, and no request for the task is open (R213, R450). -/
def preemptFor (s : State) (key : Nat) : State :=
  match s.tasks.find? key with
  | none => s
  | some t =>
    match s.nextOf key t with
    | [] => s
    | n :: _ =>
      if t.bound = 0 || t.named ≠ [] || (s.placeable key t).isSome then s
      else match s.victims t (s.domainOf t n.1 n.2) with
        | none => s
        | some vs => vs.foldl (fun s v => s.request v t.bound) { s with tasks := s.tasks.insert key { t with named := vs } }

/-- DRAIN_BOUND: a drained workgroup of class 0 or 1 that has not ended after B is saved (R214). -/
def drainBound (s : State) (g : Nat) : State :=
  match s.wg? g with
  | none => s
  | some x =>
    match x.drain with
    | some d => if x.phase = .running && d ≠ 0 && d ≤ s.clk && x.card.pclass ≠ 2 then s.beginSave g x else s
    | none => s

/-- SAVED_WAIT_EXPIRY (R209). -/
def savedWait (s : State) (id : Nat) : State :=
  match s.saved.find? id with
  | none => s
  | some e =>
    match s.tasks.find? e.task with
    | none => s
    | some t =>
      if e.refused || s.clk < e.since + 2 ^ 20 || (s.pickCore t (s.domain t.queue)).isSome then s
      else
        let later := s.wgs.filter fun w => w.2.task = e.task && w.2.stage = e.stage && e.linear < w.2.linear
        match later.foldl (fun (m : Option (Nat × Workgroup)) w =>
            match m with
            | some u => if u.2.linear < w.2.linear then some w else some u
            | none => some w) none with
        | some w => s.request w.1 65536
        | none => s

/-- CORE_RETIRE: the workgroups of a core are saved whatever their class; empty, it is disabled. One core of a die at a time (R215,
R402). -/
def retire (s : State) (core : Nat) : State :=
  let die := dieOfCore core
  if 1024 ≤ core || s.disabled.contains core then s
  else if !s.retiring.contains core &&
      ((s.retiring.any fun c => dieOfCore c = die) || s.saved.any fun e => e.2.retire && e.1 / 4096 = die) then s
  else
    let s := if s.retiring.contains core then s else { s with retiring := s.retiring ++ [core] }
    let rs := s.residents core
    if rs = [] then { s with retiring := s.retiring.erase core, disabled := s.disabled ++ [core] }
    else rs.foldl (fun s e => if e.2.phase = .running && (e.2.drain ≠ some 0 || s.stampLeft core e.2.world) then
      s.beginSave e.1 { e.2 with preempt := none } else s) s

end State

/-- PREEMPTION_REQUEST (R213). -/
def execPreemptionRequest (task : Nat) (s : State) : Out := .next (s.preemptFor task)
/-- DRAIN_BOUND (R214). -/
def execDrainBound (g : Nat) (s : State) : Out := .next (s.drainBound g)
/-- SAVED_WAIT_EXPIRY (R209). -/
def execSavedWaitExpiry (id : Nat) (s : State) : Out := .next (s.savedWait id)
/-- SAVE (R398). -/
def execSave (g : Nat) (s : State) : Out := .next (s.saveWg g)
/-- RESTORE (R399). -/
def execRestore (id : Nat) (s : State) : Out := .next (s.restoreWg id)
/-- CORE_RETIRE (R215). -/
def execCoreRetire (core : Nat) (s : State) : Out := .next (s.retire core)

end Sys2Proof.Machine
end

