-- ==== Sys2Proof/Machine/Serve.lean ====
section
/-!
DEFINITION. Requests served at their homes and answers received by their requesters: RD, WR, ATM, CTR and RDR, WRA, ATMR, CTRR
(spec/01 R26, R43 to R45; spec/02 R57 to R62, R68 to R70; spec/03 R84, R96 to R100, R105; spec/04 R114 to R128; spec/06 R163, R167).
-/

namespace Sys2Proof.Machine

namespace State

/-- The answer to a request, back to its source on its channel, with the cycle at which its home took it. -/
def answerPacket (p : Packet) (ty : PType) (len : Nat) (a : Answer) (ps : List Piece) (ts now : Nat) : Packet :=
  ⟨ty, false, p.vc, false, false, len, p.src, p.dst, 0, 0, 0, 0, p.fn, p.world, p.tag, a, ps, p.via, ts, p.slot, 0, now⟩

/-- A memory error of a request: a record, and poison for the requester (R69, R70). -/
def errorAnswer (s : State) (p : Packet) (ty : PType) (symbols unit : Nat) : State :=
  let task := match s.ops.find? p.tag.1 with
    | some o => s.taskId o.task
    | none => 0
  let agent := match Endpoint.cls p.src with
    | 0 => 128 * Endpoint.die p.src + Endpoint.idx p.src
    | 1 => 1024 + 128 * Endpoint.die p.src + Endpoint.idx p.src
    | _ => 2128 + Endpoint.idx p.src
  (s.unitError unit symbols agent p.world task).send (answerPacket p ty (if ty = .wra then 0 else 1) .poison [] 0 s.clk)

/-- The apertures whose bytes are memory held here. -/
def isMemory (ap : Nat) : Bool := ap = 0 || ap = 1 || ap = 3

/-- An advice record in the die's ring, or one more lost when it is full (R45, R47). -/
def postAdvice (s : State) (die : Nat) (r : Region) : State :=
  let ring := s.reg (Reg.dtu die 0x018) % 2 ^ 55 / 2 ^ 12 * 2 ^ 12
  let posted := (s.dtu die).posted
  if 256 ≤ posted - s.reg (Reg.dtu die 0x028) then s.bump (Reg.dtu die 0x130) 1
  else
    let dies := ((List.range 8).filter fun d => r.homes.testBit d).length
    let s := s.agentWrite (ring + 16 * (posted % 256)) (leBytes 8 (((BitVec.ofNat 57 (r.region * 2 ^ 21)).signExtend 64).toNat) ++
      leBytes 2 r.world ++ leBytes 2 r.count ++ leBytes 1 die ++ leBytes 1 dies ++ leBytes 2 0) 0 (2134 + die) r.world 0
    (s.onDtu die fun d => { d with posted := posted + 1 }).agentAdd (s.reg (Reg.dtu die 0x020) % 2 ^ 55 / 8 * 8) 1 (2134 + die) r.world 0

/-- Take a region's entry, or the place of the entry with the lowest count (R43); what has been advised or barred in the epoch stays so when its
entry goes (R44, R45). -/
def trackerTake (d : Dtu) (world region : Nat) : Dtu :=
  let mine := fun (r : Region) => r.world = world && r.region = region
  if d.tracker.any mine then d
  else
    let before := (d.passed.find? mine).getD ⟨world, region, 0, 0, false, false⟩
    let x : Region := { before with count := 0, homes := 0 }
    let passed := d.passed.filter fun r => !mine r
    if d.tracker.length < 1024 then { d with tracker := d.tracker ++ [x], passed }
    else match oldest Region.count d.tracker with
      | some y => { d with
          tracker := d.tracker.map fun r => if r = y then x else r
          passed := if y.advised || y.barred then passed ++ [y] else passed }
      | none => d

/-- Reads that the tracker counts: loads of a warp and copy reads (R43). -/
def OpKind.tracked : OpKind → Bool
  | .counter _ _ _ _ _ => false
  | k => k.isLoad || k.isCopyRead

/-- The hot-page tracker of the reader's die counts a remote-die read (R43 to R45); it ignores a region it has advised. One RD packet counts as one
read, where the spec leaves open what one read is: a load whose missing sectors make several runs counts more than once (log 82). -/
def trackRead (s : State) (p : Packet) (home : Nat) : State :=
  match s.ops.find? p.tag.1 with
  | none => s
  | some o =>
    let die := dieOfCore o.core
    let ctl := s.reg (Reg.dtu die 0x010)
    match o.reqs[p.tag.2]? with
    | none => s
    | some r =>
      match r.xl with
      | none => s
      | some x =>
        let region := va57 r.va / 2 ^ 21
        if ctl % 2 = 0 || home = die || 2 < x.ap || x.rp || !OpKind.tracked o.kind ||
            ((s.dtu die).tracker ++ (s.dtu die).passed).any (fun g => g.world = o.world && g.region = region && g.advised) then s
        else
          let s := if x.pn then s.bump (Reg.dtu die 0x118) 1 else s
          let s := if x.ma then s.bump (Reg.dtu die 0x120) 1 else s
          let upd := fun (g : Region) => if g.world = o.world && g.region = region then
              { g with count := Nat.min (g.count + 1) 65535, homes := g.homes ||| 2 ^ home, barred := g.barred || x.pn || x.ma } else g
          let s := s.onDtu die fun d => let d := trackerTake d o.world region; { d with tracker := d.tracker.map upd }
          let thr := ctl / 2 ^ 48
          match (s.dtu die).tracker.find? fun g => g.world = o.world && g.region = region with
          | some g =>
            if thr ≠ 0 && thr ≤ g.count && !g.advised && !g.barred then
              (s.postAdvice die g).onDtu die fun d => { d with
                tracker := d.tracker.map fun x => if x = g then { g with advised := true } else x }
            else s
          | none => s

/-- The leaf of a request is replicated (R96), and who made it. -/
def isRp (s : State) (p : Packet) : Bool :=
  match s.reqOf p.tag with
  | some (_, r) => p.via.isNone && (match r.xl with
    | some x => x.rp
    | none => false)
  | none => false

/-- A load of an RP page that its reader's die serves: it was sent to a slice of another die than the home's (R62), on which the partition
holds slices still: after a change of LSMASK the new mask directs it (R61). -/
def readsReplica (s : State) (p : Packet) : Bool :=
  Endpoint.cls p.dst = 2 && s.isRp p && Endpoint.die p.dst ≠ (channelOf (keyAp p.addr) (keyPa p.addr)).1 &&
    !(s.slicesFor (Endpoint.die p.dst) (keyAp p.addr) (keyPa p.addr)).isEmpty

/-- The home that performs a request delivered at a slice: the one that the masks name now, since a request under way at a change of
LSMASK is directed by the new mask (R61). -/
def homeNow (s : State) (p : Packet) : Endpoint := if Endpoint.cls p.dst = 2 then s.homeEnd (keyAp p.addr) (keyPa p.addr) else p.dst

/-- A request of a copy whose descriptor has the no-allocate hint (R349). -/
def hinted (s : State) (p : Packet) : Bool :=
  p.via.isNone && Endpoint.cls p.src = 1 && match (s.ops.find? p.tag.1).map MemOp.owner with
    | some (Owner.copy cid) => ((s.copies.find? cid).map (·.hint)).getD false
    | _ => false

/-- The line that such a request has brought into a slice, which did not hold it before, is among the first to leave (R349). -/
def markBrought (s before : State) (p : Packet) : State :=
  if !before.hinted p then s
  else
    let line := lineOf p.addr
    { s with l2 := s.l2.map fun (e : Nat × List L2Line) =>
        if (before.l2Line? e.1 line).isSome then e else (e.1, e.2.map fun x => if x.addr = line then { x with hint := true } else x) }

/-- A read served at its home: sectors of memory or of a replica, registers, host memory (R60, R62, R68); for a peer, whose RD tells no width,
the registers of its sectors (R435; log 64). -/
def serveRd (p : Packet) (s : State) : State :=
  let ap := keyAp p.addr
  let die := Endpoint.die p.dst
  let reply := fun (s : State) (rd : Piece → List Byte) =>
    s.send (answerPacket p .rdr (Nat.max 1 (Nat.min 4 p.pieces.length)) .done (p.pieces.map fun q => { q with data := rd q }) 0 s.clk)
  if ap = 6 then
    match (s.reqOf p.tag) with
    | some (o, r) =>
      let size := match o.kind with
        | .copyRead _ => 0
        | _ => ((r.pieces.head?).map (·.size)).getD 0
      let word := fun i => if size = 4 || size = 8 then leBytes 8 (s.readReg (keyPa p.addr / 128 * 128 + i)) else leBytes 8 0
      reply s fun q => ((List.range 4).map fun i => word (q.off + 8 * i)).flatten
    | none => reply s fun q => ((List.range (q.size / 8)).map fun i => leBytes 8 (s.readReg ((keyPa p.addr / 128 * 128 + q.off) / 8 * 8 + 8 * i))).flatten
  else if ap = 5 then reply s fun q => s.mem.readBytes (p.addr + q.off) q.size
  else if s.readsReplica p then
    match s.fillReplica die (lineOf p.addr) with
    | .error (s, n, u) => s.errorAnswer p .rdr n u
    | .ok t =>
      let s := t.markBrought s p
      let bytes := s.replicas.get [] (replicaKey die (lineOf p.addr))
      reply s fun q => (bytes.drop (p.addr + q.off - lineOf p.addr)).take q.size
  else
    let s := if Endpoint.cls p.dst = 2 then s.trackRead p (Endpoint.die (s.homeNow p)) else s
    match s.readUnits ((p.pieces.map fun q => unitsOf (p.addr + q.off) q.size).flatten).eraseDups with
    | .error (s, n, u) => s.errorAnswer p .rdr n u
    | .ok t => reply (t.markBrought s p) fun q => t.mem.readBytes (p.addr + q.off) q.size

/-- Who made a request, for which task, which warp of which workgroup (R87), and from which core. -/
def makerOf (s : State) (p : Packet) : Owner × Nat × Option (Nat × Nat) × Option Nat :=
  match (if p.via.isSome then none else s.ops.find? p.tag.1) with
  | some o => (o.owner, o.task, if o.slot = 0xFF then none else some (o.wg, o.number), some o.core)
  | none => (.gone, 0, none, none)

/-- The parts of a write of one line performed at a home, with the line's replicas, which take them together (R83, R96). -/
def homeWrite (s : State) (p : Packet) (ps : List (Nat × List Byte)) : State :=
  let s := s.pokeAll ps
  if s.isRp p then let (o, g, w, c) := s.makerOf p; s.propagate (lineOf p.addr) ps o g w c else s

/-- A write performed at its home, pieces in lane order (R57, R60, R81, R84). -/
def serveWr (p : Packet) (s : State) : State :=
  let ap := keyAp p.addr
  let ack := fun (s : State) => s.send (answerPacket p .wra 0 .done [] 0 s.clk)
  if ap = 6 then ack s
  else if ap = 5 then ack (p.pieces.foldl (fun s q => { s with mem := s.mem.writeBytes (p.addr + q.off) q.data }) s)
  else
    let ps := p.pieces.map fun q => (p.addr + q.off, q.data)
    match s.readUnits (partialParts ps) with
    | .error (s, n, u) => s.errorAnswer p .wra n u
    | .ok t => ack ((t.homeWrite p ps).markBrought s p)

/-- Data atomics performed at their home in lane order, nothing between them (R99, R339). -/
def serveAtm (p : Packet) (s : State) : State :=
  match atomOf p.fn with
  | none => s
  | some op =>
    match s.readUnits ((p.pieces.map fun q => unitsOf (p.addr + q.off) op.bytes).flatten).eraseDups with
    | .error (s, n, u) => s.errorAnswer p .atmr n u
    | .ok s =>
      let rd := fun (s : State) off => s.mem.readNat (p.addr + off) op.bytes
      let wr := fun (s : State) off v => s.homeWrite p [(p.addr + off, leBytes op.bytes v)]
      let (s, gots) := atomicPieces op rd wr s p.pieces
      s.send (answerPacket p .atmr 1 .done (p.pieces.zip gots |>.map fun q => { q.1 with got := q.2 }) 0 s.clk)

/-- The counter instruction that OPS names (log 95). -/
def ctrOf : Nat → CtrKind
  | 0 => .add | 1 => .wait | 2 => .read | 3 => .test | 4 => .init | _ => .raise

/-- A waiter that a peer's request names is cancelled (R119 to R121): its slot is freed, and the peer is told. -/
def serveCancel (p : Packet) (s : State) : State :=
  let s := { s with waiters := s.waiters.filter fun w =>
    match w.who with
    | .peer _ v => p.via ≠ some v
    | _ => true }
  s.send (answerPacket p .ctrr 1 .cancelled [] 0 s.clk)

/-- A wait stands in a slot of its home; one whose warp is gone meanwhile gives the slot back (R119, R120). -/
def registered (s : State) (ref : ReqRef) : State :=
  let s := s.setStage ref .waiter
  match s.reqOf ref with
  | some (o, _) => if o.owner = .gone then (s.freeWaiters fun n => n = ref.1).dropReq ref else s
  | none => s

/-- A counter operation performed at its home (R114): its result at once, or later by a wake. A waiter of a peer goes through the ingress
port that performs the request, which is told of its slot (R119, R128); that of a peer's agent takes an agent watch slot (R118). -/
def serveCtr (p : Packet) (s : State) : State :=
  if p.fn = cancelFn then serveCancel p s
  else match s.readUnits (unitsOf p.addr 8) with
  | .error (s, n, u) => s.errorAnswer p .ctrr n u
  | .ok s =>
    let who := match p.via with
      | some v => Waiting.peer p.src v
      | none => Waiting.warp p.tag
    let (world, va) := match s.reqOf p.tag with
      | some (o, r) => (o.world, r.va.toNat)
      | none => (p.world, 0)
    let rd := fun (s : State) => s.mem.readNat p.addr 8
    let wr := fun (s : State) v => s.homeWrite p [(p.addr, leBytes 8 v)]
    let agent := (p.via.map fun v => decide (Endpoint.cls v.1 ≠ 0)).getD false
    let (s, c) := s.counterPieces (homeNo (s.homeNow p)) agent p.addr (ctrOf p.fn) who world va p.ts rd wr p.pieces
    if c.vals.contains none then
      if p.via.isSome then s.send (answerPacket p .ctrr 1 .granted (p.pieces.map fun q => { q with got := some (leBytes 8 (rd s)) }) 0 s.clk)
      else (s.setGot p.tag (p.pieces.map fun _ => some (leBytes 8 (rd s)))).registered p.tag
    else s.send (answerPacket p .ctrr 1 (.cstat c.code) (p.pieces.zip c.vals |>.map fun q => { q.1 with got := q.2.map (leBytes 8) }) c.ts s.clk)

/-- What this device finds of a request from a peer for one of its frames (R26). -/
def peerFinding (s : State) (world ap pa : Nat) : Answer :=
  let frame := pa / 2 ^ 15
  let e := s.potEntry ap frame
  match s.worldPart 0 world, e / 2 ^ 12 % 4 with
  | none, st => .mismatch (if st = 1 then e % 2 ^ 12 else 0xFFFF)
  | some _, 1 => if e % 2 ^ 12 = world then .done else .mismatch (e % 2 ^ 12)
  | some part, 2 => if ap = 6 || s.framePart ap pa = some part then .done else .mismatch 0xFFFF
  | some _, _ => .badFrame

/-- The finding, with the root entry of the world read with its code: a request whose entry can not be read is not performed (R68, R69). -/
def findPeer (s : State) (e : Endpoint) (world ap pa : Nat) : State × Answer :=
  match s.readUnits (s.rootUnits 0 world) with
  | .ok s => (s, s.peerFinding world ap pa)
  | .error (s, n, u) => (s.unitError u n (2128 + Endpoint.idx e) world 0, .poison)

/-- The reply type of a request. -/
def replyType : PType → PType
  | .rd => .rdr
  | .wr => .wra
  | .atm => .atmr
  | _ => .ctrr

/-- A question to the peer about a frame: a read that comes from a die translation unit (R26; log 64). -/
def isQuestion (p : Packet) : Bool := p.type = .rd && Endpoint.cls p.src = 4

/-- A peer's request delivered at an ingress port: a question is answered; a request waits there for its place in its flow (R105). The
aperture that the frame names stands in the upper bits of its ADDR (log 64). -/
def ingress (e : Endpoint) (p : Packet) (s : State) : State :=
  let p := { p with dst := e }
  if isQuestion p then
    let (s, a) := s.findPeer e p.world (keyAp p.addr) (keyPa p.addr)
    s.send (answerPacket p .rdr 1 a [] 0 s.clk)
  else s.onFabric fun f => { f with incoming := f.incoming ++ [(e, p, false)] }

/-- The requests of one flow of a peer are performed one after the other (R105). -/
def sameIncoming (a b : Endpoint × Packet × Bool) : Bool := a.1 = b.1 && a.2.1.src = b.2.1.src && a.2.1.flow = b.2.1.flow

/-- The first of a peer's requests of a flow is answered when its frame fails, else performed on a flow of the port's own (R26, R105,
R167). -/
def startIncoming (s : State) (x : Endpoint × Packet × Bool) : State :=
  let (e, p, _) := x
  let home := if keyAp p.addr = 6 then Endpoint.make s.devId (keyPa p.addr / 2 ^ 24 % 8) 4 0 else s.homeEnd (keyAp p.addr) (keyPa p.addr)
  if s.peerFinding p.world (keyAp p.addr) (keyPa p.addr) = .done && !s.canSend e home p.vc then s
  else match s.findPeer e p.world (keyAp p.addr) (keyPa p.addr) with
  | (s, .done) =>
    (s.onFabric fun f => { f with incoming := f.incoming.map fun y => if y = x then (e, p, true) else y }).send
      { p with dst := home, src := e, via := some (p.src, p.tag.1 * 2 ^ 16 + p.tag.2), tag := (0, 0) }
  | (s, a) => (s.onFabric fun f => { f with incoming := f.incoming.erase x }).send (answerPacket p (replyType p.type) (if p.type = .wr then 0 else 1) a [] 0 s.clk)

/-- Requests at ingress ports that come first in their flows set out. -/
def pumpIncoming (s : State) : State :=
  s.fabric.incoming.foldl (fun s x =>
    match s.fabric.incoming.find? (sameIncoming x) with
    | some y => if y = x && !x.2.2 then s.startIncoming x else s
    | none => s) s

/-- The request of a peer that an answer speaks of has been performed: the next of its flow may set out. -/
def endIncoming (s : State) (e : Endpoint) (v : Endpoint × Nat) : State :=
  s.onFabric fun f => { f with incoming := f.incoming.filter fun x =>
    !(x.2.2 && x.1 = e && x.2.1.src = v.1 && x.2.1.tag.1 * 2 ^ 16 + x.2.1.tag.2 = v.2) }

/-- An answer that an ingress port received goes back to the requester of the other device (R167). -/
def passBack (e : Endpoint) (p : Packet) (v : Endpoint × Nat) (s : State) : State :=
  (s.endIncoming e v).send { p with dst := v.1, src := e, tag := (v.2 / 2 ^ 16, v.2 % 2 ^ 16), via := none }

/-- The outcome of an answer that is no result: the workgroup ends with MEMERR (R69), its master freezes, or the request parks
BAD-ATTR (R26, R186). -/
def badAnswer (s : State) (ref : ReqRef) (a : Answer) : State :=
  match s.ops.find? ref.1 with
  | none => s
  | some o =>
    match a with
    | .poison => (s.dropReq ref).stopWg o.wg .memerr
    | .mismatch w => s.freezeReq ref w ((((s.reqOf ref).bind fun q => q.2.xl).map (·.pa)).getD 0 / 2 ^ 15 * 2 ^ 15)
    | .badFrame | .noRoute => s.parkReq ref .badAttr
    | _ => s

/-- One of the replies to a request's packets has come; with the last one it has been performed. -/
def countReply (s : State) (ref : ReqRef) : State :=
  match s.reqOf ref with
  | some (_, r) => (match r.stage with
    | .sent (n + 2) => s.setStage ref (.sent (n + 1))
    | _ => s.finishReq ref)
  | none => s

/-- Received data of a read: L1 is filled under R54 and R94 as of the cycle when the home took it, the pieces take their bytes, but for those
that the warp's store queue gave before (R80); of an MMIO page one lane's, and the next lane's read follows (R332). -/
def takeRdr (p : Packet) (s : State) : State :=
  match p.answer with
  | .done =>
    match s.reqOf p.tag with
    | none => s
    | some (o, r) =>
      let x := r.xl.getD ⟨0, 0, 0⟩
      let base := memKey x.ap x.pa
      let s := if cached x && !o.kind.isCopyRead && !o.kind.isFetch then
          (p.pieces.filter fun q => !r.stale.contains (base + q.off)).foldl (fun s q => s.fillL1 o.core (base + q.off) q.data p.taken) s
        else s
      let slow := x.ap = 6 && !o.kind.isCopyRead
      let next := r.pieces.findIdx? fun q => q.got.isNone
      let gots := r.pieces.mapIdx fun j q =>
        if q.got.isSome || (slow && next ≠ some j) then none
        else match p.pieces.find? fun c => c.off ≤ q.off && q.off < c.off + c.size with
        | some c => some ((c.data.drop (q.off - c.off)).take q.size)
        | none => none
      let s := s.setGot p.tag gots
      if slow && 1 < (r.pieces.filter fun q => q.got.isNone).length then s.setStage p.tag .walked else s.countReply p.tag
  | a => s.badAnswer p.tag a

def takeWra (p : Packet) (s : State) : State :=
  match p.answer with
  | .done => s.countReply p.tag
  | a => s.badAnswer p.tag a

def takeAtmr (p : Packet) (s : State) : State :=
  match p.answer with
  | .done => (s.setGot p.tag (p.pieces.map (·.got))).finishReq p.tag
  | a => s.badAnswer p.tag a

/-- The values that a counter's answer gives the pieces of its request: one value of a wake serves them all. -/
def ctrrValues (s : State) (p : Packet) : List (Option (List Byte)) :=
  let val := fun (q : Piece) => if q.got.isSome then q.got else some q.data
  match p.pieces with
  | [q] => List.replicate (((s.reqOf p.tag).map fun q => q.2.pieces.length).getD 0) (val q)
  | qs => qs.map val

/-- Commands no longer wait for a request. -/
def forget (s : State) (ref : ReqRef) : State :=
  { s with dtus := s.dtus.map fun (e : Nat × Dtu) => (e.1, { e.2 with
      commands := e.2.commands.map fun c => (c.1, { c.2 with waits := c.2.waits.filter (· ≠ ref) }) }) }

/-- A counter's result or wake (R115, R119), a slot granted at a peer, or one cancelled there: the wait is then over when its instruction
was refused elsewhere, and issued again otherwise (R119 to R121). -/
def takeCtrr (p : Packet) (s : State) : State :=
  match p.answer with
  | .cstat code =>
    (((s.setGot p.tag (s.ctrrValues p)).onReq p.tag fun r => { r with code := Nat.max r.code code }).finishReq p.tag).laneDone p.tag.1 p.ts
  | .granted =>
    match s.reqOf p.tag with
    | some (_, r) => (match r.stage with
      | .sent _ => (s.setGot p.tag (s.ctrrValues p)).registered p.tag
      | _ => s)
    | none => s
  | .cancelled =>
    match s.reqOf p.tag with
    | some (o, r) => if r.stage ≠ .cancelling then s
        else if o.reqs.any (fun x => x.code = 1) then s.finishReq p.tag
        else (s.onReq p.tag Req.unsent).forget p.tag
    | none => s
  | a => s.badAnswer p.tag a

/-! Answers to requests of batteries and logical devices (R127, R382, R424, R437): what an answer's tag begins with tells what it answers. -/

/-- The tags of a battery's accesses and of the header of a call, by its number. -/
def accessTag : ReqRef := (0, 1)
def headerTag (call : Nat) : ReqRef := (call + 1, 2)

/-- The tags of the writes, the reads and the add of a call at peers (R382). -/
def writeTag (call : Nat) : ReqRef := (call + 1, 4)
def readTag (call : Nat) : ReqRef := (call + 1, 5)
def addTag (call : Nat) : ReqRef := (call + 1, 6)

/-- A call is over (R383). -/
def dropCall (s : State) (id : Nat) (c : Call) : State :=
  { s with
    calls := s.calls.erase id
    tasks := s.tasks.adjust c.task fun t => { t with calls := t.calls - 1 } }

/-- An answer for a battery's first access (R424, R425): the bytes read, a wait that is met; a slot taken for a wait, which goes on, and one refused,
after which the wait asks again when 256 cycles have passed (R118, R122, R127); a request that was not performed takes with it what the battery was to
do after it (log 97). -/
def accessAnswer (s : State) (b : Nat) (p : Packet) : State :=
  let x := s.batteries.get Battery.empty b
  let set := fun (y : Battery) => { s with batteries := s.batteries.put Battery.empty b y }
  let n := x.asked.left
  if n = 0 then s
  else match p.answer with
    | .granted => s
    | .cstat code => set { x with asked := if code = 1 && x.awaits then .refused s.clk else .answered }
    | .done => set { x with
        asked := if n = 1 then .answered else .sent (n - 1)
        got := if p.type = .rdr then (p.pieces.map (·.data)).flatten else x.got }
    | _ => if n = 1 then set { x with asked := .none, todo := [], got := [] } else set { x with asked := .sent (n - 1), todo := x.todo.take 1 }

/-- An answer for a battery: of its first access, or of what a call has written, read or added at a peer. -/
def batteryAnswer (s : State) (b : Nat) (p : Packet) : State :=
  let id := p.tag.1 - 1
  let onCall := fun (f : Call → Call) => { s with calls := s.calls.adjust id f }
  if p.tag = accessTag then s.accessAnswer b p
  else match p.tag.2 with
    | 2 => onCall fun c => { c with due := false }
    | 4 => onCall fun c => { c with owes := c.owes - 1 }
    | 5 => onCall fun c => match c.asking with
      | some q => { c with
          asking := none
          got := c.got ++ [(q, if p.answer = .done then some (((p.pieces.map (·.data)).flatten.drop (q.1 % 32)).take q.2) else none)] }
      | none => c
    | 6 => match s.calls.find? id with
      | some c => s.dropCall id c
      | none => s
    | _ => s

/-- Change a logical device's port; what its host's read is answered, and HCSTAT (R437). -/
def onHost (s : State) (ld : Nat) (f : HostPort → HostPort) : State :=
  { s with hosts := s.hosts.put HostPort.empty ld (f (s.hosts.get HostPort.empty ld)) }
def reply (s : State) (ld : Nat) (r : HostReply) : State := s.onHost ld fun h => { h with reply := r }
def setHcstat (s : State) (ld code : Nat) : State := s.onHost ld fun h => { h with status := code }

/-- A counter operation whose translation fails, or whose page or address does not serve it (R437). -/
def hostFault (s : State) (ld : Nat) : State := (s.setHcstat ld 4).reply ld (.value (BitVec.allOnes 64))

/-- The port freezes: every later request of its host is refused, and a record is posted (R35, R413, R414). -/
def freezePort (s : State) (ld die part world access va owner pa : Nat) : State :=
  ((s.freezeRecord die part va (2112 + ld) 2 access world 0 owner ld pa).onHost ld fun h => { h with frozen := true }).reply ld .abort

/-- A watch of a host is met: MSI-X vector 1 (R437). -/
def hostMet (s : State) (ld : Nat) : State :=
  s.onHost ld fun h => { h with vectors := h.vectors ||| 2, status := if h.status = 5 then 0 else h.status }

/-- An answer for a logical device from a peer (R26, R127, R437): the old value of a counter, a wake, a slot taken or refused, in which case the
counter is polled (R122), or a check that failed there. -/
def deviceAnswer (s : State) (ld : Nat) (p : Packet) : State :=
  match (s.hosts.get HostPort.empty ld).far.find? fun x => x.number = p.tag.1 with
  | none => s
  | some x =>
    let stage := fun (st : FarStage) => s.onHost ld fun h => { h with far := h.far.map fun y => if y = x then { y with stage := st } else y }
    let gone := s.onHost ld fun h => { h with far := h.far.erase x }
    match p.answer with
    | .granted => if x.stage = .cancelling then s else stage .armed
    | .cstat code =>
      if !x.watch then
        (gone.setHcstat ld code).reply ld (.value (BitVec.ofNat 64 (leNat (((p.pieces.head?).map fun q => q.got.getD q.data).getD []))))
      else if code = 1 then (if x.stage = .cancelling then gone.onHost ld fun h => { h with again := some (x.va, x.threshold) }
        else stage (.refused s.clk))
      else gone.hostMet ld
    | .mismatch w =>
      gone.freezePort ld 0 (s.reg (Reg.host (8 * ld)) / 2 ^ 12 % 64) x.world (if x.watch then 4 else 3) x.va w (x.pa / 2 ^ 15 * 2 ^ 15)
    | .poison => gone.reply ld .abort
    | .cancelled => if x.stage = .cancelling then gone.onHost ld fun h => { h with again := some (x.va, x.threshold) } else gone
    | .done | .badFrame | .noRoute => gone.hostFault ld

/-- A request delivered at an endpoint of this device: at an ingress port when it comes from another device. -/
def serveAt (f : Packet → State → State) (e : Endpoint) (p : Packet) (s : State) : State :=
  if Endpoint.dev p.src ≠ s.devId then ingress e p s else f p s

/-- An answer delivered at an endpoint: at an ingress port it is passed back to the requester of the other device, or, when it comes
from there, on to the unit that asked (R167); at a die translation unit it answers a question (R26). -/
def takeAt (f : Packet → State → State) (e : Endpoint) (p : Packet) (s : State) : State :=
  match p.via with
  | some v => passBack e p v s
  | none =>
    if Endpoint.cls e = 6 then s.send { p with src := e }
    else if Endpoint.cls e = 4 then s.peerAnswer (Endpoint.die e) p.tag.2 p.answer
    else if Endpoint.cls e = 5 then s.batteryAnswer (8 * Endpoint.die e + Endpoint.idx e) p
    else if Endpoint.cls e = 7 then s.deviceAnswer (Endpoint.idx e) p
    else f p s

end State
end Sys2Proof.Machine
end

