-- ==== Sys2Proof/Machine/Net.lean ====
section
/-!
DEFINITION. The steps of the fabric: packets at output queues and endpoints, acknowledgements, re-requests, links and lanes; writes
on their way to replicas, the lifetime of L1 sectors, the epochs of the hot-page trackers, the polls of device agents (spec/06 R162
to R187; spec/03 R95, R96; spec/01 R45, R46; spec/04 R122).
-/

namespace Sys2Proof.Machine

def ptypeOf : Nat → Option PType
  | 1 => some .rd | 2 => some .rdr | 3 => some .wr | 4 => some .wra | 5 => some .atm | 6 => some .atmr | 7 => some .ctr | 8 => some .ctrr
  | 9 => some .svc | 10 => some .ack | 11 => some .rreq | 12 => some .noroute
  | _ => none

def answerOf : Nat × Nat → Answer
  | (0, _) => .done
  | (1, _) => .poison
  | (2, w) => .mismatch w
  | (3, _) => .badFrame
  | (4, _) => .noRoute
  | (6, _) => .granted
  | (7, _) => .cancelled
  | (_, c) => .cstat c

/-- A reserved DIE or CLASS value (R164). -/
def Endpoint.bad (e : Endpoint) : Bool := 2 ^ 32 ≤ e || 9 < Endpoint.die e || 8 < Endpoint.cls e

/-- A header that a port accepts (R165), as a packet; the addresses of its pieces are counted from their line, that of a counter
operation is the counter's, and ADDR of a response holds its tag (R162). -/
def packetOf (r : RawPacket) : Option Packet :=
  let h := field r.header
  let flags := h 1 1
  let dst := h 4 4
  let src := h 8 4
  if 2 ^ 5 ≤ flags || 4 < h 2 2 || 2 ^ 10 ≤ h 24 2 || Endpoint.bad dst || Endpoint.bad src then none
  else (ptypeOf (h 0 1)).map fun ty =>
    let addr := match ty with
      | .noroute => h 16 8
      | .ctr => formKey (h 16 8)
      | _ => if ty.isResponse then 0 else formKey (h 16 8 / 128 * 128)
    let answer := if r.answer.1 = 5 then .cstat (h 26 1 % 4) else answerOf r.answer
    ⟨ty, flags.testBit 0, flags / 2 % 4, flags.testBit 3, flags.testBit 4, h 2 2, dst, src, h 12 2,
      if ty = .ack || ty = .noroute then h 26 2 else h 14 2, addr, h 24 2, if ty = .noroute then h 28 1 else h 26 1, r.world,
      if ty.isResponse then tagOf (h 16 8) else r.tag, answer,
      r.pieces.map (fun p => ⟨p.lane, p.off, p.size, p.data, p.got⟩), none, r.ts, r.slot, if ty = .ctr then h 27 1 else 0, 0⟩

/-- Packets outside the numbering of flows. -/
def PType.isControl : PType → Bool
  | .ack | .rreq | .noroute => true
  | _ => false

namespace State

/-- A packet enters through a Birrak port that is in service: a malformed header is discarded (R165); one for this device on a flow
is delivered at the port, DST naming its final unit (R167), or at the port that keeps the flow's reorder state, when the flow comes another way
meanwhile (R186; log 98); any other goes on through the switch. -/
def enterFrom (s : State) (die port : Nat) (r : RawPacket) : State :=
  if !(8 ≤ die && die ≤ 9 && 8 ≤ port && port ≤ 10 && s.outputOpen die port) then s
  else match packetOf r with
    | none => s.bump (Reg.port die port 0x40) 1
    | some p =>
      let keeper := ((List.range 6).map s.birrakEnd).find? fun e => (s.flowsAt e).any (sameFlow p)
      let here := keeper.getD (s.birrakEnd ((die - 8) * 3 + (port - 8)))
      if Endpoint.dev p.dst = s.devId && !p.type.isControl then s.setInbox here (s.inbox here ++ [p])
      else s.arriveFrom die port p

/-- The head of an inbox when it is a control packet of a type. -/
def takeControl (s : State) (e : Endpoint) (ty : PType) (f : Packet → State → State) : State :=
  match s.inbox e with
  | [] => s
  | p :: rest => if p.type = ty && !p.trimmed then f p (s.setInbox e rest) else s

/-- A request that could not be routed is not sent again. The number that it had is given back when it was the flow's last; otherwise an SVC
packet that carries nothing takes the number, so that the flow can go on behind it (R168; log 99). A flow with nothing kept is closed (R166,
R186). -/
def dropUnrouted (s : State) (src : Endpoint) (flow : Nat) (u : Unacked) : State :=
  let q := u.packet
  let s := s.onSrcFlow src flow fun f =>
    if f.nextSeq % 2 ^ 16 = (q.seq + 1) % 2 ^ 16 then
      { f with nextSeq := f.nextSeq - 1, unacked := f.unacked.filter (· ≠ u), resend := f.resend.filter (· ≠ q.seq) }
    else
      { f with unacked := f.unacked.map fun v => if v = u then
          { v with packet := { q with type := .svc, vc := 3, len := 0, fn := 0, tag := (0, 0), pieces := [], via := none, ts := 0 }, held := true } else v }
  s.onFabric fun g => { g with srcFlows := g.srcFlows.filter fun f => !(f.src = src && f.id = flow && f.unacked = []) }

/-- A request that found no route is over: it parks BAD-ATTR, or an ingress port passes the NOROUTE back, or it was the question or access
of a unit that is answered so (R186). -/
def notRouted (s : State) (e : Endpoint) (p q : Packet) : State :=
  match q.via with
  | some v => (s.endIncoming e v).arriveAt (Endpoint.die e)
      { p with src := e, dst := v.1, via := none, tag := (v.2 / 2 ^ 16, v.2 % 2 ^ 16), fn := 4, age := 0 }
  | none =>
    let a := { p with tag := q.tag, answer := .noRoute }
    if Endpoint.cls e = 4 then s.peerAnswer (Endpoint.die e) q.tag.2 .noRoute
    else if Endpoint.cls e = 5 then s.batteryAnswer (8 * Endpoint.die e + Endpoint.idx e) a
    else if Endpoint.cls e = 7 then s.deviceAnswer (Endpoint.idx e) a
    else s.badAnswer q.tag .noRoute

/-- A NOROUTE at the source of the packet it names: of a request that the source keeps, the request is over; an ACK or RREQ, which no flow
keeps, is sent again after 4,096 cycles; any other packet, a bunt among them, is queued again under a held interval (R186, R187). What an ingress port has passed
back names a request by its tag (log 70). -/
def takeNoroute (e : Endpoint) (p : Packet) (s : State) : State :=
  if p.fn = 2 || p.fn = 3 then
    let (ty, vc) := if p.fn = 2 then (PType.ack, 3) else (PType.rreq, 0)
    let again : Packet := ⟨ty, false, vc, false, false, 0, p.addr, e, p.flow, p.seq, 0, 0, 0, 0, (0, 0), .done, [], none, 0, 0, 0, 0⟩
    s.onFabric fun f => { f with bounced := f.bounced ++ [(s.fclk + 4096, again)] }
  else
    let kept := (s.fabric.srcFlows.find? fun f => f.src = e && f.id = p.flow).bind fun f => f.unacked.find? fun u => u.packet.seq = p.seq
    if p.fn = 4 then s.notRouted e p p
    else if p.fn = 5 then s.onSrcFlow e p.flow fun f => f.rreq p.seq s.fclk true
    else match kept with
      | some u => if u.packet.type.isRequest then (s.dropUnrouted e p.flow u).notRouted e p u.packet
          else s.onSrcFlow e p.flow fun f => f.rreq p.seq s.fclk true
      | none => s

/-- Control packets that could not be routed set out again when their time has come (R187). -/
def sendBounced (s : State) : State :=
  let due := s.fabric.bounced.filter fun b => b.1 ≤ s.fclk
  due.foldl (fun s b => s.arriveAt (Endpoint.switch b.2.src) b.2)
    (if due.isEmpty then s else s.onFabric fun f => { f with bounced := f.bounced.filter fun b => s.fclk < b.1 })

/-- What waits at its source or at an ingress port sets out when it may (R105, R166, R182, R187). -/
def pumpFabric (s : State) : State := s.sendBounced.pumpIncoming.sendHeld

/-- A record for the captain on a port or a link (R184, R185, R187): kind, die or port, number. -/
def fabricRecord (s : State) (kind a b : Nat) : State :=
  { s with records := s.records ++ [[BitVec.ofNat 8 kind, BitVec.ofNat 8 a, BitVec.ofNat 8 b]] }

/-- Replays in any window of 2^20 fabric cycles that retire a half or lane; the links of compute dies take I/O die A's bound (R184,
R190). -/
def brlth (s : State) (die : Nat) : Nat := s.reg (Reg.fabric (if die = 9 then 9 else 8) 0x1188) % 2 ^ 16

/-- A link sends a flit again (R183); a half or lane with more than BRLTH replays in the window is then retired (R184, R185). The replays
that each receiving port counts are held against the bound apart (log 77). -/
def replay (s : State) (die port part : Nat) : State :=
  let s := s.bump (Reg.port die port 0x38) 1
  let k := 16 * (32 * die + port) + part
  let times := ((s.fabric.replays.get [] k).filter fun t => s.fclk < t + 2 ^ 20) ++ [s.fclk]
  let s := s.onFabric fun f => { f with replays := f.replays.put [] k times }
  if times.length ≤ s.brlth die then s
  else
    let s := s.onFabric fun f => { f with replays := f.replays.erase k }
    match across die port with
    | some d => if d < 10 && die < 10 then { s with agenda := .event (.halfRetire die d part) :: s.agenda } else s
    | none =>
      if 8 ≤ die && 8 ≤ port && port ≤ 10 then { s with agenda := .event (.laneRetire ((die - 8) * 3 + (port - 8)) part) :: s.agenda }
      else s

/-- A compute die has a link in service (R184). -/
def reachable (s : State) (d : Nat) : Bool := (List.range 10).any fun o => o ≠ d && s.linkUp d o

/-- The packets at an output take the new path (R184). -/
def reroute (s : State) (die port : Nat) : State :=
  let o := s.outOf die port
  let ps := o.vc0 ++ o.vc1 ++ o.vc2 ++ o.vc3 ++ o.input
  ps.foldl (fun s p => s.arriveFrom die port p) (s.setOut die port { OutQueue.empty with busyTill := o.busyTill })

/-- The partitions that own a unit, a channel, a slice or a queue of a die, enabled or not. -/
def partitionsOn (s : State) (d : Nat) : List Nat :=
  (List.range 64).filter fun p =>
    ((List.range 8).any fun u => s.unitPart (8 * d + u) = some p) ||
    ((List.range 72).any fun n => s.reg (Reg.memory d (0x800 + 8 * n)) = 128 + p) ||
    s.reg (Reg.memory d (0x200 + 8 * p)) ≠ 0 || s.queues.any fun e => e.1 / 32 = d && e.2.entry.slots ≠ 0 && e.2.entry.partition = p

/-- The battery to which the captain hands over before its own partition is reset: the first of R441 that is neither retired nor on a die
(log 75). -/
def handTo (s : State) (lost : Nat) : Nat :=
  (((List.range 7).map fun k => 8 * ((s.captain / 8 + k + 1) % 8)).find? fun b =>
    b / 8 ≠ lost && b ≠ s.captain && !(s.batteries.get Battery.empty b).retired).getD s.captain

/-- A half of the link between two dies is retired. With both gone, its packets take a relay path; a compute die with no link left is
unreachable: this is recorded, its batteries stop, and the captain, if it is elsewhere, resets every partition with a part on the die,
its own after a handover (R444); a captain on the die is replaced first (R184). A link to an I/O die has two halves too (log 76). -/
def retireHalf (s : State) (a b half : Nat) : State :=
  let lo := Nat.min a b
  let hi := Nat.max a b
  let k := 16 * lo + hi
  let old := s.fabric.links.get 0 k
  if a = b || 10 ≤ hi || 8 ≤ lo || 2 ≤ half || old.testBit half then s
  else
    let s := s.onFabric fun f => { f with links := f.links.put 0 k (old + 2 ^ half) }
    if s.linkUp a b then s
    else
      let s := (s.reroute lo (linkPort lo hi)).reroute hi (linkPort hi lo)
      [lo, hi].foldl (fun s d =>
        if d < 8 && !s.reachable d then
          let s := s.fabricRecord 3 d 0
          let s := { s with batteries := (List.range 8).foldl (fun (m : Map Battery) i =>
              m.insert (8 * d + i) { m.get Battery.empty (8 * d + i) with retired := true, wiped := true }) s.batteries }
          if s.captain / 8 = d then s
          else
            let c := s.captain
            let reset := fun (b p : Nat) => Turn.event (.preset (.battery b) (BitVec.ofNat 64 (128 + p)))
            let epoch := s.reg (Reg.module 0x200) / 2 ^ 16 % 2 ^ 32
            let own := if (s.partitionsOn d).contains c then
                [Turn.event (.capt (.battery c) (BitVec.ofNat 64 ((epoch + 1) % 2 ^ 32 * 2 ^ 16 + s.handTo d))), reset (s.handTo d) c] else []
            { s with agenda := (((s.partitionsOn d).filter (· ≠ c)).map (reset c)) ++ own ++ s.agenda }
        else s) s

def onBirrak (s : State) (p : Nat) (f : Birrak → Birrak) : State :=
  s.onFabric fun g => { g with birrak := g.birrak.insert p (f (g.birrak.get Birrak.empty p)) }

/-- The lanes of a port change; a change of width is recorded for the captain, and the port retrains (R185). A port that has not trained has
width 0. -/
def setLanes (s : State) (port bad : Nat) : State :=
  let was := if (s.birrakOf port).trained then birrakWidth (s.birrakOf port).badLanes else 0
  let s := s.onBirrak port fun b => { b with badLanes := bad, retrainTill := s.fclk + 16384, trained := true }
  if birrakWidth bad = was then s else s.fabricRecord 2 port (birrakWidth bad)

/-- Sectors and staged lines at the end of their lifetime (R95, R342). -/
def endLifetimes (s : State) (core : Nat) : State :=
  let s := s.setL1 core ((s.l1Of core).filter s.fresh)
  s.setStaged (squadOfCore core) ((s.stagedOf (squadOfCore core)).filter s.fresh)

/-- An SVC packet of this device is delivered; of one from another device the spec says nothing, and it has no effect (log 59). -/
def takeSvc (s : State) (p : Packet) : State :=
  if Endpoint.dev p.src ≠ s.devId then s
  else if p.fn = svcCall then s.takeCallRecord p
  else if p.fn = svcPost then s.takePost p
  else if p.fn = svcToken then s.askToken (Endpoint.die p.dst) p
  else if p.fn = svcTokenMet then s.takeTokenMet p
  else if p.fn = svcSaved then s.giveEntry p
  else if p.fn = svcEntry then s.takeEntry p
  else s

/-- The length of an epoch in core cycles (R46). -/
def epochLength (s : State) (die : Nat) : Nat :=
  let e := s.reg (Reg.dtu die 0x010) / 2 ^ 16 % 2 ^ 16
  65536 * if e = 0 then 1 else e

/-- The agent that a watch is for, by its number (R8, R201). -/
def watcher (s : State) : Waiting → Nat
  | .fence q | .queue q => 2134 + q / 32
  | .post id => 2134 + ((s.posts.find? fun p => p.id = id).bind fun p => p.place.map fun x => x.1 / 32).getD 0
  | .ring die _ | .repair die _ => 2134 + die
  | .host ld => 2112 + ld
  | .battery b => 2048 + b
  | .warp _ | .peer _ _ => 0

/-- One poll of a device agent (R122); one that finds the counter's unit uncorrectable does not end, and leaves a record (R68 to R70). Re-reads of
an agent that could not read its counter count in CPOLL as polls do (R126; log 79). -/
def poll (s : State) (p : Poll) : State :=
  let s := s.bump (Reg.counter (dieOfHome p.home) 0x20) 1
  let again := fun (s : State) => { s with polls := s.polls.map fun q => if q = p then { p with last := s.clk } else q }
  match s.readUnits (unitsOf p.addr 8) with
  | .error (s, n, u) => again (s.unitError u n (s.watcher p.who) p.world 0)
  | .ok s =>
    let v := s.mem.readNat p.addr 8
    if p.threshold ≤ v then { s with polls := s.polls.erase p }.wakeOne ⟨p.home, true, 0, p.addr, p.threshold, p.who, 0, 0, 0⟩ v 0
    else again s

end State

/-- OUTPUT_QUEUE_ARRIVAL (R173, R174); with a packet, its arrival from outside (R165, R167). -/
def execOutputQueueArrival (die port : Nat) (outside : Option RawPacket) (s : State) : Out :=
  .next (match outside with
    | none => s.queueArrival die port
    | some r => s.enterFrom die port r)

/-- PACKET_GRANT (R170 to R172). -/
def execPacketGrant (die port : Nat) (s : State) : Out := .next (s.grant die port)

/-- RD (R163): a read request is delivered and served. The table has no row for SVC packets, whose step this is too. -/
def execRd (e : Nat) (s : State) : Out :=
  .next (s.receive e (fun t => t = .rd || t = .svc) fun p s => if p.type = .svc then s.takeSvc p else State.serveAt State.serveRd e p s)
/-- RDR. -/
def execRdr (e : Nat) (s : State) : Out := .next (s.receive e (· = .rdr) (State.takeAt State.takeRdr e))
/-- WR. -/
def execWr (e : Nat) (s : State) : Out := .next (s.receive e (· = .wr) (State.serveAt State.serveWr e))
/-- WRA. -/
def execWra (e : Nat) (s : State) : Out := .next (s.receive e (· = .wra) (State.takeAt State.takeWra e))
/-- ATM. -/
def execAtm (e : Nat) (s : State) : Out := .next (s.receive e (· = .atm) (State.serveAt State.serveAtm e))
/-- ATMR. -/
def execAtmr (e : Nat) (s : State) : Out := .next (s.receive e (· = .atmr) (State.takeAt State.takeAtmr e))
/-- CTR. -/
def execCtr (e : Nat) (s : State) : Out := .next (s.receive e (· = .ctr) (State.serveAt State.serveCtr e))
/-- CTRR. -/
def execCtrr (e : Nat) (s : State) : Out := .next (s.receive e (· = .ctrr) (State.takeAt State.takeCtrr e))

/-- ACK (R168, R177, R182). -/
def execAck (e : Nat) (s : State) : Out := .next (s.takeControl e .ack fun p s => s.onSrcFlow e p.flow fun f => f.acked p.seq)
/-- ACK_DUE (R168). -/
def execAckDue (e : Nat) (s : State) : Out := .next (s.ackDue e)
/-- BUNT (R176). -/
def execBunt (e : Nat) (s : State) : Out := .next (s.receiveBunt e)
/-- RREQ (R177). -/
def execRreq (e : Nat) (s : State) : Out :=
  .next (s.takeControl e .rreq fun p s => s.onSrcFlow e p.flow fun f => f.rreq p.seq s.fclk false)
/-- RETRANSMISSION (R177). -/
def execRetransmission (src flow : Nat) (s : State) : Out := .next (s.retransmit src flow)
/-- NOROUTE (R186, R187). -/
def execNoroute (e : Nat) (s : State) : Out := .next (s.takeControl e .noroute (State.takeNoroute e))
/-- UNACKNOWLEDGED_RESEND (R187). -/
def execUnacknowledgedResend (src flow : Nat) (s : State) : Out := .next (s.resendOld src flow)
/-- LINK_REPLAY (R183). -/
def execLinkReplay (die port part : Nat) (s : State) : Out := .next (s.replay die port part)
/-- HALF_RETIRE (R184). -/
def execHalfRetire (die other half : Nat) (s : State) : Out := .next (s.retireHalf die other half)
/-- LANE_RETIRE (R185). -/
def execLaneRetire (port lane : Nat) (s : State) : Out :=
  if 6 ≤ port || 16 ≤ lane || (s.birrakOf port).badLanes.testBit lane then .next s
  else .next (s.setLanes port ((s.birrakOf port).badLanes + 2 ^ lane))
/-- PORT_RETRAIN (R185, R190): the port has trained and carries flits; its first training is a change of width. -/
def execPortRetrain (port : Nat) (s : State) : Out :=
  if 6 ≤ port then .next s
  else
    let b := s.birrakOf port
    let t := s.onBirrak port fun b => { b with retrainTill := s.fclk, trained := true }
    .next (if b.trained || State.birrakWidth b.badLanes = 0 then t else t.fabricRecord 2 port (State.birrakWidth b.badLanes))
/-- REPLICA_PROPAGATION (R96). -/
def execReplicaPropagation (die line : Nat) (s : State) : Out := .next (s.applyPropagation die line)
/-- L1_LIFETIME_END (R95). -/
def execL1LifetimeEnd (core : Nat) (s : State) : Out := .next (s.endLifetimes core)
/-- EPOCH_END (R45): all counts clear. -/
def execEpochEnd (die : Nat) (s : State) : Out :=
  if s.clk < (s.dtu die).epochStart + s.epochLength die then .next s
  else .next (s.onDtu die fun d => { d with tracker := [], passed := [], epochStart := s.clk })
/-- AGENT_POLL (R122). -/
def execAgentPoll (die : Nat) (s : State) : Out :=
  .next ((s.polls.filter fun p => State.dieOfHome p.home = die && p.last + 256 ≤ s.clk).foldl State.poll s)

end Sys2Proof.Machine
end

