-- ==== Sys2Proof/Machine/Commands.lean ====
section
/-!
DEFINITION. The commands of a die's rings: translations and ownership, RELEASE and ABANDON, key slots (spec/01 R36 to R41; spec/04
R121; spec/05 R149 to R153; spec/16 R409).
-/

namespace Sys2Proof.Machine

/-- Fields of a command slot (R36). -/
structure Cmd where
  op : Nat
  flags : Nat
  world : Nat
  entry : Nat
  aperture : Nat
  va : Nat
  count : Nat
  spare : Nat
  counter : Nat
  deriving DecidableEq, Repr

def Cmd.ofBytes (b : List Byte) : Cmd :=
  ⟨field b 0 1, field b 1 1, field b 2 2, field b 4 2, field b 6 1, field b 8 8, field b 0x10 4, field b 0x14 4, field b 0x18 8⟩

namespace Cmd
def allDies (c : Cmd) : Bool := c.flags % 2 = 1
/-- Commands that name frames. -/
def frames (c : Cmd) : Bool := c.op = 3 || c.op = 4 || c.op = 5
def newState (c : Cmd) : Nat := c.entry / 2 ^ 12 % 4

/-- Status 1: a bad opcode, a field that must be zero, a count of 0, a value that is not listed, a world id above the 4,096 of R14
(R36, R149, R409; log 17). -/
def malformed (c : Cmd) : Bool :=
  let noEntry := c.entry = 0
  let noAp := c.aperture = 0
  let fields := match c.op with
    | 1 => noEntry && noAp && c.count ≠ 0
    | 2 => noEntry && noAp && c.va = 0 && c.count = 0
    | 3 => c.entry / 2 ^ 14 = 0 && c.world = (if c.newState = 1 then c.entry % 2 ^ 12 else 0) &&
        (c.aperture = 0 || c.aperture = 1 || c.aperture = 3 || c.aperture = 6) && c.count ≠ 0
    | 4 | 5 => noEntry && c.world = 0 && c.aperture ≤ 1 && c.count ≠ 0
    | 6 => noEntry && noAp && c.count ≠ 0
    | 7 => noEntry && noAp && c.va / 2 ^ 32 = 0 && c.count = 0
    | 8 | 9 => noEntry && noAp && c.va = 0 && c.count = 0
    | _ => false
  c.flags / 2 ≠ 0 || c.spare ≠ 0 || 4096 ≤ c.world || !fields
end Cmd

namespace State

/-- Each channel and vault that a range of frames reaches has a frame among these. -/
def sampled (ap first count : Nat) : List Nat := (List.range (if ap = 3 then count else Nat.min count 512)).map (first + ·)

/-- The status that a command completes with before its own effect: 1, then 2, then 3 (R39, R149, R409). -/
def cmdStatus (s : State) (die part : Nat) (c : Cmd) : Nat :=
  let captain := s.captain = part
  let installed := c.va + c.count ≤ apFrames c.aperture
  let namesWorld := !c.frames || (c.op = 3 && c.newState = 1)
  let worldBad := namesWorld && s.worldPart die c.world ≠ some part
  let framesBad := c.frames && (!installed || c.aperture = 6 ||
    (sampled c.aperture c.va c.count).any fun f => s.framePart c.aperture (f * 2 ^ 15) ≠ some part)
  if c.malformed then 1
  else if !captain && (8 ≤ c.op || worldBad || framesBad) then 2
  else if (c.frames && !installed) || (c.op = 6 && 2 ^ 49 < c.va / 2 ^ 15 + c.count) then 3
  else 0

/-! An agent's requests to a peer's memory (R127, R163). -/

/-- A packet of an agent: a read of sectors of a line, a write of bytes of a line, or a counter operation of a function, whose ADDR is the
counter's. -/
def peerPacket (s : State) (src : Endpoint) (world : Nat) (tag : ReqRef) (ty : PType) (form fn n : Nat) (bs : List Byte) : State :=
  let pa := form % 2 ^ 55
  let ctr := ty = .ctr
  let off := if ctr then 0 else pa % 128
  let sectors := if n = 0 then 0 else (off + n - 1) / 32 - off / 32 + 1
  let ps : List Piece := if ty = .rd then (List.range sectors).map fun i => ⟨i, off / 32 * 32 + 32 * i, 32, [], none⟩ else [⟨0, off, n, bs, none⟩]
  s.send ⟨ty, false, if ctr then 3 else 1, false, false, if ty = .rd then 0 else if ctr then 1 else sectors, peerEnd pa, src, 0, 0,
    if ctr then peerKey pa else lineOf (peerKey pa), 0, if ctr then fn else sectors, world, tag, .done, ps, none, 0, 0xFF, 0, 0⟩

/-- A range cut at the lines, and at the sectors, by rising address: address and length. -/
def cutAt (k : Nat) (a n : Nat) : List (Nat × Nat) :=
  if n = 0 then [] else (List.range ((a + n - 1) / k - a / k + 1)).map fun i =>
    let lo := Nat.max a ((a / k + i) * k)
    (lo, Nat.min (a + n) ((a / k + i + 1) * k) - lo)

/-- The packets of a write: the whole sectors of a line in one, else one masked write for each sector (R163). -/
def writeParts (a : Nat) (n : Nat) : List (Nat × Nat) :=
  ((cutAt 128 a n).map fun q => if q.1 % 32 = 0 && q.2 % 32 = 0 then [q] else cutAt 32 q.1 q.2).flatten

/-- Bytes written to a peer's memory, and how many answers are to come. -/
def peerWrite (s : State) (src : Endpoint) (world : Nat) (tag : ReqRef) (form : Nat) (bs : List Byte) : State × Nat :=
  let parts := writeParts form bs.length
  (parts.foldl (fun s q => s.peerPacket src world tag .wr q.1 0 q.2 ((bs.drop (q.1 - form)).take q.2)) s, parts.length)

/-! Translations taken away (R38, R121). -/

/-- The dies a command acts on. -/
def diesOf (die : Nat) (c : Cmd) : List Nat := if c.allDies || 8 ≤ c.op then List.range 8 else [die]

/-- Pages of a command's range: none stands for every address of the world. -/
def pagesOf (c : Cmd) : Option (Nat × Nat) := if c.op = 2 then none else some (c.va % 2 ^ 57 / 2 ^ 15, c.count)

/-- A TLB entry that an invalidation removes. -/
def removed (s : State) (c : Cmd) (t : TlbEntry) : Bool :=
  if c.frames then s.mapsFrame c.aperture c.va c.count t
  else t.world = c.world && match pagesOf c with
    | none => true
    | some (p, n) => let k := 2 ^ (t.size - 15); t.vpn * k < p + n && p < t.vpn * k + k

/-- An address of a world within a range of pages; the frame of a request within a range of frames. -/
def covers (c : Cmd) (world : Nat) (va : Nat) (x : Option Xlated) : Bool :=
  if c.frames then
    match x with
    | some x => x.ap = c.aperture && c.va ≤ x.pa / 2 ^ 15 && x.pa / 2 ^ 15 < c.va + c.count
    | none => false
  else world = c.world && match pagesOf c with
    | none => true
    | some (p, n) => let q := va % 2 ^ 57 / 2 ^ 15; p ≤ q && q < p + n

/-- The walk cache without the entries above a range; a command on frames leaves it. -/
def keepWalk (c : Cmd) (w : WalkEntry) : Bool :=
  c.frames || w.world ≠ c.world || match pagesOf c with
    | none => false
    | some (p, n) => let k := 2 ^ (12 * w.level); !(w.key * k < p + n && p < w.key * k + k)

/-- Entries leave the first-level TLBs of the dies, the last-level TLBs and the walk caches; a walk in progress for what goes is made
again after the command (R32). -/
def dropTranslations (s : State) (dies : List Nat) (c : Cmd) : State :=
  let s := { s with
    coreTlb := s.coreTlb.filterMap fun (e : Nat × List TlbEntry) =>
      if dies.contains (dieOfCore e.1) then
        let l := e.2.filter fun t => !s.removed c t
        if l.isEmpty then none else some (e.1, l)
      else some e }
  dies.foldl (fun s d => s.onDtu d fun u => { u with
    missQ := u.missQ.map fun (m : Miss) => { m with asked := m.asked.filter fun q => !s.removed c q.1 }
    tlb := u.tlb.filter fun t => !s.removed c t
    walkCache := u.walkCache.filter (keepWalk c) }) s

/-- A request on its way used such a translation: its own page or frame lies in the range, or it came by a TLB entry of its core or die
that goes (R38). -/
def usedBy (s : State) (c : Cmd) (o : MemOp) (r : Req) : Bool :=
  covers c o.world r.va.toNat r.xl || (s.tlbOf o.core ++ (s.dtu (dieOfCore o.core)).tlb).any fun t =>
    s.removed c t && t.hits o.world r.va

/-- A translation that the unit of die 0 gave an agent is among those that a command takes away. -/
def takenFrom (s : State) (c : Cmd) (world va : Nat) (x : Xlated) : Bool :=
  covers c world va (some x) || (s.dtu 0).tlb.any fun t => s.removed c t && t.hits world (BitVec.ofNat 64 va)

/-- A counter operation of a host that used such a translation and stands at its peer in one of some ways. -/
def farOps (s : State) (dies : List Nat) (c : Cmd) (f : FarStage → Bool) : List (Nat × FarOp) :=
  if !dies.contains 0 then []
  else (s.hosts.map fun e => (e.2.far.filter fun x => f x.stage && s.takenFrom c x.world x.va ⟨4, x.pa, 0⟩).map fun x => (e.1, x)).flatten

/-- Requests on their way that used such a translation, before its entries go: of warps and copies, of hosts at peers, of calls, whose block and
counter are used until they have completed, and what their services read and write at peers (R38, R41, R379, R382). -/
def users (s : State) (dies : List Nat) (c : Cmd) : List ReqRef :=
  (s.ops.map fun e => if !dies.contains (dieOfCore e.2.core) then [] else
    (e.2.reqs.mapIdx fun i r => (i, r)).filterMap fun q =>
      match q.2.stage with
      | .sent _ | .walked => if s.usedBy c e.2 q.2 then some (e.1, q.1) else none
      | .done => if e.2.kind.isSvc && s.usedBy c e.2 q.2 then some (e.1, q.1) else none
      | _ => none).flatten ++
  (s.calls.filterMap fun (e : Nat × Call) =>
    let at' := fun (form : Nat) => if form = 0 then none else some (⟨form / 2 ^ 56 % 8, form % 2 ^ 56, 0⟩ : Xlated)
    let hit := fun (va : DWord) (form : Nat) => form ≠ 0 && (covers c e.2.world va.toNat (at' form) ||
      ((s.tlbOf e.2.agent ++ (s.dtu (dieOfCore e.2.agent)).tlb).any fun t => s.removed c t && t.hits e.2.world va))
    if dies.contains (dieOfCore e.2.agent) && (hit e.2.argVa e.2.arg || hit e.2.counterVa e.2.counter) then some (e.2.op, 0)
    else if dies.contains (e.2.battery / 8) && !c.frames && c.world = e.2.world && (e.2.asking.isSome || e.2.owes ≠ 0) then some (e.2.op, 2)
    else none) ++
  (s.farOps dies c fun st => st = .sent || st = .cancelling).map fun x => (x.2.number, 0)

/-- Waits registered by such a translation. -/
def waitersOf (s : State) (dies : List Nat) (c : Cmd) : List ReqRef :=
  (s.ops.map fun e => if !dies.contains (dieOfCore e.2.core) then [] else
    (e.2.reqs.mapIdx fun i r => (i, r)).filterMap fun q =>
      if q.2.stage = .waiter && !inWindow q.2.va && s.usedBy c e.2 q.2 then some (e.1, q.1) else none).flatten

def stageIs (s : State) (ref : ReqRef) (f : Stage → Bool) : Bool := ((s.reqOf ref).map fun q => f q.2.stage).getD false

/-- The watch of a host on a peer's counter is cancelled there, to be issued again (R121). -/
def cancelFar (s : State) (ld : Nat) (x : FarOp) : State :=
  let set := fun (f : HostPort → HostPort) => { s with hosts := s.hosts.adjust ld f }
  match x.stage with
  | .armed => (set fun h => { h with far := h.far.map fun y => if y = x then { y with stage := .cancelling } else y }).peerPacket
      (s.deviceEnd ld) x.world (x.number, 3) .ctr x.pa cancelFn 8 (leBytes 8 x.threshold)
  | .refused _ => set fun h => { h with far := h.far.erase x, again := some (x.va, x.threshold) }
  | .sent | .cancelling => s

/-- The watches of hosts that have such a translation are cancelled, to be issued again (R118, R121). -/
def cancelHosts (s : State) (dies : List Nat) (c : Cmd) : State :=
  let mine := fun (who : Waiting) (addr world va : Nat) => match who with
    | .host _ => dies.contains 0 && s.takenFrom c world va ⟨keyAp addr, keyPa addr, 0⟩
    | _ => false
  let gone := (s.waiters.filter fun w => mine w.who w.addr w.world w.va).map (fun w => (w.who, w.va, w.threshold)) ++
    (s.polls.filter fun p => mine p.who p.addr p.world p.va).map fun p => (p.who, p.va, p.threshold)
  let s := if gone.isEmpty then s else { s with
    waiters := s.waiters.filter fun w => !mine w.who w.addr w.world w.va
    polls := s.polls.filter fun p => !mine p.who p.addr p.world p.va
    hosts := gone.foldl (fun hs g => match g.1 with
      | .host ld => hs.adjust ld fun h => { h with again := some g.2 }
      | _ => hs) s.hosts }
  (s.farOps dies c fun st => st ≠ .sent && st ≠ .cancelling).foldl (fun s x => s.cancelFar x.1 x.2) s

/-- Translations are taken away, and with them the waits they gave, which are issued again (R38, R121); the requests that the command
waits for. -/
def takeAway (s : State) (dies : List Nat) (c : Cmd) : State × List ReqRef :=
  let used := s.users dies c
  let waits := s.waitersOf dies c
  let s := (waits.foldl cancelWait s).cancelHosts dies c
  let far := (s.farOps dies c (· = .cancelling)).map fun x => (x.2.number, 0)
  let s := s.dropTranslations dies c
  (s, used ++ far ++ waits.filter fun r => s.stageIs r (· = .cancelling))

/-- The waits, of warps and of hosts, that requests on their way have registered since. -/
def cancelLate (s : State) (refs : List ReqRef) : State :=
  let s := (refs.filter fun r => s.stageIs r (· = .waiter)).foldl cancelWait s
  s.hosts.foldl (fun s e => (e.2.far.filter fun x => x.stage = .armed && refs.any fun r => r.1 = x.number).foldl (fun s x => s.cancelFar e.1 x) s) s

/-- A command still waits for a request: one on its way, a host's at a peer, a call not completed or its reads and writes at peers, or for RELEASE
one that has not been performed, registered or parked. -/
def unsettled (s : State) (op : Nat) (ref : ReqRef) : Bool :=
  (op ≠ 6 && ((s.ops.any fun e => e.1 = ref.1 && e.2.kind.isSvc) ||
    (s.calls.any fun e => e.2.op = ref.1 && (ref.2 ≠ 2 || e.2.asking.isSome || e.2.owes ≠ 0)) ||
    s.hosts.any fun e => e.2.far.any fun x => x.number = ref.1 && (x.stage = .sent || x.stage = .cancelling))) ||
  s.stageIs ref fun st => match st with
    | .sent _ | .walked | .cancelling => true
    | .core | .limited | .miss => op = 6
    | .done | .waiter | .parked _ _ => false

/-! RELEASE and ABANDON (R150 to R152). -/

/-- Parked requests of a die taken out of its dugout, in park order. -/
def takeParked (s : State) (die : Nat) (f : Parked → Bool) : State × List Parked :=
  let d := s.dtu die
  let out := (d.parked ++ d.waiting).filter f
  let left := d.parked.filter fun p => !f p
  (s.onDtu die fun d => { d with
    parked := left
    waiting := d.waiting.filter fun p => !f p
    pages := d.pages.filter fun g => left.any fun p => p.world = g.world && p.page = g.page }, out)

/-- RELEASE on one die: every request of the world in the range walks again, in park order; those in the miss queue will, and one
whose walk waits for a peer is walked anew, one that had joined a walk of another page on its own (R150, R151). -/
def releaseDie (s : State) (die : Nat) (c : Cmd) : State × List ReqRef :=
  let first := c.va % 2 ^ 57 / 2 ^ 15
  let inRange := fun (world page : Nat) => world = c.world && first ≤ page && page < first + c.count
  let (s, out) := s.takeParked die fun p => inRange p.world p.page
  let missing := ((s.dtu die).missQ.filter fun m => inRange m.world m.page).map (·.refs)
  let own := fun (m : Miss) (ref : ReqRef) => !inRange m.world m.page && ((s.reqOf ref).map fun q => inRange m.world (pageOf q.2.va)).getD false
  let joined := ((s.dtu die).missQ.map fun m => m.refs.filter (own m)).flatten
  let s := s.onDtu die fun d => { d with
    missQ := (d.missQ.map fun (m : Miss) => if inRange m.world m.page then { m with asked := none }
      else { m with refs := m.refs.filter fun r => !own m r }).filter fun m => m.refs ≠ [] || m.asked.isSome }
  let s := (out.map (·.ref) ++ joined).foldl (fun s ref => (s.setStage ref .core).walkReq die ref) s
  (s, out.map (·.ref) ++ missing.flatten ++ joined)

/-- ABANDON: requests parked on the dies it acts on are discarded, and the task's workgroups ended or cancelled with those of the tasks it
posted (R152, R387). -/
def abandon (s : State) (dies : List Nat) (id world : Nat) : State :=
  match List.find? (fun (e : Nat × Task) => e.2.id = id && e.2.world = world) s.tasks with
  | none => s
  | some e =>
    let root := e.1
    let family := (s.tasks.filter fun t => t.1 = root || t.2.root = some root).map (·.1)
    let s := dies.foldl (fun s d =>
      let (s, out) := s.takeParked d fun p => family.contains p.task
      (out.foldl (fun s p => s.dropReq p.ref) s).bump (Reg.dtu d 0x238) out.length) s
    let s := s.failTask root .abandoned 0 0
    let s := (s.tasks.filter fun t => family.contains t.1).foldl (fun s t =>
      t.2.again.foldl (fun s n => s.countEnd t.1 .abandoned n.1 n.2) s) s
    let s := { s with tasks := s.tasks.map fun (t : Nat × Task) => if family.contains t.1 then (t.1, { t.2 with cancelled := true, again := [] }) else t }
    let s := (s.wgs.filter fun g => family.contains g.2.task).foldl (fun s g => s.endWg dies g.1 .abandoned) s
    let s := (s.saved.filter fun x => family.contains x.2.task).foldl (fun s x => s.endSaved dies x.1 .abandoned) s
    (s.posts.filter fun p => family.contains p.task && p.place.isNone).foldl (fun s p => s.dropPost p) s

/-! Key slots (R405, R409). -/

/-- Whose key a frame is under with an entry of the page ownership table (R57), the worlds given being confidential: the draw of a
confidential world's slot, the public key of a partition, or the device key. -/
def keyUnder (s : State) (confs : List Nat) (ap frame entry : Nat) : Nat × Nat :=
  let public' := match s.framePart ap (frame * 2 ^ 15) with
    | some p => (1, p)
    | none => (2, 0)
  if ap = 0 && reservedFrame ≤ frame then (2, 0)
  else if entry / 2 ^ 12 % 4 = 1 && confs.contains (entry % 2 ^ 12) then (0, ((s.keySlot (entry % 2 ^ 12)).map fun k => k.2.draw).getD 0)
  else public'

/-- The key pair of that key. -/
def pairOf : Nat × Nat → BitVec 512
  | (0, d) => Config.freePair d
  | (1, p) => Config.publicPair p
  | _ => Config.devicePair

/-- A frame comes under another key with its cells standing: each unit reads as what they decrypt to (R57), and copies of its sectors leave
the caches. -/
def rekeyFrame (s : State) (ap frame : Nat) (old new : Nat × Nat) : State :=
  if pairOf old = pairOf new then s
  else
    let here := fun (a : Nat) => keyAp a = ap && keyPa a / 2 ^ 15 = frame
    let keep := fun (e : Nat × List Held) => (e.1, e.2.filter fun h => !here h.addr)
    let first := memKey ap (frame * 2 ^ 15)
    { s with
      l1 := (s.l1.map keep).filter fun e => e.2 ≠ []
      staging := (s.staging.map keep).filter fun e => e.2 ≠ []
      replicas := s.replicas.filter fun e => !here (e.1 % 2 ^ 72)
      mem := s.mem.writeBytes first ((List.range 1024).map fun i =>
        rekeyUnit (pairOf old) (pairOf new) ap (keyPa first + 32 * i) (s.mem.readBytes (first + 32 * i) 32)).flatten }

/-- The frames that a world owns. -/
def ownFrames (s : State) (world : Nat) : List Nat :=
  (s.pot.filter fun e => e.2 / 2 ^ 12 % 4 = 1 && e.2 % 2 ^ 12 = world && e.1 / 2 ^ 40 ≠ 6).map (·.1)

/-- The frames of a world go from the keys that a state gives to those that it has now. -/
def rekeyWorld (s old : State) (confs : List Nat) (world : Nat) : State :=
  { (s.ownFrames world).foldl (fun s k =>
      let (ap, f) := (k / 2 ^ 40, k % 2 ^ 40)
      let e := s.potEntry ap f
      s.rekeyFrame ap f (old.keyUnder old.confs ap f e) (s.keyUnder confs ap f e)) s with confs := confs }

/-- After a write of the root table, the frames of the worlds whose CONF it changed are under another key (R15, R57). -/
def keepConfs (s : State) : State :=
  if !s.rootWritten then s
  else
    let worlds := ((s.pot.filter fun e => e.2 / 2 ^ 12 % 4 = 1).map fun e => e.2 % 2 ^ 12).eraseDups
    { worlds.foldl (fun s w =>
        if s.worldConf 0 w = s.confs.contains w then s
        else s.rekeyWorld s (if s.worldConf 0 w then s.confs ++ [w] else s.confs.erase w) w) s with rootWritten := false }

/-- A world in use: a frame of its own, a workgroup resident or saved, a parked request, a logical device. -/
def worldUsed (s : State) (world : Nat) : Bool :=
  s.pot.any (fun e => e.2 / 2 ^ 12 % 4 = 1 && e.2 % 2 ^ 12 = world) || s.wgs.any (fun e => e.2.world = world) ||
    s.saved.any (fun e => e.2.world = world) || s.dtus.any (fun e => (e.2.parked ++ e.2.waiting).any fun p => p.world = world) ||
    (List.range 16).any fun l => let v := s.reg (Reg.host (8 * l)); v / 2 ^ 63 % 2 = 1 && v % 2 ^ 12 = world

/-- KEY-BIND and KEY-RETIRE: the status, and the state. World keys exist in production only, and KEY-BIND is refused in the other states of
the life cycle (R445; log 89). -/
def keyBindWorld (s : State) (world : Nat) : State × Nat :=
  if (s.keySlot world).isSome || s.reg (Reg.module 0x230) ≠ 2 then (s, 2)
  else match (List.range 1024).find? fun i => (s.keys.find? i).isNone with
    | none => (s, 4)
    | some i => ({ s with keys := s.keys.insert i ⟨world, s.draws + 1, 0⟩, draws := s.draws + 1 }.rekeyWorld s s.confs world, 0)
def keyRetireWorld (s : State) (world : Nat) : State × Nat :=
  match s.keySlot world with
  | none => (s, 2)
  | some (i, _) => if s.worldUsed world then (s, 2) else ({ s with keys := s.keys.erase i }, 0)

/-! Rings (R36, R37). -/

def commandTable (s : State) (die : Nat) : Nat := s.reg (Reg.dtu die 0x008) % 2 ^ 55 / 2 ^ 11 * 2 ^ 11
def commandRing (s : State) (die part : Nat) : Option (Nat × Nat × Nat × Nat) := s.ringEntry (s.commandTable die) part

/-- A command completes: the status byte, the completion counter as a release, so that the byte has reached the replicas of its line, the consumed
counter (R37, R87; log 100). -/
def completeCmd (s : State) (die part : Nat) (c : Command) (status : Nat) : State :=
  let s := s.onDtu die fun d => { d with commands := d.commands.erase part }
  let s := (s.agentWrite (c.slotPa + 7) (leBytes 1 status) 0 (2134 + die) 0 0).landAll fun _ => true
  let ctr := field c.bytes 0x18 8
  let s := if ctr = 0 then s else s.agentAdd (ctr % 2 ^ 55 / 8 * 8) 1 (2134 + die) 0 0
  match s.commandRing die part with
  | some (_, _, _, consumed) => s.agentAdd consumed 1 (2134 + die) 0 0
  | none => s

/-- A frame is filled with zeros under its new key (R38); copies of its sectors under the old one leave the caches. -/
def zeroFrame (s : State) (ap frame : Nat) : State :=
  let here := fun (a : Nat) => keyAp a = ap && keyPa a / 2 ^ 15 = frame
  let keep := fun (e : Nat × List Held) => (e.1, e.2.filter fun h => !here h.addr)
  { s with
    l1 := (s.l1.map keep).filter fun e => e.2 ≠ []
    staging := (s.staging.map keep).filter fun e => e.2 ≠ []
    mem := s.mem.filter fun e => !here e.1
    written := noteWritten s.written (2 ^ 40 * ap + frame)
    l2 := (s.l2.map fun (e : Nat × List L2Line) => (e.1, e.2.filter fun x => !here x.addr)).filter fun e => e.2 ≠ []
    errors := s.errors.filter fun e => !here e.1 && !(2 ^ 122 ≤ e.1 && e.1 < 2 ^ 123 && here (e.1 % 2 ^ 72))
    replicas := s.replicas.filter fun e => !here (e.1 % 2 ^ 72) }

/-- A frame takes a new entry in the page ownership table; a frame of memory that leaves STATE 1 is filled with zeros first (R38), and one
that comes under another key otherwise keeps what its cells hold (R57). -/
def setEntry (s : State) (ap frame entry : Nat) : State :=
  let old := s.potEntry ap frame
  let w := entry % 2 ^ 12
  let confs := if entry / 2 ^ 12 % 4 ≠ 1 || s.confs.contains w = s.worldConf 0 w then s.confs
    else if s.worldConf 0 w then s.confs ++ [w] else s.confs.erase w
  let fill := old / 2 ^ 12 % 4 = 1 && entry / 2 ^ 12 % 4 ≠ 1 && ap ≠ 6
  let s := if fill then s.zeroFrame ap frame
    else if ap ≠ 6 then s.rekeyFrame ap frame (s.keyUnder s.confs ap frame old) (s.keyUnder confs ap frame entry) else s
  { s with pot := s.pot.put 0 (ap * 2 ^ 40 + frame) entry, confs }

/-- The frames of a frame command take their new entry or ownership bit (R38). -/
def setFrames (s : State) (c : Cmd) : State :=
  (List.range c.count).foldl (fun s i =>
    let f := c.va + i
    let k := c.aperture * 2 ^ 40 + f
    match c.op with
    | 3 => s.setEntry c.aperture f c.entry
    | 4 => { s with hostOwned := s.hostOwned.put 0 k 1 }
    | _ => { s with hostOwned := s.hostOwned.put 0 k 0 }) s

/-- A command in progress goes on: a frame command takes away what has been translated since, an invalidation the waits that requests
on their way have registered; once nothing is waited for, it has its effect and completes. -/
def continueCmd (s : State) (die part : Nat) (w : Command) : State :=
  let c := Cmd.ofBytes w.bytes
  let dies := diesOf die c
  let (s, more) := if c.op = 3 || c.op = 4 then s.takeAway dies c
    else if c.op = 1 || c.op = 2 then (s.cancelLate w.waits, [])
    else (s, [])
  let waits := (w.waits ++ more).eraseDups.filter (s.unsettled c.op)
  if waits = [] then (if c.frames then s.setFrames c else s).completeCmd die part w 0
  else s.onDtu die fun d => { d with commands := d.commands.insert part { w with waits } }

/-- The checks of a command, the root entry of its world read with its code: a command whose entry can not be read is refused as one whose world
is not the partition's (R68; log 79). -/
def checkCmd (s : State) (die part : Nat) (c : Cmd) : State × Nat :=
  if c.malformed then (s, 1)
  else match s.agentRead die c.world 0 (s.rootUnits die c.world) with
    | .ok s => (s, s.cmdStatus die part c)
    | .error s => (s, 2)

/-- A command is taken: its checks, then its effect or the beginning of it. -/
def takeCmd (s : State) (die part : Nat) (w : Command) : State :=
  let c := Cmd.ofBytes w.bytes
  let dies := diesOf die c
  let (s, st) := s.checkCmd die part c
  if st ≠ 0 then s.completeCmd die part w st
  else match c.op with
    | 1 | 2 => let (s, waits) := s.takeAway dies c; s.continueCmd die part { w with waits }
    | 6 =>
      let (s, waits) := dies.foldl (fun (acc : State × List ReqRef) d =>
        let (s, ws) := acc.1.releaseDie d c
        (s, acc.2 ++ ws)) (s, [])
      s.continueCmd die part { w with waits }
    | 7 => (s.abandon dies (c.va % 2 ^ 32) c.world).completeCmd die part w 0
    | 8 => let (s, st) := s.keyBindWorld c.world; s.completeCmd die part w st
    | 9 => let (s, st) := s.keyRetireWorld c.world; s.completeCmd die part w st
    | _ => s.continueCmd die part w

/-- The next step of a partition's ring on a die, when its command is of the given opcode; INVAL-VA's step also takes a slot whose
opcode is none (log 17) or that can not be read (log 79). The rings of a partition that is out of service are not read (R442). -/
def command (s : State) (op die part : Nat) : State :=
  let mine := fun (b : List Byte) => let o := field b 0 1; o = op || (op = 1 && (o = 0 || 9 < o))
  match (s.dtu die).commands.find? part with
  | some w => if mine w.bytes then s.continueCmd die part w else s
  | none =>
    match s.commandRing die part with
    | none => s
    | some (base, slots, produced, consumed) =>
      let n := s.mem.readNat consumed 8
      let at' := base + 32 * (n % slots)
      let b := s.mem.readBytes at' 32
      if s.outOfService part || s.polls.any (fun p => p.who = .ring die part) || s.mem.readNat produced 8 ≤ n || !mine b then s
      else match s.agentRead die 0 0 (s.ringUnits (s.commandTable die) part) with
        | .error s => s.retry produced (.ring die part)
        | .ok s => match s.agentRead die 0 0 [at'] with
          | .error s => s.completeCmd die part ⟨at', b, []⟩ 1
          | .ok s => s.takeCmd die part ⟨at', b, []⟩

/-- What a unit waits for at a ring in use that it has no command of (R36): that produced passes consumed. -/
def ringWaits (s : State) (die part : Nat) : Option (Nat × Nat) :=
  if s.outOfService part || ((s.dtu die).commands.find? part).isSome then none
  else (s.commandRing die part).map fun (_, _, produced, consumed) => (produced, s.mem.readNat consumed 8 + 1)

/-- The watches of the die translation units (R36, R118, R122). -/
def keepRings (s : State) : State :=
  allDies.foldl (fun s d =>
    if s.reg (Reg.dtu d 0x008) ≠ 0 then (List.range 64).foldl (fun s p => s.keepWatch (.ring d p) (2134 + d) (s.ringWaits d p)) s
    else
      let mine := fun (w : Waiting) => match w with
        | .ring die _ => decide (die = d)
        | _ => false
      if s.waiters.any (fun w => mine w.who) || s.polls.any (fun p => mine p.who) then
        { s with waiters := s.waiters.filter fun w => !mine w.who, polls := s.polls.filter fun p => !mine p.who }
      else s) s

/-- A record waits at a die's unit for a slot of a partition's repair queue (R148). -/
def recordWaits (s : State) (die part : Nat) : Bool :=
  (s.dtu die).owed.any (fun r => r.1 = part) || (s.dtu die).pages.any fun g => match g.posted with
    | none => g.first.partition = part && g.since + s.reg (Reg.dtu die 0x208) % 2 ^ 16 ≤ s.clk
    | some _ => g.captainDue && part = s.captain

/-- What the unit waits for then: that consumed leaves a slot free (R118, R148). -/
def repairWaits (s : State) (die part : Nat) : Option (Nat × Nat) :=
  if !s.recordWaits die part then none
  else (s.repairRing die part).bind fun (_, slots, produced, consumed) =>
    let p := s.mem.readNat produced 8
    if slots ≤ p - s.mem.readNat consumed 8 then some (consumed, p - slots + 1) else none

/-- The partitions whose repair queue on a die has a watch or a poll, or a record that may wait for it. -/
def repairParts (s : State) (die : Nat) : List Nat :=
  let mine := fun (w : Waiting) => match w with
    | .repair d p => if d = die then some p else none
    | _ => none
  let d := s.dtu die
  (s.waiters.filterMap (fun w => mine w.who) ++ s.polls.filterMap (fun p => mine p.who) ++ d.owed.map (·.1) ++
    d.pages.map (fun g => g.first.partition) ++ if d.pages.any (·.captainDue) then [s.captain] else []).eraseDups

/-- The watches of the die translation units on their repair queues (R118, R122, R148). -/
def keepRepairs (s : State) : State :=
  (s.dtus.map (·.1)).foldl (fun s d =>
    (s.repairParts d).foldl (fun s p => s.keepWatch (.repair d p) (2134 + d) (s.repairWaits d p)) s) s

end State

/-- INVAL_VA (R38). -/
def execInvalVa (die part : Nat) (s : State) : Out := .next (s.command 1 die part)
/-- INVAL_WORLD (R38). -/
def execInvalWorld (die part : Nat) (s : State) : Out := .next (s.command 2 die part)
/-- POT_SET (R38). -/
def execPotSet (die part : Nat) (s : State) : Out := .next (s.command 3 die part)
/-- OWN_HOST (R38, R41). -/
def execOwnHost (die part : Nat) (s : State) : Out := .next (s.command 4 die part)
/-- OWN_DEVICE (R38, R40). -/
def execOwnDevice (die part : Nat) (s : State) : Out := .next (s.command 5 die part)
/-- RELEASE (R150). -/
def execRelease (die part : Nat) (s : State) : Out := .next (s.command 6 die part)
/-- ABANDON (R152). -/
def execAbandon (die part : Nat) (s : State) : Out := .next (s.command 7 die part)
/-- KEY_BIND (R409). -/
def execKeyBind (die part : Nat) (s : State) : Out := .next (s.command 8 die part)
/-- KEY_RETIRE (R409). -/
def execKeyRetire (die part : Nat) (s : State) : Out := .next (s.command 9 die part)

end Sys2Proof.Machine
end

