-- ==== Sys2Proof/Machine/Services.lean ====
section
/-!
DEFINITION. The services a partition's battery performs for accepted calls, and the completion of a call (spec/15 R380 to R383;
spec/23 R442, R443; spec/01 R27).
-/

namespace Sys2Proof.Machine

namespace State

/-! Memory reached by walks in the call's world (R382). -/

/-- Why a service has not what it asks for: it waits for a peer, or a walk or a read has failed. -/
inductive Lack where
  | wait
  | bad
  deriving DecidableEq, Repr

/-- A translation of a service for a page, which sets D for a write (R26, R27, R415). -/
def serviceWalk (s : State) (c : Call) (va : DWord) (write : Bool) : State × Except Lack Xlated :=
  let die := c.battery / 8
  match s.agentWalk die c.world c.battery (s.taskId c.task) va with
  | (s, none) => (s, .error .wait)
  | (s, some (some (.ok t))) =>
    if (permCause (if write then .write else .read) t.ap t.attr).isSome then (s, .error .bad)
    else (if write then s.setDirty die c.world t.leafPa else s, .ok (s.xlate t va))
  | (s, some _) => (s, .error .bad)

/-- The pages of a range in rising order, each with the bytes of the range in it. -/
def serviceRange (c : Call) (write : Bool) : Nat → State → DWord → Nat → State × Except Lack (List (Xlated × Nat))
  | 0, s, _, _ => (s, .ok [])
  | n + 1, s, va, len =>
    let k := Nat.min len (32768 - va.toNat % 32768)
    match s.serviceWalk c va write with
    | (s, .error e) => (s, .error e)
    | (s, .ok x) =>
      let (s, rest) := serviceRange c write n s (va + BitVec.ofNat 64 k) (len - k)
      (s, rest.map ((x, k) :: ·))

def pagesIn (va : DWord) (len : Nat) : Nat := if len = 0 then 0 else (va.toNat % 32768 + len + 32767) / 32768

/-! What a service reads and writes (R382). -/

/-- Bytes that a call reads at a peer, line by line: the first that has not come is asked for. -/
def farRead (s : State) (id form n : Nat) : State × Except Lack (List Byte) :=
  match s.calls.find? id with
  | none => (s, .error .bad)
  | some c =>
    let parts := cutAt 128 form n
    match parts.find? fun q => !c.got.any fun g => g.1 = q with
    | some q =>
      if c.asking.isSome then (s, .error .wait)
      else ({ s with calls := s.calls.insert id { c with asking := some q } }.peerPacket (s.batteryEnd c.battery) c.world (readTag id) .rd q.1 0 q.2 [],
        .error .wait)
    | none => (s, parts.foldr (fun q acc => match (c.got.find? fun g => g.1 = q).bind (·.2), acc with
        | some bs, .ok rest => .ok (bs ++ rest)
        | _, _ => .error .bad) (.ok []))

/-- Bytes that a battery reads for a call: none when a unit is found uncorrectable, which is recorded (R69), or a peer does not give them. -/
def batteryRead (s : State) (id : Nat) (c : Call) (ap pa n : Nat) : State × Except Lack (List Byte) :=
  let key := memKey ap pa
  if isMemory ap then
    match s.agentUnits (unitsOf key n) (2048 + c.battery) c.world (s.taskId c.task) with
    | .ok s => (s, .ok (s.mem.readBytes key n))
    | .error s => (s, .error .bad)
  else if ap = 4 then s.farRead id pa n
  else if ap = 5 then (s, .ok (s.mem.readBytes key n))
  else if ap = 6 then (s, .ok (s.readMmio pa n))
  else (s, .error .bad)

/-- Bytes that a battery writes for a call: memory with its replicas, a peer's, or host memory; nothing, where a unit that the write covers in
part is found uncorrectable (R69). -/
def batteryWrite (s : State) (id : Nat) (c : Call) (ap pa : Nat) (bs : List Byte) : State × Bool :=
  let key := memKey ap pa
  if isMemory ap then
    match s.agentUnits (partialUnits key bs.length) (2048 + c.battery) c.world (s.taskId c.task) with
    | .ok s => (s.agentWrite key bs c.task (2048 + c.battery) c.world (s.taskId c.task), true)
    | .error s => (s, false)
  else if ap = 4 then
    let (s, n) := s.peerWrite (s.batteryEnd c.battery) c.world (writeTag id) pa bs
    ({ s with calls := s.calls.adjust id fun c => { c with owes := c.owes + n } }, true)
  else (if ap = 5 then { s with mem := s.mem.writeBytes key bs } else s, true)

/-- Bytes at a VA of the call's world. -/
def readVia (s : State) (id : Nat) (c : Call) (va : DWord) (len : Nat) : State × Except Lack (List Byte) :=
  match serviceRange c false (pagesIn va len) s va len with
  | (s, .error e) => (s, .error e)
  | (s, .ok parts) => parts.foldl (fun (acc : State × Except Lack (List Byte)) p =>
      match acc.2 with
      | .error _ => acc
      | .ok bs => let (s, r) := acc.1.batteryRead id c p.1.ap p.1.pa p.2; (s, r.map (bs ++ ·))) (s, .ok [])

/-- Bytes written to the pages of a range; and whether all were. -/
def writePages (s : State) (id : Nat) (c : Call) (parts : List (Xlated × Nat)) (bs : List Byte) : State × Bool :=
  let r := parts.foldl (fun (acc : State × List Byte × Bool) p =>
    let (s, ok) := acc.1.batteryWrite id c p.1.ap p.1.pa (acc.2.1.take p.2)
    (s, acc.2.1.drop p.2, acc.2.2 && ok)) (s, bs, true)
  (r.1, r.2.2)

/-- The first 64 bytes of the argument block, which lie in one page; zeros when there is none. -/
def blockBytes (s : State) (id : Nat) (c : Call) : State × Except Lack (List Byte) :=
  if c.arg = 0 then (s, .ok (List.replicate 64 0)) else s.batteryRead id c (c.arg / 2 ^ 56 % 8) (c.arg % 2 ^ 55) 64

/-! Serving a call (R380 to R383). -/

/-- Numbers that the running version serves (R381). -/
def services : List Nat := [0, 1, 0x10, 0x11, 0x1000, 0x1001, 0x1002, 0x1003, 0x1010, 0x1011, 0x1012]

/-- A call may start: not served yet, its battery in service, and no call accepted before an earlier firmware switch is left (R443);
a battery whose cores have stopped starts none before they restart (R442). -/
def startable (s : State) (c : Call) : Bool :=
  c.served.isNone && !(s.batteries.get Battery.empty c.battery).stopped && !s.calls.any fun e => e.2.version < c.version

def setServed (s : State) (id result status : Nat) : State :=
  { s with calls := s.calls.adjust id fun c => { c with served := some (result, status), got := [] } }

/-- A service performed for a call of its number. It answers with the state, and with the result and the status, or with none while it can not
take place or what it reads at a peer has not come: it is then performed by a later event (log 18). -/
def service (s : State) (id number : Nat) (f : Call → List Byte → State → State × Option (Nat × Nat)) : State :=
  match s.calls.find? id with
  | none => s
  | some c =>
    if c.number ≠ number || !s.startable c then s
    else match s.blockBytes id c with
      | (s, .error .bad) => s.setServed id 0 2
      | (s, .error .wait) => s
      | (s, .ok b) => match f c b s with
        | (s, some (result, status)) => s.setServed id result status
        | (s, none) => s

/-- A call whose header is written adds 1 to its counter and is over, once its writes have been performed, in the replicas of their lines too
(R96, R382); with a counter at a peer once that has answered (R38). -/
def endCall (s : State) (id : Nat) (c : Call) : State :=
  if c.due || c.owes ≠ 0 || c.adding || s.propagating.any fun p => p.owner = .gone && p.task = c.task then s
  else if c.counter ≠ 0 && c.counter / 2 ^ 56 % 8 = 4 then
    { s with calls := s.calls.adjust id fun c => { c with adding := true } }.peerPacket (s.batteryEnd c.battery) c.world (addTag id) .ctr c.counter
      (ctrCode .add) 8 (leBytes 8 1)
  else (if c.counter ≠ 0 && isMemory (c.counter / 2 ^ 56 % 8) then
    s.agentAdd (formKey c.counter) 1 (2048 + c.battery) c.world (s.taskId c.task) else s).dropCall id c

/-- A call completes: its header, then 1 to its counter as a release at SYS scope (R382). -/
def completeCall (s : State) (id : Nat) (c : Call) (result status : Nat) : State :=
  let header := leBytes 4 status ++ leBytes 4 0 ++ leBytes 8 result
  let far := c.arg / 2 ^ 56 % 8 = 4
  let s := if c.arg = 0 then s
    else if far then s.peerPacket (s.batteryEnd c.battery) c.world (headerTag id) .wr c.arg 0 16 header
    else (s.batteryWrite id c (c.arg / 2 ^ 56 % 8) (c.arg % 2 ^ 55) header).1
  { s with calls := s.calls.adjust id fun c => { c with served := some (result, status), closing := true, due := far } }.endCall id { c with due := far }

/-- SERVICE_COMPLETE: a call that has been served, or whose number no service has, completes while its battery runs (R380, R382, R442). -/
def serviceDone (s : State) (id : Nat) : State :=
  match s.calls.find? id with
  | none => s
  | some c =>
    if (s.batteries.get Battery.empty c.battery).stopped then s
    else match c.served with
    | some (result, status) => if c.closing then s.endCall id c else s.completeCall id c result status
    | none => if s.startable c && !services.contains c.number then s.completeCall id c 0 1 else s

/-! MAP and UNMAP (R381). -/

/-- The lowest free frame of a partition in an aperture, among n frames from f on (log 19). -/
def freeFrame (s : State) (part ap : Nat) : Nat → Nat → Option Nat
  | 0, _ => none
  | n + 1, f =>
    if s.potEntry ap f / 2 ^ 12 % 4 = 0 && s.framePart ap (f * 2 ^ 15) = some part && !s.hostBit ap f then some f
    else freeFrame s part ap n (f + 1)

/-- Units that a battery reads of a table: none, with the unit and its symbols, when one is uncorrectable (R68). -/
def tableUnits (s : State) (us : List Nat) : Except (Nat × Option (Nat × Nat)) State :=
  match s.readUnits us with
  | .ok s => .ok s
  | .error (_, n, u) => .error (2, some (n, u))
def tableUnit (s : State) (u : Nat) : Except (Nat × Option (Nat × Nat)) State := s.tableUnits [unitOf u]
/-- What a battery writes for a call in a table. -/
def tableWrite (s : State) (c : Call) (pa v : Nat) : State := s.agentWrite pa (leBytes 8 v) c.task (2048 + c.battery) c.world (s.taskId c.task)

/-- The end of a service that its tables stopped: with a status, and a record of a unit that can not be read (R70). -/
def tableError (s : State) (c : Call) (e : Nat × Option (Nat × Nat)) : State × Option (Nat × Nat) :=
  (match e.2 with
    | some (n, u) => s.unitError u n (2048 + c.battery) c.world (s.taskId c.task)
    | none => s, some (0, e.1))

/-- A frame taken for a world, STATE 1, filled with zeros. -/
def takeFrame (s : State) (c : Call) (ap : Nat) : Option (State × Nat) :=
  (s.freeFrame c.battery ap (if ap = 0 then reservedFrame else apFrames ap) 0).map fun f =>
    ((s.zeroFrame ap f).setEntry ap f (2 ^ 12 + c.world), f)

/-- The L0 table of an address, with tables that are missing made from HBM frames of the partition (log 19); a status when a leaf
stands above, or no frame is free. -/
def tableFor (c : Call) (va : Nat) : List (Nat × Nat) → State → Nat → Except (Nat × Option (Nat × Nat)) (State × Nat)
  | [], s, table => .ok (s, table)
  | (sh, bits) :: rest, s, table =>
    let pa := table + 8 * (va / 2 ^ sh % 2 ^ bits)
    match s.tableUnit pa with
    | .error e => .error e
    | .ok s =>
      let e := s.mem.readNat pa 8
      if e % 4 = 3 then tableFor c va rest s (e / 2 ^ 16 % 2 ^ 40 * 2 ^ 15)
      else if e % 2 = 1 then .error (2, none)
      else match s.takeFrame c 0 with
        | none => .error (3, none)
        | some (s, f) => tableFor c va rest (s.tableWrite c pa (f * 2 ^ 16 + 3)) (f * 2 ^ 15)

def worldRoot (s : State) (c : Call) : Nat := s.rootEntry (c.battery / 8) c.world / 2 ^ 16 % 2 ^ 40 * 2 ^ 15
def levels : List (Nat × Nat) := [(51, 6), (39, 12), (27, 12)]

/-- The pages of a range from the lowest, each given a frame and a leaf of attributes. -/
def mapPages (c : Call) (ap attr : Nat) : Nat → State → Nat → Except (Nat × Option (Nat × Nat)) State
  | 0, s, _ => .ok s
  | n + 1, s, va =>
    match tableFor c va levels s (s.worldRoot c) with
    | .error e => .error e
    | .ok (s, table) =>
      let pa := table + 8 * (va / 2 ^ 15 % 2 ^ 12)
      match s.tableUnit pa with
      | .error e => .error e
      | .ok s =>
        if s.mem.readNat pa 8 % 2 = 1 then .error (2, none)
        else match s.takeFrame c ap with
          | none => .error (3, none)
          | some (s, f) => mapPages c ap attr n (s.tableWrite c pa (f * 2 ^ 16 + attr)) (va + 32768)

/-- The unit of the root entry of a call's world, which MAP and UNMAP read (R15, R68). -/
def callRoot (s : State) (c : Call) : List Nat := s.rootUnits (c.battery / 8) c.world

/-- A range of MAP and UNMAP has good fields: whole pages, all in one canonical half, outside the scratchpad window, of a valid world of
the partition. -/
def rangeFields (s : State) (c : Call) (va : DWord) (len : Nat) : Bool :=
  va.toNat % 32768 = 0 && len % 32768 = 0 && canonical va && !inWindow va && va.toNat % 2 ^ 56 + len ≤ 2 ^ 56 &&
    (va.toNat < 2 ^ 63 || va.toNat + len ≤ windowBase) && s.worldPart (c.battery / 8) c.world = some c.battery

/-- MAP. -/
def mapRange (c : Call) (b : List Byte) (s : State) : State × Option (Nat × Nat) :=
  let va : DWord := BitVec.ofNat 64 (field b 0x10 8)
  let len := field b 0x18 8
  let fl := field b 0x20 4
  let ap := fl / 8 % 4
  let attr := fl / 4 % 2 * 2 ^ 8 + fl / 2 % 2 * 2 ^ 6 + fl % 2 * 2 ^ 5 + ap * 4 + 1
  match s.tableUnits (s.callRoot c) with
  | .error e => s.tableError c e
  | .ok s =>
    if !s.rangeFields c va len || fl / 32 ≠ 0 || ap = 2 then (s, some (0, 2))
    else match mapPages c ap attr (len / 32768) s (va57 va) with
      | .ok s => (s, some (len / 32768, 0))
      | .error e => s.tableError c e

/-- The L0 entry of an address, by its own address and contents, as memory has it: an error when there is none. -/
def leafAt (va : Nat) : List (Nat × Nat) → State → Nat → Except (Nat × Option (Nat × Nat)) (State × Nat × Nat)
  | [], s, table =>
    let pa := table + 8 * (va / 2 ^ 15 % 2 ^ 12)
    (s.tableUnit pa).map fun s => (s, pa, s.mem.readNat pa 8)
  | (sh, bits) :: rest, s, table =>
    let pa := table + 8 * (va / 2 ^ sh % 2 ^ bits)
    match s.tableUnit pa with
    | .error e => .error e
    | .ok s =>
      let e := s.mem.readNat pa 8
      if e % 4 = 3 then leafAt va rest s (e / 2 ^ 16 % 2 ^ 40 * 2 ^ 15) else .error (2, none)

/-- The leaves at L0 of a range, by their own addresses and contents: an error when a page has none. -/
def leavesOf (c : Call) : Nat → State → Nat → Except (Nat × Option (Nat × Nat)) (State × List (Nat × Nat))
  | 0, s, _ => .ok (s, [])
  | n + 1, s, va =>
    match leafAt va levels s (s.worldRoot c) with
    | .error e => .error e
    | .ok (s, pa, e) =>
      if e % 2 = 1 then (leavesOf c n s (va + 32768)).map fun r => (r.1, (pa, e) :: r.2) else .error (2, none)

/-- UNMAP takes place when no request that used a translation of the range is on its way, but for the call's own `svc` (R38). The frames go to
STATE 0 that the world may name, its own and those public in its partition. -/
def unmapRange (c : Call) (b : List Byte) (s : State) : State × Option (Nat × Nat) :=
  let va : DWord := BitVec.ofNat 64 (field b 0x10 8)
  let len := field b 0x18 8
  let cmd : Cmd := ⟨1, 1, c.world, 0, 0, va57 va, len / 32768, 0, 0⟩
  match s.tableUnits (s.callRoot c) with
  | .error e => s.tableError c e
  | .ok s =>
    if !s.rangeFields c va len then (s, some (0, 2))
    else match leavesOf c (len / 32768) s (va57 va) with
      | .error e => s.tableError c e
      | .ok (s, leaves) =>
        if (s.users (List.range 8) cmd).any fun r => r.1 ≠ c.op then (s, none)
        else
          let s := leaves.foldl (fun s l => s.tableWrite c l.1 0) s
          let s := if len = 0 then s else (s.takeAway (List.range 8) cmd).1
          let s := leaves.foldl (fun s l =>
            match s.resolve (l.2 / 4 % 8) (l.2 / 2 ^ 16 % 2 ^ 40) with
            | some (a, f) => if isMemory a && (s.ownCheck c.world c.battery a f).isNone then s.setEntry a f 0 else s
            | none => s) s
          (s, some (len / 32768, 0))

/-! Services that the host performs (R380, R381). -/

/-- The logical device bound to a partition (R436). -/
def deviceOf (s : State) (part : Nat) : Option Nat :=
  (List.range 16).find? fun n => let v := s.reg (Reg.host (8 * n)); v / 2 ^ 63 = 1 && v / 2 ^ 12 % 64 = part

/-- A request goes to the host of the partition, which refuses it, or performs it with a number and bytes; without a bound device it
is refused (log 18). -/
def proxied (s : State) (c : Call) (request : List Byte) (a : HostAnswer) (k : State → Nat → List Byte → State × Option (Nat × Nat)) :
    State × Option (Nat × Nat) :=
  match s.deviceOf c.battery with
  | none => (s, some (0, 3))
  | some ld =>
    let h := s.hosts.get HostPort.empty ld
    let s := { s with hosts := s.hosts.put HostPort.empty ld { h with forwarded := h.forwarded ++ [leBytes 4 c.number ++ request] } }
    match a with
    | .denied => (s, some (0, 3))
    | .done n bytes => k s n bytes

/-- OPEN and CONNECT: a name of at most so many bytes; the host gives a handle number that is not in use. -/
def openHandle (file : Bool) (most id : Nat) (a : HostAnswer) (c : Call) (b : List Byte) (s : State) : State × Option (Nat × Nat) :=
  let len := field b 0x18 4
  let flags := if file then field b 0x1C 4 else 0
  let taken : Bool := match a with
    | .done n _ => (s.handles.find? n).isSome || 2 ^ 64 ≤ n
    | .denied => false
  if most < len || 16 ≤ flags then (s, some (0, 2))
  else if len = 0 then (s, some (0, 0))
  else match s.readVia id c (BitVec.ofNat 64 (field b 0x10 8)) len with
    | (s, .error .wait) => (s, none)
    | (s, .error .bad) => (s, some (0, 2))
    | (s, .ok name) =>
      if taken && (s.deviceOf c.battery).isSome then (s, none)
      else s.proxied c (leBytes 4 flags ++ name) a fun t n _ => ({ t with handles := t.handles.insert n ⟨c.battery, file⟩ }, some (n, 0))

/-- A handle of the partition, of a file or of a connection (R381). -/
def holds (s : State) (c : Call) (n : Nat) (file : Option Bool) : Bool :=
  match s.handles.find? n with
  | some h => h.partition = c.battery && (file = none || file = some h.file)
  | none => false

/-- READ and RECV: bytes from the host into the buffer, whose pages are walked first. -/
def readHandle (file : Bool) (id : Nat) (a : HostAnswer) (c : Call) (b : List Byte) (s : State) : State × Option (Nat × Nat) :=
  let len := field b 0x20 8
  let va : DWord := BitVec.ofNat 64 (field b 0x18 8)
  let bytes := match a with
    | .done _ bytes => if (s.deviceOf c.battery).isSome then bytes.take len else []
    | .denied => []
  if !s.holds c (field b 0x10 8) (some file) then (s, some (0, 2))
  else if len = 0 then (s, some (0, 0))
  else match serviceRange c true (pagesIn va bytes.length) s va bytes.length with
    | (s, .error .wait) => (s, none)
    | (s, parts) => s.proxied c ((b.drop 0x10).take (if file then 32 else 24)) a fun t _ _ =>
      match parts with
      | .error _ => (t, some (0, 2))
      | .ok parts => match t.writePages id c parts bytes with
        | (u, false) => (u, some (0, 2))
        | (u, true) => (u, some (bytes.length, 0))

/-- WRITE and SEND: bytes of the buffer to the host, which takes so many of them. -/
def writeHandle (file : Bool) (id : Nat) (a : HostAnswer) (c : Call) (b : List Byte) (s : State) : State × Option (Nat × Nat) :=
  let len := field b 0x20 8
  if !s.holds c (field b 0x10 8) (some file) then (s, some (0, 2))
  else if len = 0 then (s, some (0, 0))
  else match s.readVia id c (BitVec.ofNat 64 (field b 0x18 8)) len with
    | (s, .error .wait) => (s, none)
    | (s, .error .bad) => (s, some (0, 2))
    | (s, .ok bytes) => s.proxied c ((b.drop 0x10).take (if file then 32 else 24) ++ bytes) a fun u n _ => (u, some (Nat.min n len, 0))

/-- CLOSE: the host is told to close what the handle names; no status lets it refuse (R381). -/
def dropHandle (c : Call) (b : List Byte) (s : State) : State × Option (Nat × Nat) :=
  let n := field b 0x10 8
  if s.holds c n none then
    let s := (s.proxied c ((b.drop 0x10).take 8) (.done 0 []) fun s _ _ => (s, some (0, 0))).1
    ({ s with handles := s.handles.erase n }, some (0, 0))
  else (s, some (0, 2))

end State

/-- ECHO (R381). -/
def execEcho (call : Nat) (s : State) : Out := .next (s.service call 0 fun _ b s => (s, some (field b 0x10 8, 0)))
/-- CLOCK (R381). -/
def execClock (call : Nat) (s : State) : Out := .next (s.service call 1 fun _ _ s => (s, some (s.clkNow, 0)))
/-- MAP (R381). -/
def execMap (call : Nat) (s : State) : Out := .next (s.service call 0x10 State.mapRange)
/-- UNMAP (R381). -/
def execUnmap (call : Nat) (s : State) : Out := .next (s.service call 0x11 State.unmapRange)
/-- OPEN (R381). -/
def execOpenFile (call : Nat) (a : HostAnswer) (s : State) : Out := .next (s.service call 0x1000 (State.openHandle true 4096 call a))
/-- READ (R381). -/
def execReadFile (call : Nat) (a : HostAnswer) (s : State) : Out := .next (s.service call 0x1001 (State.readHandle true call a))
/-- WRITE (R381). -/
def execWriteFile (call : Nat) (a : HostAnswer) (s : State) : Out := .next (s.service call 0x1002 (State.writeHandle true call a))
/-- CLOSE (R381). -/
def execCloseHandle (call : Nat) (s : State) : Out := .next (s.service call 0x1003 State.dropHandle)
/-- CONNECT (R381). -/
def execConnect (call : Nat) (a : HostAnswer) (s : State) : Out := .next (s.service call 0x1010 (State.openHandle false 256 call a))
/-- SEND (R381). -/
def execSend (call : Nat) (a : HostAnswer) (s : State) : Out := .next (s.service call 0x1011 (State.writeHandle false call a))
/-- RECV (R381). -/
def execRecv (call : Nat) (a : HostAnswer) (s : State) : Out := .next (s.service call 0x1012 (State.readHandle false call a))
/-- SERVICE_COMPLETE (R382). -/
def execServiceComplete (call : Nat) (s : State) : Out := .next (s.serviceDone call)

end Sys2Proof.Machine
end

