-- ==== Sys2Proof/Machine/Partition.lean ====
section
/-!
DEFINITION. The reset of a partition, the captain, takeovers and the restarts of batteries (spec/23 R440 to R442, R444; spec/04 R128).
-/

namespace Sys2Proof.Machine

namespace State

/-- A bit of HEVENT: MSI-X vector 0 is raised (R437). -/
def hostEvent (s : State) (ld bit : Nat) : State :=
  s.onHost ld fun h => { h with events := h.events ||| 2 ^ bit, vectors := h.vectors ||| 1 }

/-- The logical devices that are bound (R436). -/
def boundDevices (s : State) : List Nat := (List.range 16).filter fun n => s.reg (Reg.host (8 * n)) / 2 ^ 63 = 1
/-- A change to the port bound to a partition, if there is one. -/
def onDeviceOf (s : State) (part : Nat) (f : Nat → State → State) : State :=
  match s.deviceOf part with
  | some ld => f ld s
  | none => s

/-! The reset of a partition (R444). -/

/-- Waiters of peers on the partition's counters wake with the counter's value and NOSLOT (R128). -/
def wakePeers (s : State) (part : Nat) : State :=
  let mine := fun (w : Waiter) => (match w.who with
    | .peer _ _ => s.framePart (keyAp w.addr) (keyPa w.addr) = some part
    | _ => false : Bool)
  (s.waiters.filter mine).foldl (fun s w => { s with waiters := s.waiters.erase w }.wakeOne w (s.mem.readNat w.addr 8) 1) s

/-- The tasks of a partition end with RESET: workgroups, saved images and posts with them (R444 step 2, R212). -/
def endTasks (s : State) (part : Nat) : State :=
  let s := (s.tasks.filter fun t => t.2.partition = part).foldl (fun s t =>
    t.2.again.foldl (fun s n => s.countEnd t.1 .reset n.1 n.2) (s.failTask t.1 .reset 0 0)) s
  let s := { s with tasks := s.tasks.map fun (t : Nat × Task) =>
    if t.2.partition = part then (t.1, { t.2 with cancelled := true, again := [] }) else t }
  let s := (s.wgs.filter fun g => g.2.partition = part).foldl (fun s g => s.endWg allDies g.1 .reset) s
  let s := (s.saved.filter fun x => x.2.partition = part).foldl (fun s x => s.endSaved allDies x.1 .reset) s
  (s.posts.filter fun p => p.partition = part).foldl dropPost s

/-- Steps 1 to 4 of R444. Records that wait for a slot of the partition's repair queue go with its parked requests (R153). -/
def startReset (s : State) (part : Nat) : State :=
  if s.resetting.contains part then s
  else
    let s := { s with resetting := s.resetting ++ [part] }
    let s := s.onDeviceOf part fun ld s => (s.hostEvent ld 0).onHost ld fun h => { h with refusing := true }
    let s := (s.queues.filter fun q => q.2.entry.partition = part).foldl (fun s q => s.enableQueue q.1 false) s
    let s := s.endTasks part
    let s := (List.range 8).foldl (fun s d =>
      let (s, out) := s.takeParked d fun p => p.partition = part
      let s := if (s.dtu d).owed.any fun r => r.1 = part then s.onDtu d fun u => { u with owed := u.owed.filter fun r => r.1 ≠ part } else s
      (out.foldl (fun s p => s.dropReq p.ref) s).bump (Reg.dtu d 0x238) out.length) s
    let s := s.wakePeers part
    (s.calls.filter fun c => c.2.battery = part && !c.2.closing).foldl (fun s c => s.completeCall c.1 c.2 0 4) s

/-- Nothing of the partition is under way any more. -/
def quiet (s : State) (part : Nat) : Bool :=
  !(s.tasks.any fun t => t.2.partition = part) && !(s.wgs.any fun g => g.2.partition = part) &&
    !(s.calls.any fun c => c.2.battery = part) && !s.ops.any fun o => o.2.partition = part && o.2.reqs.any fun r => !r.isDone

/-- The worlds of a partition (R15). -/
def worldsOf (s : State) (part : Nat) : List Nat := (List.range 4096).filter fun w => s.worldPart 0 w = some part

/-- Steps 5 and 6 of R444, when nothing of the partition is left: owned frames are freed and filled with zeros, its worlds lose their
translations and keys, its battery restarts, its host is told, and its port opens again unless the battery is retired (R442). -/
def finishReset (s : State) (part : Nat) : State :=
  if !s.quiet part then s
  else
    let worlds := s.worldsOf part
    let owned := s.pot.filter fun e => e.2 / 2 ^ 12 % 4 = 1 && worlds.contains (e.2 % 2 ^ 12)
    let s := owned.foldl (fun s e => s.setEntry (e.1 / 2 ^ 40) (e.1 % 2 ^ 40) 0) s
    let s := worlds.foldl (fun s w => s.dropTranslations (List.range 8) ⟨2, 1, w, 0, 0, 0, 0, 0, 0⟩) s
    let s := { s with
      keys := s.keys.filter fun k => !worlds.contains k.2.world
      handles := s.handles.filter fun h => h.2.partition ≠ part
      resetting := s.resetting.erase part }
    let x := s.batteries.get Battery.empty part
    let s := if x.retired || part ≥ 64 then s
      else { s with batteries := s.batteries.put Battery.empty part { x with restarts := 0, todo := [], got := [], asked := .none } }
    s.onDeviceOf part fun ld s =>
      let s := s.hostEvent ld 1
      if s.outOfService part then s else s.onHost ld fun h => { h with refusing := false }

/-- Resets that can end do so, with the calls they have answered (R96, R382). -/
def keepResets (s : State) : State :=
  s.resetting.foldl (fun s part =>
    ((s.calls.filter fun c => c.2.battery = part && c.2.closing).foldl (fun s c => s.endCall c.1 c.2) s).finishReset part) s

/-! The captain (R440, R441). -/

/-- The heartbeat counter (R440). -/
def heartbeatKey : Nat := memKey 0 (0x01FFFFFF * 2 ^ 15)

/-- HEARTBEAT: the captain's add, every 800,000 cycles. -/
def heartbeat (s : State) : State :=
  if (s.batteries.get Battery.empty s.captain).stopped || s.clk < s.beat + 800000 then s
  else { s with beat := s.clk }.agentAdd heartbeatKey 1 (2048 + s.captain) 0 0

/-- A write of CAPT by a battery: accepted only with the next epoch (R440). -/
def writeCapt (s : State) (v : Nat) : State :=
  let old := s.reg (Reg.module 0x200)
  if v / 2 ^ 16 % 2 ^ 32 = old / 2 ^ 16 % 2 ^ 32 + 1 then s.setReg (Reg.module 0x200) (v / 2 ^ 16 % 2 ^ 32 * 2 ^ 16 + v % 64) else s

/-- A battery's accesses, behind those it has to make. -/
def battery (s : State) (b : Nat) (l : List BatteryAccess) : State :=
  if 64 ≤ b || l.isEmpty then s
  else let x := s.batteries.get Battery.empty b; { s with batteries := s.batteries.insert b { x with todo := x.todo ++ l } }

/-- The commands of a partition's ring on a die that its unit has not taken are taken out of it, and the new captain submits them again, each as soon
as its own ring has room; those of its own ring stand there already (R441 step 3; log 20). -/
def moveCommands (s : State) (die now part : Nat) : State :=
  match (if part = now then none else s.commandRing die part) with
  | none => s
  | some (base, slots, produced, consumed) =>
    match s.readUnits (s.ringUnits (s.commandTable die) part) with
    | .error (s, n, u) => s.unitError u n (2048 + now) 0 0
    | .ok s =>
      let c := s.mem.readNat consumed 8 + if ((s.dtu die).commands.find? part).isSome then 1 else 0
      let n := s.mem.readNat produced 8 - c
      if n = 0 then s
      else (s.battery now ((List.range n).map fun i => .submit die (s.mem.readBytes (base + 32 * ((c + i) % slots)) 32))).agentAdd consumed n
        (2048 + now) 0 0

/-- Those of every command ring. -/
def moveAllCommands (s : State) (now : Nat) : State :=
  (List.range 8).foldl (fun s d =>
    if s.reg (Reg.dtu d 0x008) = 0 then s else (List.range 64).foldl (fun s p => s.moveCommands d now p) s) s

/-- A battery takes over (R441): CAPT, untaken commands, hosts and batteries told, the heartbeat; then the resets that waited for a
captain (R184, R442). -/
def takeover (s : State) (b : Nat) : State :=
  let was := s.captain
  let epoch := s.reg (Reg.module 0x200) / 2 ^ 16 % 2 ^ 32
  let s := s.writeCapt ((epoch + 1) * 2 ^ 16 + b)
  if s.captain ≠ b then s
  else
    let s := s.moveAllCommands b
    let s := s.boundDevices.foldl (fun s ld => s.hostEvent ld 2) s
    let s := { s with takeovers := s.takeovers ++ [b], beat := s.clk }
    let due := s.batteries.filter fun e => e.2.retired && !e.2.wiped
    let s := { s with batteries := s.batteries.map fun (e : Nat × Battery) => if e.2.retired then (e.1, { e.2 with wiped := true }) else e }
    let s := due.foldl (fun s e => s.startReset e.1) s
    if s.reachable (was / 8) then s else (s.partitionsOn (was / 8)).foldl startReset s

/-- How far a battery stands behind the captain's die in the order of R441, 0 for one that does not watch. -/
def watchPlace (s : State) (b : Nat) : Nat := if b % 8 = 0 && b < 64 then (b / 8 + 8 - s.captain / 8) % 8 else 0

/-- HEARTBEAT_CHECK: a watching battery reads the counter, and takes over after 8 × k reads without an advance (R441); a read that finds its
unit uncorrectable shows none (R68). -/
def heartbeatCheck (s : State) (b : Nat) : State :=
  let k := s.watchPlace b
  let x := s.batteries.get Battery.empty b
  if k = 0 || x.stopped || s.clk < x.checked + 800000 then s
  else
    let (s, v) := match s.readUnits (unitsOf heartbeatKey 8) with
      | .error (s, n, u) => (s.unitError u n (2048 + b) 0 0, x.seen)
      | .ok s => (s, s.mem.readNat heartbeatKey 8)
    let misses := if v = x.seen then x.misses + 1 else 0
    let due := 8 * k ≤ misses
    let x := { x with misses := if due then 0 else misses, seen := v, checked := s.clk }
    let s := { s with batteries := s.batteries.insert b x }
    if due then s.takeover b else s

/-- BATTERY_RESTART: the restart of a battery whose cores disagreed succeeds or fails; after two failures in a row it is retired, and
its partition reset by the captain (R442). Calls in service stay as they are; between a failed restart and the next the battery stands still. -/
def batteryRestart (s : State) (b : Nat) (ok : Bool) : State :=
  let x := s.batteries.get Battery.empty b
  if 64 ≤ b || x.retired then s
  else if ok then { s with batteries := s.batteries.put Battery.empty b { x with restarts := 0 } }
  else if x.restarts = 0 then { s with batteries := s.batteries.insert b { x with restarts := 1 } }
  else
    let now := s.captain ≠ b
    let s := { s with batteries := s.batteries.insert b { x with restarts := 2, retired := true, wiped := now } }
    let s := s.onDeviceOf b fun ld s => s.onHost ld fun h => { h with refusing := true }
    if now then s.startReset b else s

end State

/-- HEARTBEAT (R440). -/
def execHeartbeat (s : State) : Out := .next s.heartbeat
/-- HEARTBEAT_CHECK (R441). -/
def execHeartbeatCheck (battery : Nat) (s : State) : Out := .next (s.heartbeatCheck battery)
/-- BATTERY_RESTART (R442). -/
def execBatteryRestart (battery : Nat) (ok : Bool) (s : State) : Out := .next ((s.batteryRestart battery ok).keepResets)

end Sys2Proof.Machine
end

