-- ==== Sys2Proof/Machine/Hosts.lean ====
section
/-!
DEFINITION. Logical devices: the window of counter operations, and a host's accesses to device memory (spec/23 R436, R437; spec/01
R40 to R42; spec/16 R413, R414; spec/04 R118, R122).
-/

namespace Sys2Proof.Machine

namespace State

/-- The world and partition of a bound port that is neither frozen nor refusing (R413, R436, R442, R444). -/
def portWorld (s : State) (ld : Nat) : Option (Nat × Nat) :=
  let v := s.reg (Reg.host (8 * ld))
  let h := s.hosts.get HostPort.empty ld
  if 16 ≤ ld || v / 2 ^ 63 = 0 || h.frozen || h.refusing then none else some (v % 2 ^ 12, v / 2 ^ 12 % 64)

/-- The translation of a counter of the bound world by VA (R415, R437), with the world: none while the peer of an aperture-4 leaf is asked (R26). A
misaligned address, a page that is not counter-capable and every failed walk read FAULT; a world mismatch freezes the port (R42). -/
def hostCounter (s : State) (ld : Nat) (k : CtrKind) (va : DWord) : State × Option (Option (Nat × TlbEntry)) :=
  match s.portWorld ld with
  | none => (s.reply ld .abort, some none)
  | some (world, part) =>
    match s.agentWalk 0 world part 0 va with
    | (s, none) => (s, none)
    | (s, some none) => (s.reply ld .abort, some none)
    | (s, some (some (.freeze owner pa))) => (s.freezePort ld 0 part world (if k = .wait then 4 else 3) va.toNat owner pa, some none)
    | (s, some (some (.park _))) => (s.hostFault ld, some none)
    | (s, some (some (.ok t))) =>
      if va.toNat % 8 ≠ 0 || (permCause (if k.modifies then .ctrMod else .ctrRead) t.ap t.attr).isSome then (s.hostFault ld, some none)
      else (if k.modifies then s.setDirty 0 world t.leafPa else s, some (some (world, t)))

/-- A counter of this device is read for a host: its key, none when its unit can not be read (R69). -/
def hostKey (s : State) (ld world : Nat) (x : Xlated) : State × Option Nat :=
  let key := memKey x.ap x.pa
  match s.readUnits (unitsOf key 8) with
  | .ok s => (s, some key)
  | .error (s, n, u) => ((s.unitError u n (2112 + ld) world 0).reply ld .abort, none)

/-- A counter operation on a peer's counter sets out; its answer comes later (R127; `deviceAnswer`). -/
def askPeer (s : State) (ld world : Nat) (k : CtrKind) (t : TlbEntry) (va : DWord) (n : Nat) : State :=
  let x := s.xlate t va
  let op : FarOp := ⟨s.nextOp, k = .wait, world, va.toNat, x.pa, n, .sent⟩
  (State.onHost { s with nextOp := s.nextOp + 1 } ld fun h =>
    { h with far := h.far ++ [op], reply := if k = CtrKind.wait then h.reply else .none }).peerPacket
      (s.deviceEnd ld) world (op.number, 3) .ctr x.pa (ctrCode k) 8 (leBytes 8 n)

/-- A counter operation of a host, which returns the old value (R437, R114); and whether it has been begun. -/
def hostOperation (s : State) (ld : Nat) (k : CtrKind) : State × Bool :=
  let h := s.hosts.get HostPort.empty ld
  match s.hostCounter ld k h.addr with
  | (s, none) => (s, false)
  | (s, some none) => (s, true)
  | (s, some (some (world, t))) =>
    let n := h.operand.toNat
    if t.ap = 4 then (s.askPeer ld world k t h.addr n, true)
    else match s.hostKey ld world (s.xlate t h.addr) with
    | (s, none) => (s, true)
    | (s, some key) =>
      let c := s.mem.readNat key 8
      let s := (s.setHcstat ld (ctrEffect k false c n).2.2).reply ld (.value (BitVec.ofNat 64 c))
      (match k with
        | .add => s.agentAdd key n (2112 + ld) world 0
        | .raise => if c < n then s.agentWrite key (leBytes 8 n) 0 (2112 + ld) world 0 else s
        | _ => s, true)

/-- The watch of a device goes, one at a peer by asking (R437). -/
def dropWatch (s : State) (ld : Nat) : State :=
  let h := s.hosts.get HostPort.empty ld
  let s := (h.far.filter fun x => x.watch && (x.stage = .sent || x.stage = .armed)).foldl (fun s x =>
    s.peerPacket (s.deviceEnd ld) x.world (x.number, 3) .ctr x.pa cancelFn 8 (leBytes 8 x.threshold)) s
  { s.unwatch (.host ld) with hosts := s.hosts.put HostPort.empty ld { h with far := h.far.filter fun x => !x.watch, again := none } }

/-- A watch of a device on a counter by its VA (R118, R122, R437); one that is met at once raises vector 1. It is translated before a POT-SET under way
takes its frame, or after (R38, R121). And whether it has been begun. -/
def hostWatch (s : State) (ld : Nat) (va : DWord) (t : Nat) : State × Bool :=
  match s.hostCounter ld .wait va with
  | (s, none) => (s, false)
  | (s, some none) => (s, true)
  | (s, some (some (world, x))) =>
    if s.heldBack x then (s, false)
    else if x.ap = 4 then ((s.setHcstat ld 5).askPeer ld world .wait x va t, true)
    else match s.hostKey ld world (s.xlate x va) with
    | (s, none) => (s, true)
    | (s, some key) =>
      if t ≤ s.mem.readNat key 8 then (s.onHost ld fun h => { h with status := 0, vectors := h.vectors ||| 2 }, true)
      else ((s.setHcstat ld 5).watchVia key t (.host ld) world va.toNat, true)

/-- A write of HCWAIT: the earlier watch of the device goes, and one for counter ≥ t is armed (R437). -/
def hostWait (s : State) (ld : Nat) (t : DWord) : State × Bool :=
  match s.portWorld ld with
  | none => (s.reply ld .abort, true)
  | some _ =>
    let s := (s.dropWatch ld).onHost ld fun h => { h with wait := t }
    s.hostWatch ld (s.hosts.get HostPort.empty ld).addr t.toNat

/-- LDSTAT (R437). -/
def ldstat (s : State) (ld : Nat) : Nat :=
  let v := s.reg (Reg.host (8 * ld))
  v / 2 ^ 63 * 2 ^ 31 + (if (s.hosts.get HostPort.empty ld).frozen then 2 ^ 30 else 0) + v % 2 ^ 18

/-- A register of a window that a read leaves as it is (R437). -/
def windowReg (s : State) (ld off : Nat) : Nat :=
  let h := s.hosts.get HostPort.empty ld
  match off with
  | 0x000 => s.ldstat ld
  | 0x010 => h.addr.toNat
  | 0x018 => h.operand.toNat
  | 0x038 => h.wait.toNat
  | 0x040 => h.status
  | 0x048 => h.events
  | _ => 0

/-- A read of a host in its window (R435, R437): of HCADD, HCRAISE and HCREAD the operation, of another register its value, in 32 or 64 bits. Of a
port that refuses requests LDSTAT and HEVENT tell the state still (log 96); the others abort (R436). -/
def windowRead (s : State) (ld off size : Nat) : State × Bool :=
  let a := off / 8 * 8
  if a = 0x020 then s.hostOperation ld .add
  else if a = 0x028 then s.hostOperation ld .raise
  else if a = 0x030 then s.hostOperation ld .read
  else if (s.portWorld ld).isNone && a ≠ 0x000 && a ≠ 0x048 then (s.reply ld .abort, true)
  else if size = 8 && off % 8 = 0 then (s.reply ld (.value (BitVec.ofNat 64 (s.windowReg ld a))), true)
  else if size = 4 && off % 4 = 0 then (s.reply ld (.value (BitVec.ofNat 64 (s.windowReg ld a / 2 ^ (8 * (off % 8)) % 2 ^ 32))), true)
  else (s.reply ld (.value 0), true)

/-- A write of a host to its window (R435, R437). -/
def windowWrite (s : State) (ld off : Nat) (v : DWord) : State × Bool :=
  if off = 0x038 then s.hostWait ld v
  else if (s.portWorld ld).isNone then (s.reply ld .abort, true)
  else if off = 0x010 then (s.onHost ld fun h => { h with addr := v }, true)
  else if off = 0x018 then (s.onHost ld fun h => { h with operand := v }, true)
  else if off = 0x048 then (s.onHost ld fun h => { h with events := (List.range 4).foldl (fun n i =>
    if h.events.testBit i && !v.getLsbD i then n + 2 ^ i else n) 0 }, true)
  else (s, true)

/-- CXL_MEM_REQUEST: a host's access to a frame of HBM or the capacity tier, at most 64 bytes of one aligned 64 (R34, R42). A
mismatch of the bound world freezes the port; the host's own frame is read and written, a direct write passing through no propagation (R44); a
device-owned one reads as poison, a write is
discarded, and XHVIOL counts it at the frame's die. -/
def cxlMem (s : State) (ld ap pa size : Nat) (data : Option (List Byte)) : State :=
  match s.portWorld ld with
  | none => s.reply ld .abort
  | some (world, part) =>
    let f := pa / 2 ^ 15
    let key := memKey ap pa
    let die := (channelOf ap pa).1
    if 1 < ap || apFrames ap ≤ f || 64 < pa % 64 + size then s.reply ld .abort
    else match s.ownCheck world part ap f with
      | some (.freeze owner fpa) => s.freezePort ld die part world (if data.isSome then 1 else 0) 0 owner fpa
      | refused =>
        if refused.isSome || !s.hostBit ap f then
          let s := s.bump (Reg.dtu die 0x128) 1
          if data.isSome then s else s.reply ld .poison
        else match data with
          | some bs =>
            let bs := bs.take size
            match s.readUnits (partialUnits key bs.length) with
            | .ok s => s.poke key bs
            | .error (s, n, u) => (s.unitError u n (2112 + ld) world 0).reply ld .abort
          | none => match s.readUnits (unitsOf key size) with
            | .ok s => s.reply ld (.data (s.mem.readBytes key size))
            | .error (s, n, u) => (s.unitError u n (2112 + ld) world 0).reply ld .abort

/-! The order of a port (R104). -/

/-- A request that a port has received and that comes next; and whether it has been begun. -/
def hostDo (s : State) (ld : Nat) : HostRequest → State × Bool
  | .read off size => s.windowRead ld off size
  | .write off v => s.windowWrite ld off v
  | .mem ap pa size data => (s.cxlMem ld ap pa size data, true)

/-- A counter operation of the port is on its way to a peer. -/
def hostBusy (s : State) (ld : Nat) : Bool := (s.hosts.get HostPort.empty ld).far.any fun x => x.stage = .sent

/-- The requests that wait at a port, as far as none has to wait. -/
def hostSteps (ld : Nat) : Nat → State → State
  | 0, s => s
  | n + 1, s =>
    match (s.hosts.get HostPort.empty ld).later with
    | [] => s
    | x :: _ => if s.hostBusy ld then s else match s.hostDo ld x with
      | (s, true) => hostSteps ld n (s.onHost ld fun h => { h with later := h.later.drop 1 })
      | (s, false) => s

/-- A port receives a request and performs it behind its earlier ones (R104). -/
def hostRequest (s : State) (ld : Nat) (x : HostRequest) : State :=
  let later := fun (s : State) => s.onHost ld fun h => { h with later := h.later ++ [x] }
  if 16 ≤ ld then s
  else if (s.hosts.get HostPort.empty ld).later ≠ [] || s.hostBusy ld then later s
  else match s.hostDo ld x with
    | (s, true) => s
    | (s, false) => later s

/-- What ports do by themselves after a turn: watches that found no slot at a peer ask again after 256 cycles (R122), those that a command has
cancelled are issued again (R121), and requests that waited are performed (R104). -/
def keepHosts (s : State) : State :=
  s.hosts.foldl (fun s e =>
    let due := fun (x : FarOp) => match x.stage with
      | .refused c => decide (c + 256 ≤ s.clk)
      | _ => false
    let s := (e.2.far.filter due).foldl (fun s x =>
      (s.onHost e.1 fun h => { h with far := h.far.map fun y => if y = x then { y with stage := .armed } else y }).peerPacket
        (s.deviceEnd e.1) x.world (x.number, 3) .ctr x.pa (ctrCode .wait) 8 (leBytes 8 x.threshold)) s
    let s := match e.2.again with
      | none => s
      | some (va, t) => match s.hostWatch e.1 (BitVec.ofNat 64 va) t with
        | (s, true) => s.onHost e.1 fun h => { h with again := none, reply := e.2.reply }
        | (s, false) => s
    hostSteps e.1 e.2.later.length s) s

end State

/-- CXL_MEM_REQUEST (R42). -/
def execCxlMemRequest (ld ap pa size : Nat) (data : Option (List Byte)) (s : State) : Out := .next (s.hostRequest ld (.mem ap pa size data))
/-- HCADD (R437). -/
def execHcadd (ld : Nat) (s : State) : Out := .next (s.hostRequest ld (.read 0x20 8))
/-- HCRAISE (R437). -/
def execHcraise (ld : Nat) (s : State) : Out := .next (s.hostRequest ld (.read 0x28 8))
/-- HCREAD (R437). -/
def execHcread (ld : Nat) (s : State) : Out := .next (s.hostRequest ld (.read 0x30 8))
/-- HCWAIT (R437). -/
def execHcwait (ld : Nat) (t : DWord) (s : State) : Out := .next (s.hostRequest ld (.write 0x38 t))

end Sys2Proof.Machine
end

