-- ==== Sys2Proof/Machine/Registers.lean ====
section
/-!
DEFINITION. Writes of registers: who may write, the fields that are kept, and what a write does (spec/23 R434 to R445; spec/01 R14,
R46, R47; spec/02 R61, R65, R69, R73; spec/04 R126; spec/05 R161; spec/06 R185, R189, R190; spec/07 R201, R220; spec/16 R403, R404).
-/

namespace Sys2Proof.Machine

/-- The access marks of R435. -/
inductive Mark where
  | ro
  | captain
  /-- RW without a mark, and the write-only PRETRY and PREQ: any battery. -/
  | battery
  /-- RW1C without a mark. -/
  | clear
  | management
  deriving DecidableEq, Repr

/-- The mark of a register and the bits a write keeps. -/
structure RegForm where
  mark : Mark
  mask : Nat
  deriving DecidableEq, Repr

/-- Bits [hi:lo]. -/
def bitsMask (hi lo : Nat) : Nat := 2 ^ (hi + 1) - 2 ^ lo
def indexed (o base count : Nat) : Bool := base ≤ o && o < base + 8 * count && o % 8 = 0

/-- Registers of a compute die, by offset in the die (R47, R73, R126, R161, R189, R220, R403, R404). -/
def dieForm (die o : Nat) : RegForm :=
  if o = 0x000 then ⟨.captain, bitsMask 54 16 + 1⟩
  else if o = 0x008 then ⟨.captain, bitsMask 54 11⟩
  else if o = 0x010 then ⟨.captain, bitsMask 63 48 + bitsMask 31 16 + 1⟩
  else if o = 0x018 then ⟨.captain, bitsMask 54 12⟩
  else if o = 0x020 then ⟨.captain, bitsMask 54 3⟩
  else if o = 0x028 then ⟨.captain, bitsMask 63 0⟩
  else if o = 0x200 then ⟨.captain, bitsMask 54 11⟩
  else if o = 0x208 then ⟨.captain, bitsMask 15 0⟩
  else if o = 0x210 then ⟨.battery, bitsMask 15 0⟩
  else if o = 0x250 then ⟨.clear, bitsMask 18 0⟩
  else if indexed o 0x400 64 then ⟨.captain, bitsMask 18 0⟩
  else if indexed o 0x10000 4 then ⟨if die = 0 then .captain else .ro, bitsMask 57 32 + bitsMask 24 0⟩
  else if indexed o 0x10020 4 then ⟨if die = 0 then .captain else .ro, bitsMask 63 63 + bitsMask 44 40 + bitsMask 37 0⟩
  else if o = 0x10040 then ⟨.clear, bitsMask 3 0⟩
  else if o = 0x10048 then ⟨.clear, 1⟩
  else if o = 0x10050 then ⟨.captain, bitsMask 15 0⟩
  else if o = 0x10058 then ⟨.captain, bitsMask 31 0⟩
  else if indexed o 0x10200 64 then ⟨.captain, bitsMask 15 0⟩
  else if indexed o 0x10800 72 then ⟨.captain, bitsMask 7 7 + bitsMask 5 0⟩
  else if o = 0x20018 then ⟨.clear, bitsMask 11 0⟩
  else if o = 0x30000 then ⟨.captain, bitsMask 63 0⟩
  else if o = 0x30008 then ⟨.captain, bitsMask 31 0⟩
  else if o = 0x30010 then ⟨.clear, bitsMask 31 0⟩
  else if o = 0x30080 then ⟨.captain, bitsMask 54 10⟩
  else if o = 0x30088 then ⟨.battery, bitsMask 14 0⟩
  else if o = 0x300B0 then ⟨.battery, bitsMask 63 0⟩
  else if o = 0x41000 then ⟨.captain, bitsMask 41 32 + bitsMask 11 0⟩
  else ⟨.ro, 0⟩

/-- Registers of the I/O dies, the host block and the module block (R189, R190, R436, R438, R440, R443 to R445, R448). -/
def moduleForm (a : Nat) : RegForm :=
  let o := a % 2 ^ 24
  let ofDies := a / 2 ^ 24 = 8 || a / 2 ^ 24 = 9
  if ofDies && o = 0x41000 then ⟨.captain, bitsMask 41 32 + bitsMask 11 0⟩
  else if ofDies && (o = 0x41100 || o = 0x41120 || o = 0x41140) then ⟨.captain, bitsMask 31 20 + bitsMask 2 0⟩
  else if ofDies && (o = 0x41110 || o = 0x41130 || o = 0x41150) then ⟨.captain, 1⟩
  else if ofDies && o = 0x41180 then ⟨.captain, bitsMask 11 0⟩
  else if ofDies && o = 0x41188 then ⟨.captain, bitsMask 15 0⟩
  else if indexed a (Reg.host 0) 16 then ⟨.captain, bitsMask 63 63 + bitsMask 17 0⟩
  else if a = Reg.host 0x80 then ⟨.clear, bitsMask 15 0⟩
  else if indexed a (Reg.module 0) 64 then ⟨.captain, bitsMask 7 7 + bitsMask 5 0⟩
  else if a = Reg.module 0x200 then ⟨.battery, bitsMask 47 16 + bitsMask 5 0⟩
  else if a = Reg.module 0x218 then ⟨.captain, 1⟩
  else if a = Reg.module 0x220 then ⟨.captain, bitsMask 15 0⟩
  else if a = Reg.module 0x238 then ⟨.clear, bitsMask 1 0⟩
  else if a = Reg.module 0x240 then ⟨.captain, bitsMask 7 7 + bitsMask 5 0⟩
  else if a = Reg.module 0x248 then ⟨.management, bitsMask 1 0⟩
  else ⟨.ro, 0⟩

def regForm (a : Nat) : RegForm := if a < 0x08000000 then dieForm (a / 2 ^ 24) (a % 2 ^ 24) else moduleForm a

/-- The bits of a number below 2^64 that a mask leaves. -/
def clearBits (v m : Nat) : Nat := (BitVec.ofNat 64 v &&& ~~~(BitVec.ofNat 64 m)).toNat

namespace State

/-- A write is accepted from its agent (R435); a battery whose cores stand still makes none (R442). -/
def mayWrite (s : State) (agent : Agent) (m : Mark) : Bool :=
  let runs := fun (n : Nat) => !(s.batteries.get Battery.empty n).stopped
  match m, agent with
  | .captain, .battery n => n = s.captain && runs n
  | .battery, .battery n | .clear, .battery n => runs n
  | .management, .management => true
  | _, _ => false

/-- An error bit is set (R61, R65, R436, R439). -/
def flagError (s : State) (a bit : Nat) : State := s.setReg a (s.reg a ||| 2 ^ bit)

/-! Slices and interleave regions (R61, R65). -/

/-- A partition owns a channel of a die (R438). -/
def ownsChannel (s : State) (die part : Nat) : Bool := (List.range 72).any fun n => s.reg (Reg.memory die (0x800 + 8 * n)) = 128 + part

/-- Lines of a slice that satisfy a test leave it, dirty ones written back (R60, R61). -/
def flushSlice (s : State) (n : Nat) (f : Nat → Bool) : State := ((s.l2Of n).filter fun x => f x.addr).foldl (fun s x => s.dropLine n x) s

/-- LSMASK: the lines of the partition in the die's slices are written back and invalidated when its mask changes. -/
def writeLsmask (s : State) (die part v : Nat) : State :=
  let a := Reg.memory die (0x200 + 8 * part)
  let taken := (List.range 64).any fun q => q ≠ part && s.reg (Reg.memory die (0x200 + 8 * q)) &&& v ≠ 0
  if taken || (v = 0 && s.ownsChannel die part) then s.flagError (Reg.memory die 0x48) 0
  else if v = s.reg a then s
  else
    let lineOfPart := fun (k : Nat) =>
      !(keyAp k = 0 && reservedFrame ≤ keyPa k / 2 ^ 15) && s.framePart (keyAp k) (keyPa k) = some part
    ((List.range 16).foldl (fun s k => s.flushSlice (16 * die + k) lineOfPart) s).setReg a v

/-- The spans of a region, first frame and length (R65). -/
def spans (ctl base : Nat) : (Nat × Nat) × (Nat × Nat) :=
  let h := if ctl / 2 ^ 40 % 32 = 0 then 1 else ctl / 2 ^ 40 % 32
  let n := ctl % 2 ^ 38
  ((base % 2 ^ 25, (n * h + h) / (h + 1)), (base / 2 ^ 32 % 2 ^ 26, (n + h) / (h + 1)))
def spansMeet (a b : Nat × Nat) : Bool := 0 < a.2 && 0 < b.2 && a.1 < b.1 + b.2 && b.1 < a.1 + a.2

/-- IVCTL: a write to an enabled region other than one that clears EN is ignored; setting EN is refused for spans that leave the usable
frames or meet an enabled region's. A RATIO of 0 reads as 1. -/
def writeIvctl (s : State) (r v : Nat) : State :=
  let a := Reg.memory 0 (0x20 + 8 * r)
  let base := fun r => s.reg (Reg.memory 0 (8 * r))
  let v := if v / 2 ^ 40 % 32 = 0 then v + 2 ^ 40 else v
  let (hbm, tier) := spans v (base r)
  let clash := (List.range 4).any fun q =>
    let c := s.reg (Reg.memory 0 (0x20 + 8 * q))
    q ≠ r && c / 2 ^ 63 = 1 && (spansMeet hbm (spans c (base q)).1 || spansMeet tier (spans c (base q)).2)
  if v / 2 ^ 63 = 0 then s.setReg a v
  else if s.reg a / 2 ^ 63 = 1 then s
  else if (0 < hbm.2 && reservedFrame < hbm.1 + hbm.2) || (0 < tier.2 && apFrames 1 < tier.1 + tier.2) || clash then
    s.flagError (Reg.memory 0 0x40) r
  else s.setReg a v

/-- IVBASE: ignored while the region is enabled. -/
def writeIvbase (s : State) (r v : Nat) : State :=
  if s.reg (Reg.memory 0 (0x20 + 8 * r)) / 2 ^ 63 = 1 then s else s.setReg (Reg.memory 0 (8 * r)) v

/-! Partitions and logical devices (R436, R439). -/

/-- A change of owner goes through an unassigned state. -/
def sidesteps (old v : Nat) : Bool := old / 2 ^ 7 = 1 && v / 2 ^ 7 = 1 && old ≠ v

/-- A resource has changed owner: frames of its channels or vaults that come under another key keep what their cells hold (R57, R439;
log 50). -/
def rekeyMoved (s t : State) : State :=
  let frames := (t.written ++ (t.mem.map fun e => frameKey e.1)).eraseDups.filter fun k => isMemory (k / 2 ^ 40)
  frames.foldl (fun t k =>
    let ap := k / 2 ^ 40
    let f := k % 2 ^ 40
    t.rekeyFrame ap f (s.keyUnder s.confs ap f (s.potEntry ap f)) (t.keyUnder t.confs ap f (t.potEntry ap f))) t

/-- PUNIT: refused for a unit that holds a workgroup; a saved one is held by the units of its task's placement domain (log 21). -/
def writePunit (s : State) (u v : Nat) : State :=
  let a := Reg.module (8 * u)
  let old := s.reg a
  let holds := s.wgs.any (fun g => unitOfCore g.2.core = u) ||
    s.saved.any fun x => x.2.partition = old % 64 && !(List.range 64).any fun w =>
      w ≠ u && s.unitPart w = some x.2.partition && (match s.tasks.find? x.2.task with
        | some t => (s.domain t.queue).any fun c => unitOfCore c = w
        | none => false)
  if sidesteps old v || (old / 2 ^ 7 = 1 && v / 2 ^ 7 = 0 && holds) then s.flagError (Reg.module 0x238) 0
  else s.rekeyMoved (s.setReg a v)

/-- CHOWN: refused for a channel with a frame that is not free, and for a partition without a slice of the die. -/
def writeChown (s : State) (die n v : Nat) : State :=
  let a := Reg.memory die (0x800 + 8 * n)
  let old := s.reg a
  let used := s.pot.any fun e =>
    let ap := e.1 / 2 ^ 40
    ap ≤ 1 && channelOf ap (e.1 % 2 ^ 40 * 2 ^ 15) = (die, n) && e.2 / 2 ^ 12 % 4 ≠ 0
  if sidesteps old v || (old / 2 ^ 7 = 1 && v / 2 ^ 7 = 0 && used) ||
      (v / 2 ^ 7 = 1 && s.reg (Reg.memory die (0x200 + 8 * (v % 64))) = 0) then s.flagError (Reg.module 0x238) 1
  else s.rekeyMoved (s.setReg a v)

/-- LDBIND: refused for a world that is not valid in the partition, and for a partition that another device serves; an accepted write
with EN = 1 unfreezes the port (R413). A root entry that can not be read is no valid one (R68, R69). The watch of a device that is rebound or
unbound goes. -/
def writeLdbind (s : State) (n v : Nat) : State :=
  let part := v / 2 ^ 12 % 64
  let other := (List.range 16).any fun m =>
    let u := s.reg (Reg.host (8 * m))
    m ≠ n && u / 2 ^ 63 = 1 && u / 2 ^ 12 % 64 = part
  let (s, readable) := if v / 2 ^ 63 = 1 then (match s.agentUnits (s.rootUnits 0 (v % 2 ^ 12)) (2048 + s.captain) (v % 2 ^ 12) 0 with
    | .ok s => (s, true)
    | .error s => (s, false)) else (s, true)
  if v / 2 ^ 63 = 1 && (!readable || s.worldPart 0 (v % 2 ^ 12) ≠ some part || other) then s.flagError (Reg.host 0x80) n
  else
    let s := s.dropWatch n
    let s := s.setReg (Reg.host (8 * n)) v
    if v / 2 ^ 63 = 1 then s.onHost n fun h => { h with frozen := false, refusing := s.closed part } else s

/-! Queues, saves and pre-emption (R220, R403, R404). -/

/-- QEN: each bit switches its queue on or off (R201). -/
def writeQen (s : State) (die v : Nat) : State := (List.range 32).foldl (fun s k => s.enableQueue (32 * die + k) (v.testBit k)) s

/-- The partition that a battery's write must name; the captain's may name any (R403, R404). -/
def within (s : State) (agent : Agent) (part : Nat) : Bool :=
  match agent with
  | .battery n => n = s.captain || n = part
  | _ => false

/-- PRETRY: a refused entry of the die may be restored again. -/
def writePretry (s : State) (agent : Agent) (die id : Nat) : State :=
  match s.saved.find? id with
  | some e => if id / 4096 = die && e.refused && s.within agent e.partition then
      { s with saved := s.saved.insert id { e with refused := false } } else s
  | none => s

/-- PREQ: every workgroup of a task resident on the die is asked to go. -/
def writePreq (s : State) (agent : Agent) (die v : Nat) : State :=
  (s.wgs.filter fun g => dieOfCore g.2.core = die && s.taskId g.2.task = v % 2 ^ 32 && s.within agent g.2.partition).foldl
    (fun s g => s.request g.1 (v / 2 ^ 32)) s

/-- PRESET: the captain's own partition is not reset before a handover (R444). -/
def writePreset (s : State) (v : Nat) : State :=
  if v / 2 ^ 7 % 2 = 1 && v % 64 ≠ s.captain then s.startReset (v % 64) else s

/-- FARB: a weight of 0 reads as 1 (R189). -/
def farbValue (v : Nat) : Nat := v / 2 ^ 12 * 2 ^ 12 + weight (v / 2 ^ 8) * 2 ^ 8 + weight (v / 2 ^ 4) * 2 ^ 4 + weight v

/-- The effect of an accepted write on a register that is neither RO nor RW1C: value cut to the register's bits. -/
def effect (s : State) (agent : Agent) (a v : Nat) : State :=
  let die := a / 2 ^ 24
  let o := a % 2 ^ 24
  if a < 0x08000000 then
    if indexed o 0x10000 4 then s.writeIvbase ((o - 0x10000) / 8) v
    else if indexed o 0x10020 4 then s.writeIvctl ((o - 0x10020) / 8) v
    else if indexed o 0x10200 64 then s.writeLsmask die ((o - 0x10200) / 8) v
    else if indexed o 0x10800 72 then s.writeChown die ((o - 0x10800) / 8) v
    else if o = 0x30008 then s.writeQen die v
    else if o = 0x30088 then s.writePretry agent die v
    else if o = 0x300B0 then s.writePreq agent die v
    else if a = 0 then { s with rootWritten := true }.setReg a v
    else s.setReg a (if o = 0x41000 then farbValue v else v)
  else if o = 0x41100 || o = 0x41120 || o = 0x41140 then (if 6 ≤ v % 8 then s else s.setReg a v)
  else if o = 0x41110 || o = 0x41130 || o = 0x41150 then (if v = 1 then s.setLanes ((die - 8) * 3 + (o - 0x41110) / 0x20) 0 else s)
  else if indexed a (Reg.host 0) 16 then s.writeLdbind ((a - Reg.host 0) / 8) v
  else if indexed a (Reg.module 0) 64 then s.writePunit ((a - Reg.module 0) / 8) v
  else if a = Reg.module 0x200 then s.writeCapt v
  else if a = Reg.module 0x240 then s.writePreset v
  else if a = Reg.module 0x218 || a = Reg.module 0x248 then s
  else s.setReg a (if (die = 8 || die = 9) && o = 0x41000 then farbValue v else v)

/-- A 64-bit write to a register (R435): ignored, cleared bit by bit, or its effect. What FWCMD and LCADV do beside it is theirs. -/
def writeReg (s : State) (agent : Agent) (a : Nat) (v : DWord) : State :=
  let f := regForm a
  if !s.mayWrite agent f.mark then s
  else if f.mark = .clear then s.setReg a (clearBits (s.reg a) v.toNat)
  else (s.effect agent a (v.toNat &&& f.mask)).keepResets

/-- FWCMD with the staged image's version, none when a signature fails: the switch point, or FWSTAT.ERR (R443). -/
def writeFwcmd (s : State) (agent : Agent) (v : DWord) (image : Option (BitVec 16)) : State :=
  if !s.mayWrite agent .captain || !v.getLsbD 0 then s
  else match image with
    | none => s.flagError (Reg.module 0x210) 31
    | some n =>
      let s := { s with switches := s.switches + 1 }.setReg (Reg.module 0x210) n.toNat
      s.boundDevices.foldl (fun s ld => s.hostEvent ld 3) s

/-- LCADV with whether a good advance token is staged: the state steps to the one named, with its entry actions, and the register shows
a refusal (R445). -/
def writeLcadv (s : State) (agent : Agent) (v : DWord) (token : Bool) : State :=
  let now := s.reg (Reg.module 0x230)
  let next := v.toNat % 4
  if !s.mayWrite agent .management then s
  else if next ≠ now + 1 || !token then s.setReg (Reg.module 0x248) (2 ^ 31)
  else
    let s := if next = 1 then { s with draws := s.draws + 1, identity := s.draws + 1 }
      else if next = 3 then s.confs.foldl (fun t w => t.rekeyWorld s s.confs w) { s with keys := [] } else s
    (s.setReg (Reg.module 0x230) next).setReg (Reg.module 0x248) 0

/-- A register write of any agent (R435): a host reaches its own window only. -/
def registerWrite (s : State) (agent : Agent) (a : Nat) (v : DWord) : State :=
  match agent with
  | .host ld => s.hostRequest ld (.write a v)
  | _ => s.writeReg agent a v

end State

/-- RETRAIN: BRCTL of a Birrak port (R185, R190). -/
def execRetrain (agent : Agent) (port : Nat) (v : DWord) (s : State) : Out :=
  .next (if port < 6 then s.writeReg agent (Reg.fabric (8 + port / 3) (0x1110 + 0x20 * (port % 3))) v else s)
/-- LDBIND (R436). -/
def execLdbind (agent : Agent) (ld : Nat) (v : DWord) (s : State) : Out :=
  .next (if ld < 16 then s.writeReg agent (Reg.host (8 * ld)) v else s)
/-- LSMASK (R61). -/
def execLsmask (agent : Agent) (die part : Nat) (v : DWord) (s : State) : Out :=
  .next (if die < 8 && part < 64 then s.writeReg agent (Reg.memory die (0x200 + 8 * part)) v else s)
/-- IVCTL (R65). -/
def execIvctl (agent : Agent) (r : Nat) (v : DWord) (s : State) : Out :=
  .next (if r < 4 then s.writeReg agent (Reg.memory 0 (0x20 + 8 * r)) v else s)
/-- IVBASE (R65). -/
def execIvbase (agent : Agent) (r : Nat) (v : DWord) (s : State) : Out :=
  .next (if r < 4 then s.writeReg agent (Reg.memory 0 (8 * r)) v else s)
/-- QEN (R201). -/
def execQen (agent : Agent) (die : Nat) (v : DWord) (s : State) : Out :=
  .next (if die < 8 then s.writeReg agent (Reg.dispatcher die 0x008) v else s)
/-- PUNIT (R439). -/
def execPunit (agent : Agent) (u : Nat) (v : DWord) (s : State) : Out :=
  .next (if u < 64 then s.writeReg agent (Reg.module (8 * u)) v else s)
/-- CHOWN (R439). -/
def execChown (agent : Agent) (die n : Nat) (v : DWord) (s : State) : Out :=
  .next (if die < 8 && n < 72 then s.writeReg agent (Reg.memory die (0x800 + 8 * n)) v else s)
/-- CAPT (R440). -/
def execCapt (agent : Agent) (v : DWord) (s : State) : Out := .next (s.writeReg agent (Reg.module 0x200) v)
/-- PRETRY (R403). -/
def execPretry (agent : Agent) (die : Nat) (v : DWord) (s : State) : Out :=
  .next (if die < 8 then s.writeReg agent (Reg.dispatcher die 0x88) v else s)
/-- PREQ (R404). -/
def execPreq (agent : Agent) (die : Nat) (v : DWord) (s : State) : Out :=
  .next (if die < 8 then s.writeReg agent (Reg.dispatcher die 0xB0) v else s)
/-- PRESET (R444). -/
def execPreset (agent : Agent) (v : DWord) (s : State) : Out := .next (s.writeReg agent (Reg.module 0x240) v)
/-- FWCMD (R443). -/
def execFwcmd (agent : Agent) (v : DWord) (image : Option (BitVec 16)) (s : State) : Out := .next (s.writeFwcmd agent v image)
/-- LCADV (R445). -/
def execLcadv (agent : Agent) (v : DWord) (token : Bool) (s : State) : Out := .next (s.writeLcadv agent v token)
/-- REGISTER_WRITE (R435). -/
def execRegisterWrite (agent : Agent) (pa : Nat) (v : DWord) (s : State) : Out := .next (s.registerWrite agent pa v)

end Sys2Proof.Machine
end

