-- ==== Sys2Proof/Machine/Battery.lean ====
section
/-!
DEFINITION. The accesses of batteries by physical address, which their firmware makes and the agenda gives: memory of the device and of peers,
registers, waits at counters, commands; and the repairs of requests parked on peers' pages (spec/20 R424 to R426; spec/21 R429; spec/04 R118,
R122; spec/01 R36; spec/23 R435, R442).
-/

namespace Sys2Proof.Machine

/-- The 32 bytes of a command (R36). -/
def Cmd.bytes (c : Cmd) : List Byte :=
  leBytes 1 c.op ++ leBytes 1 c.flags ++ leBytes 2 c.world ++ leBytes 2 c.entry ++ leBytes 1 c.aperture ++ leBytes 1 0 ++ leBytes 8 c.va ++
    leBytes 4 c.count ++ leBytes 4 c.spare ++ leBytes 8 c.counter

/-- The aperture and the address of a form (R202). -/
def formAp (f : Nat) : Nat := f / 2 ^ 56 % 8
def formPa (f : Nat) : Nat := f % 2 ^ 55

namespace State

def batteryOf (s : State) (b : Nat) : Battery := s.batteries.get Battery.empty b
def onBattery (s : State) (b : Nat) (f : Battery → Battery) : State := { s with batteries := s.batteries.put Battery.empty b (f (s.batteryOf b)) }

/-- The first access of a battery is over. -/
def accessDone (s : State) (b : Nat) (got : List Byte) : State := s.onBattery b fun x => { x with todo := x.todo.drop 1, got := got, asked := .none }

/-- The first access of a battery could not be performed: what the battery was to do after it is not done either (log 97). -/
def accessFailed (s : State) (b : Nat) : State := s.onBattery b fun x => { x with todo := [], got := [], asked := .none }

/-- Bytes that a battery reads on this device: none of a unit found uncorrectable, which is recorded (R69, R70). -/
def accessRead (s : State) (b form n : Nat) : State × Option (List Byte) :=
  let ap := formAp form
  let key := memKey ap (formPa form)
  if isMemory ap then
    match s.agentUnits (unitsOf key n) (2048 + b) 0 0 with
    | .ok s => (s, some (s.mem.readBytes key n))
    | .error s => (s.accessFailed b, none)
  else if ap = 5 then (s, some (s.mem.readBytes key n))
  else if ap = 6 then (s, some (s.readMmio (formPa form) n))
  else (s, some [])

/-- A battery stores bytes on this device: in memory and its replicas, in host memory, in a register (R96, R435); not over part of a unit found
uncorrectable (R69). -/
def accessWrite (s : State) (b form : Nat) (bs : List Byte) : State :=
  let ap := formAp form
  let key := memKey ap (formPa form)
  let got := (s.batteryOf b).got
  if isMemory ap then
    match s.agentUnits (partialUnits key bs.length) (2048 + b) 0 0 with
    | .ok s => (s.agentWrite key bs 0 (2048 + b) 0 0).accessDone b got
    | .error s => s.accessFailed b
  else (if ap = 5 then { s with mem := s.mem.writeBytes key bs }
    else if ap = 6 && bs.length = 8 then s.registerWrite (.battery b) (formPa form) (BitVec.ofNat 64 (leNat bs))
    else s).accessDone b got

/-- A first access that goes to a peer, in the world it carries: its packets, and then the wait for the answers; a wait that found no slot asks again
after 256 cycles (R122, R127). -/
def accessFar (s : State) (b world : Nat) (ty : PType) (form fn n : Nat) (bs : List Byte) : Option State :=
  let send := fun (s : State) =>
    let (t, k) := if ty = .wr then s.peerWrite (s.batteryEnd b) world accessTag (formPa form) bs
      else (s.peerPacket (s.batteryEnd b) world accessTag ty form fn n bs, 1)
    t.onBattery b fun x => { x with asked := .sent k }
  match (s.batteryOf b).asked with
  | .none => some (send s)
  | .sent _ => none
  | .refused since => if since + 256 ≤ s.clk then some (send s) else none
  | .answered =>
    let got := (s.batteryOf b).got
    some (s.accessDone b (if ty = .rd then (got.drop (formPa form % 32)).take n else got))

/-- What a battery reads, once it has it: the state and the bytes, or the state in which a peer has been asked; none while it waits. -/
def accessGet (s : State) (b world form n : Nat) : Option (State × Option (List Byte)) :=
  if formAp form ≠ 4 then some (s.accessRead b form n)
  else match (s.batteryOf b).asked with
    | .answered => some (s, some (((s.batteryOf b).got.drop (formPa form % 32)).take n))
    | _ => (s.accessFar b world .rd form 0 n []).map fun s => (s, none)

/-- A command put into the ring of a battery's partition on a die and published; none while the ring is not usable or has no room (R36, R48). -/
def submitted (s : State) (b die : Nat) (bytes : List Byte) : Option State :=
  match s.commandRing die b with
  | none => none
  | some (base, slots, produced, consumed) =>
    match s.readUnits (s.ringUnits (s.commandTable die) b) with
    | .error _ => none
    | .ok s =>
      let p := s.mem.readNat produced 8
      if slots ≤ p - s.mem.readNat consumed 8 then none
      else some ((s.agentWrite (base + 32 * (p % slots)) bytes 0 (2048 + b) 0 0).agentAdd produced 1 (2048 + b) 0 0)

/-- The first access of a battery that runs is made, when it can be: none while it waits. -/
def access (s : State) (b : Nat) : Option State :=
  let x := s.batteryOf b
  if x.stopped then none
  else match x.todo with
    | [] => none
    | .load world form n :: _ => (s.accessGet b world form n).map fun r => match r.2 with
        | some bs => r.1.accessDone b bs
        | none => r.1
    | .copy world src dst n :: rest =>
      let k := Nat.min n (128 - formPa src % 128)
      let more := if k < n then .copy world (src + k) (dst + k) (n - k) :: rest else rest
      (s.accessGet b world src k).map fun r => match r.2 with
        | some bs => r.1.onBattery b fun x => { x with todo := .store world dst bs :: more, asked := .none }
        | none => r.1
    | .store world form bs :: _ =>
      if formAp form = 4 then s.accessFar b world .wr form 0 bs.length bs else some (s.accessWrite b form bs)
    | .add world form n :: _ =>
      if formAp form = 4 then s.accessFar b world .ctr form (ctrCode .add) 8 (leBytes 8 n)
      else some ((if isMemory (formAp form) then s.agentAdd (formKey form) n (2048 + b) 0 0 else s).accessDone b x.got)
    | .await world form t :: _ =>
      if formAp form = 4 then s.accessFar b world .ctr form (ctrCode .wait) 8 (leBytes 8 t)
      else if s.polls.any (fun p => p.who = .battery b) then none
      else if s.mem.readNat (formKey form) 8 < t then none
      else match s.readUnits (unitsOf (formKey form) 8) with
        | .ok s => some ((s.unwatch (.battery b)).accessDone b x.got)
        | .error (s, n, u) => some ((s.unitError u n (2048 + b) 0 0).retry (formKey form) (.battery b))
    | .submit die bytes :: _ =>
      if s.polls.any (fun p => p.who = .battery b) then none
      else (s.submitted b die bytes).map fun s => (s.unwatch (.battery b)).accessDone b x.got
    | .perform die bytes :: rest =>
      if s.polls.any (fun p => p.who = .battery b) then none
      else
        let counter := field bytes 0x18 8 % 2 ^ 55 / 8 * 8
        let n := s.mem.readNat counter 8
        (s.submitted b die bytes).map fun s => (s.unwatch (.battery b)).onBattery b fun x => { x with todo := .await 0 counter (n + 1) :: rest }

/-- What a battery waits for at a counter of this device. -/
def batteryWaits (s : State) (b : Nat) : Option (Nat × Nat) :=
  if (s.batteryOf b).stopped then none
  else match (s.batteryOf b).todo with
    | .await _ form t :: _ => if formAp form = 4 then none else some (formKey form, t)
    | .submit die _ :: _ | .perform die _ :: _ => (s.commandRing die b).map fun (_, slots, produced, consumed) => (consumed, s.mem.readNat produced 8 - slots + 1)
    | _ => none

/-- So many accesses of a battery, as far as none waits. -/
def accesses (b : Nat) : Nat → State → State
  | 0, s => s
  | n + 1, s => match s.access b with
    | some s => accesses b n s
    | none => s

/-- What the batteries have to do by themselves after a turn: their accesses, and their watches (R118, R122). -/
def keepBatteries (s : State) : State :=
  s.batteries.foldl (fun s e =>
    if e.2.todo.isEmpty then s
    else
      let s := accesses e.1 (2 * e.2.todo.length) s
      s.keepWatch (.battery e.1) (2048 + e.1) (s.batteryWaits e.1)) s

/-! Repairs of parked requests: of pages not present, and on pages of a peer (R416, R424 to R426). -/

/-- A leaf of a page, as its partition's battery reads it from the tables: its address, its contents, how many pages it maps, and the first of them
(R16, R19). One that is not valid stands at L0. -/
structure Leaf where
  at' : Nat
  entry : Nat
  pages : Nat
  first : Nat
  deriving DecidableEq, Repr

/-- The entry of a page below a table, through the levels left; none where a table is missing. -/
def leafBelow (page : Nat) : List (Nat × Nat) → State → Nat → Option Leaf
  | [], s, table =>
    let pa := table + 8 * (page % 2 ^ 12)
    some ⟨pa, s.mem.readNat pa 8, 1, page⟩
  | (sh, bits) :: rest, s, table =>
    let pa := table + 8 * (page * 2 ^ 15 / 2 ^ sh % 2 ^ bits)
    let e := s.mem.readNat pa 8
    let n := 2 ^ (sh - 15)
    if e % 4 = 3 then leafBelow page rest s (e / 2 ^ 16 % 2 ^ 40 * 2 ^ 15)
    else if e % 4 = 1 && sh < 51 then some ⟨pa, e, n, page / n * n⟩
    else none

def pageLeaf (s : State) (die world page : Nat) : Option Leaf :=
  leafBelow page levels s (s.rootEntry die world / 2 ^ 16 % 2 ^ 40 * 2 ^ 15)

/-- The commands of a repair on the pages of a leaf. -/
def invalCmd (world counter : Nat) (l : Leaf) : List Byte := Cmd.bytes ⟨1, 1, world, 0, 0, l.first * 2 ^ 15, l.pages, 0, counter⟩
def releaseCmd (world : Nat) (l : Leaf) : List Byte := Cmd.bytes ⟨6, 1, world, 0, 0, l.first * 2 ^ 15, l.pages, 0, 0⟩
def takeCmdOf (world counter frame : Nat) (l : Leaf) : List Byte := Cmd.bytes ⟨3, 0, world, 2 ^ 12 + world, 0, frame, l.pages, 0, counter⟩

/-- The bits of a leaf among those given. -/
def leafBits (ks : List Nat) (v : Nat) : Nat := ks.foldl (fun a k => if v.testBit k then a + 2 ^ k else a) 0

/-- R416: POT-SET, whose completion is awaited; the leaf; RELEASE. -/
def present (die world counter frame attr : Nat) (l : Leaf) : List BatteryAccess :=
  [.perform die (takeCmdOf world counter frame l), .store 0 l.at' (leBytes 8 (frame * 2 ^ 16 + leafBits [5, 6, 8, 9, 10, 13] attr + 1)),
    .submit die (releaseCmd world l)]

/-- R424: the leaf with RA = 1; INVAL-VA, whose completion is awaited; RELEASE. -/
def remap (die world counter : Nat) (l : Leaf) : List BatteryAccess :=
  [.store 0 l.at' (leBytes 8 (l.entry ||| 2 ^ 7)), .perform die (invalCmd world counter l), .submit die (releaseCmd world l)]

/-- R425: the leaf with V = 0; INVAL-VA; the peer's frames copied into free ones; POT-SET; a leaf of HBM with W, CT, X and MA as before;
RELEASE. -/
def migrate (die world counter frame : Nat) (l : Leaf) : List BatteryAccess :=
  [.store 0 l.at' (leBytes 8 (l.entry / 2 * 2)), .perform die (invalCmd world counter l),
    .copy world (4 * 2 ^ 56 + l.entry / 2 ^ 16 % 2 ^ 40 * 2 ^ 15) (frame * 2 ^ 15) (l.pages * 2 ^ 15),
    .perform die (takeCmdOf world counter frame l),
    .store 0 l.at' (leBytes 8 (frame * 2 ^ 16 + leafBits [5, 6, 8, 10] l.entry + 1)), .submit die (releaseCmd world l)]

/-- Frames of HBM from the one given are free, aligned for a leaf, and the partition's. -/
def freeFrames (s : State) (b frame : Nat) (l : Leaf) : Bool :=
  frame % l.pages = 0 && frame + l.pages ≤ reservedFrame && (sampled 0 frame l.pages).all (fun f => s.framePart 0 (f * 2 ^ 15) = some b) &&
    !s.pot.any fun e => frame ≤ e.1 && e.1 < frame + l.pages && e.2 ≠ 0

/-- What a battery does about a park record: for a page not present it gives a frame, or only RELEASE where the leaf has been stored meanwhile
(R416); on an aperture-4 leaf it goes by the leaf's PN bit (R426); none for a record that those rules do not speak of. The task of a refused write is
what DGQRES gives for its park id (R161). -/
def repairOf (s : State) (b die counter frame attr : Nat) (r : List Byte) : Option (List BatteryAccess) :=
  let world := field r 0x0C 2
  let page := field r 0 8 % 2 ^ 57 / 2 ^ 15
  let cause := field r 0x0E 1
  match (if field r 0x0F 1 = 0 then s.pageLeaf die world page else none) with
  | none => none
  | some l =>
    if cause = Cause.notPresent.code then
      if l.entry % 2 = 1 then some [.submit die (releaseCmd world l)]
      else if s.freeFrames b frame l then some (present die world counter frame attr l) else none
    else if l.entry % 2 = 0 || l.entry / 4 % 8 ≠ 4 then none
    else if cause = Cause.atomic.code then
      if l.entry.testBit 13 then some (remap die world counter l)
      else if s.freeFrames b frame l then some (migrate die world counter frame l) else none
    else if cause = Cause.write.code then
      let v := (s.writeReg (.battery b) (Reg.dtu die 0x210) (BitVec.ofNat 64 (field r 0x10 2))).readReg (Reg.dtu die 0x218)
      some (.store 0 (6 * 2 ^ 56 + Reg.dtu die 0x210) (leBytes 8 (field r 0x10 2)) ::
        if v / 2 ^ 63 = 1 then [.submit die (Cmd.bytes ⟨7, 1, world, 0, 0, v % 2 ^ 32, 0, 0, 0⟩)] else [])
    else none

/-- The battery of a partition takes the next record of its repair queue on a die and begins what it asks for (R146, R148, R426). -/
def repair (s : State) (b die counter frame attr : Nat) : State :=
  if 64 ≤ b || (s.batteryOf b).stopped then s
  else match s.repairRing die b with
    | none => s
    | some (base, slots, produced, consumed) =>
      let c := s.mem.readNat consumed 8
      if s.mem.readNat produced 8 ≤ c then s
      else
        let slot := base + 32 * (c % slots)
        let take := fun (s : State) =>
          let r := s.mem.readBytes slot 32
          let world := field r 0x0C 2
          let path := (s.pathOf die world (pageVa (field r 0 8 % 2 ^ 57 / 2 ^ 15))).map fun t => unitOf t.2.1
          match s.agentUnits (s.rootUnits die world ++ path) (2048 + b) world 0 with
          | .error s => s
          | .ok s => match s.repairOf b die counter frame attr r with
            | some l => (s.agentAdd consumed 1 (2048 + b) 0 0).battery b l
            | none => s
        match s.agentUnits (s.ringUnits (s.repairTable die) b ++ [slot]) (2048 + b) 0 0 with
        | .error s => s
        | .ok s => take s

end State
end Sys2Proof.Machine
end

