-- ==== Sys2Proof/Machine/Attest.lean ====
section
/-!
DEFINITION. Attestation: the SPDM responder of each logical device and of the management interface (spec/23 R446, R447). Message
layouts are outside the spec: an answer is kept by what it carries (log 23).
-/

namespace Sys2Proof.Machine

namespace State

/-- A requester the device answers, in production only: a bound logical device, or 16 for the management interface (R445, R446; log 89). -/
def answers (s : State) (q : Nat) : Bool := s.reg (Reg.module 0x230) = 2 && (q = 16 || s.boundDevices.contains q)
def spdmOf (s : State) (q : Nat) : Spdm := s.spdm.get Spdm.empty q
def setSpdm (s : State) (q : Nat) (x : Spdm) : State := { s with spdm := s.spdm.put Spdm.empty q x }

/-- A request is answered: with ERROR unless what must come before it has been negotiated. -/
def respond (s : State) (q : Nat) (request : List Byte) (ok : Spdm → Bool) (f : Spdm → Spdm) : State :=
  if !s.answers q then s
  else
    let x := s.spdmOf q
    if ok x then let x := { x with transcript := x.transcript ++ [request] }; s.setSpdm q (f x)
    else s.setSpdm q { x with reply := .error }

def negotiated (x : Spdm) : Bool := x.version && x.capabilities && x.algorithms

/-- The transcript hash of an answer that carries some content. -/
def transcriptHash (x : Spdm) (content : List Byte) : BitVec 384 := Config.sha384 (x.transcript.flatten ++ content)

/-- A signed answer: ERROR when no SLH-DSA signature can be produced (R446). -/
def signedReply (s : State) (x : Spdm) (content : List Byte) (mk : List Byte → SpdmReply) : Spdm :=
  let h := transcriptHash x content
  match Config.slhSign s.identity h with
  | none => { x with reply := .error }
  | some _ => { x with signed := some h, reply := mk (Config.rsaSign s.identity h) }

/-- RSASSA-3072 and SHA-384 are among the algorithms that a request offers (R446; log 23). -/
def offers (request : List Byte) : Bool := (field request 8 4).testBit 2 && (field request 12 4).testBit 1

/-- The measurements (R447). -/
def measurements (s : State) (q : Nat) : List (List Byte) :=
  let bind := s.readReg (Reg.host (8 * q))
  let part := bind / 2 ^ 12 % 64
  let owned := fun (v : Nat) => v = 128 + part
  let units := (List.range 64).filter fun u => owned (s.reg (Reg.module (8 * u)))
  let channels := (List.range 576).filter fun n => owned (s.reg (Reg.memory (n / 72) (0x800 + 8 * (n % 72))))
  [Config.bootRom, Config.firmware (s.reg (Reg.module 0x210) % 2 ^ 16), (services.map (leBytes 4)).flatten,
    leBytes 8 (s.reg (Reg.module 0x230)) ++ (s.disabled.map (leBytes 4)).flatten ++ Config.fuses s.identity,
    if q = 16 then [] else leBytes 8 bind ++ (units.map (leBytes 4)).flatten ++ (channels.map (leBytes 4)).flatten]

end State

/-- GET_VERSION: the exchange begins again (R446). -/
def execGetVersion (q : Nat) (request : List Byte) (s : State) : Out :=
  .next (s.respond q request (fun _ => true) fun x => { Spdm.empty with version := true, transcript := [request], signed := x.signed, reply := .version [(1, 3)] })
/-- GET_CAPABILITIES (R446). -/
def execGetCapabilities (q : Nat) (request : List Byte) (s : State) : Out :=
  .next (s.respond q request Spdm.version fun x => { x with
    capabilities := true, reply := .capabilities [.digests, .certificate, .challenge, .measurements, .vendorDefined] })
/-- NEGOTIATE_ALGORITHMS: RSASSA-3072 and SHA-384, when they are offered (R446). -/
def execNegotiateAlgorithms (q : Nat) (request : List Byte) (s : State) : Out :=
  .next (s.respond q request (fun x => x.version && x.capabilities && State.offers request) fun x =>
    { x with algorithms := true, reply := .algorithms 2 1 })
/-- GET_DIGESTS: of the chains of slots 0 and 1 (R446). -/
def execGetDigests (q : Nat) (request : List Byte) (s : State) : Out :=
  .next (s.respond q request State.negotiated fun x =>
    { x with reply := .digests ([0, 1].map fun k => Config.sha384 (Config.chain s.identity k)) })
/-- GET_CERTIFICATE: the slot is the request's third byte (R446). -/
def execGetCertificate (q : Nat) (request : List Byte) (s : State) : Out :=
  .next (s.respond q request State.negotiated fun x =>
    let slot := (request.getD 2 0).toNat % 16
    { x with reply := if slot < 2 then .certificate (Config.chain s.identity slot) else .error })
/-- CHALLENGE (R446). -/
def execChallenge (q : Nat) (request : List Byte) (s : State) : Out :=
  .next (s.respond q request State.negotiated fun x => s.signedReply x [] .challenge)
/-- GET_MEASUREMENTS (R446, R447). -/
def execGetMeasurements (q : Nat) (request : List Byte) (s : State) : Out :=
  .next (s.respond q request State.negotiated fun x => s.signedReply x (s.measurements q).flatten (.measurements (s.measurements q)))
/-- VENDOR_DEFINED_REQUEST under Kamboca's registry id: the SLH-DSA signature over the transcript hash of the last signed answer (R446). -/
def execVendorDefinedRequest (q : Nat) (request : List Byte) (s : State) : Out :=
  .next (s.respond q request (fun x => State.negotiated x && (request.drop 4).take Config.registry.length = Config.registry) fun x =>
    { x with reply := match x.signed.bind (Config.slhSign s.identity) with
      | some sig => .vendor sig
      | none => .error })

end Sys2Proof.Machine
end

