-- ==== Sys2Proof/Machine/Devices.lean ====
section
/-!
DEFINITION. Memory devices: refresh, row mitigation, scrubbing, evacuation of channels, soft errors of memory and of a core's arrays
(spec/02 R66 to R72).
-/

namespace Sys2Proof.Machine

namespace State

def onChannel (s : State) (die n : Nat) (f : Channel → Channel) : State :=
  { s with channels := s.channels.put Channel.empty (72 * die + n) (f (s.channels.get Channel.empty (72 * die + n))) }

/-- REFRESH: a refresh falls due. A busy channel postpones it, but at -8 it is issued at once; an idle one issues it and pulls one in,
but at +8 none (R66). -/
def refresh (s : State) (die n : Nat) (postpone : Bool) : State :=
  if 8 ≤ die || 72 ≤ n then s
  else s.onChannel die n fun c => { c with
    balance := if postpone then (if -8 < c.balance then c.balance - 1 else c.balance)
      else if c.balance < 8 then c.balance + 1 else c.balance }

/-- The key of an HBM row's activation counter. -/
def rowKey (die n row : Nat) : Nat := 2 ^ 64 * (72 * die + n) + row
/-- The threshold of a die's rows: values of RHTH.THR below 0x40 act as 0x40 (R73). -/
def rowThreshold (s : State) (die : Nat) : Nat := Nat.max 0x40 (s.reg (Reg.memory die 0x50) % 2 ^ 16)

/-- ROW_MITIGATION: an HBM row is precharged, which adds 1 to its counter; at threshold, or with a check code that fails, its neighbours
are refreshed and the counter is reset (R67; log 22). -/
def mitigate (s : State) (die n row : Nat) (bad : Bool) : State :=
  if 8 ≤ die || 64 ≤ n then s
  else
    let k := rowKey die n row
    let c := Nat.min (s.rows.get 0 k + 1) 65535
    if bad || s.rowThreshold die ≤ c || c = 65535 then
      let s := { s with rows := s.rows.put 0 k 0 }.bump (Reg.memory die 0x60) 1
      if bad then s.bump (Reg.memory die 0x68) 1 else s
    else { s with rows := s.rows.put 0 k c }

/-- A unit of a vault, HBM or the capacity tier. -/
def memoryUnit (u : Nat) : Bool := isMemory (keyAp u) && u % 32 = 0 && keyPa u / 2 ^ 15 < apFrames (keyAp u)

/-- PATROL_SCRUB: a unit is read and corrected; one found uncorrectable stays so until a request reads it (R69, R71). -/
def scrub (s : State) (u : Nat) : State :=
  if !memoryUnit u then s
  else match s.readChannel u with
    | .ok s => s
    | .error (s, _) => s

/-- The stack of an HBM channel, 16 for the capacity tier, and its spares (R72). -/
def spareGroup (die n : Nat) : Nat × Nat := if n < 64 then (2 * die + n / 32, 2) else (16, 4)

/-- EVACUATION_START: a channel with more corrected units in the window than EVTH is copied to a free spare; without one the captain
is told (R72; of the record's other fields, log 67). -/
def evacuate (s : State) (die n : Nat) : State :=
  let c := s.channels.get Channel.empty (72 * die + n)
  let count := if c.since = s.clk / 2 ^ 26 then c.window else 0
  if 8 ≤ die || 72 ≤ n || (c.ev ≠ 0 && c.ev ≠ 2) || count ≤ s.reg (Reg.memory die 0x58) then s
  else
    let (g, most) := spareGroup die n
    let used := s.spares.get 0 g
    if used < most then { s with spares := s.spares.put 0 g (used + 1) }.onChannel die n fun c => { c with ev := 1, window := 0 }
    else
      let s := s.onChannel die n fun c => { c with ev := 3 }
      s.memErrorRecord die none 0 (if n < 64 then 5 else 6) 0 0xFFFF 0 0

/-- EVACUATION_COMPLETE: the spare takes the channel's number; addresses and contents stay (R72). -/
def evacuated (s : State) (die n : Nat) : State :=
  if (s.channels.get Channel.empty (72 * die + n)).ev = 1 then s.onChannel die n fun c => { c with ev := 2 } else s

/-- A value written over a unit of a core's array (R68, five symbols or more). -/
def overwriteCore (s : State) (g : Nat) (x : Workgroup) (u : Nat) (v : BitVec 256) : State :=
  let word := fun i => BitVec.ofNat 32 (v.toNat / 2 ^ (32 * i))
  let byte := fun i => BitVec.ofNat 8 (v.toNat / 2 ^ (8 * i))
  if u < 2 ^ 120 then s.setWg g (scrWrite x (u - scrKey g 0) ((List.range 32).map byte))
  else if u < 2 ^ 121 then
    let o := u % 8192
    s.onWarp ((u - 2 ^ 120) / 8192) fun w =>
      if o < 4096 then (List.range 8).foldl (fun w i => w.setV (o / 4) (8 * (o % 4) + i) (word i)) w else w.setS (o - 4096) (word 0)
  else
    let o := u % 65536
    if o < 16384 then s.setWg g ((List.range 8).foldl (fun x i => x.setTileWord (o / 512) (o % 512 / 16) (8 * (o % 16) + i) (word i)) x)
    else
      let n := o % 1024
      let put := fun (p : Plane) => if n < 512 then { p with elems := Map.putAll 0 p.elems ((List.range 32).map fun i => (32 * n + i, byte i)) }
        else { p with scales := Map.putAll 0 p.scales ((List.range 32).map fun i => (32 * (n - 512) + i, byte i)) }
      s.setWg g (if o < 17408 then { x with planeA := put x.planeA } else { x with planeB := put x.planeB })

/-- A unit that an L2 slice or an L1 holds, by its key among the errors (R68). -/
def cacheUnit (s : State) (u : Nat) : Bool :=
  if u < 2 ^ 122 then false
  else if u < 2 ^ 123 then
    let (d, k) := ((u - 2 ^ 122) / 2 ^ 72, u % 2 ^ 72)
    memoryUnit k && keyAp k ≤ 1 && if d = 0 then (s.l2Line? (s.homeSlice k) (lineOf k)).isSome
      else (s.replicas.find? (replicaKey (d - 1) (lineOf k))).isSome
  else (s.l1Sector ((u - 2 ^ 123) / 2 ^ 72) (u % 2 ^ 72)).isSome

/-- SOFT_ERROR: symbols of a stored unit go wrong, and are found when it is next read (R68). Five or more in a core's array are decided
at once: detected then, or a wrong value (log 8). -/
def softError (s : State) (u symbols : Nat) : State :=
  let n := Nat.min 32 (s.errors.get 0 u + symbols)
  if symbols = 0 then s
  else if memoryUnit u || s.cacheUnit u then { s with errors := s.errors.insert u n }
  else match List.find? (fun (e : Nat × Workgroup) => ofGroup e.1 e.2 u) s.wgs with
    | none => s
    | some (g, x) =>
      if n < 5 then { s with errors := s.errors.insert u n }
      else
        let s := { s with draws := s.draws + 1 }
        match Config.freeUnit s.draws with
        | none => { s with errors := s.errors.insert u 5 }
        | some v => { s with errors := s.errors.erase u }.overwriteCore g x u v

/-! Registers read at issue (R69). -/

/-- Instructions all of whose named registers are read; the first of any other is written. -/
def readsNamed : Instr → Bool
  | .brz _ _ | .brnz _ _ | .jmpr _ | .svc _ _ | .nap _ | .post _ _ _ | .smovhi _ _ | .vmovhi _ _ | .mts _ _ | .modes _ | .modesAll _
  | .pmovsP _ _ | .vfma _ _ _ | .vfnma _ _ _ | .vbfly _ _ _ | .vcmp _ _ _ _ _ | .pset _ _ | .st _ _ _ _ | .sts _ _ _ _
  | .atom _ _ _ _ | .atoms _ _ _ _ | .red _ _ _ _ | .pref _ _ _ | .cmntWbi _ _ | .cadd _ _ _ | .cwait _ _ _ | .ctest _ _ _
  | .cinit _ _ _ | .craise _ _ _ | .copy _ _ _ _ _ _ | .copyl _ _ _ _ | .gath _ _ _ _ _ | .mldw _ _ _ | .mstr _ _ _ _ | .mlda _ _ _ _ => true
  | _ => false

/-- Instructions whose destination is written when their result comes, not when they issue (R331, R358). -/
def writesLater : Instr → Bool
  | .ld _ _ _ _ _ | .lds _ _ _ _ _ | .ldu _ _ _ _ _ | .cread _ _ _ | .mdrn _ _ _ _ => true
  | _ => false

/-- The guarded opcodes (R253). -/
def guarded (i : Instr) : Bool :=
  let op := (encode i).toNat / 2 ^ 25
  (0x30 ≤ op && op ≤ 0x59 && op ≠ 0x41) || (0x60 ≤ op && op ≤ 0x6F && op ≠ 0x64)

/-- The lanes that take part in an instruction of a slot: those of both slots for a matrix instruction, those whose guard passes for a guarded
one (R253, R303, R361). -/
def laneMask (w : Warp) (sd : Side) (i : Instr) : Word :=
  if isMatrix i then w.home.mask ||| w.away.mask else if guarded i then partMask w (w.slot sd).mask else (w.slot sd).mask

/-- The registers of a counter instruction's operand, two of each lane that asks, the lowest alone in the uniform form (R111, R344). -/
def counterRuns (t : Reg) (a : AddrOp) (m : Word) : List (Run × Word) :=
  [(useV t 2, match a with
    | .uni _ => maskOf fun l => ((lanes m).head?.map fun n => decide (n = l)).getD false
    | .lane _ => m), (useAddr false a, m)]

/-- The registers an instruction reads, with the lanes in which it reads them: `srdl` one lane, `vsel` each source where it is chosen, `vdeq` the
lanes of its image, whether they take part or not (R253, R295, R317, R326). -/
def readRuns (w : Warp) (sd : Side) (i : Instr) : List (Run × Word) :=
  let m := laneMask w sd i
  let n := widthOf (Ty.ofCode (modeT w.mode))
  match i with
  | .srdl _ a lane => [(useV a 1, maskOf fun l => l = lane.toNat)]
  | .vsel _ a b => [(useV a n, m &&& guardMask w), (useB b n, m &&& ~~~guardMask w)]
  | .vdeq f _ a => [(useV a 1, maskOf fun l => l ≤ BlockFmt.bytes f / 4)]
  | .cadd _ t a | .cwait _ t a | .ctest _ t a | .cinit _ t a | .craise _ t a => counterRuns t a m
  | _ => ((Instr.uses w i).drop (if readsNamed i then 0 else 1)).map fun r => (r, m)

/-- The register units an instruction reads, and those it covers when it takes effect: `vbfly` writes both values (R322). -/
def readUnitsOf (k : Nat) (w : Warp) (sd : Side) (i : Instr) : List Nat :=
  ((readRuns w sd i).map fun r => runUnits k r.2 false r.1).flatten
def coverUnitsOf (k : Nat) (w : Warp) (sd : Side) (i : Instr) : List Nat :=
  (((Instr.uses w i).take (if readsNamed i || writesLater i then 0 else 1)).map (runUnits k (laneMask w sd i) true)).flatten

/-- An instruction of a warp has taken effect: no trap of it was entered, and it ended no workgroup (R266, R392). -/
def tookEffect (s t : State) (k : Nat) : Bool :=
  match s.warp? k, t.warp? k with
  | some w, some w' => w'.frame = w.frame && ((t.wg? w'.wg).map fun g => decide (g.phase = .running)).getD false
  | _, _ => false

end State

/-- REFRESH (R66). -/
def execRefresh (die n : Nat) (postpone : Bool) (s : State) : Out := .next (s.refresh die n postpone)
/-- ROW_MITIGATION (R67). -/
def execRowMitigation (die n row : Nat) (bad : Bool) (s : State) : Out := .next (s.mitigate die n row bad)
/-- PATROL_SCRUB (R71). -/
def execPatrolScrub (u : Nat) (s : State) : Out := .next (s.scrub u)
/-- EVACUATION_START (R72). -/
def execEvacuationStart (die n : Nat) (s : State) : Out := .next (s.evacuate die n)
/-- EVACUATION_COMPLETE (R72). -/
def execEvacuationComplete (die n : Nat) (s : State) : Out := .next (s.evacuated die n)
/-- SOFT_ERROR (R68). -/
def execSoftError (u symbols : Nat) (s : State) : Out := .next (s.softError u symbols)

end Sys2Proof.Machine
end

