-- ==== Sys2Proof/Machine/Power.lean ====
section
/-!
DEFINITION. The core clock, the thermal trip and device reset (spec/23 R448, R449; spec/00 R3; spec/03 R98; spec/02 R57; spec/06 R185).
-/

namespace Sys2Proof.Machine

namespace State

/-- The core clock in MHz: MCLK (R448). -/
def mclk (s : State) : Nat := s.reg (Reg.module 0x228) % 2 ^ 11

/-- CLOCK_STEP: 50 MHz up or down, between 400 and 800 MHz (R449). -/
def clockStep (s : State) (up : Bool) : State :=
  if up then (if s.mclk < 800 then s.setReg (Reg.module 0x228) (s.mclk + 50) else s)
  else if 400 < s.mclk then s.setReg (Reg.module 0x228) (s.mclk - 50) else s

/-- THERMAL_TRIP: at 400 MHz a record is posted and the module loses power (R449). -/
def trip (s : State) : State :=
  if s.mclk = 400 && s.powered then { s with records := s.records ++ [[4]], powered := false } else s

/-- What outlives a device reset: what is outside the module, the fuses with the identity keys, the cores out of service, and the count
of draws, which gives the device new keys (R57, R98, R154, R445; log 24). The boot ROM loads a Ngukenor image whose signatures verify; else
the running one stays (R446). -/
def deviceReset (s : State) : State :=
  let image := match Config.bootImage s.draws with
    | some v => v.toNat
    | none => s.reg (Reg.module 0x210) % 2 ^ 16
  State.setReg ({ State.reset with
    agenda := s.agenda
    draws := s.draws + 1
    mem := s.mem.filter fun e => keyAp e.1 = 5
    disabled := s.disabled
    identity := s.identity
    records := s.records
    fabric := { Fabric.empty with egress := s.fabric.egress } }.setReg (Reg.module 0x230) (s.reg (Reg.module 0x230))) (Reg.module 0x210) image

end State

/-- CLOCK_STEP (R449). -/
def execClockStep (up : Bool) (s : State) : Out := .next (s.clockStep up)
/-- THERMAL_TRIP (R449). -/
def execThermalTrip (s : State) : Out := .next s.trip
/-- DEVICE_RESET (R98). -/
def execDeviceReset (s : State) : Out := .next s.deviceReset

end Sys2Proof.Machine
end

