-- ==== Sys2Proof/Machine/Special.lean ====
section
/-!
DEFINITION. Special registers and the MODE instructions, opcodes 0x28 to 0x2E (spec/09 R255, R256; spec/11 R296 to R302). The
waits of `mfs`, `mode`, `modes.all`, `mfmode` and `clrflg` for earlier instructions are part of readiness (Machine/Ready).
-/

namespace Sys2Proof.Machine

/-- A special register read by `mfs`, with the warp after the read: CLKLO captures the upper half of the count (R255, R296). -/
def readSpecial (s : State) (w : Warp) (core n : Nat) : Word × Warp :=
  let c := s.cardOf w
  let g := s.wg? w.wg
  let ofG := fun (f : Workgroup → Nat) => BitVec.ofNat 32 ((g.map f).getD 0)
  match n with
  | 0x01 => (BitVec.ofNat 32 w.number, w)
  | 0x02 => (ofG Workgroup.x, w)
  | 0x03 => (ofG Workgroup.y, w)
  | 0x04 => (ofG Workgroup.z, w)
  | 0x05 => (ofG Workgroup.stage, w)
  | 0x06 => (BitVec.ofNat 32 c.nx, w)
  | 0x07 => (BitVec.ofNat 32 c.ny, w)
  | 0x08 => (BitVec.ofNat 32 c.nz, w)
  | 0x09 => (BitVec.ofNat 32 c.warps, w)
  | 0x0A => (BitVec.ofNat 32 core, w)
  | 0x0B => (BitVec.ofNat 32 (State.dieOfCore core), w)
  | 0x0C => (BitVec.ofNat 32 s.clkNow, { w with clkhi := BitVec.ofNat 32 (s.clkNow / 2 ^ 32) })
  | 0x0D => (w.clkhi, w)
  | 0x0E => (c.args.lo, w)
  | 0x0F => (c.args.hi, w)
  | 0x10 => (BitVec.ofNat 32 c.scrSize, w)
  | 0x11 => (BitVec.ofNat 32 w.cstat, w)
  | 0x12 => (w.trapPc.lo, w)
  | 0x13 => (w.trapPc.hi, w)
  | 0x14 => (w.trapCode, w)
  | 0x15 => (w.trapInfo, w)
  | 0x16 => (w.modq.lo, w)
  | 0x17 => (w.modq.hi, w)
  | 0x18 => (ofG fun g => ((s.tasks.find? g.task).map Task.id).getD 0, w)
  | _ => (0, w)

/-- A special register written by `mts` (R297). -/
def writeSpecial (w : Warp) (n : Nat) (x : Word) : Warp :=
  match n with
  | 0x12 => { w with trapPc := DWord.ofPair x w.trapPc.hi }
  | 0x13 => { w with trapPc := DWord.ofPair w.trapPc.lo x }
  | 0x14 => { w with trapCode := x }
  | 0x15 => { w with trapInfo := x }
  | 0x16 => { w with modq := DWord.ofPair x w.modq.hi }
  | 0x17 => { w with modq := DWord.ofPair w.modq.lo x }
  | _ => w

/-- A per-lane value of `mfv` (R194, R298). -/
def laneValue (s : State) (w : Warp) (mask : Word) (n l : Nat) : Word :=
  match n with
  | 0 => BitVec.ofNat 32 l
  | 1 => BitVec.ofNat 32 ((((s.wg? w.wg).map Workgroup.linear).getD 0 * (s.cardOf w).warps + w.number) * 32 + l)
  | _ => mask

/-- `mfs` (R296); a number outside R255 raises ILLEGAL (R256). -/
def execMfs (d : Reg) (n : BitVec 9) (s : State) : Out :=
  runLocal (fun c w =>
    if 1 ≤ n.toNat && n.toNat ≤ 0x18 then
      let (x, w) := readSpecial s w (State.coreOf s.curKey) n.toNat
      .ok (w.setS d.toNat x)
    else illegal c) (.mfs d n) s

/-- `mts` (R297); a number outside the RW registers raises ILLEGAL (R256). -/
def execMts (a : Reg) (n : BitVec 9) (s : State) : Out :=
  runLocal (fun c w =>
    if 0x12 ≤ n.toNat && n.toNat ≤ 0x17 then .ok (writeSpecial w n.toNat (w.sreg a.toNat)) else illegal c) (.mts a n) s

/-- `mfv`: every lane active in the slot, unguarded (R298). -/
def execMfv (d : Reg) (n : BitVec 9) (s : State) : Out :=
  runLocal (fun c w =>
    if 3 ≤ n.toNat || !vOk c false d then illegal c
    else .ok (wrLanes w false d ((lanes c.mask).map fun l => (l, (laneValue s w c.mask n.toNat l).toNat)))) (.mfv d n) s

/-- `mode` (R299). -/
def execMode (clear : BitVec 7) (value : BitVec 16) (s : State) : Out :=
  runLocal (fun _ w => .ok { w with mode := writeMode (clearFlags w.mode clear) value }) (.mode clear value) s

/-- `modes` (R300). -/
def execModes (a : Reg) (s : State) : Out :=
  runLocal (fun _ w => .ok { w with mode := writeMode w.mode ((w.sreg a.toNat).setWidth 16) }) (.modes a) s

/-- `modes.all` (R300). -/
def execModesAll (a : Reg) (s : State) : Out :=
  runLocal (fun _ w => .ok { w with mode := writeModeAll (w.sreg a.toNat) }) (.modesAll a) s

/-- `mfmode` (R301). -/
def execMfmode (d : Reg) (s : State) : Out :=
  runLocal (fun _ w => .ok (w.setS d.toNat w.mode)) (.mfmode d) s

/-- `clrflg` (R302). -/
def execClrflg (mask : BitVec 7) (s : State) : Out :=
  runLocal (fun _ w => .ok { w with mode := clearFlags w.mode mask }) (.clrflg mask) s

end Sys2Proof.Machine
end

