-- ==== Sys2Proof/Machine/Uniform.lean ====
section
/-!
DEFINITION. The uniform ALU: opcodes 0x10 to 0x26 (spec/11 R292 to R295).
-/

namespace Sys2Proof.Machine

/-- The shape of the 32-bit uniform operations: one S register written from two read first (R292, R293). -/
def uniOp (f : Word → Word → Word) (d a b : Reg) : Local := fun _ w =>
  .ok (w.setS d.toNat (f (w.sreg a.toNat) (w.sreg b.toNat)))

/-- The shape of `sadd64` and `ssub64` (R294). -/
def uniOp64 (f : DWord → DWord → DWord) (d a b : Reg) : Local := fun _ w =>
  .ok (w.setSPair d.toNat (f (w.spair a.toNat) (w.spair b.toNat)))

/-- Bits [63:32] of the signed and of the unsigned product (R293). -/
def mulHiSigned (x y : Word) : Word := BitVec.ofInt 32 (x.toInt * y.toInt / 2 ^ 32)
def mulHiUnsigned (x y : Word) : Word := BitVec.ofNat 32 (x.toNat * y.toNat / 2 ^ 32)
/-- Shifts by an unsigned amount of any size (R293). -/
def shiftLeft (x y : Word) : Word := if y.toNat < 32 then x <<< y.toNat else 0
def shiftRight (x y : Word) : Word := if y.toNat < 32 then x >>> y.toNat else 0
def shiftArith (x y : Word) : Word := x.sshiftRight (Nat.min y.toNat 31)
/-- 1 for true, 0 for false. -/
def flagOf (b : Bool) : Word := if b then 1 else 0

/-- `sadd` (R293). -/
def execSadd (d a b : Reg) (s : State) : Out := runLocal (uniOp (fun x y => x + y) d a b) (.sadd d a b) s
/-- `ssub` (R293). -/
def execSsub (d a b : Reg) (s : State) : Out := runLocal (uniOp (fun x y => x - y) d a b) (.ssub d a b) s
/-- `smul` (R293). -/
def execSmul (d a b : Reg) (s : State) : Out := runLocal (uniOp (fun x y => x * y) d a b) (.smul d a b) s
/-- `smulhi` (R293). -/
def execSmulhi (d a b : Reg) (s : State) : Out := runLocal (uniOp mulHiSigned d a b) (.smulhi d a b) s
/-- `smulhn` (R293). -/
def execSmulhn (d a b : Reg) (s : State) : Out := runLocal (uniOp mulHiUnsigned d a b) (.smulhn d a b) s
/-- `sand` (R293). -/
def execSand (d a b : Reg) (s : State) : Out := runLocal (uniOp (fun x y => x &&& y) d a b) (.sand d a b) s
/-- `sor` (R293). -/
def execSor (d a b : Reg) (s : State) : Out := runLocal (uniOp (fun x y => x ||| y) d a b) (.sor d a b) s
/-- `sxor` (R293). -/
def execSxor (d a b : Reg) (s : State) : Out := runLocal (uniOp (fun x y => x ^^^ y) d a b) (.sxor d a b) s
/-- `sshl` (R293). -/
def execSshl (d a b : Reg) (s : State) : Out := runLocal (uniOp shiftLeft d a b) (.sshl d a b) s
/-- `sshr` (R293). -/
def execSshr (d a b : Reg) (s : State) : Out := runLocal (uniOp shiftRight d a b) (.sshr d a b) s
/-- `ssra` (R293). -/
def execSsra (d a b : Reg) (s : State) : Out := runLocal (uniOp shiftArith d a b) (.ssra d a b) s
/-- `smin` (R293). -/
def execSmin (d a b : Reg) (s : State) : Out := runLocal (uniOp (fun x y => if x.slt y then x else y) d a b) (.smin d a b) s
/-- `smax` (R293). -/
def execSmax (d a b : Reg) (s : State) : Out := runLocal (uniOp (fun x y => if x.slt y then y else x) d a b) (.smax d a b) s
/-- `sslt` (R293). -/
def execSslt (d a b : Reg) (s : State) : Out := runLocal (uniOp (fun x y => flagOf (x.slt y)) d a b) (.sslt d a b) s
/-- `ssltn` (R293). -/
def execSsltn (d a b : Reg) (s : State) : Out := runLocal (uniOp (fun x y => flagOf (x.ult y)) d a b) (.ssltn d a b) s
/-- `sseq` (R293). -/
def execSseq (d a b : Reg) (s : State) : Out := runLocal (uniOp (fun x y => flagOf (x = y)) d a b) (.sseq d a b) s
/-- `sadd64` (R294). -/
def execSadd64 (d a b : Reg) (s : State) : Out := runLocal (uniOp64 (fun x y => x + y) d a b) (.sadd64 d a b) s
/-- `ssub64` (R294). -/
def execSsub64 (d a b : Reg) (s : State) : Out := runLocal (uniOp64 (fun x y => x - y) d a b) (.ssub64 d a b) s
/-- `saddi` (R294). -/
def execSaddi (d a : Reg) (imm : BitVec 9) (s : State) : Out :=
  runLocal (fun _ w => .ok (w.setS d.toNat (w.sreg a.toNat + imm.signExtend 32))) (.saddi d a imm) s
/-- `smovi` (R294). -/
def execSmovi (d : Reg) (imm : BitVec 17) (s : State) : Out :=
  runLocal (fun _ w => .ok (w.setS d.toNat (imm.signExtend 32))) (.smovi d imm) s
/-- `smovhi`: bits [15:0] are kept (R294). -/
def execSmovhi (d : Reg) (imm : BitVec 16) (s : State) : Out :=
  runLocal (fun _ w => .ok (w.setS d.toNat ((imm.setWidth 32 <<< 16) ||| (w.sreg d.toNat &&& 0xFFFF)))) (.smovhi d imm) s
/-- `smov` (R294). -/
def execSmov (d a : Reg) (s : State) : Out :=
  runLocal (fun _ w => .ok (w.setS d.toNat (w.sreg a.toNat))) (.smov d a) s
/-- `srdl`: the named lane, active or not; a register beyond the allocation raises ILLEGAL (R295). -/
def execSrdl (d a : Reg) (lane : BitVec 5) (s : State) : Out :=
  runLocal (fun c w => if vOk c false a then .ok (w.setS d.toNat (w.vreg a.toNat lane.toNat)) else illegal c) (.srdl d a lane) s

end Sys2Proof.Machine
end

