-- ==== Sys2Proof/Machine/Vector.lean ====
section
/-!
DEFINITION. The vector, lane and predicate instructions, opcodes 0x30 to 0x53 (spec/12 R303 to R326; types of spec/09 R254),
one meaning for each over the operand forms of Operands.
-/

namespace Sys2Proof.Machine

/-- `vadd` (R307). -/
def execVadd (d a : Reg) (b : SrcB) (s : State) : Out := runLocal (vecOp numTy (arith .add .add) d a b) (.vadd d a b) s
/-- `vsub` (R307). -/
def execVsub (d a : Reg) (b : SrcB) (s : State) : Out := runLocal (vecOp numTy (arith .sub .sub) d a b) (.vsub d a b) s
/-- `vmul` (R307). -/
def execVmul (d a : Reg) (b : SrcB) (s : State) : Out := runLocal (vecOp numTy (arith .mul .mul) d a b) (.vmul d a b) s
/-- `vfma` (R307). -/
def execVfma (d a : Reg) (b : SrcB) (s : State) : Out := runLocal (vecOp numTy (arith .fma .fma) d a b) (.vfma d a b) s
/-- `vfnma` (R307). -/
def execVfnma (d a : Reg) (b : SrcB) (s : State) : Out := runLocal (vecOp numTy (arith .fnma .fnma) d a b) (.vfnma d a b) s
/-- `vmin` (R307). -/
def execVmin (d a : Reg) (b : SrcB) (s : State) : Out := runLocal (vecOp numTy (arith .min .min) d a b) (.vmin d a b) s
/-- `vmax` (R307). -/
def execVmax (d a : Reg) (b : SrcB) (s : State) : Out := runLocal (vecOp numTy (arith .max .max) d a b) (.vmax d a b) s
/-- `vdiv` (R307). -/
def execVdiv (d a : Reg) (b : SrcB) (s : State) : Out := runLocal (vecOp numTy (arith .div .div) d a b) (.vdiv d a b) s
/-- `vmulhi` (R307). -/
def execVmulhi (d a : Reg) (b : SrcB) (s : State) : Out := runLocal (vecOp Ty.isInt (intBin .mulhi) d a b) (.vmulhi d a b) s
/-- `vrem` (R307). -/
def execVrem (d a : Reg) (b : SrcB) (s : State) : Out := runLocal (vecOp Ty.isInt (intBin .rem) d a b) (.vrem d a b) s
/-- `vmulw` (R308). -/
def execVmulw (d a : Reg) (b : SrcB) (s : State) : Out := runLocal (vecMulw d a b) (.vmulw d a b) s
/-- `vand` (R309). -/
def execVand (d a : Reg) (b : SrcB) (s : State) : Out := runLocal (vecOp Ty.isInt (intBin .and) d a b) (.vand d a b) s
/-- `vor` (R309). -/
def execVor (d a : Reg) (b : SrcB) (s : State) : Out := runLocal (vecOp Ty.isInt (intBin .or) d a b) (.vor d a b) s
/-- `vxor` (R309). -/
def execVxor (d a : Reg) (b : SrcB) (s : State) : Out := runLocal (vecOp Ty.isInt (intBin .xor) d a b) (.vxor d a b) s
/-- `vshl` (R309). -/
def execVshl (d a : Reg) (b : SrcB) (s : State) : Out := runLocal (vecOp Ty.isInt (intBin .shl) d a b) (.vshl d a b) s
/-- `vshr` (R309). -/
def execVshr (d a : Reg) (b : SrcB) (s : State) : Out := runLocal (vecOp Ty.isInt (intBin .shr) d a b) (.vshr d a b) s
/-- `vsra` (R309). -/
def execVsra (d a : Reg) (b : SrcB) (s : State) : Out := runLocal (vecOp Ty.isInt (intBin .sra) d a b) (.vsra d a b) s
/-- `vbfe` (R309). -/
def execVbfe (d a : Reg) (b : SrcB) (s : State) : Out := runLocal (vecOp Ty.isInt (intBin .bfe) d a b) (.vbfe d a b) s
/-- `vbfi` (R309). -/
def execVbfi (d a : Reg) (b : SrcB) (s : State) : Out := runLocal (vecOp Ty.isInt (intBin .bfi) d a b) (.vbfi d a b) s
/-- `vsel` (R317). -/
def execVsel (d a : Reg) (b : SrcB) (s : State) : Out := runLocal (vecSel d a b) (.vsel d a b) s
/-- `vcmp` (R316). -/
def execVcmp (cond : Cond) (comb : Combine) (p : PReg) (a : Reg) (b : SrcB) (s : State) : Out :=
  runLocal (vecCmp cond comb p a b) (.vcmp cond comb p a b) s
/-- `vmov` (R310). -/
def execVmov (d : Reg) (a : SrcB) (s : State) : Out := runLocal (vecMov d a) (.vmov d a) s
/-- `vmovi` (R310). -/
def execVmovi (d : Reg) (imm : BitVec 17) (s : State) : Out := runLocal (vecMovi d imm) (.vmovi d imm) s
/-- `vmovhi` (R310). -/
def execVmovhi (d : Reg) (imm : BitVec 16) (s : State) : Out := runLocal (vecMovhi d imm) (.vmovhi d imm) s
/-- `vaddi` (R310). -/
def execVaddi (d a : Reg) (imm : BitVec 9) (s : State) : Out := runLocal (vecUn numTy (addImm imm.toInt) d a) (.vaddi d a imm) s
/-- `vabs` (R312, R313). -/
def execVabs (d a : Reg) (s : State) : Out := runLocal (vecUn (fun t => t.isFloat || (t.isInt && t.signed)) (arithUn .abs .abs) d a) (.vabs d a) s
/-- `vneg` (R312, R313). -/
def execVneg (d a : Reg) (s : State) : Out := runLocal (vecUn (fun t => t.isFloat || (t.isInt && t.signed)) (arithUn .neg .neg) d a) (.vneg d a) s
/-- `vnot` (R312). -/
def execVnot (d a : Reg) (s : State) : Out := runLocal (vecUn Ty.isInt (intUn .not) d a) (.vnot d a) s
/-- `vpopc` (R312). -/
def execVpopc (d a : Reg) (s : State) : Out := runLocal (vecUn Ty.isInt (intUn .popc) d a) (.vpopc d a) s
/-- `vclz` (R312). -/
def execVclz (d a : Reg) (s : State) : Out := runLocal (vecUn Ty.isInt (intUn .clz) d a) (.vclz d a) s
/-- `vctz` (R312). -/
def execVctz (d a : Reg) (s : State) : Out := runLocal (vecUn Ty.isInt (intUn .ctz) d a) (.vctz d a) s
/-- `vbrev` (R312). -/
def execVbrev (d a : Reg) (s : State) : Out := runLocal (vecUn Ty.isInt (intUn .brev) d a) (.vbrev d a) s
/-- `vrcp` (R313). -/
def execVrcp (d a : Reg) (s : State) : Out := runLocal (vecUn Ty.isFloat (floatUn .rcp) d a) (.vrcp d a) s
/-- `vrsq` (R313). -/
def execVrsq (d a : Reg) (s : State) : Out := runLocal (vecUn Ty.isFloat (floatUn .rsq) d a) (.vrsq d a) s
/-- `vsqrt` (R313). -/
def execVsqrt (d a : Reg) (s : State) : Out := runLocal (vecUn Ty.isFloat (floatUn .sqrt) d a) (.vsqrt d a) s
/-- `vrnd` (R313). -/
def execVrnd (d a : Reg) (s : State) : Out := runLocal (vecUn Ty.isFloat (floatUn .rnd) d a) (.vrnd d a) s
/-- `vfrc` (R313). -/
def execVfrc (d a : Reg) (s : State) : Out := runLocal (vecUn Ty.isFloat (floatUn .frc) d a) (.vfrc d a) s
/-- `vexp2` (R313, R230). -/
def execVexp2 (d a : Reg) (s : State) : Out := runLocal (vecUn (fun t => t = .f16 || t = .f32) (transUn .exp2) d a) (.vexp2 d a) s
/-- `vlog2` (R313, R230). -/
def execVlog2 (d a : Reg) (s : State) : Out := runLocal (vecUn (fun t => t = .f16 || t = .f32) (transUn .log2) d a) (.vlog2 d a) s
/-- `vsin` (R313, R230). -/
def execVsin (d a : Reg) (s : State) : Out := runLocal (vecUn (fun t => t = .f16 || t = .f32) (transUn .sin) d a) (.vsin d a) s
/-- `vcos` (R313, R230). -/
def execVcos (d a : Reg) (s : State) : Out := runLocal (vecUn (fun t => t = .f16 || t = .f32) (transUn .cos) d a) (.vcos d a) s
/-- `vtanh` (R313, R230). -/
def execVtanh (d a : Reg) (s : State) : Out := runLocal (vecUn (fun t => t = .f16 || t = .f32) (transUn .tanh) d a) (.vtanh d a) s
/-- `vclass` (R314). -/
def execVclass (d a : Reg) (s : State) : Out := runLocal (vecClass d a) (.vclass d a) s
/-- `vcvt` (R315). -/
def execVcvt (d a : Reg) (s : State) : Out := runLocal (vecCvt d a) (.vcvt d a) s
/-- `vshflIdx` (R319). -/
def execVshflIdx (d a : Reg) (b : SrcB) (s : State) : Out := runLocal (vecShuffle .idx d a b) (.vshflIdx d a b) s
/-- `vshflXor` (R319). -/
def execVshflXor (d a : Reg) (b : SrcB) (s : State) : Out := runLocal (vecShuffle .xor d a b) (.vshflXor d a b) s
/-- `vshflUp` (R319). -/
def execVshflUp (d a : Reg) (b : SrcB) (s : State) : Out := runLocal (vecShuffle .up d a b) (.vshflUp d a b) s
/-- `vshflDn` (R319). -/
def execVshflDn (d a : Reg) (b : SrcB) (s : State) : Out := runLocal (vecShuffle .dn d a b) (.vshflDn d a b) s
/-- `vvote` (R320). -/
def execVvote (op : VoteOp) (neg : Bool) (d : Reg) (p : PReg) (s : State) : Out := runLocal (vote op neg d p) (.vvote op neg d p) s
/-- `vred` (R321). -/
def execVred (op : RedOp) (d a : Reg) (s : State) : Out := runLocal (vecReduce false op d a) (.vred op d a) s
/-- `vscan` (R321). -/
def execVscan (op : RedOp) (d a : Reg) (s : State) : Out := runLocal (vecReduce true op d a) (.vscan op d a) s
/-- `vmodmul` (R322). -/
def execVmodmul (d a : Reg) (b : SrcB) (s : State) : Out := runLocal (vecMod modMul d a b) (.vmodmul d a b) s
/-- `vmodadd` (R322). -/
def execVmodadd (d a : Reg) (b : SrcB) (s : State) : Out := runLocal (vecMod modAdd d a b) (.vmodadd d a b) s
/-- `vmodsub` (R322). -/
def execVmodsub (d a : Reg) (b : SrcB) (s : State) : Out := runLocal (vecMod modSub d a b) (.vmodsub d a b) s
/-- `vbfly` (R322). -/
def execVbfly (d a : Reg) (b : SrcB) (s : State) : Out := runLocal (vecBfly d a b) (.vbfly d a b) s
/-- `vqnt` (R324). -/
def execVqnt (fmt : BlockFmt) (d a : Reg) (s : State) : Out := runLocal (vecQnt fmt d a) (.vqnt fmt d a) s
/-- `vdeq` (R326). -/
def execVdeq (fmt : BlockFmt) (d a : Reg) (s : State) : Out := runLocal (vecDeq fmt d a) (.vdeq fmt d a) s
/-- `plop` (R318). -/
def execPlop (d x y : PReg) (tt : BitVec 4) (s : State) : Out := runLocal (predOp d x y tt) (.plop d x y tt) s
/-- `pmovs` to S (R318). -/
def execPmovsS (d : Reg) (p : PReg) (s : State) : Out := runLocal (predToS d p) (.pmovsS d p) s
/-- `pmovs` to P (R318). -/
def execPmovsP (p : PReg) (a : Reg) (s : State) : Out := runLocal (predFromS p a) (.pmovsP p a) s
/-- `pset` (R318). -/
def execPset (op : PsetOp) (p : PReg) (s : State) : Out := runLocal (predSet op p) (.pset op p) s

end Sys2Proof.Machine
end

