-- ==== Sys2Proof/Machine/Dispatch.lean ====
section
/-!
DEFINITION. The meaning of every instruction and step: one arm for each constructor, in the order of Syntax.
-/

namespace Sys2Proof.Machine

/-- What one instruction or step does. -/
def exec (i : Instr) (s : State) : Host.Outcome State Fault Refusal :=
  match i with
  | .nop => Sys2Proof.Machine.execNop s
  | .bra off => Sys2Proof.Machine.execBra off s
  | .call off => Sys2Proof.Machine.execCall off s
  | .brz r off => Sys2Proof.Machine.execBrz r off s
  | .brnz r off => Sys2Proof.Machine.execBrnz r off s
  | .brv neg p off => Sys2Proof.Machine.execBrv neg p off s
  | .rcv off => Sys2Proof.Machine.execRcv off s
  | .jmpr a => Sys2Proof.Machine.execJmpr a s
  | .exit => Sys2Proof.Machine.execExit s
  | .trap imm => Sys2Proof.Machine.execTrap imm s
  | .rtrap => Sys2Proof.Machine.execRtrap s
  | .svc d imm => Sys2Proof.Machine.execSvc d imm s
  | .nap a => Sys2Proof.Machine.execNap a s
  | .yield => Sys2Proof.Machine.execYield s
  | .bkpt imm => Sys2Proof.Machine.execBkpt imm s
  | .post t a la => Sys2Proof.Machine.execPost t a la s
  | .sadd d a b => Sys2Proof.Machine.execSadd d a b s
  | .ssub d a b => Sys2Proof.Machine.execSsub d a b s
  | .smul d a b => Sys2Proof.Machine.execSmul d a b s
  | .smulhi d a b => Sys2Proof.Machine.execSmulhi d a b s
  | .smulhn d a b => Sys2Proof.Machine.execSmulhn d a b s
  | .sand d a b => Sys2Proof.Machine.execSand d a b s
  | .sor d a b => Sys2Proof.Machine.execSor d a b s
  | .sxor d a b => Sys2Proof.Machine.execSxor d a b s
  | .sshl d a b => Sys2Proof.Machine.execSshl d a b s
  | .sshr d a b => Sys2Proof.Machine.execSshr d a b s
  | .ssra d a b => Sys2Proof.Machine.execSsra d a b s
  | .smin d a b => Sys2Proof.Machine.execSmin d a b s
  | .smax d a b => Sys2Proof.Machine.execSmax d a b s
  | .sslt d a b => Sys2Proof.Machine.execSslt d a b s
  | .ssltn d a b => Sys2Proof.Machine.execSsltn d a b s
  | .sseq d a b => Sys2Proof.Machine.execSseq d a b s
  | .sadd64 d a b => Sys2Proof.Machine.execSadd64 d a b s
  | .ssub64 d a b => Sys2Proof.Machine.execSsub64 d a b s
  | .saddi d a imm => Sys2Proof.Machine.execSaddi d a imm s
  | .smovi d imm => Sys2Proof.Machine.execSmovi d imm s
  | .smovhi d imm => Sys2Proof.Machine.execSmovhi d imm s
  | .smov d a => Sys2Proof.Machine.execSmov d a s
  | .srdl d a lane => Sys2Proof.Machine.execSrdl d a lane s
  | .mfs d n => Sys2Proof.Machine.execMfs d n s
  | .mts a n => Sys2Proof.Machine.execMts a n s
  | .mfv d n => Sys2Proof.Machine.execMfv d n s
  | .mode clear value => Sys2Proof.Machine.execMode clear value s
  | .modes a => Sys2Proof.Machine.execModes a s
  | .modesAll a => Sys2Proof.Machine.execModesAll a s
  | .mfmode d => Sys2Proof.Machine.execMfmode d s
  | .clrflg mask => Sys2Proof.Machine.execClrflg mask s
  | .vadd d a b => Sys2Proof.Machine.execVadd d a b s
  | .vsub d a b => Sys2Proof.Machine.execVsub d a b s
  | .vmul d a b => Sys2Proof.Machine.execVmul d a b s
  | .vmulhi d a b => Sys2Proof.Machine.execVmulhi d a b s
  | .vmulw d a b => Sys2Proof.Machine.execVmulw d a b s
  | .vfma d a b => Sys2Proof.Machine.execVfma d a b s
  | .vfnma d a b => Sys2Proof.Machine.execVfnma d a b s
  | .vmin d a b => Sys2Proof.Machine.execVmin d a b s
  | .vmax d a b => Sys2Proof.Machine.execVmax d a b s
  | .vdiv d a b => Sys2Proof.Machine.execVdiv d a b s
  | .vrem d a b => Sys2Proof.Machine.execVrem d a b s
  | .vand d a b => Sys2Proof.Machine.execVand d a b s
  | .vor d a b => Sys2Proof.Machine.execVor d a b s
  | .vxor d a b => Sys2Proof.Machine.execVxor d a b s
  | .vshl d a b => Sys2Proof.Machine.execVshl d a b s
  | .vshr d a b => Sys2Proof.Machine.execVshr d a b s
  | .vsra d a b => Sys2Proof.Machine.execVsra d a b s
  | .vsel d a b => Sys2Proof.Machine.execVsel d a b s
  | .vcmp cond comb p a b => Sys2Proof.Machine.execVcmp cond comb p a b s
  | .vbfe d a b => Sys2Proof.Machine.execVbfe d a b s
  | .vbfi d a b => Sys2Proof.Machine.execVbfi d a b s
  | .vmov d a => Sys2Proof.Machine.execVmov d a s
  | .vmovi d imm => Sys2Proof.Machine.execVmovi d imm s
  | .vmovhi d imm => Sys2Proof.Machine.execVmovhi d imm s
  | .vaddi d a imm => Sys2Proof.Machine.execVaddi d a imm s
  | .vabs d a => Sys2Proof.Machine.execVabs d a s
  | .vneg d a => Sys2Proof.Machine.execVneg d a s
  | .vnot d a => Sys2Proof.Machine.execVnot d a s
  | .vpopc d a => Sys2Proof.Machine.execVpopc d a s
  | .vclz d a => Sys2Proof.Machine.execVclz d a s
  | .vctz d a => Sys2Proof.Machine.execVctz d a s
  | .vbrev d a => Sys2Proof.Machine.execVbrev d a s
  | .vrcp d a => Sys2Proof.Machine.execVrcp d a s
  | .vrsq d a => Sys2Proof.Machine.execVrsq d a s
  | .vsqrt d a => Sys2Proof.Machine.execVsqrt d a s
  | .vexp2 d a => Sys2Proof.Machine.execVexp2 d a s
  | .vlog2 d a => Sys2Proof.Machine.execVlog2 d a s
  | .vsin d a => Sys2Proof.Machine.execVsin d a s
  | .vcos d a => Sys2Proof.Machine.execVcos d a s
  | .vtanh d a => Sys2Proof.Machine.execVtanh d a s
  | .vrnd d a => Sys2Proof.Machine.execVrnd d a s
  | .vfrc d a => Sys2Proof.Machine.execVfrc d a s
  | .vclass d a => Sys2Proof.Machine.execVclass d a s
  | .vcvt d a => Sys2Proof.Machine.execVcvt d a s
  | .vshflIdx d a b => Sys2Proof.Machine.execVshflIdx d a b s
  | .vshflXor d a b => Sys2Proof.Machine.execVshflXor d a b s
  | .vshflUp d a b => Sys2Proof.Machine.execVshflUp d a b s
  | .vshflDn d a b => Sys2Proof.Machine.execVshflDn d a b s
  | .vvote op neg d p => Sys2Proof.Machine.execVvote op neg d p s
  | .vred op d a => Sys2Proof.Machine.execVred op d a s
  | .vscan op d a => Sys2Proof.Machine.execVscan op d a s
  | .vmodmul d a b => Sys2Proof.Machine.execVmodmul d a b s
  | .vmodadd d a b => Sys2Proof.Machine.execVmodadd d a b s
  | .vmodsub d a b => Sys2Proof.Machine.execVmodsub d a b s
  | .vbfly d a b => Sys2Proof.Machine.execVbfly d a b s
  | .vqnt fmt d a => Sys2Proof.Machine.execVqnt fmt d a s
  | .vdeq fmt d a => Sys2Proof.Machine.execVdeq fmt d a s
  | .plop d x y tt => Sys2Proof.Machine.execPlop d x y tt s
  | .pmovsS d p => Sys2Proof.Machine.execPmovsS d p s
  | .pmovsP p a => Sys2Proof.Machine.execPmovsP p a s
  | .pset op p => Sys2Proof.Machine.execPset op p s
  | .ld m sx t a la => Sys2Proof.Machine.execLd m sx t a la s
  | .st m t a la => Sys2Proof.Machine.execSt m t a la s
  | .lds m sx t a la => Sys2Proof.Machine.execLds m sx t a la s
  | .sts m t a la => Sys2Proof.Machine.execSts m t a la s
  | .ldu m sx t a la => Sys2Proof.Machine.execLdu m sx t a la s
  | .atom op t a la => Sys2Proof.Machine.execAtom op t a la s
  | .atoms op t a la => Sys2Proof.Machine.execAtoms op t a la s
  | .red op t a la => Sys2Proof.Machine.execRed op t a la s
  | .pref m a la => Sys2Proof.Machine.execPref m a la s
  | .cmntInv la => Sys2Proof.Machine.execCmntInv la s
  | .cmntWbi a la => Sys2Proof.Machine.execCmntWbi a la s
  | .cadd f t a => Sys2Proof.Machine.execCadd f t a s
  | .cwait f t a => Sys2Proof.Machine.execCwait f t a s
  | .cread f t a => Sys2Proof.Machine.execCread f t a s
  | .ctest f t a => Sys2Proof.Machine.execCtest f t a s
  | .cinit f t a => Sys2Proof.Machine.execCinit f t a s
  | .craise f t a => Sys2Proof.Machine.execCraise f t a s
  | .copy out clr tl t a la => Sys2Proof.Machine.execCopy out clr tl t a la s
  | .copyl clr tl a la => Sys2Proof.Machine.execCopyl clr tl a la s
  | .gath e tl t a la => Sys2Proof.Machine.execGath e tl t a la s
  | .mldw t a la => Sys2Proof.Machine.execMldw t a la s
  | .mswap la => Sys2Proof.Machine.execMswap la s
  | .mstr tile t a la => Sys2Proof.Machine.execMstr tile t a la s
  | .mdrn tile q t la => Sys2Proof.Machine.execMdrn tile q t la s
  | .mzero tile la => Sys2Proof.Machine.execMzero tile la s
  | .mlda tile q t la => Sys2Proof.Machine.execMlda tile q t la s
  | .substitution quad => Sys2Proof.Machine.execSubstitution quad s
  | .forcedEntry quad => Sys2Proof.Machine.execForcedEntry quad s
  | .napEnd warp away => Sys2Proof.Machine.execNapEnd warp away s
  | .walk die => Sys2Proof.Machine.execWalk die s
  | .parkRecord die => Sys2Proof.Machine.execParkRecord die s
  | .dugoutReturn die => Sys2Proof.Machine.execDugoutReturn die s
  | .invalVa die part => Sys2Proof.Machine.execInvalVa die part s
  | .invalWorld die part => Sys2Proof.Machine.execInvalWorld die part s
  | .potSet die part => Sys2Proof.Machine.execPotSet die part s
  | .ownHost die part => Sys2Proof.Machine.execOwnHost die part s
  | .ownDevice die part => Sys2Proof.Machine.execOwnDevice die part s
  | .release die part => Sys2Proof.Machine.execRelease die part s
  | .abandon die part => Sys2Proof.Machine.execAbandon die part s
  | .keyBind die part => Sys2Proof.Machine.execKeyBind die part s
  | .keyRetire die part => Sys2Proof.Machine.execKeyRetire die part s
  | .launch queue => Sys2Proof.Machine.execLaunch queue s
  | .fence queue => Sys2Proof.Machine.execFence queue s
  | .fenceMet queue => Sys2Proof.Machine.execFenceMet queue s
  | .signal queue => Sys2Proof.Machine.execSignal queue s
  | .postPublish post => Sys2Proof.Machine.execPostPublish post s
  | .workgroupDispatch task => Sys2Proof.Machine.execWorkgroupDispatch task s
  | .workgroupEnd wg => Sys2Proof.Machine.execWorkgroupEnd wg s
  | .taskEnd task => Sys2Proof.Machine.execTaskEnd task s
  | .preemptionRequest task => Sys2Proof.Machine.execPreemptionRequest task s
  | .drainBound wg => Sys2Proof.Machine.execDrainBound wg s
  | .savedWaitExpiry saved => Sys2Proof.Machine.execSavedWaitExpiry saved s
  | .save wg => Sys2Proof.Machine.execSave wg s
  | .restore saved => Sys2Proof.Machine.execRestore saved s
  | .coreRetire core => Sys2Proof.Machine.execCoreRetire core s
  | .arrayQueueExecute core => Sys2Proof.Machine.execArrayQueueExecute core s
  | .timelineAdvance wg tl => Sys2Proof.Machine.execTimelineAdvance wg tl s
  | .refresh die channel postpone => Sys2Proof.Machine.execRefresh die channel postpone s
  | .rowMitigation die channel row bad => Sys2Proof.Machine.execRowMitigation die channel row bad s
  | .patrolScrub unit => Sys2Proof.Machine.execPatrolScrub unit s
  | .evacuationStart die channel => Sys2Proof.Machine.execEvacuationStart die channel s
  | .evacuationComplete die channel => Sys2Proof.Machine.execEvacuationComplete die channel s
  | .l1LifetimeEnd core => Sys2Proof.Machine.execL1LifetimeEnd core s
  | .replicaPropagation die line => Sys2Proof.Machine.execReplicaPropagation die line s
  | .epochEnd die => Sys2Proof.Machine.execEpochEnd die s
  | .outputQueueArrival die port outside => Sys2Proof.Machine.execOutputQueueArrival die port outside s
  | .packetGrant die port => Sys2Proof.Machine.execPacketGrant die port s
  | .rd e => Sys2Proof.Machine.execRd e s
  | .rdr e => Sys2Proof.Machine.execRdr e s
  | .wr e => Sys2Proof.Machine.execWr e s
  | .wra e => Sys2Proof.Machine.execWra e s
  | .atm e => Sys2Proof.Machine.execAtm e s
  | .atmr e => Sys2Proof.Machine.execAtmr e s
  | .ctr e => Sys2Proof.Machine.execCtr e s
  | .ctrr e => Sys2Proof.Machine.execCtrr e s
  | .ack e => Sys2Proof.Machine.execAck e s
  | .ackDue e => Sys2Proof.Machine.execAckDue e s
  | .bunt e => Sys2Proof.Machine.execBunt e s
  | .rreq e => Sys2Proof.Machine.execRreq e s
  | .retransmission src flow => Sys2Proof.Machine.execRetransmission src flow s
  | .noroute e => Sys2Proof.Machine.execNoroute e s
  | .unacknowledgedResend src flow => Sys2Proof.Machine.execUnacknowledgedResend src flow s
  | .linkReplay die port part => Sys2Proof.Machine.execLinkReplay die port part s
  | .halfRetire die other half => Sys2Proof.Machine.execHalfRetire die other half s
  | .laneRetire port lane => Sys2Proof.Machine.execLaneRetire port lane s
  | .portRetrain port => Sys2Proof.Machine.execPortRetrain port s
  | .retrain agent port value => Sys2Proof.Machine.execRetrain agent port value s
  | .agentPoll die => Sys2Proof.Machine.execAgentPoll die s
  | .echo call => Sys2Proof.Machine.execEcho call s
  | .clock call => Sys2Proof.Machine.execClock call s
  | .map call => Sys2Proof.Machine.execMap call s
  | .unmap call => Sys2Proof.Machine.execUnmap call s
  | .openFile call answer => Sys2Proof.Machine.execOpenFile call answer s
  | .readFile call answer => Sys2Proof.Machine.execReadFile call answer s
  | .writeFile call answer => Sys2Proof.Machine.execWriteFile call answer s
  | .closeHandle call => Sys2Proof.Machine.execCloseHandle call s
  | .connect call answer => Sys2Proof.Machine.execConnect call answer s
  | .send call answer => Sys2Proof.Machine.execSend call answer s
  | .recv call answer => Sys2Proof.Machine.execRecv call answer s
  | .serviceComplete call => Sys2Proof.Machine.execServiceComplete call s
  | .cxlMemRequest ld aperture pa size data => Sys2Proof.Machine.execCxlMemRequest ld aperture pa size data s
  | .hcadd ld => Sys2Proof.Machine.execHcadd ld s
  | .hcraise ld => Sys2Proof.Machine.execHcraise ld s
  | .hcread ld => Sys2Proof.Machine.execHcread ld s
  | .hcwait ld threshold => Sys2Proof.Machine.execHcwait ld threshold s
  | .ldbind agent ld value => Sys2Proof.Machine.execLdbind agent ld value s
  | .lsmask agent die part value => Sys2Proof.Machine.execLsmask agent die part value s
  | .ivctl agent region value => Sys2Proof.Machine.execIvctl agent region value s
  | .ivbase agent region value => Sys2Proof.Machine.execIvbase agent region value s
  | .qen agent die value => Sys2Proof.Machine.execQen agent die value s
  | .punit agent unit value => Sys2Proof.Machine.execPunit agent unit value s
  | .chown agent die channel value => Sys2Proof.Machine.execChown agent die channel value s
  | .capt agent value => Sys2Proof.Machine.execCapt agent value s
  | .pretry agent die value => Sys2Proof.Machine.execPretry agent die value s
  | .preq agent die value => Sys2Proof.Machine.execPreq agent die value s
  | .preset agent value => Sys2Proof.Machine.execPreset agent value s
  | .fwcmd agent value image => Sys2Proof.Machine.execFwcmd agent value image s
  | .lcadv agent value token => Sys2Proof.Machine.execLcadv agent value token s
  | .registerWrite agent pa value => Sys2Proof.Machine.execRegisterWrite agent pa value s
  | .heartbeat => Sys2Proof.Machine.execHeartbeat s
  | .heartbeatCheck battery => Sys2Proof.Machine.execHeartbeatCheck battery s
  | .batteryRestart battery ok => Sys2Proof.Machine.execBatteryRestart battery ok s
  | .getVersion requester request => Sys2Proof.Machine.execGetVersion requester request s
  | .getCapabilities requester request => Sys2Proof.Machine.execGetCapabilities requester request s
  | .negotiateAlgorithms requester request => Sys2Proof.Machine.execNegotiateAlgorithms requester request s
  | .getDigests requester request => Sys2Proof.Machine.execGetDigests requester request s
  | .getCertificate requester request => Sys2Proof.Machine.execGetCertificate requester request s
  | .challenge requester request => Sys2Proof.Machine.execChallenge requester request s
  | .getMeasurements requester request => Sys2Proof.Machine.execGetMeasurements requester request s
  | .vendorDefinedRequest requester request => Sys2Proof.Machine.execVendorDefinedRequest requester request s
  | .clockStep up => Sys2Proof.Machine.execClockStep up s
  | .thermalTrip => Sys2Proof.Machine.execThermalTrip s
  | .deviceReset => Sys2Proof.Machine.execDeviceReset s
  | .softError unit symbols => Sys2Proof.Machine.execSoftError unit symbols s
  | .illegalInstruction w => Sys2Proof.Machine.execIllegalInstruction w s

end Sys2Proof.Machine
end

