-- ==== Sys2Proof/Machine/Turns.lean ====
section
/-!
DEFINITION. What a turn of the machine is made of: the issue of a slot with its fetch, the choice of the slot that issues, the steps of
the device that are due, time, and what the cores do between turns (spec/07 R216 to R218; spec/09 R243; spec/05 R143, R155; spec/06
R172, R178; spec/02 R69; spec/23 R449; logs 2, 4, 5).
-/

namespace Sys2Proof.Machine

/-- What the turn of a slot comes to. -/
inductive IssueTurn where
  /-- The slot is not ready. -/
  | idle
  /-- A trap of its fetch (R195, R243, R12). -/
  | trap (t : Trap)
  /-- The read of its stage table, or of its instruction, sets out (R143, R195). -/
  | read (kind : OpKind) (va : DWord) (size : Nat)
  /-- The instruction runs. -/
  | run (i : Instr)
  deriving DecidableEq, Repr

namespace State

/-! Issue. -/

/-- A fetch address that is misaligned, or in the scratchpad window. -/
def fetchTrap (va : DWord) (align : Nat) : Option Trap :=
  if va.toNat % align ≠ 0 then some ⟨.align, va.lo⟩ else if inWindow va then some ⟨.scrbound, va.lo⟩ else none

/-- A warp takes part in issue: it stands in the field of its quadrant and no substitution holds it (R216, R218). -/
def inField (s : State) (k : Nat) : Bool :=
  let q := s.quad (quadOf k)
  (q.field.any fun f => f.slot = k % 64) && !((q.under s.clk).any fun e => e.1 = k % 64)

/-- The turn of a slot whose workgroup runs (R195, R216, R243). -/
def issueOf (s : State) (k : Nat) (sd : Side) (w : Warp) (g : Workgroup) : IssueTurn :=
  let x := w.slot sd
  if g.phase ≠ .running || !x.live || x.hold ≠ .none || x.waiting || !s.inField k then .idle
  else if needsStage w g.card then
    let va := g.card.entry + BitVec.ofNat 64 (8 * g.stage)
    match fetchTrap va 8 with
    | some t => .trap t
    | none => .read .stage va 8
  else match fetchTrap x.pc 4 with
    | some t => .trap t
    | none =>
      match s.fetchWord k sd g.world x.pc with
      | none => .read .fetch x.pc 4
      | some (_, v) => if s.instrReady k sd w (instrOf v) then .run (instrOf v) else .idle

/-- The word of a slot is read at its home, when its line is not in the core's instruction cache (R69; log 71): none when its unit is
found uncorrectable. The line enters when all its units can be read. -/
def takeWord (s : State) (k : Nat) (sd : Side) (world : Nat) (pc : DWord) : Except (State × Nat × Nat) State :=
  match s.fetchWord k sd world pc with
  | none => .ok s
  | some (a, _) =>
    let held := s.ilines.get [] (coreOf k)
    if !isMemory (keyAp a) || held.contains (lineOf a) then .ok s
    else match s.readUnits [unitOf a] with
      | .error e => .error e
      | .ok s => match s.readUnits (unitsOfLine (lineOf a)) with
        | .ok s => .ok { s with ilines := s.ilines.insert (coreOf k) (lineOf a :: held) }
        | .error _ => .ok s

/-- A fetch sets out and holds its slot (R143). -/
def startRead (s : State) (k : Nat) (sd : Side) (g : Workgroup) (kind : OpKind) (va : DWord) (size : Nat) (pc : DWord) (number : Nat) : State :=
  let n := s.nextOp
  (s.newOp ⟨.warp k sd, g.core, number, g.world, g.partition, g.task, kind, 15, false, false, pc, 0,
    [⟨lineVa va, [⟨0, va.toNat % 128, size, [], none⟩], none, .core, 0, [], [], false⟩], 0, 0, k % 64, ((s.warp? k).map (·.number)).getD 0⟩).onWarp k fun w =>
      w.setSlot sd { w.slot sd with hold := .fetch n }

/-- Before an instruction runs: its slot is the one that issues, and the word fetched for it is used up. -/
def beginIssue (s : State) (k : Nat) (sd : Side) : State :=
  { s with curKey := k, curSide := sd, fetched := s.fetched.filter fun e => e.1 / 2 ^ 64 ≠ 2 * k + if sd = .away then 1 else 0 }

/-- One instruction less for every result of the warp that is outstanding before one issues (R217). -/
def countDown (s : State) (k : Nat) : State :=
  let less := fun (n : Nat) => if n < 15 then n - 1 else n
  { s with
    ops := s.ops.map fun (e : Nat × MemOp) => match e.2.owner with
      | .warp j _ => if j = k && e.2.opened then (e.1, { e.2 with la := less e.2.la }) else e
      | _ => e
    arrays := s.arrays.map fun (e : Nat × List ArrEntry) =>
      if e.1 = coreOf k then (e.1, e.2.map fun a => if a.key = k then { a with la := less a.la } else a) else e
    posts := s.posts.map fun (p : Post) => if p.warp = k && !p.published then { p with la := less p.la } else p }

/-- After an instruction has run: its quadrant has issued in this cycle, its slot is newly ready from now on (R216), and the units it covered have a
new code (R69). -/
def endIssue (s : State) (k : Nat) (sd : Side) (matrix : Bool) (units : List Nat) : State :=
  let s := s.onQuad (quadOf k) fun q => { q with
    lastArray := if matrix then s.clk + 1 else q.lastArray
    field := q.field.map fun f => if f.slot = k % 64 then { f with issued := s.clk } else f
    issued := q.issued.insert (k % 64) s.clk
    ready := q.ready.erase (2 * (k % 64) + sideNo sd)
    lastIssue := s.clk + 1 }
  s.recode units.contains

/-- A fetched unit that is uncorrectable: a record, and the end of the workgroup (R69, R70). -/
def fetchError (s : State) (core g : Nat) (x : Workgroup) (unit symbols : Nat) : State :=
  (s.unitError unit symbols core x.world (s.taskId x.task)).stopWg g .memerr

/-! The slot that issues (R216). -/

/-- A candidate of a quadrant: slot, side, since when it has been ready, the age of its warp. -/
structure Candidate where
  slot : Nat
  side : Side
  since : Nat
  order : Nat
  number : Nat

/-- The first of two candidates: a starved one before one that is not, starved ones by how long they have been ready, then the older
warp, then the home slot. -/
def Candidate.before (now : Nat) (a b : Candidate) : Bool :=
  let starved := fun (c : Candidate) => decide (c.since + 32 ≤ now)
  let age := fun (c : Candidate) => c.order * 64 + c.number * 2 + sideNo c.side
  if starved a ≠ starved b then starved a
  else if starved a && a.since ≠ b.since then a.since < b.since
  else age a ≤ age b

/-- The next instruction of a slot is one of the matrix array. -/
def matrixNext (s : State) (k : Nat) (sd : Side) : Bool :=
  match s.warp? k with
  | none => false
  | some w => match s.wg? w.wg with
    | none => false
    | some g => match s.issueOf k sd w g with
      | .run i => isMatrix i
      | _ => false

/-- A higher quadrant of the core has had a matrix instruction enter the array queue in this cycle: one of this quadrant would stand before it, and
issues in the next cycle (R358; log 102). -/
def arrayPast (s : State) (q : Nat) : Bool :=
  (List.range (3 - q % 4)).any fun i => (s.quad (q + 1 + i)).lastArray = s.clk + 1

/-- The ready slots of the field of a quadrant. -/
def candidates (s : State) (q : Nat) (x : Quad) : List Candidate :=
  (x.field.map fun f => [Side.home, .away].filterMap fun sd =>
    let k := keyIn q f.slot
    if s.inField k && s.slotReady k sd && !(s.arrayPast q && s.matrixNext k sd) then
      match s.warp? k with
      | some w => some ⟨f.slot, sd, (x.ready.find? (2 * f.slot + sideNo sd)).getD s.clk, ((s.wg? w.wg).map (·.order)).getD 0, w.number⟩
      | none => none
    else none).flatten

def firstOf (now : Nat) : List Candidate → Option Candidate
  | [] => none
  | c :: cs => match firstOf now cs with
    | some d => if c.before now d then some c else some d
    | none => some c

/-- The candidate of a quadrant that issues in this cycle, when the quadrant has not issued in it. -/
def winner (s : State) (q : Nat) (x : Quad) : Option Candidate :=
  if x.lastIssue = s.clk + 1 then none else firstOf s.clk (s.candidates q x)

/-- A lower quadrant of the core has yet to issue a matrix instruction in this cycle, which comes before those of this quadrant (R358). -/
def arrayBefore (s : State) (q : Nat) : Bool :=
  (List.range (q % 4)).any fun i =>
    let q' := q / 4 * 4 + i
    ((s.winner q' (s.quad q')).map fun c => s.matrixNext (keyIn q' c.slot) c.side).getD false

/-- A slot is its quadrant's choice (R216), and no earlier instruction of the array is due in the same cycle (R358). -/
def chosen (s : State) (k : Nat) (sd : Side) : Bool :=
  match s.winner (quadOf k) (s.quad (quadOf k)) with
  | some c => c.slot = k % 64 && c.side = sd && !(s.matrixNext k sd && s.arrayBefore (quadOf k))
  | none => false

/-- An instruction runs in a slot, its register units read first (R69). -/
def runSlot (s : State) (k : Nat) (sd : Side) (w : Warp) (i : Instr) : Out :=
  match s.readCore (readUnitsOf k w sd i) with
  | (s, some (_, n)) => .next (s.coreFault w.wg 0 0 n false)
  | (s, none) =>
    match exec i ((s.beginIssue k sd).countDown k) with
    | .next t =>
      let ok := s.tookEffect t k
      .next (t.endIssue k sd (ok && isMatrix i) (if ok then coverUnitsOf k w sd i else []))
    | .fault r => .fault r
    | .refused r => .refused r

/-- The turn of a slot: it issues when its quadrant chooses it. -/
def issueSlot (s : State) (k : Nat) (sd : Side) : Out :=
  match s.warp? k with
  | none => .next s
  | some w =>
    match s.wg? w.wg with
    | none => .next s
    | some g =>
      if !s.chosen k sd then .next s
      else match s.issueOf k sd w g with
        | .idle => .next s
        | .trap t => .next (trapEntry s k sd t)
        | .read kind va size => .next (s.startRead k sd g kind va size (w.slot sd).pc w.wg)
        | .run _ =>
          match s.takeWord k sd g.world (w.slot sd).pc with
          | .error (s, n, u) => .next (s.fetchError (coreOf k) w.wg g u n)
          | .ok s =>
            match s.issueOf k sd w g with
            | .run i => s.runSlot k sd w i
            | _ => .next s

/-- The next issue of this cycle: of the first quadrant that has not issued in it and has a candidate. -/
def nextIssue (s : State) : Option Turn :=
  s.quads.findSome? fun e => (s.winner e.1 e.2).map fun c => .issue (keyIn e.1 c.slot) c.side

/-! Steps of the device that may be due. -/

/-- The command at the head of a partition's ring on a die, or the one in progress. -/
def dueCommand (s : State) (die part : Nat) : Option Instr :=
  let op := match (s.dtu die).commands.find? part with
    | some w => some (field w.bytes 0 1)
    | none => (s.commandRing die part).bind fun (base, slots, produced, consumed) =>
      let n := s.mem.readNat consumed 8
      if s.mem.readNat produced 8 ≤ n then none else some (s.mem.readNat (base + 32 * (n % slots)) 1)
  op.map fun o => match o with
    | 2 => .invalWorld die part | 3 => .potSet die part | 4 => .ownHost die part | 5 => .ownDevice die part | 6 => .release die part
    | 7 => .abandon die part | 8 => .keyBind die part | 9 => .keyRetire die part | _ => .invalVa die part

/-- The event that takes a packet at the head of an endpoint's inbox. -/
def takeEvent (e : Nat) (p : Packet) : Instr :=
  if p.trimmed then .bunt e
  else match p.type with
    | .rd => .rd e | .rdr => .rdr e | .wr => .wr e | .wra => .wra e | .atm => .atm e | .atmr => .atmr e | .ctr => .ctr e | .ctrr => .ctrr e
    | .svc => .rd e | .ack => .ack e | .rreq => .rreq e | .noroute => .noroute e

/-- The service of a call: host-proxied ones wait for their host. -/
def serviceEvent (id : Nat) (c : Call) : Instr :=
  match c.number with
  | 0 => .echo id | 1 => .clock id | 0x10 => .map id | 0x11 => .unmap id | 0x1003 => .closeHandle id | _ => .serviceComplete id

/-- Steps in the memory system: walks, dugouts, commands, packets, flows, arrays, copies, replicas. -/
def memorySteps (s : State) : List Instr :=
  ((s.dtus.map fun e => [Instr.walk e.1, .parkRecord e.1, .dugoutReturn e.1]).flatten) ++
  ((List.range 8).map fun d => if s.reg (Reg.dtu d 0x008) = 0 then [] else (List.range 64).filterMap (s.dueCommand d)).flatten ++
  (s.fabric.outs.map fun e => [Instr.outputQueueArrival (e.1 / 32) (e.1 % 32) none, .packetGrant (e.1 / 32) (e.1 % 32)]).flatten ++
  (s.fabric.inbox.map fun e => (e.2.map (takeEvent e.1)).eraseDups).flatten ++
  (s.fabric.dstFlows.map fun e => Instr.ackDue e.1) ++
  (s.fabric.srcFlows.map fun f => [Instr.retransmission f.src f.id, .unacknowledgedResend f.src f.id]).flatten ++
  (s.arrays.map fun e => Instr.arrayQueueExecute e.1) ++
  (s.wgs.map fun g => (List.range 4).map fun tl => Instr.timelineAdvance g.1 tl).flatten ++
  (s.propagating.map fun p => Instr.replicaPropagation p.die p.line) ++
  (if s.polls.isEmpty then [] else (List.range 8).map Instr.agentPoll)

/-- Steps of the dispatcher, of the quadrants and of the batteries. -/
def dispatchSteps (s : State) : List Instr :=
  (s.warps.map fun e => [Instr.napEnd e.1 false, .napEnd e.1 true]).flatten ++
  (s.quads.map fun e => [Instr.substitution e.1, .forcedEntry e.1]).flatten ++
  (s.queues.map fun e => [Instr.fenceMet e.1, .fence e.1, .signal e.1, .launch e.1]).flatten ++
  (s.posts.map fun p => Instr.postPublish p.id) ++
  (s.wgs.map fun e => [Instr.workgroupEnd e.1, .drainBound e.1, .save e.1]).flatten ++
  (s.saved.map fun e => [Instr.restore e.1, .savedWaitExpiry e.1]).flatten ++
  (s.tasks.map fun e => [Instr.taskEnd e.1, .workgroupDispatch e.1, .preemptionRequest e.1]).flatten ++
  (s.retiring.map Instr.coreRetire) ++
  (s.calls.map fun e => [serviceEvent e.1 e.2, .serviceComplete e.1]).flatten ++
  (s.channels.map fun e => [Instr.evacuationComplete (e.1 / 72) (e.1 % 72), .evacuationStart (e.1 / 72) (e.1 % 72)]).flatten ++
  (s.l1.map fun e => Instr.l1LifetimeEnd e.1) ++ (s.dtus.map fun e => Instr.epochEnd e.1) ++
  [.heartbeat] ++ (List.range 8).map fun d => .heartbeatCheck (8 * d)

/-- A step that changes something besides the free draws. -/
def changes (s : State) (i : Instr) : Bool :=
  match exec i s with
  | .next t => t ≠ s
  | _ => true

/-- The turn of a machine whose agenda is empty (log 2). -/
def pickTurn (s : State) : Turn :=
  match (s.memorySteps ++ s.dispatchSteps).find? s.changes with
  | some i => .event i
  | none => s.nextIssue.getD (.tick 1)

/-! Time (log 4). -/

/-- Packets in the switches grow older (R172). -/
def agePackets (n : Nat) (o : OutQueue) : OutQueue :=
  let older := List.map fun (p : Packet) => { p with age := Nat.min (p.age + n) 1023 }
  { o with vc0 := older o.vc0, vc1 := older o.vc1, vc2 := older o.vc2, vc3 := older o.vc3, input := older o.input }

/-- Writes that have been on their way for 65,536 cycles reach their replicas (R85, R96). -/
def propagateDue (s : State) : State :=
  (s.propagating.filter fun p => p.since + 65536 ≤ s.clk).foldl (fun s p => s.applyPropagation p.die p.line) s

/-- So many core cycles pass: the clocks, the ages of packets, the counters of cycles (R47, R161, R178, R188, R449), and the writes that
must have reached their replicas by then. -/
def pass (s : State) (n : Nat) : State :=
  let s := { s with clk := s.clk + n, fclk := s.fclk + 2 * n, wall := s.wall + n * (16 * 720720 / (s.mclk / 50)) }
  let s := s.onFabric fun f => { f with outs := f.outs.map fun e => (e.1, agePackets (2 * n) e.2) }
  let s := s.fabric.dstFlows.foldl (fun s e => s.bumpPort e.1 0x20 (2 * n * (e.2.filter fun f => f.holes ≠ []).length)) s
  s.dtus.foldl (fun s e =>
    let d := Reg.dtu e.1
    let s := if 1024 ≤ queued e.2 then s.bump (d 0x110) n else s
    e.2.stopped.foldl (fun s p => s.bump (if p = 64 then d 0x248 else d (0x600 + 8 * p)) n) s) s.propagateDue

/-! Between turns. -/

/-- Since when each slot of a quadrant has been ready (R216). -/
def keepReady (s : State) : State :=
  { s with quads := s.quads.map fun (e : Nat × Quad) =>
      let slots := e.2.field.map (·.slot) ++ e.2.bench
      let marks := (slots.map fun sl => [Side.home, .away].filterMap fun sd =>
        if s.slotReady (keyIn e.1 sl) sd then some (2 * sl + sideNo sd) else none).flatten
      (e.1, { e.2 with ready := marks.foldl (fun (m : Map Nat) k => m.insert k ((e.2.ready.find? k).getD s.clk)) [] }) }

/-- What the cores and the units do by themselves after a turn: slots settle, requests leave, packets wait or leave, keys follow the root
table, and dugouts, batteries, watches and resets are kept. -/
def keep (s : State) : State :=
  s.settleAll.pump.pumpFabric.settleAll.keepDugouts.keepConfs.keepBatteries.keepRings.keepRepairs.keepQueues.keepPosts.keepHosts.keepResets.keepReady

/-- One turn. -/
def turn (s : State) : Turn → Out
  | .issue k sd => s.issueSlot k sd
  | .event i => exec i s
  | .tick n => .next (s.pass n)
  | .battery b a => .next (s.battery b [a])
  | .repair b die counter frame attr => .next (s.repair b die counter frame attr)
  | .hostRead ld off size => .next (s.hostRequest ld (.read off size))

end State
end Sys2Proof.Machine
end

