-- ==== Sys2Proof/Machine/Step.lean ====
section
/-!
DEFINITION. One step of the machine: the next turn of the agenda, or the one that is due, with what follows it by itself (log 2); and
the placing of an instruction to run next (log 3).
-/

namespace Sys2Proof.Machine

/-- What follows a turn by itself. -/
def afterTurn : Out → Out
  | .next s => .next s.keep
  | .fault r => .fault r
  | .refused r => .refused r

/-- One step. A module without power waits for a device reset (R449). -/
def step (s : State) : Host.Outcome State Fault Refusal :=
  match s.agenda with
  | [] => if s.powered then afterTurn (s.turn s.pickTurn) else .next s
  | t :: rest =>
    let s := { s with agenda := rest }
    if s.powered || t = .event .deviceReset then afterTurn (s.turn t) else .next s

/-- The state with an instruction ready to issue: a workgroup of world 0 resident on core 0 with one warp, whose home PC stands at the
start of a page that the core's TLB holds as executable; the instruction's word in the page's frame; and the warp's issue next on the
agenda (log 3). -/
def State.withFetchWord (s : State) (nbits w : Nat) : State :=
  let g := Map.nextKey s.wgs
  let pc : DWord := 0x10000
  let card : Card := { Card.empty with entry := pc, warps := 1, flags := 16, regs := 256, scratchKiB := 256, tiles := 32, timelines := 4 }
  let x : Workgroup :=
    { task := 0, world := 0, partition := 0, card, stage := 0, linear := 0, core := 0, slots := [0], scr := [], absent := [], tiles := []
      planeA := Plane.zero, planeB := Plane.zero, activeB := false, copyNum := [], frozenTl := [], lines := [], since := s.clk, order := s.nextOrder
      phase := .running, status := .ok, drain := none, preempt := none }
  { s with
    agenda := .issue 0 .home :: s.agenda
    wgs := s.wgs.insert g x
    nextOrder := s.nextOrder + 1
    warps := s.warps.insert 0 (Warp.start g 0 pc false)
    quads := s.quads.insert 0 { Quad.empty with field := [⟨0, s.clk, 0⟩] }
    coreTlb := s.coreTlb.insert 0 [⟨0, 2, 15, 0x4041, 0, 64, 0, s.clk⟩]
    mem := s.mem.writeNat (memKey 0 0x200000) ((nbits + 31) / 32 * 4) (w % 2 ^ nbits) }

end Sys2Proof.Machine
end

