-- ==== Sys2Proof/Safety.lean ====
section
/-!
DEFINITION. The terms the claims use: an instruction that completes, traps or is under way, what it leaves unchanged, and the
invariant of the machine.
-/

namespace Sys2Proof.Machine

/-- The warp whose instruction runs. -/
abbrev State.runs (s : State) (w : Warp) : Prop := s.warp? s.curKey = some w

/-- The slot that issues, the lanes active in it, and those that participate (R303). -/
def State.here (s : State) (w : Warp) : Slot := w.slot s.curSide
def State.active (s : State) (w : Warp) : Word := (s.here w).mask
def State.part (s : State) (w : Warp) : Word := partMask w (s.active w)

/-- The instruction completes with its warp as w', moved on to the next instruction, and nothing else of the machine changed. -/
abbrev Completes (i : Instr) (s : State) (w' : Warp) : Prop := exec i s = .next (s.setWarp s.curKey (w'.advance s.curSide))

/-- A control instruction completes: its warp is w', and nothing else of the machine has changed. -/
abbrev Controls (i : Instr) (s : State) (w' : Warp) : Prop := exec i s = .next (s.setWarp s.curKey w')

/-- The instruction raises a trap. -/
abbrev Traps (i : Instr) (s : State) (t : Trap) : Prop := exec i s = .next (trapEntry s s.curKey s.curSide t)

/-- The instruction issues an operation of its warp, and moves on. -/
abbrev Issues (i : Instr) (s : State) (w : Warp) (p : Plan) : Prop :=
  exec i s = .next ((s.setWarp s.curKey (w.advance s.curSide)).issue s.curKey s.curSide w p (fnOf i))

/-- A register of V of a lane is in a run of n registers from r, in the lanes of a mask. -/
def inLanes (r n : Nat) (mask : Word) (r' l : Nat) : Prop := r ≤ r' ∧ r' < r + n ∧ mask.getLsbD l = true

/-- A byte of memory. -/
abbrev State.byte (s : State) (a : Nat) : Byte := s.mem.read a

/-- Nothing but warps has changed, and of them only the one whose instruction ran. -/
structure KeepsMachine (s t : State) : Prop where
  rest : { t with warps := s.warps } = s
  others : ∀ k, k ≠ s.curKey → t.warp? k = s.warp? k
  bytes : ∀ a, t.byte a = s.byte a

/-- What a warp keeps: V registers but those in `v`, S registers but those in `sr`, predicates but those in `p`, the bits of MODE in
`m`, and everything else but its issuing slot's program counter. -/
structure KeepsWarp (sd : Side) (w w' : Warp) (v : Nat → Nat → Prop) (sr : Nat → Prop) (p : PReg → Prop) (m : Word) : Prop where
  vregs : ∀ r l, r < 256 → l < 32 → ¬ v r l → w'.vreg r l = w.vreg r l
  sregs : ∀ r, r < 128 → ¬ sr r → w'.sreg r = w.sreg r
  pregs : ∀ q, ¬ p q → w'.preg q = w.preg q
  mode : w'.mode &&& m = w.mode &&& m
  slots : w'.slot sd = { w.slot sd with pc := (w.slot sd).pc + 4 } ∧ w'.slot sd.other = w.slot sd.other
  owner : w'.wg = w.wg ∧ w'.number = w.number
  traps : w'.trapPc = w.trapPc ∧ w'.trapCode = w.trapCode ∧ w'.trapInfo = w.trapInfo ∧ w'.frame = w.frame
  specials : w'.cstat = w.cstat ∧ w'.modq = w.modq ∧ w'.clkhi = w.clkhi
  stack : w'.depth = w.depth ∧ w'.top = w.top ∧ w'.topReq = w.topReq

/-- An instruction that is not stopped by a check has run in its warp alone, and left there what `KeepsWarp` says; a check that fails
takes its trap. -/
def Framed (i : Instr) (s : State) (w : Warp) (v : Nat → Nat → Prop) (sr : Nat → Prop) (p : PReg → Prop) (m : Word) : Prop :=
  (∃ t, Traps i s t) ∨
    ∃ t w', exec i s = .next t ∧ KeepsMachine s t ∧ t.warp? s.curKey = some w' ∧ KeepsWarp s.curSide w w' v sr p m

/-- A V operand, of a pair or of one register, that the checks of R248 and R249 accept, and a b operand (R304). -/
def State.roomFor (s : State) (w : Warp) (pair : Bool) (r : Reg) : Prop :=
  r.toNat + (if pair then 2 else 1) ≤ (s.cardOf w).regs ∧ (pair = true → r.toNat % 2 = 0)
def State.roomForB (s : State) (w : Warp) (pair : Bool) : SrcB → Prop
  | .v r => s.roomFor w pair r
  | .s r => pair = true → r.toNat % 2 = 0

/-- Element k of an operand of a type (R232). -/
def elemOf (t : Ty) (x k : Nat) : Nat := x / 2 ^ (t.bits * k) % 2 ^ t.bits

/-! Numbers and results by value (R221 to R242). -/

/-- Bits of a format that stand for a finite number, and that number (R221). -/
def Fmt.isNumber (f : Fmt) (a : Nat) : Prop := a < 2 ^ f.width ∧ a % f.signBit ≤ f.maxMag
def Fmt.value (f : Fmt) (a : Nat) : Rat :=
  let e := a / 2 ^ f.mw % 2 ^ f.ew
  let m := a % 2 ^ f.mw
  let n : Nat := if e = 0 then m else (2 ^ f.mw + m) * 2 ^ (e - 1)
  (if a / f.signBit % 2 = 1 then -(n : Rat) else n) / ((2 ^ (f.bias + f.mw - 1) : Nat) : Rat)

/-- Bits that stand for no number and no infinity, and those of a signalling NaN among them (R221). -/
def Fmt.isNaN (f : Fmt) (a : Nat) : Prop := a < 2 ^ f.width ∧ (if f.hasInf then f.infMag else f.maxMag) < a % f.signBit
def Fmt.isSnan (f : Fmt) (a : Nat) : Bool := f.hasInf && a / 2 ^ (f.mw - 1) % 2 = 0

/-- An input of a vector instruction under MODE.FTZ, by its number and by its bits: a subnormal of a flushable format is a zero of its sign
(R227). -/
def Fmt.flushes (f : Fmt) (ftz : Bool) (a : Nat) : Bool :=
  ftz && f.kind != .e2m1 && a / 2 ^ f.mw % 2 ^ f.ew = 0 && a % 2 ^ f.mw ≠ 0
def Fmt.valueIn (f : Fmt) (ftz : Bool) (a : Nat) : Rat := if f.flushes ftz a then 0 else f.value a
def Fmt.sign (f : Fmt) (a : Nat) : Nat := a / f.signBit % 2
def Fmt.bitsIn (f : Fmt) (ftz : Bool) (a : Nat) : Nat := if f.flushes ftz a then f.sign a * f.signBit else a

/-- A real number, by the rational numbers below it and above it: a rational number, the root of one, and one over the root. -/
structure Cut where
  below : Rat → Prop
  above : Rat → Prop
def Cut.of (v : Rat) : Cut := ⟨fun c => c < v, fun c => v < c⟩
def Cut.root (x : Rat) : Cut := ⟨fun c => c < 0 ∨ c * c < x, fun c => 0 < c ∧ x < c * c⟩
def Cut.overRoot (x : Rat) : Cut := ⟨fun c => c ≤ 0 ∨ c * c * x < 1, fun c => 0 < c ∧ 1 < c * c * x⟩

/-- Among the numbers of a format, bits stand for the one that a rounding mode takes for a real number (R226): 0 the nearest, of two that are
as near the one with an even significand; 1 the last toward zero, 2 the last below, 3 the last above. -/
def Nearest (f : Fmt) (rm : Nat) (v : Cut) (out : Nat) : Prop :=
  let q := f.value out
  let lower := ¬v.above q ∧ ∀ p, f.isNumber p → ¬v.above (f.value p) → f.value p ≤ q
  let upper := ¬v.below q ∧ ∀ p, f.isNumber p → ¬v.below (f.value p) → q ≤ f.value p
  match rm with
  | 0 => ∀ p, f.isNumber p →
      let mid := (q + f.value p) / 2
      (q < f.value p → ¬v.below mid) ∧ (f.value p < q → ¬v.above mid) ∧ (q ≠ f.value p → ¬v.below mid → ¬v.above mid → out % 2 = 0)
  | 1 => (¬v.above 0 → lower) ∧ (v.above 0 → upper)
  | 2 => lower
  | _ => upper

/-- A real number that is past the largest of a format once it has been rounded with the exponent unbounded above (R226). -/
def Overflows (f : Fmt) (rm : Nat) (v : Cut) : Prop :=
  let most := f.value f.maxMag
  let top := 2 * most - f.value (f.maxMag - 1)
  let mid := (most + top) / 2
  match rm with
  | 0 => (v.below mid ∨ v.above (-mid)) ∨ (f.maxMag % 2 = 1 ∧ (¬v.above mid ∨ ¬v.below (-mid)))
  | 1 => ¬v.above top ∨ ¬v.below (-top)
  | 2 => ¬v.above top ∨ v.above (-most)
  | _ => v.below most ∨ ¬v.below (-top)

/-- A result is Round of a real number under a rounding mode, MODE.SAT and MODE.FTZ, with its flags (R226). -/
def Rounded (f : Fmt) (r : RMode) (v : Cut) (out : Nat × Flags) : Prop :=
  let signed := fun (minus plus : Nat) => (v.above 0 → out.1 = f.signBit + minus) ∧ (v.below 0 → out.1 = plus)
  (Overflows f r.rm v →
    (r.sat = true → signed f.maxMag f.maxMag ∧ out.2 = .of ||| .nx ||| .st) ∧
    (r.sat = false → f.hasInf = false → out = (f.nan, .of ||| .nx)) ∧
    (r.sat = false → f.hasInf = true → out.2 = .of ||| .nx ∧ (r.rm = 0 → signed f.infMag f.infMag) ∧ (r.rm = 1 → signed f.maxMag f.maxMag) ∧
      (r.rm = 2 → signed f.infMag f.maxMag) ∧ (r.rm = 3 → signed f.maxMag f.infMag))) ∧
  (¬Overflows f r.rm v → ∃ y, f.isNumber y ∧ Nearest f r.rm v y ∧ (v.above 0 → f.sign y = 1) ∧ (v.below 0 → f.sign y = 0) ∧
    let tiny := y % f.signBit < 2 ^ f.mw
    let same := ¬v.below (f.value y) ∧ ¬v.above (f.value y)
    (f.flushes r.ftz y = true → out = (f.sign y * f.signBit, .uf ||| .nx)) ∧
    (f.flushes r.ftz y = false → out.1 = y ∧ (same → out.2 = 0) ∧ (¬same → (tiny → out.2 = .nx ||| .uf) ∧ (¬tiny → out.2 = .nx))))

/-- An infinity, or a division by zero, as Round gives it, with a flag of the operation (R226). -/
def Fmt.limit (f : Fmt) (r : RMode) (minus : Bool) (fl : Flags) : Nat × Flags :=
  if r.sat then (f.withSign minus f.maxMag, fl ||| .st)
  else if f.hasInf then (f.withSign minus f.infMag, fl) else (f.nan, fl ||| .nv)

/-- An integer that a rounding mode takes for a number (R226, R313). -/
def RoundedToInt (rm : Nat) (x : Rat) (n : Int) : Prop :=
  (rm = 0 → -1 / 2 ≤ x - n ∧ x - n ≤ 1 / 2 ∧ (x - n = 1 / 2 ∨ x - n = -1 / 2 → n % 2 = 0)) ∧
  (rm = 1 → n = if 0 ≤ x then x.floor else -(-x).floor) ∧ (rm = 2 → n = x.floor) ∧ (rm = 3 → n = -(-x).floor)

/-- The least and the greatest number of an integer type (R231). -/
def Ty.least (t : Ty) : Int := if t.signed then -2 ^ (t.bits - 1) else 0
def Ty.greatest (t : Ty) : Int := if t.signed then 2 ^ (t.bits - 1) - 1 else 2 ^ t.bits - 1

/-- A number converted to an integer type: rounded, and clamped to the range with NV (R234). -/
def ToInteger (t : Ty) (rm : Nat) (x : Rat) (out : Nat × Flags) : Prop :=
  ∃ n : Int, RoundedToInt rm x n ∧ out.1 < 2 ^ t.bits ∧ intVal t out.1 = max t.least (min t.greatest n) ∧
    out.2 = (if x = n then 0 else Flags.nx) ||| (if t.least ≤ n ∧ n ≤ t.greatest then 0 else Flags.nv)

/-- What the operations give on numbers (R223, R226, R227, R229, R307, R313, R316). -/
def NumberResults (f : Fmt) (r : RMode) (a b d : Nat) : Prop :=
  let x := f.valueIn r.ftz a
  let y := f.valueIn r.ftz b
  let z := f.valueIn r.ftz d
  let op := fun (o : FOp) => floatOp f r o a b d
  let zero := fun (p q : Nat) => (if p = q then p else if r.rm = 2 then 1 else 0) * f.signBit
  let product := (f.sign a + f.sign b) % 2
  let bad := (f.nan, Flags.nv)
  (∀ e ∈ [(FOp.add, x + y), (.sub, x - y), (.mul, x * y), (.fma, z + x * y), (.fnma, z - x * y), (.frc, x - x.floor)],
    Rounded f r (.of e.2) (op e.1)) ∧
  (x + y = 0 → op .add = (zero (f.sign a) (f.sign b), 0)) ∧ (x - y = 0 → op .sub = (zero (f.sign a) (1 - f.sign b), 0)) ∧
  (x * y = 0 → op .mul = (product * f.signBit, 0)) ∧ (z + x * y = 0 → op .fma = (zero (f.sign d) product, 0)) ∧
  (z - x * y = 0 → op .fnma = (zero (f.sign d) (1 - product), 0)) ∧ (x = x.floor → op .frc = (0, 0)) ∧
  (y ≠ 0 → Rounded f r (.of (x / y)) (op .div) ∧ (x = 0 → op .div = (product * f.signBit, 0))) ∧
  (x ≠ 0 → y = 0 → op .div = f.limit r (product = 1) .dz) ∧ (x = 0 → y = 0 → op .div = bad) ∧
  (x ≠ 0 → Rounded f r (.of (1 / x)) (op .rcp)) ∧ (x = 0 → op .rcp = f.limit r (f.sign a = 1) .dz) ∧
  (0 < x → Rounded f r (.root x) (op .sqrt) ∧ Rounded f r (.overRoot x) (op .rsq)) ∧
  (x = 0 → op .sqrt = (f.bitsIn r.ftz a, 0) ∧ op .rsq = f.limit r (f.sign a = 1) .dz) ∧ (x < 0 → op .sqrt = bad ∧ op .rsq = bad) ∧
  op .min = (f.bitsIn r.ftz (if y < x ∨ (x = 0 ∧ y = 0 ∧ f.sign a = 0 ∧ f.sign b = 1) then b else a), 0) ∧
  op .max = (f.bitsIn r.ftz (if x < y ∨ (x = 0 ∧ y = 0 ∧ f.sign a = 1 ∧ f.sign b = 0) then b else a), 0) ∧
  op .abs = (f.bitsIn r.ftz a % f.signBit, 0) ∧
  op .neg = ((1 - f.sign a) * f.signBit + f.bitsIn r.ftz a % f.signBit, 0) ∧
  (∃ n : Int, RoundedToInt r.rm x n ∧ f.isNumber (op .rnd).1 ∧ f.value (op .rnd).1 = n ∧ f.sign (op .rnd).1 = f.sign a ∧
    (op .rnd).2 = if x = n then 0 else .nx) ∧
  ∀ e ∈ [(Cond.eq, decide (x = y)), (.ne, decide (x ≠ y)), (.lt, decide (x < y)), (.le, decide (x ≤ y)), (.gt, decide (y < x)),
      (.ge, decide (y ≤ x)), (.unord, false), (.ord, true)], floatCmp f r.ftz e.1 a b = (e.2, 0)

/-- What the operations give on infinities, beside numbers a and b (R223, R226, R229, R307, R313, R316). -/
def InfiniteResults (f : Fmt) (r : RMode) (n m : Bool) (a b : Nat) : Prop :=
  let inf := fun (n : Bool) => f.withSign n f.infMag
  let lim := fun (n : Bool) => f.limit r n 0
  let bad := (f.nan, Flags.nv)
  let s : Bool := f.sign a = 1
  let zero := f.valueIn r.ftz a = 0
  let op := fun (o : FOp) (a b : Nat) => floatOp f r o a b 0
  let read := f.bitsIn r.ftz a
  let cmp := fun (a b : Nat) (lt eq gt : Bool) => ∀ e ∈ [(Cond.eq, eq), (.ne, !eq), (.lt, lt), (.le, lt || eq), (.gt, gt), (.ge, gt || eq),
    (.unord, false), (.ord, true)], floatCmp f r.ftz e.1 a b = (e.2, 0)
  op .add (inf n) (inf m) = (if n = m then lim n else bad) ∧ op .add (inf n) a = lim n ∧ op .add a (inf n) = lim n ∧
  op .sub (inf n) (inf m) = (if n = m then bad else lim n) ∧ op .sub (inf n) a = lim n ∧ op .sub a (inf n) = lim (!n) ∧
  op .mul (inf n) (inf m) = lim (n != m) ∧ op .mul (inf n) a = (if zero then bad else lim (n != s)) ∧
  op .mul a (inf n) = (if zero then bad else lim (n != s)) ∧
  op .div (inf n) (inf m) = bad ∧ op .div (inf n) a = lim (n != s) ∧ op .div a (inf n) = (f.withSign (n != s) 0, 0) ∧
  (∀ e ∈ [(FOp.fma, false), (.fnma, true)],
    let p := (n != s) != e.2
    floatOp f r e.1 (inf n) a b = (if zero then bad else lim p) ∧ floatOp f r e.1 a (inf n) b = (if zero then bad else lim p) ∧
    floatOp f r e.1 (inf n) a (inf m) = (if zero ∨ m ≠ p then bad else lim m) ∧
    floatOp f r e.1 a (inf n) (inf m) = (if zero ∨ m ≠ p then bad else lim m) ∧ floatOp f r e.1 a b (inf m) = lim m ∧
    floatOp f r e.1 (inf n) (inf m) b = lim ((n != m) != e.2)) ∧
  op .rcp (inf n) 0 = (f.withSign n 0, 0) ∧ op .sqrt (inf n) 0 = (if n then bad else lim false) ∧
  op .rsq (inf n) 0 = (if n then bad else (0, 0)) ∧ op .abs (inf n) 0 = lim false ∧ op .neg (inf n) 0 = lim (!n) ∧
  op .rnd (inf n) 0 = (inf n, 0) ∧ op .frc (inf n) 0 = bad ∧
  op .min (inf n) (inf m) = (inf (n || m), 0) ∧ op .min (inf n) a = (if n then inf n else read, 0) ∧
  op .min a (inf n) = (if n then inf n else read, 0) ∧
  op .max (inf n) (inf m) = (inf (n && m), 0) ∧ op .max (inf n) a = (if n then read else inf n, 0) ∧
  op .max a (inf n) = (if n then read else inf n, 0) ∧
  cmp (inf n) (inf m) (n && !m) (n = m) (!n && m) ∧ cmp (inf n) a n false (!n) ∧ cmp a (inf n) (!n) false n

/-- What `vcvt` gives from one floating format to another, to an integer type, and from one (R222, R226, R227, R234). -/
def ConversionResults (t ct : Ty) (r : RMode) (q a : Nat) : Prop :=
  let out := convert t ct r q a
  (∀ f g, t.fmt? = some f → ct.fmt? = some g →
    let x := f.valueIn r.ftz a
    (f.isNumber a → (f = g → out = (f.bitsIn r.ftz a, 0)) ∧
      (f ≠ g → f.within g = true → g.isNumber out.1 ∧ g.value out.1 = x ∧ g.sign out.1 = f.sign a ∧ out.2 = 0) ∧
      (f.within g = false → Rounded g r (.of x) out ∧ (x = 0 → out = (f.sign a * g.signBit, 0)))) ∧
    (∀ n : Bool, f.hasInf = true → a = f.withSign n f.infMag →
      out = if f = g then (a, 0) else if f.within g then (g.withSign n g.infMag, 0) else g.limit r n 0) ∧
    (f.isNaN a → out = (g.nan, if f.isSnan a then .nv else 0))) ∧
  (∀ f, t.fmt? = some f → ct.isInt = true → (f.isNumber a → ToInteger ct r.rm (f.valueIn r.ftz a) out) ∧
    (∀ n : Bool, f.hasInf = true → a = f.withSign n f.infMag → out.1 < 2 ^ ct.bits ∧ intVal ct out.1 = (if n then ct.least else ct.greatest) ∧
      out.2 = .nv) ∧ (f.isNaN a → out = (0, .nv))) ∧
  ∀ g, t.isInt = true → ct.fmt? = some g → Rounded g r (.of (intVal t a)) out ∧ (a = 0 → out = (0, 0))

/-- What R230 fixes of its functions without an irrational number: special inputs, and arguments whose value is rational or past every number of
the format. -/
def FunctionResults (f : Fmt) (r : RMode) (a : Nat) : Prop :=
  let out := fun (o : TOp) => transOp f r o a
  let bad := (f.nan, Flags.nv)
  let one := f.bias * 2 ^ f.mw
  let x := f.valueIn r.ftz a
  let two := fun (n : Int) => if 0 ≤ n then (2 : Rat) ^ n.toNat else 1 / 2 ^ (-n).toNat
  (f.isNaN a → ∀ o, out o = (f.nan, if f.isSnan a then .nv else 0)) ∧
  (∀ n : Bool, a = f.withSign n f.infMag → out .exp2 = (if n then (0, 0) else f.limit r false 0) ∧
    out .log2 = (if n then bad else f.limit r false 0) ∧ out .sin = bad ∧ out .cos = bad ∧ out .tanh = (f.withSign n one, 0)) ∧
  (f.isNumber a →
    (∀ n : Int, x = n → n.natAbs < 2000 → Rounded f r (.of (two n)) (out .exp2)) ∧
    (1000 ≤ x → Rounded f r (.of (two 1000)) (out .exp2)) ∧ (x ≤ -1000 → Rounded f r (.of (two (-1000))) (out .exp2)) ∧
    (x = 0 → out .exp2 = (one, 0) ∧ out .log2 = f.limit r true .dz ∧ out .sin = (f.bitsIn r.ftz a, 0) ∧ out .cos = (one, 0) ∧
      out .tanh = (f.bitsIn r.ftz a, 0)) ∧
    (x < 0 → out .log2 = bad) ∧ (∀ n : Int, x = two n → Rounded f r (.of n) (out .log2) ∧ (n = 0 → out .log2 = (0, 0))) ∧
    (128 ≤ x → Rounded f r (.of (1 - two (-200))) (out .tanh)) ∧ (x ≤ -128 → Rounded f r (.of (two (-200) - 1)) (out .tanh)))

/-- The number of element k of a block with a scale byte below 255 (R224, R225, R238). -/
def BlockFmt.number (f : BlockFmt) (ftz : Bool) (scale : Nat) (code : Nat → Nat) (k : Nat) : Rat :=
  let e := code (k / 2 * 2)
  let o := code (k / 2 * 2 + 1)
  let outlier := fun (c : Nat) => (if 8 ≤ c then -1 else 1) * (2 : Rat) ^ (c % 8 + 3)
  let unit : Rat := 2 ^ scale / 2 ^ 127
  unit * match f with
    | .q4x =>
      if e = 8 then (if k % 2 = 0 then outlier o else 0)
      else if o = 8 then (if k % 2 = 1 then outlier e else 0)
      else (((if k % 2 = 0 then e else o) : Rat) - if 8 ≤ (if k % 2 = 0 then e else o) then 16 else 0)
    | _ => (BlockFmt.elem f).valueIn ftz (code k)

/-- Element k of a block as `vdeq` writes it in a format (R222, R224 to R227, R238, R239). -/
def Decoded (f : BlockFmt) (fm : Fmt) (r : RMode) (scale : Nat) (code : Nat → Nat) (k : Nat) (out : Nat × Flags) : Prop :=
  let g := BlockFmt.elem f
  let x := BlockFmt.number f r.ftz scale code k
  (scale = 255 → out = (fm.nan, 0)) ∧
  (scale < 255 →
    (f = .q4x ∨ g.isNumber (code k) → Rounded fm r (.of x) out ∧ (x = 0 → out = (if f = .q4x then 0 else g.sign (code k) * fm.signBit, 0))) ∧
    (f ≠ .q4x → g.isNaN (code k) → out = (fm.nan, if g.isSnan (code k) then .nv else 0)) ∧
    ∀ n : Bool, f = .mxfp8e5 → code k = g.withSign n g.infMag → out = fm.limit r n 0)

/-- The code of an infinity in a block (R237). -/
def BlockFmt.infinity (f : BlockFmt) (n : Bool) : Nat :=
  match f with
  | .mxfp8e4 => if n then 0xFE else 0x7E
  | .mxfp8e5 => if n then 0xFB else 0x7B
  | .mxfp4 => if n then 0xF else 0x7
  | .q4x => if n then 0b1001 else 0b0111

/-- A block of 32 elements of a format, as `vqnt` encodes it (R235 to R237). -/
def Encoded (f : BlockFmt) (fm : Fmt) (ftz : Bool) (el : Nat → Nat) (b : Block) : Prop :=
  let isInf := fun (l : Nat) (n : Bool) => el l = fm.withSign n fm.infMag
  let number := fun (l : Nat) => fm.isNumber (el l)
  let x := fun (l : Nat) => fm.valueIn ftz (el l)
  let mag := fun (l : Nat) => if x l < 0 then -x l else x l
  let code := fun (l : Nat) => b.codes.getD l 0
  let unit : Rat := 2 ^ b.scale / 2 ^ 127
  let someInf := ∃ l n, l < 32 ∧ isInf l n
  b.codes.length = 32 ∧
  ((∃ l, l < 32 ∧ fm.isNaN (el l)) → b.scale = 255 ∧ (∀ l, l < 32 → code l = 0) ∧
    ((∃ l, l < 32 ∧ fm.isNaN (el l) ∧ fm.isSnan (el l) = true) → b.flags = .qn ||| .nv) ∧
    ((∀ l, l < 32 → fm.isNaN (el l) → fm.isSnan (el l) = false) → b.flags = .qn)) ∧
  ((∀ l, l < 32 → ¬fm.isNaN (el l)) →
    (b.flags.getLsbD 6 = true ↔ someInf) ∧ b.flags &&& (.nv ||| .dz ||| .of ||| .uf) = 0 ∧
    ((∀ l, l < 32 → number l → x l = 0) → b.scale = 0 ∧ b.flags &&& (.nx ||| .st) = 0 ∧
      ∀ l, l < 32 → (number l → code l = 0) ∧ ∀ n, isInf l n → code l = BlockFmt.infinity f n) ∧
    ∀ i, i < 32 → number i → x i ≠ 0 → (∀ l, l < 32 → number l → mag l ≤ mag i ∧ (l < i → mag l < mag i)) →
      (f ≠ .q4x →
        let g := BlockFmt.elem f
        (∃ k : Nat, 2 ^ k ≤ mag i * 2 ^ 200 ∧ mag i * 2 ^ 200 < 2 ^ (k + 1) ∧
          (b.scale : Int) = max 0 (min 254 ((k : Int) - 200 - (if f = .mxfp8e4 then 8 else if f = .mxfp8e5 then 15 else 2) + 127))) ∧
        (∀ l n, l < 32 → isInf l n → code l = BlockFmt.infinity f n) ∧
        ∃ fl : Nat → Flags, (∀ l, l < 32 → number l → Rounded g ⟨0, true, false⟩ (.of (x l / unit)) (code l, fl l) ∧
            (x l = 0 → code l = fm.sign (el l) * g.signBit)) ∧
          ∀ bit ∈ [4, 5], (b.flags.getLsbD bit = true ↔ ∃ l, l < 32 ∧ number l ∧ (fl l).getLsbD bit = true)) ∧
      (f = .q4x →
        let second := fun (m : Rat) => (∃ l, l < 32 ∧ number l ∧ l ≠ i ∧ mag l = m) ∧ ∀ l, l < 32 → number l → l ≠ i → mag l ≤ m
        let a := mag i / unit
        let p := if i % 2 = 0 then i + 1 else i - 1
        (∀ m, (second m ∧ m ≠ 0) ∨ ((∀ l, l < 32 → number l → l ≠ i → x l = 0) ∧ m = mag i) →
          ∃ k : Nat, m * 2 ^ 200 ≤ 7 * 2 ^ k ∧ 7 * 2 ^ k < 2 * (m * 2 ^ 200) ∧ (b.scale : Int) = max (-127) (min 127 ((k : Int) - 200)) + 127) ∧
        ∀ (n : Nat → Int) (e : Nat), (∀ l, l < 32 → RoundedToInt 0 (x l / unit) (n l)) → e ≤ 7 → (0 < e → 3 * 2 ^ (e + 1) ≤ a) →
          (e < 7 → a < 3 * 2 ^ (e + 2)) →
          let outlier := 8 ≤ (n i).natAbs ∧ ¬(i % 2 = 1 ∧ x i < 0 ∧ e = 0)
          let fits := fun (l : Nat) => max (-7) (min 7 (n l))
          let other := fun (l : Nat) => ¬(outlier ∧ (l = i ∨ l = p))
          (outlier → code i = 8 ∧ code p = (if x i < 0 then 8 else 0) + e) ∧
          (∀ l, l < 32 → other l → (number l → (code l : Int) = fits l % 16) ∧ ∀ s, isInf l s → code l = BlockFmt.infinity f s) ∧
          (b.flags.getLsbD 5 = true ↔ (∃ l, l < 32 ∧ other l ∧ number l ∧ fits l ≠ n l) ∨ (outlier ∧ 1024 < a)) ∧
          (b.flags.getLsbD 4 = true ↔ (∃ l, l < 32 ∧ other l ∧ number l ∧ x l / unit ≠ fits l) ∨
            (outlier ∧ (a ≠ 2 ^ (e + 3) ∨ ¬(number p ∧ x p = 0))))))

/-- An element of a matrix operand under a format code that stands for a number, and that number (R225, R359, R364, R366). -/
def operandFinite (c scale : Nat) (code : Nat → Nat) (k : Nat) : Prop :=
  match c with
  | 0 => Fmt.bf16.isNumber (code k)
  | 1 => Fmt.f16.isNumber (code k)
  | 2 => Fmt.e4m3.isNumber (code k)
  | 3 => Fmt.e5m2.isNumber (code k)
  | 4 => scale < 255 ∧ Fmt.e4m3.isNumber (code k)
  | 5 => scale < 255 ∧ Fmt.e5m2.isNumber (code k)
  | 6 | 7 => scale < 255
  | _ => Fmt.f64.isNumber (code k)
def operandNumber (c scale : Nat) (code : Nat → Nat) (k : Nat) : Rat :=
  let block := fun (f : BlockFmt) => BlockFmt.number f false scale (fun i => code (k / 32 * 32 + i)) (k % 32)
  match c with
  | 0 => Fmt.bf16.value (code k)
  | 1 => Fmt.f16.value (code k)
  | 2 => Fmt.e4m3.value (code k)
  | 3 => Fmt.e5m2.value (code k)
  | 4 => block .mxfp8e4
  | 5 => block .mxfp8e5
  | 6 => block .mxfp4
  | 7 => block .q4x
  | _ => Fmt.f64.value (code k)
/-- An element that is a NaN by its code or its scale (R225, R241). -/
def operandNaN (c scale : Nat) (code : Nat → Nat) (k : Nat) : Prop :=
  match c with
  | 0 => Fmt.bf16.isNaN (code k)
  | 1 => Fmt.f16.isNaN (code k)
  | 2 => Fmt.e4m3.isNaN (code k)
  | 3 => Fmt.e5m2.isNaN (code k)
  | 4 => scale = 255 ∨ Fmt.e4m3.isNaN (code k)
  | 5 => scale = 255 ∨ Fmt.e5m2.isNaN (code k)
  | 6 | 7 => scale = 255
  | _ => Fmt.f64.isNaN (code k)

/-- An accumulator after the groups of an `mstr` (R241): the exact sum of each group rounded once, and added to it with another rounding, each to
nearest-even, subnormals kept; a NaN stays. -/
def Accumulated (f : Fmt) (size groups : Nat) (product : Nat → Rat) (acc out : Nat) : Prop :=
  ∃ c sum : Nat → Nat, c 0 = acc ∧ c groups = out ∧ ∀ n, n < groups →
    (∃ fl, Rounded f .plain (.of ((List.range size).map fun d => product (size * n + d)).sum) (sum n, fl)) ∧
    (f.isNumber (c n) → f.isNumber (sum n) → ∃ fl, Rounded f .plain (.of (f.value (c n) + f.value (sum n))) (c (n + 1), fl)) ∧
    (f.isNaN (c n) → c (n + 1) = f.nan)

/-- The flags of MODE after an instruction: those it had, and those raised (R228). -/
def RaisesFlags (w w' : Warp) (raised : Nat → Prop) : Prop :=
  ∀ b, b < 7 → (w'.mode.getLsbD (24 + b) = true ↔ w.mode.getLsbD (24 + b) = true ∨ raised b)

/-- Results of an elementwise instruction: the n elements given stand in d of each participating lane, with zero above them, and MODE
has the flags of all (R232, R303). -/
structure LaneResults (s : State) (w w' : Warp) (t : Ty) (n : Nat) (d : Reg) (f : Nat → Nat → Nat × Flags) : Prop where
  value : ∀ l k, (s.part w).getLsbD l = true → k < t.elems →
    elemOf t (rdV w' t.pair d l) k = if k < n then (f l k).1 % 2 ^ t.bits else 0
  flags : RaisesFlags w w' fun b => ∃ l k, (s.part w).getLsbD l = true ∧ k < n ∧ (f l k).2.getLsbD b = true

/-- The S registers and the predicates are those of w. -/
structure KeepsScalars (w w' : Warp) : Prop where
  sregs : w'.s = w.s
  pregs : w'.p = w.p

/-- The two-operand instructions with their types (R254) and the operation on elements (R307, R309). -/
abbrev binaryOps (d a : Reg) (b : SrcB) : List (Instr × (Ty → Bool) × (Ty → RMode → Nat → Nat → Nat → Nat × Flags)) :=
  [(.vadd d a b, numTy, arith .add .add), (.vsub d a b, numTy, arith .sub .sub), (.vmul d a b, numTy, arith .mul .mul),
    (.vfma d a b, numTy, arith .fma .fma), (.vfnma d a b, numTy, arith .fnma .fnma), (.vmin d a b, numTy, arith .min .min),
    (.vmax d a b, numTy, arith .max .max), (.vdiv d a b, numTy, arith .div .div), (.vmulhi d a b, Ty.isInt, intBin .mulhi),
    (.vrem d a b, Ty.isInt, intBin .rem), (.vand d a b, Ty.isInt, intBin .and), (.vor d a b, Ty.isInt, intBin .or),
    (.vxor d a b, Ty.isInt, intBin .xor), (.vshl d a b, Ty.isInt, intBin .shl), (.vshr d a b, Ty.isInt, intBin .shr),
    (.vsra d a b, Ty.isInt, intBin .sra), (.vbfe d a b, Ty.isInt, intBin .bfe), (.vbfi d a b, Ty.isInt, intBin .bfi)]

/-- The unary instructions and `vaddi`, likewise (R310, R312, R313). -/
abbrev unaryOps (d a : Reg) (imm : BitVec 9) : List (Instr × (Ty → Bool) × (Ty → RMode → Nat → Nat × Flags)) :=
  let signed := fun (t : Ty) => t.isFloat || (t.isInt && t.signed)
  let narrow := fun (t : Ty) => t = .f16 || t = .f32
  [(.vabs d a, signed, arithUn .abs .abs), (.vneg d a, signed, arithUn .neg .neg), (.vnot d a, Ty.isInt, intUn .not),
    (.vpopc d a, Ty.isInt, intUn .popc), (.vclz d a, Ty.isInt, intUn .clz), (.vctz d a, Ty.isInt, intUn .ctz),
    (.vbrev d a, Ty.isInt, intUn .brev), (.vrcp d a, Ty.isFloat, floatUn .rcp), (.vrsq d a, Ty.isFloat, floatUn .rsq),
    (.vsqrt d a, Ty.isFloat, floatUn .sqrt), (.vrnd d a, Ty.isFloat, floatUn .rnd), (.vfrc d a, Ty.isFloat, floatUn .frc),
    (.vexp2 d a, narrow, transUn .exp2), (.vlog2 d a, narrow, transUn .log2), (.vsin d a, narrow, transUn .sin),
    (.vcos d a, narrow, transUn .cos), (.vtanh d a, narrow, transUn .tanh), (.vaddi d a imm, numTy, addImm imm.toInt)]

/-- An operation that an instruction issues: its warp is w' afterwards, the operation stands under the next number with a kind, mask,
lookahead and requests, and no byte of memory, no workgroup, no other warp and no other operation has changed. -/
def IssuesOp (i : Instr) (s : State) (w' : Warp) (kind : OpKind) (mask : Word) (la : Nat) (ok : List Req → Prop) : Prop :=
  ∃ t o, exec i s = .next t ∧ t.warp? s.curKey = some w' ∧ t.ops.find? s.nextOp = some o ∧ o.kind = kind ∧
    o.owner = .warp s.curKey s.curSide ∧ o.mask = mask ∧ o.la = la ∧ ok o.reqs ∧ (∀ a, t.byte a = s.byte a) ∧ t.wgs = s.wgs ∧
    (∀ k, k ≠ s.curKey → t.warp? k = s.warp? k) ∧ ∀ n, n ≠ s.nextOp → t.ops.find? n = s.ops.find? n

/-- The requests of accesses, each with its lane, address, size and data, that were combined by a part of the address: every access is
in the request of its part at its offset, there is nothing else, and no two requests have one part (R140, R328). -/
structure Combined (part : DWord → DWord) (off : DWord → Nat) (reqs : List Req) (xs : List (Nat × DWord × Nat × List Byte)) : Prop where
  sent : ∀ x ∈ xs, ∃ r ∈ reqs, r.va = part x.2.1 ∧ ⟨x.1, off x.2.1, x.2.2.1, x.2.2.2, none⟩ ∈ r.pieces
  only : ∀ r ∈ reqs, ∀ p ∈ r.pieces, ∃ x ∈ xs, r.va = part x.2.1 ∧ p = ⟨x.1, off x.2.1, x.2.2.1, x.2.2.2, none⟩
  once : (reqs.map (·.va)).Nodup
  new : ∀ r ∈ reqs, r.xl = none ∧ r.stage = .core ∧ r.code = 0

/-- Combined by lines of 128 bytes. -/
abbrev ByLine (reqs : List Req) (xs : List (Nat × DWord × Nat × List Byte)) : Prop :=
  Combined (fun a => BitVec.ofNat 64 (a.toNat / 128 * 128)) (fun a => a.toNat % 128) reqs xs

/-- The participating lanes, lowest first. -/
def State.partLanes (s : State) (w : Warp) : List Nat := (List.range 32).filter fun l => (s.part w).getLsbD l

/-- The first n bytes of the registers from t of a lane, low byte first (R330). -/
def bytesFrom (w : Warp) (t l n : Nat) : List Byte :=
  (List.range n).map fun j => BitVec.ofNat 8 ((w.vreg (t + j / 4) l).toNat / 2 ^ (8 * (j % 4)))

/-- An address operand that the checks of R248 and R249 accept: a V pair, or one V register for the scratchpad forms. -/
def State.roomForAddr (s : State) (w : Warp) (scratch : Bool) : AddrOp → Prop
  | .lane r => s.roomFor w (!scratch) r
  | .uni _ => True

/-- A memory instruction of lanes: its operation, whether its addresses are of the scratchpad window, the size of an access, its
registers from t, and the bytes it sends (R333, R337). -/
structure LaneAccess where
  instr : Instr
  kind : OpKind
  scratch : Bool
  size : Nat
  regs : Nat
  sends : Nat

/-- The memory instructions of lanes. -/
abbrev laneAccesses (m : MemWidth) (sx : Bool) (op : AtomOp) (t : Reg) (a : AddrOp) (la : Look) : List LaneAccess :=
  [⟨.ld m sx t a la, .load m sx t.toNat, false, m.bytes, (m.bytes + 3) / 4, 0⟩,
    ⟨.lds m sx t a la, .load m sx t.toNat, true, m.bytes, (m.bytes + 3) / 4, 0⟩,
    ⟨.st m t a la, .store, false, m.bytes, (m.bytes + 3) / 4, m.bytes⟩,
    ⟨.sts m t a la, .store, true, m.bytes, (m.bytes + 3) / 4, m.bytes⟩,
    ⟨.atom op t a la, .atomic op t.toNat true, false, op.bytes, op.regs, 4 * op.regs⟩,
    ⟨.atoms op t a la, .atomic op t.toNat true, true, op.bytes, op.regs, 4 * op.regs⟩,
    ⟨.red op t a la, .atomic op t.toNat false, false, op.bytes, op.regs, 4 * op.regs⟩]

/-- The counter instructions with their operation. -/
abbrev counterOps (f : CtrField) (t : Reg) (a : AddrOp) : List (Instr × CtrKind) :=
  [(.cadd f t a, .add), (.craise f t a, .raise), (.cinit f t a, .init), (.cread f t a, .read), (.ctest f t a, .test), (.cwait f t a, .wait)]

/-- The tests of R329 pass at an address: it is a multiple of the size, and an access in the window ends within the scratchpad. -/
def addressFits (size scrSize : Nat) (a : DWord) : Prop := a.toNat % size = 0 ∧ (inWindow a = true → windowOff a + size ≤ scrSize)

/-- The command that stands next in a partition's ring on a die: none is in progress, the ring is read, and the checks
pass (R37, R39), no soft error standing and its unit not between two polls (R122). -/
structure State.NextCommand (s : State) (die part : Nat) (c : Cmd) : Prop where
  idle : (s.dtu die).commands.find? part = none
  served : s.outOfService part = false
  watched : s.polls.any (fun p => p.who = .ring die part) = false
  readable : s.errors = []
  passes : s.cmdStatus die part c = 0
  slot : ∃ base slots produced consumed, s.commandRing die part = some (base, slots, produced, consumed) ∧
    s.mem.readNat consumed 8 < s.mem.readNat produced 8 ∧
    c = Cmd.ofBytes (s.mem.readBytes (base + 32 * (s.mem.readNat consumed 8 % slots)) 32)

/-- A packet that a source keeps until it is acknowledged: it has been sent (R168). -/
def State.Keeps (s : State) (ok : Packet → Prop) : Prop := ∃ f ∈ s.fabric.srcFlows, ∃ u ∈ f.unacked, ok u.packet

/-- A packet that a source has sent, or that waits there until it may be sent (R166, R182). -/
def State.Sends (s : State) (ok : Packet → Prop) : Prop := s.Keeps ok ∨ ∃ p ∈ s.fabric.held, ok p

/-- A packet that its endpoint takes next, in order on a flow it knows, with nothing before it (R168). -/
structure State.Arrives (s : State) (e : Endpoint) (p : Packet) : Prop where
  head : ∃ rest, s.inbox e = p :: rest
  whole : p.trimmed = false
  inOrder : ∃ f, (s.flowsAt e).find? (fun f => f.src = p.src && f.id = p.flow) = some f ∧ p.seq = f.expected ∧ f.expected < 2 ^ 16

/-- The issue mark of a slot, as a quadrant keeps it (R216): present exactly when the slot is ready. -/
def MarksReady (s : State) : Prop :=
  ∀ q x, (q, x) ∈ s.quads → ∀ sl sd, sl ∈ x.field.map (·.slot) ++ x.bench →
    ((Map.find? x.ready (2 * sl + State.sideNo sd)).isSome ↔ s.slotReady (State.keyIn q sl) sd = true)

end Sys2Proof.Machine
end

