-- ==== Sys2Proof/Certificates/Slice0/Obligations.lean ====
section
/-!
DEFINITION. The statements for the provers. Each names the rules of spec/ it rests on; one that rests on a choice of this model says so
and names the log entry (notes/assumptions/).
-/

open Sys2Proof Sys2Proof.Machine

/-! Encoding. -/

/-- Every well-formed instruction is read back from its word, with every operand (R245 to R265). -/
def Obligations.DecodeReadsEncode : Prop :=
  ∀ i : Instr, i.encoded = true → i.WellFormed → decodeWord (encode i) = .ok i

/-- A word that decodes is the word of its instruction, which is well formed: no bit of a word is dropped, so that no two words are one
instruction (R246, R265). -/
def Obligations.EncodeReadsDecode : Prop :=
  ∀ (w : Word) (i : Instr), decodeWord w = .ok i → i.encoded = true ∧ i.WellFormed ∧ encode i = w

/-- Words that the spec writes out decode to the instructions they stand for (R266 and the listings of spec/11, spec/12, spec/13,
spec/15). -/
def Obligations.SpecWordsDecode : Prop :=
  decodeWord 0x60180650 = .ok (.vadd 12 3 (.v 40)) ∧
  decodeWord 0x60180613 = .ok (.vadd 12 3 (.s 9)) ∧
  decodeWord 0x6A282A0B = .ok (.vfma 20 21 (.s 5)) ∧
  decodeWord 0x84820650 = .ok (.vcmp .lt .set 1 3 (.v 40)) ∧
  decodeWord 0x920A0C12 = .ok (.vsqrt 5 6) ∧
  decodeWord 0xC0160852 = .ok (.ld .w false 11 (.uni 4) 2) ∧
  decodeWord 0xD41015F1 = .ok (.cadd ⟨.sq, false, 15⟩ 8 (.uni 10)) ∧
  decodeWord 0x5600079A = .ok (.mode 0 0x079A) ∧
  decodeWord 0x03FFFFFD = .ok (.bra 0x1FFFFFD) ∧
  decodeWord 0x10000000 = .ok .exit ∧
  decodeWord 0x5620074A = .ok (.mode 0x10 0x074A) ∧
  decodeWord 0x16280101 = .ok (.svc 20 0x101) ∧
  decodeWord 0x1E1019E0 = .ok (.post 8 12 15) ∧
  decodeWord 0xC40A1269 = .ok (.lds .h true 5 (.lane 9) 3) ∧
  decodeWord 0xCE0615E2 = .ok (.red .fadd32 3 (.lane 10) 15)

/-- A word with a reserved major opcode, and a word of opcode 0x00 with another bit set, is no instruction (R265, R290). -/
def Obligations.ReservedWordsRejected : Prop :=
  (∀ w : Word, w.toNat / 2 ^ 25 ∈ [0x27, 0x2F, 0x5A, 0x5B, 0x5C, 0x5D, 0x5E, 0x5F, 0x73, 0x7A, 0x7B, 0x7C, 0x7D, 0x7E, 0x7F] →
    decodeWord w = .error .reservedOpcode) ∧
  ∀ w : Word, w.toNat / 2 ^ 25 = 0 → w ≠ 0 → decodeWord w = .error .reservedBits

/-! The step. -/

/-- No instruction, no step of the device and no turn ends the machine: each answers a next state (derived from R266 and R390; every
failed check has its trap, park, freeze or status). -/
def Obligations.MachineNeverStops : Prop :=
  (∀ (i : Instr) (s : State), ∃ t, exec i s = .next t) ∧
  (∀ s : State, ∃ t, step s = .next t)

/-- A slot that its quadrant chooses runs, on its turn, the instruction that the word at its program counter decodes to. The instruction
starts in the state that names its slot, after every outstanding result of the warp has counted one instruction less; when it has run, its
quadrant's issue and the register units it covers are noted, and what follows a turn by itself follows (R243, R216, R217). A word that is no
instruction runs as ILLEGAL_INSTRUCTION of that word. That the word of a frame that is no peer's is the one that memory holds at the moment of
issue is the model's choice (log 5), and so are the order of turns and the instruction cache's lines (logs 2, 71). -/
def Obligations.StepRunsDecodedInstruction : Prop :=
  ∀ (s : State) (k : Nat) (sd : Side) (rest : List Turn) (w : Warp) (g : Workgroup) (e : TlbEntry) (v : Word) (i : Instr),
    s.powered = true → s.agenda = .issue k sd :: rest → s.chosen k sd = true → s.warp? k = some w → s.wg? w.wg = some g →
    g.phase = .running → (w.slot sd).live = true → (w.slot sd).hold = .none → (w.slot sd).waiting = false → s.inField k = true →
    State.needsStage w g.card = false → (w.slot sd).pc.toNat % 4 = 0 → inWindow (w.slot sd).pc = false →
    (s.tlbOf (State.coreOf k)).find? (fun t => t.hits g.world (w.slot sd).pc) = some e →
    canonical (w.slot sd).pc = true → attrBit e.attr 6 = true →
    let x := s.xlate e (w.slot sd).pc
    let a := memKey x.ap x.pa
    (x.ap = 4 → s.fetched.find? (State.fetchKey k sd (w.slot sd).pc) = some v) →
    (x.ap ≠ 4 → s.mayFetchLine k a = true ∧ v = BitVec.ofNat 32 (s.mem.readNat a 4)) →
    s.errors = [] →
    (decodeWord v = .ok i ∨ (∃ r, decodeWord v = .error r) ∧ i = .illegalInstruction v) →
    s.instrReady k sd w i = true →
    ∃ u t, State.takeWord { s with agenda := rest } k sd g.world (w.slot sd).pc = .ok u ∧
      u.mem = s.mem ∧ u.warps = s.warps ∧ u.wgs = s.wgs ∧ u.ops = s.ops ∧
      exec i ((u.beginIssue k sd).countDown k) = .next t ∧ let ok := u.tookEffect t k
      step s = .next (t.endIssue k sd (ok && isMatrix i) (if ok then State.coverUnitsOf k w sd i else [])).keep

/-! Registers. -/

/-- Registers read what was written; S0 reads zero and P7 true, and both ignore writes (R247). -/
def Obligations.RegistersReadWhatWasWritten : Prop :=
  ∀ w : Warp,
    (∀ (r : Nat) (x : Word), (w.setS r x).sreg r = (if r = 0 then 0 else x) ∧ ∀ r', r' ≠ r → (w.setS r x).sreg r' = w.sreg r') ∧
    (∀ (p : PReg) (x : Word), (w.setP p x).preg p = (if p = 7 then 0xFFFFFFFF else x) ∧ ∀ q, q ≠ p → (w.setP p x).preg q = w.preg q) ∧
    (∀ (r l : Nat) (x : Word), l < 32 → (w.setV r l x).vreg r l = x ∧
      ∀ r' l', l' < 32 → (r', l') ≠ (r, l) → (w.setV r l x).vreg r' l' = w.vreg r' l')

/-! Uniform instructions. -/

/-- The 32-bit uniform operations complete with the results of R293 in S[d]; a write to S0 is ignored. -/
def Obligations.UniformResults : Prop :=
  ∀ (s : State) (w : Warp) (d a b : Reg), s.runs w →
    let x := w.sreg a.toNat
    let y := w.sreg b.toNat
    let sh := y.toNat
    let r := fun (v : Word) => w.setS d.toNat v
    Completes (.sadd d a b) s (r (BitVec.ofNat 32 (x.toNat + y.toNat))) ∧
    Completes (.ssub d a b) s (r (BitVec.ofInt 32 ((x.toNat : Int) - y.toNat))) ∧
    Completes (.smul d a b) s (r (BitVec.ofNat 32 (x.toNat * y.toNat))) ∧
    Completes (.smulhi d a b) s (r (BitVec.ofInt 32 (x.toInt * y.toInt / 2 ^ 32))) ∧
    Completes (.smulhn d a b) s (r (BitVec.ofNat 32 (x.toNat * y.toNat / 2 ^ 32))) ∧
    Completes (.sand d a b) s (r (x &&& y)) ∧
    Completes (.sor d a b) s (r (x ||| y)) ∧
    Completes (.sxor d a b) s (r (x ^^^ y)) ∧
    Completes (.sshl d a b) s (r (if sh < 32 then BitVec.ofNat 32 (x.toNat * 2 ^ sh) else 0)) ∧
    Completes (.sshr d a b) s (r (if sh < 32 then BitVec.ofNat 32 (x.toNat / 2 ^ sh) else 0)) ∧
    Completes (.ssra d a b) s (r (BitVec.ofInt 32 (x.toInt / 2 ^ Nat.min sh 31))) ∧
    Completes (.smin d a b) s (r (if x.toInt < y.toInt then x else y)) ∧
    Completes (.smax d a b) s (r (if x.toInt < y.toInt then y else x)) ∧
    Completes (.sslt d a b) s (r (if x.toInt < y.toInt then 1 else 0)) ∧
    Completes (.ssltn d a b) s (r (if x.toNat < y.toNat then 1 else 0)) ∧
    Completes (.sseq d a b) s (r (if x = y then 1 else 0))

/-- The pair, immediate and move forms complete with the results of R294, and `srdl` with that of R295: the named lane, active or not, of
a register within the allocation; beyond it, ILLEGAL. -/
def Obligations.UniformPairsAndMoves : Prop :=
  ∀ (s : State) (w : Warp) (d a b : Reg) (i9 : BitVec 9) (i17 : BitVec 17) (i16 : BitVec 16) (lane : BitVec 5), s.runs w →
    let pair : Reg → Nat := fun r => (w.sreg (r.toNat + 1)).toNat * 2 ^ 32 + (w.sreg r.toNat).toNat
    let put := fun (v : Int) => (w.setS d.toNat (BitVec.ofInt 32 (v % 2 ^ 32))).setS (d.toNat + 1) (BitVec.ofInt 32 (v / 2 ^ 32))
    Completes (.sadd64 d a b) s (put (((pair a : Int) + pair b) % 2 ^ 64)) ∧
    Completes (.ssub64 d a b) s (put (((pair a : Int) - pair b) % 2 ^ 64)) ∧
    Completes (.saddi d a i9) s (w.setS d.toNat (BitVec.ofInt 32 (((w.sreg a.toNat).toNat : Int) + i9.toInt))) ∧
    Completes (.smovi d i17) s (w.setS d.toNat (BitVec.ofInt 32 i17.toInt)) ∧
    Completes (.smovhi d i16) s (w.setS d.toNat (BitVec.ofNat 32 (i16.toNat * 2 ^ 16 + (w.sreg d.toNat).toNat % 2 ^ 16))) ∧
    Completes (.smov d a) s (w.setS d.toNat (w.sreg a.toNat)) ∧
    (if a.toNat < (s.cardOf w).regs then Completes (.srdl d a lane) s (w.setS d.toNat (w.vreg a.toNat lane.toNat))
     else Traps (.srdl d a lane) s ⟨.illegal, encode (.srdl d a lane)⟩)

/-- A uniform instruction, `mfmode`, `pmovs` to S and `vvote` change their S register or pair and the program counter of their slot, and
nothing else: no other register, no predicate, no bit of MODE, no special register, no byte of memory. Likewise `mfs`, but for CLKLO,
changes its S register, `mfv` V[d] in the active lanes, `mode` and `modes` MODE[15:0] and the flags `mode` clears, `clrflg` the flags it
clears, `modes.all` MODE (R280, R292, R296 to R302). -/
def Obligations.ScalarFrame : Prop :=
  (∀ (s : State) (w : Warp) (d a b : Reg) (i9 : BitVec 9) (i17 : BitVec 17) (i16 : BitVec 16) (lane : BitVec 5) (p : PReg) (v : VoteOp)
     (neg : Bool) (i : Instr), s.runs w →
     (i ∈ [.sadd d a b, .ssub d a b, .smul d a b, .smulhi d a b, .smulhn d a b, .sand d a b, .sor d a b, .sxor d a b, .sshl d a b,
         .sshr d a b, .ssra d a b, .smin d a b, .smax d a b, .sslt d a b, .ssltn d a b, .sseq d a b, .saddi d a i9, .smovi d i17,
         .smovhi d i16, .smov d a, .srdl d a lane, .mfmode d, .pmovsS d p, .vvote v neg d p] →
       Framed i s w (fun _ _ => False) (fun r => r = d.toNat) (fun _ => False) 0xFFFFFFFF) ∧
     (i ∈ [.sadd64 d a b, .ssub64 d a b] →
       Framed i s w (fun _ _ => False) (fun r => r = d.toNat ∨ r = d.toNat + 1) (fun _ => False) 0xFFFFFFFF)) ∧
  (∀ (s : State) (w : Warp) (d a : Reg) (n : BitVec 9) (clear mask : BitVec 7) (value : BitVec 16), s.runs w →
     (n ≠ 0x0C → Framed (.mfs d n) s w (fun _ _ => False) (fun r => r = d.toNat) (fun _ => False) 0xFFFFFFFF) ∧
     Framed (.mfv d n) s w (inLanes d.toNat 1 (s.active w)) (fun _ => False) (fun _ => False) 0xFFFFFFFF ∧
     Framed (.mode clear value) s w (fun _ _ => False) (fun _ => False) (fun _ => False)
       (0xFFFF0000 &&& ~~~((clear.setWidth 32) <<< 24)) ∧
     Framed (.modes a) s w (fun _ _ => False) (fun _ => False) (fun _ => False) 0xFFFF0000 ∧
     Framed (.modesAll a) s w (fun _ _ => False) (fun _ => False) (fun _ => False) 0 ∧
     Framed (.clrflg mask) s w (fun _ _ => False) (fun _ => False) (fun _ => False) (~~~((mask.setWidth 32) <<< 24)))

/-! Special registers and MODE. -/

/-- `mfs` completes with the special registers of R255; CLKLO also captures bits [63:32] of the count in CLKHI; other numbers raise
ILLEGAL (R296, R256). `mfv` completes and writes every lane active in the issuing slot, whatever the guard, with LANE, GLANE or
ACTIVEMASK; lanes outside the slot keep V[d] (R298, R194). -/
def Obligations.SpecialRegisterReads : Prop :=
  (∀ (s : State) (w : Warp) (g : Workgroup) (t : Task) (d : Reg), s.runs w → s.wg? w.wg = some g → s.tasks.find? g.task = some t →
     let reads := fun (n : Nat) (v : Nat) => Completes (.mfs d (BitVec.ofNat 9 n)) s (w.setS d.toNat (BitVec.ofNat 32 v))
     let core := s.curKey / 64
     let clk := s.wall / 720720
     reads 0x01 w.number ∧ reads 0x02 g.x ∧ reads 0x03 g.y ∧ reads 0x04 g.z ∧ reads 0x05 g.stage ∧ reads 0x06 g.card.nx ∧
     reads 0x07 g.card.ny ∧ reads 0x08 g.card.nz ∧ reads 0x09 g.card.warps ∧ reads 0x0A core ∧ reads 0x0B (core / 128) ∧
     Completes (.mfs d 0x0C) s ({ w with clkhi := BitVec.ofNat 32 (clk / 2 ^ 32) }.setS d.toNat (BitVec.ofNat 32 clk)) ∧
     reads 0x0D w.clkhi.toNat ∧ reads 0x0E (g.card.args.toNat % 2 ^ 32) ∧ reads 0x0F (g.card.args.toNat / 2 ^ 32) ∧
     reads 0x10 g.card.scrSize ∧ reads 0x11 w.cstat ∧ reads 0x12 (w.trapPc.toNat % 2 ^ 32) ∧ reads 0x13 (w.trapPc.toNat / 2 ^ 32) ∧
     reads 0x14 w.trapCode.toNat ∧ reads 0x15 w.trapInfo.toNat ∧ reads 0x16 (w.modq.toNat % 2 ^ 32) ∧ reads 0x17 (w.modq.toNat / 2 ^ 32) ∧
     reads 0x18 t.id ∧
     ∀ n : BitVec 9, n = 0 ∨ 0x19 ≤ n.toNat → Traps (.mfs d n) s ⟨.illegal, encode (.mfs d n)⟩) ∧
  (∀ (s : State) (w : Warp) (g : Workgroup) (d : Reg), s.runs w → s.wg? w.wg = some g → d.toNat < g.card.regs →
     ∀ n : BitVec 9, n.toNat < 3 → ∃ w', Completes (.mfv d n) s w' ∧ ∀ l, l < 32 →
       w'.vreg d.toNat l =
         if (s.active w).getLsbD l then
           (if n = 0 then BitVec.ofNat 32 l
            else if n = 1 then BitVec.ofNat 32 ((g.linear * g.card.warps + w.number) * 32 + l)
            else s.active w)
         else w.vreg d.toNat l)

/-- `mts` completes and writes the six registers it may write, the other half of a pair unchanged; other numbers raise ILLEGAL (R297,
R256). `mode`, `modes`, `modes.all`, `mfmode` and `clrflg` complete with MODE, or the register, as R299 to R302 say; bits [23:16] and 31
of a source are ignored. -/
def Obligations.SpecialRegisterWrites : Prop :=
  (∀ (s : State) (w : Warp) (a : Reg), s.runs w →
     let x := w.sreg a.toNat
     Completes (.mts a 0x12) s { w with trapPc := BitVec.ofNat 64 (w.trapPc.toNat / 2 ^ 32 * 2 ^ 32 + x.toNat) } ∧
     Completes (.mts a 0x13) s { w with trapPc := BitVec.ofNat 64 (x.toNat * 2 ^ 32 + w.trapPc.toNat % 2 ^ 32) } ∧
     Completes (.mts a 0x14) s { w with trapCode := x } ∧
     Completes (.mts a 0x15) s { w with trapInfo := x } ∧
     Completes (.mts a 0x16) s { w with modq := BitVec.ofNat 64 (w.modq.toNat / 2 ^ 32 * 2 ^ 32 + x.toNat) } ∧
     Completes (.mts a 0x17) s { w with modq := BitVec.ofNat 64 (x.toNat * 2 ^ 32 + w.modq.toNat % 2 ^ 32) } ∧
     ∀ n : BitVec 9, ¬(0x12 ≤ n.toNat ∧ n.toNat ≤ 0x17) → Traps (.mts a n) s ⟨.illegal, encode (.mts a n)⟩) ∧
  (∀ (s : State) (w : Warp) (a d : Reg) (clear mask : BitVec 7) (value : BitVec 16), s.runs w →
     let flags := fun (c : BitVec 7) => (w.mode &&& ~~~((c.setWidth 32) <<< 24) : Word)
     Completes (.mode clear value) s { w with mode := (flags clear &&& 0xFFFF0000) ||| value.setWidth 32 } ∧
     Completes (.modes a) s { w with mode := (w.mode &&& 0xFFFF0000) ||| (w.sreg a.toNat &&& 0x0000FFFF) } ∧
     Completes (.modesAll a) s { w with mode := w.sreg a.toNat &&& 0x7F00FFFF } ∧
     Completes (.mfmode d) s (w.setS d.toNat w.mode) ∧
     Completes (.clrflg mask) s { w with mode := flags mask })

/-! Control. -/

/-- `bra`, `call`, `brz`, `brnz` and `jmpr` complete with their slot at the target of R282, mask and join as they were; a `jmpr` target
that is no multiple of 4 raises ALIGN. `nop` moves on. -/
def Obligations.UniformBranches : Prop :=
  ∀ (s : State) (w : Warp) (r a : Reg) (o25 : BitVec 25) (o17 : BitVec 17), s.runs w →
    let x := s.here w
    let go := fun (v : Warp) (pc : DWord) => v.setSlot s.curSide { x with pc := pc }
    let tgt := fun (off : Int) => x.pc + BitVec.ofInt 64 (4 * off)
    let next := x.pc + 4
    Controls (.bra o25) s (go w (tgt o25.toInt)) ∧
    Controls (.call o25) s (go ((w.setS 126 (BitVec.ofNat 32 next.toNat)).setS 127 (BitVec.ofNat 32 (next.toNat / 2 ^ 32))) (tgt o25.toInt)) ∧
    Controls (.brz r o17) s (go w (if w.sreg r.toNat = 0 then tgt o17.toInt else next)) ∧
    Controls (.brnz r o17) s (go w (if w.sreg r.toNat = 0 then next else tgt o17.toInt)) ∧
    (let t := (w.sreg (a.toNat + 1)).toNat * 2 ^ 32 + (w.sreg a.toNat).toNat
     if t % 4 = 0 then Controls (.jmpr a) s (go w (BitVec.ofNat 64 t)) else Traps (.jmpr a) s ⟨.align, BitVec.ofNat 32 t⟩) ∧
    Controls .nop s (go w next)

/-- `brv` divides the lanes of its slot by a predicate: with none on one side the slot moves whole; otherwise the lanes that branch go to
the sibling slot when it is empty, with the join of the slot. When it is not, they are stored on the spill stack at the depth, which rises
by 1; a task with no stack raises SPILLOVF with 0, a full one with 256, an entry that is not aligned, or in the window past SCRSIZE, ALIGN
or SCRBOUND with its address, and nothing else changes (R285, R193, R12, R329, R390). -/
def Obligations.BrvDividesLanes : Prop :=
  ∀ (s : State) (w : Warp) (g : Workgroup) (neg : Bool) (p : PReg) (off : BitVec 17), s.runs w → s.wg? w.wg = some g →
    let x := s.here w
    let y := w.slot s.curSide.other
    let taken := x.mask &&& (if neg then ~~~(w.preg p) else w.preg p)
    let others := x.mask &&& ~~~taken
    let tgt := x.pc + BitVec.ofInt 64 (4 * off.toInt)
    let stays := w.setSlot s.curSide { x with mask := others, pc := x.pc + 4 }
    let i := Instr.brv neg p off
    (taken = 0 → Controls i s (w.setSlot s.curSide { x with pc := x.pc + 4 })) ∧
    (taken ≠ 0 → others = 0 → Controls i s (w.setSlot s.curSide { x with pc := tgt })) ∧
    (taken ≠ 0 → others ≠ 0 → y.mask = 0 → y.hold = .none →
      Controls i s (stays.setSlot s.curSide.other ⟨tgt, taken, x.join, .none⟩)) ∧
    (taken ≠ 0 → others ≠ 0 → (y.mask ≠ 0 ∨ y.hold ≠ .none) →
      (g.card.spill = 0 → Traps i s ⟨.spillovf, 0⟩) ∧
      (g.card.spill ≠ 0 → w.depth = 256 → Traps i s ⟨.spillovf, 256⟩) ∧
      let at0 := BitVec.ofNat 64 (g.card.spill.toNat + ((g.stage * g.card.grid + g.linear) * g.card.warps + w.number) * 4096 + 16 * w.depth)
      (g.card.spill ≠ 0 → w.depth ≠ 256 → at0.toNat % 16 ≠ 0 → Traps i s ⟨.align, BitVec.ofNat 32 at0.toNat⟩) ∧
      (g.card.spill ≠ 0 → w.depth ≠ 256 → at0.toNat % 16 = 0 → inWindow at0 = true → g.card.scrSize < windowOff at0 + 16 →
        Traps i s ⟨.scrbound, BitVec.ofNat 32 at0.toNat⟩) ∧
      (g.card.spill ≠ 0 → w.depth ≠ 256 → addressFits 16 g.card.scrSize at0 → ∃ t o, exec i s = .next t ∧
        t.warp? s.curKey = some { stays with depth := w.depth + 1, top := none, topReq := none } ∧
        t.ops.find? s.nextOp = some o ∧ o.kind = .push ∧ (∀ a, t.byte a = s.byte a) ∧
        o.reqs.map (·.va) = [at0 &&& ~~~127] ∧
        o.reqs.map (fun r => r.pieces.map fun q => (q.off, q.size, q.data)) = [[(at0.toNat % 128, 16,
          leBytes 8 tgt.toNat ++ leBytes 4 taken.toNat ++ leBytes 4 (match x.join with
            | some j => (j.toNat + 2 ^ 64 - tgt.toNat) % 2 ^ 32
            | none => 0))]]))

/-- `rcv` completes with its slot's join at pc + 4 × off, or none for an offset of 0, and the slot at pc + 4 (R284). `exit` holds its
slot; when the warp has nothing parked or held and the slot nothing outstanding, the slot empties (R289). The rows of R287: with an empty
stack, slots that wait at one join merge, at different joins both go on, and one whose sibling is empty or held by a `cwait` or a `nap`
goes on, one whose sibling runs keeps waiting; with a top entry that has been read, the entry that waits at the slot's join is taken in,
two slots at different joins change the away path for an entry that does not wait, and both go on over one that waits elsewhere (R287,
R288). The model's choices are that the stack counts as empty at the depth at which the handler began, that a target or an entry with join
offset 0 has no join, and that the top entry is read once for each situation (log 30). -/
def Obligations.LanesEndAndMeet : Prop :=
  (∀ (s : State) (w : Warp) (off : BitVec 25), s.runs w →
     let x := s.here w
     Controls (.rcv off) s (w.setSlot s.curSide
       { x with join := if off = 0 then none else some (x.pc + BitVec.ofInt 64 (4 * off.toInt)), pc := x.pc + 4 })) ∧
  ((∀ (s : State) (w : Warp), s.runs w → Controls .exit s (w.setSlot s.curSide { s.here w with hold := .exit })) ∧
   ∀ (s : State) (k : Nat) (w : Warp) (sd : Side), (w.slot sd).hold = .exit → (w.slot sd.other).hold ≠ .exit → s.exitReady k sd = true →
     s.settleOne k w = some (s.onWarp k fun w => w.setSlot sd Slot.empty)) ∧
  (∀ (s : State) (k : Nat) (w : Warp) (j j' : DWord), w.depth = w.baseDepth →
     (s.standing k w .home = .waits j → s.standing k w .away = .waits j →
       s.resolveJoin k w = some (s.setWarp k { w with
         home := { w.home with mask := w.home.mask ||| w.away.mask, join := none }, away := Slot.empty })) ∧
     (s.standing k w .home = .waits j → s.standing k w .away = .waits j' → j ≠ j' →
       s.resolveJoin k w = some (s.setWarp k { w with home := { w.home with join := none }, away := { w.away with join := none } })) ∧
     ∀ sd : Side, s.standing k w sd = .waits j →
       (s.standing k w sd.other = .empty ∨ s.standing k w sd.other = .held →
         s.resolveJoin k w = some (s.onWarp k fun v => v.setSlot sd { w.slot sd with join := none })) ∧
       (s.standing k w sd.other = .runs ∨ s.standing k w sd.other = .refills → s.resolveJoin k w = none)) ∧
  (∀ (s : State) (k : Nat) (w : Warp) (e : SpillEntry) (j j' : DWord), w.baseDepth < w.depth → w.top = some e →
     (∀ sd : Side, s.standing k w sd = .waits j → s.standing k w sd.other ≠ .waits j → e.pc = j ||| 1 → j.getLsbD 0 = false →
       s.resolveJoin k w = some (s.setWarp k { w.setSlot sd { w.slot sd with join := none, mask := (w.slot sd).mask ||| e.mask } with
         depth := w.depth - 1, top := none })) ∧
     (s.standing k w .home = .waits j → s.standing k w .away = .waits j' → j ≠ j' → e.pc.getLsbD 0 = false →
       ∃ t o, s.resolveJoin k w = some t ∧ t.ops.find? s.nextOp = some o ∧ o.kind = .push ∧
         o.reqs.map (fun r => r.pieces.map (·.data)) = [[leBytes 8 (w.away.pc ||| 1).toNat ++ leBytes 4 w.away.mask.toNat ++ leBytes 4 0]] ∧
         (s.warp? k = some w → t.warp? k = some { w with
           away := ⟨e.pc, e.mask, if e.joinOff = 0 then none else some (e.pc + e.joinOff.signExtend 64), .none⟩, top := none })) ∧
     (s.standing k w .home = .waits j → s.standing k w .away = .waits j' → j ≠ j' → e.pc.getLsbD 0 = true → e.pc - 1 ≠ j → e.pc - 1 ≠ j' →
       s.resolveJoin k w = some (s.setWarp k { w with home := { w.home with join := none }, away := { w.away with join := none } })))

/-- The control instructions that raise no trap change their slot and, for `call`, S126 and S127; a `brv` may change its sibling slot and
the depth. Every other register, MODE, every special register and every byte of memory stays (R280). -/
def Obligations.ControlFrame : Prop :=
  ∀ (s : State) (w : Warp) (r a : Reg) (o25 : BitVec 25) (o17 : BitVec 17) (neg : Bool) (p : PReg) (i : Instr), s.runs w →
    i ∈ [.bra o25, .call o25, .brz r o17, .brnz r o17, .jmpr a, .rcv o25, .brv neg p o17, .exit, .nap a, .yield, .nop] →
    (∃ e, Traps i s e) ∨ ∃ t w', exec i s = .next t ∧ (∀ b, t.byte b = s.byte b) ∧ (∀ k, k ≠ s.curKey → t.warp? k = s.warp? k) ∧
      t.warp? s.curKey = some w' ∧ w'.v = w.v ∧ w'.p = w.p ∧ w'.mode = w.mode ∧
      (∀ n, n < 126 ∨ (∀ o, i ≠ .call o) → w'.sreg n = w.sreg n) ∧
      w'.trapPc = w.trapPc ∧ w'.trapCode = w.trapCode ∧ w'.trapInfo = w.trapInfo ∧ w'.frame = w.frame ∧ w'.modq = w.modq ∧
      w'.cstat = w.cstat ∧ w'.clkhi = w.clkhi ∧
      ((∀ n q o, i ≠ .brv n q o) → w'.slot s.curSide.other = w.slot s.curSide.other ∧ w'.depth = w.depth)

/-! Traps. -/

/-- What a precise trap leaves (R391): the address, code and detail in TRAPPC, TRAPCODE and TRAPINFO; both slots, the depth and the
trapping slot in the frame; the home slot at the handler with the lanes of both slots and no join, the away slot empty; every register,
MODE, CSTAT and MODQ as they were. A trap in a warp with no handler, or inside its handler, ends the workgroup: the phase that issues
nothing, with status TRAP and the code of that trap (R376, R392). A handler address that is no multiple of 4 ends it with ALIGN (R391).
That a warp which traps before its first instruction counts as entered, and does not read its stage table in the handler, is the model's choice
(log 80). -/
def Obligations.TrapsEnterOrEnd : Prop :=
  (∀ (s : State) (k : Nat) (w : Warp) (g : Workgroup) (sd : Side) (e : Trap), s.warp? k = some w → s.wg? w.wg = some g →
     g.card.handler ≠ 0 → g.card.handler.toNat % 4 = 0 → w.frame = none →
     trapEntry s k sd e = s.setWarp k { w with
       trapPc := (w.slot sd).pc, trapCode := BitVec.ofNat 32 e.code.code, trapInfo := e.info
       frame := some ⟨w.home, w.away, w.depth, sd⟩, home := ⟨g.card.handler, w.home.mask ||| w.away.mask, none, .none⟩, away := Slot.empty
       top := none, topReq := none, resolved := 0, entered := true }) ∧
  (∀ (s : State) (k : Nat) (w : Warp) (g : Workgroup) (sd : Side) (e : Trap), s.warp? k = some w → s.wg? w.wg = some g →
     g.phase ≠ .stopping →
     let r := { w with trapPc := (w.slot sd).pc, trapCode := BitVec.ofNat 32 e.code.code, trapInfo := e.info }
     (g.card.handler = 0 ∨ w.frame ≠ none →
       trapEntry s k sd e = (s.setWarp k r).setWg w.wg { g with phase := .stopping, status := .trap e.code.code }) ∧
     (g.card.handler ≠ 0 → w.frame = none → g.card.handler.toNat % 4 ≠ 0 →
       trapEntry s k sd e = (s.setWarp k { r with trapCode := 6, trapInfo := BitVec.ofNat 32 g.card.handler.toNat }).setWg w.wg
         { g with phase := .stopping, status := .trap 6 }))

/-- `trap`, `bkpt` and a word that is no instruction raise their traps, with the immediate or the word as the detail; the codes are those
of R390 (R375, R390, R265). -/
def Obligations.TrapInstructions : Prop :=
  (∀ (s : State) (w : Warp) (imm : BitVec 17) (v : Word), s.runs w →
     Traps (.trap imm) s ⟨.trap, BitVec.ofNat 32 imm.toNat⟩ ∧ Traps (.bkpt imm) s ⟨.bkpt, BitVec.ofNat 32 imm.toNat⟩ ∧
     Traps (.illegalInstruction v) s ⟨.illegal, v⟩) ∧
  ([TrapCode.illegal, .illtype, .fmtdiv, .colldiv, .pairing, .align, .spillovf, .scrbound, .bkpt, .trap].map TrapCode.code =
     [0x01, 0x02, 0x03, 0x04, 0x05, 0x06, 0x07, 0x08, 0x09, 0x0A] ∧ ∀ c : TrapCode, 0 < c.code ∧ c.code < 0x0B)

/-- `rtrap` in a handler brings back both slots and the depth as they stopped and sets the trapping slot to TRAPPC, after the instruction
for BKPT and TRAP; a target that is no multiple of 4 raises ALIGN, and outside a handler it raises ILLEGAL (R377). -/
def Obligations.RtrapReturns : Prop :=
  ∀ (s : State) (w : Warp), s.runs w →
    let r : DWord := if w.trapCode = 9 ∨ w.trapCode = 10 then w.trapPc + 4 else w.trapPc
    (w.frame = none → Traps .rtrap s ⟨.illegal, 0x14000000⟩) ∧
    ∀ f, w.frame = some f →
      (r.toNat % 4 ≠ 0 → Traps .rtrap s ⟨.align, BitVec.ofNat 32 r.toNat⟩) ∧
      (r.toNat % 4 = 0 → ∃ w', Controls .rtrap s w' ∧
        w'.slot f.trapped = { (match f.trapped with
          | .home => f.home
          | .away => f.away) with pc := r, hold := .none } ∧
        w'.slot f.trapped.other = (match f.trapped with
          | .home => f.away
          | .away => f.home) ∧
        w'.depth = f.depth ∧ w'.frame = none ∧ w'.v = w.v ∧ w'.s = w.s ∧ w'.p = w.p ∧ w'.mode = w.mode ∧ w'.cstat = w.cstat ∧
        w'.modq = w.modq)

/-! Stepping aside, service calls and posting. -/

/-- `nap` moves on and holds its slot until S[a] cycles have passed; a `nap` of 0 has no effect; NAP_END frees the slot once its cycles
have passed, and not before (R388). `yield` moves on; when a bench warp of the quadrant is ready, the one ready longest takes the field
place and the warp that yields goes to the bench, for 2 cycles, beside the changes under way (R389). SUBSTITUTION gives a free field place, or that of a blocked warp,
to the bench warp that has been ready longest, and FORCED_ENTRY that of the field warp that issued longest ago to one that has been ready
for 64 cycles; the change takes 2 cycles (R218). -/
def Obligations.SlotsStepAside : Prop :=
  ((∀ (s : State) (w : Warp) (a : Reg), s.runs w →
     let x := s.here w
     let n := (w.sreg a.toNat).toNat
     Controls (.nap a) s (w.setSlot s.curSide { x with pc := x.pc + 4, hold := if n = 0 then x.hold else .nap (s.clk + n) })) ∧
   ∀ (s : State) (w : Warp) (k till : Nat) (away : Bool), s.warp? k = some w →
     let sd := if away then Side.away else Side.home
     (w.slot sd).hold = .nap till →
     exec (.napEnd k away) s = .next (if till ≤ s.clk then s.setWarp k (w.setSlot sd { w.slot sd with hold := .none }) else s.setWarp k w)) ∧
  (∀ (s : State) (w : Warp), s.runs w →
     let s' := s.setWarp s.curKey (w.advance s.curSide)
     let q := s.curKey / 16
     (s'.benchReady q = none → exec .yield s = .next s') ∧
     ∀ b, s'.benchReady q = some b → ∃ t, exec .yield s = .next t ∧ t.warps = s'.warps ∧
       t.quad q = { s.quad q with
         field := ((s.quad q).field.filter fun f => f.slot ≠ s.curKey % 64) ++ [⟨b, s.clk, (s.quad q).issued.get 0 b⟩]
         bench := ((s.quad q).bench.filter (· ≠ b)) ++ [s.curKey % 64]
         swaps := (s.quad q).under s.clk ++ [(s.curKey % 64, s.clk + 2), (b, s.clk + 2)] } ∧
       t.reg (Reg.dispatcher (q / 512) 0x40) = Nat.min (s.reg (Reg.dispatcher (q / 512) 0x40) + 1) (2 ^ 64 - 1)) ∧
  (∀ (s : State) (q b : Nat), s.benchReady q = some b → (s.quad q).under s.clk = [] →
     let x := s.quad q
     let into : FieldPlace := ⟨b, s.clk, x.issued.get 0 b⟩
     let traded := fun (out : Nat) => { x with
       field := (x.field.filter fun f => f.slot ≠ out) ++ [into], bench := (x.bench.filter (· ≠ b)) ++ [out]
       swaps := [(out, s.clk + 2), (b, s.clk + 2)] }
     let becomes := fun (i : Instr) (y : Quad) => ∃ t, exec i s = .next t ∧ t.quad q = y ∧ t.warps = s.warps ∧ t.mem = s.mem
     (x.field.length < 8 → becomes (.substitution q) { x with
       field := x.field ++ [into], bench := x.bench.filter (· ≠ b), swaps := [(b, s.clk + 2)] }) ∧
     (∀ f, 8 ≤ x.field.length → x.field.find? (fun f => s.blocked (State.keyIn q f.slot)) = some f →
       becomes (.substitution q) (traded f.slot)) ∧
     ∀ f since, State.readySince x b = some since → since + 64 ≤ s.clk →
       oldest FieldPlace.issued (x.field.filter fun f => f.entered + 32 ≤ s.clk) = some f → becomes (.forcedEntry q) (traded f.slot))

/-- `svc` and `post` that pass their tests move on, hold their slot, and issue an operation of the warp's stream with what R378 and R385
name; the tests fail in the order of those rules. -/
def Obligations.ServiceCallsAndPosts : Prop :=
  ∀ (s : State) (w : Warp) (d t a : Reg) (imm : BitVec 17) (la : Look), s.runs w →
    let pair := fun (r : Nat) => BitVec.ofNat 64 ((w.sreg (r + 1)).toNat * 2 ^ 32 + (w.sreg r).toNat)
    let bad := fun (m : Nat) (va : DWord) => va.toNat % m ≠ 0
    let info := fun (va : DWord) => BitVec.ofNat 32 va.toNat
    let held := fun (i : Instr) (o : OpKind) (vas : List DWord) => ∃ t' op, exec i s = .next t' ∧
      t'.warp? s.curKey = some ((w.advance s.curSide).setSlot s.curSide
        { s.here w with pc := (s.here w).pc + 4, hold := .post s.nextOp }) ∧
      t'.ops.find? s.nextOp = some op ∧ op.kind = o ∧ op.owner = .warp s.curKey s.curSide ∧ op.reqs.map (·.va) = vas ∧
      t'.mem = s.mem ∧ t'.wgs = s.wgs ∧ ∀ k, k ≠ s.curKey → t'.warp? k = s.warp? k
    let arg := pair d.toNat
    let ctr := pair (d.toNat + 2)
    let card := pair t.toNat
    let sel := w.sreg a.toNat
    (bad 64 arg → Traps (.svc d imm) s ⟨.align, info arg⟩) ∧
    (¬bad 64 arg → inWindow arg = true → Traps (.svc d imm) s ⟨.scrbound, info arg⟩) ∧
    (¬bad 64 arg → inWindow arg = false → bad 8 ctr → Traps (.svc d imm) s ⟨.align, info ctr⟩) ∧
    (¬bad 64 arg → inWindow arg = false → ¬bad 8 ctr → inWindow ctr = true → Traps (.svc d imm) s ⟨.scrbound, info ctr⟩) ∧
    (¬bad 64 arg → inWindow arg = false → ¬bad 8 ctr → inWindow ctr = false →
      held (.svc d imm) (.svc imm.toNat [w.sreg d.toNat, w.sreg (d.toNat + 1), w.sreg (d.toNat + 2), w.sreg (d.toNat + 3)]) [arg, ctr]) ∧
    (5 < sel.toNat → Traps (.post t a la) s ⟨.illegal, sel⟩) ∧
    (sel.toNat ≤ 5 → bad 64 card → Traps (.post t a la) s ⟨.align, info card⟩) ∧
    (sel.toNat ≤ 5 → ¬bad 64 card → inWindow card = true → Traps (.post t a la) s ⟨.scrbound, info card⟩) ∧
    (sel.toNat ≤ 5 → ¬bad 64 card → inWindow card = false → held (.post t a la) (.card sel) [card &&& ~~~127])

/-! Vector instructions. -/

/-- A two-operand instruction whose type and registers pass the checks completes: each element of d in each participating lane is the
operation on that element of a, b and d as they were, and the flags of all are ORed into MODE (R303, R304, R307, R309). The operations are
given by value in IntegerArithmetic, NanResultsAreCanonical and ModularResults. -/
def Obligations.BinaryElementwise : Prop :=
  ∀ (s : State) (w : Warp) (t : Ty) (d a : Reg) (b : SrcB), s.runs w → Ty.ofCode (modeT w.mode) = some t →
    s.roomFor w t.pair d → s.roomFor w t.pair a → s.roomForB w t.pair b → ∀ e ∈ binaryOps d a b, e.2.1 t = true →
    ∃ w', Completes e.1 s w' ∧ KeepsScalars w w' ∧ LaneResults s w w' t t.elems d fun l k =>
      e.2.2 t (modeRM w.mode) (elemOf t (rdV w t.pair a l) k) (elemOf t (rdB w t.pair b l) k) (elemOf t (rdV w t.pair d l) k)

/-- The unary instructions and `vaddi` complete likewise (R310 to R313); `vcvt` completes with the conversion of the low elements of a, as
many as T and CT both have in a register, and zero above them; a MOD64 type needs a valid q (R315, R234). The operations are given by value in
IntegerArithmetic and NanResultsAreCanonical, those of R230 as far as the latter says. -/
def Obligations.UnaryElementwise : Prop :=
  (∀ (s : State) (w : Warp) (t : Ty) (d a : Reg) (imm : BitVec 9), s.runs w → Ty.ofCode (modeT w.mode) = some t →
     s.roomFor w t.pair d → s.roomFor w t.pair a → ∀ e ∈ unaryOps d a imm, e.2.1 t = true →
     ∃ w', Completes e.1 s w' ∧ KeepsScalars w w' ∧ LaneResults s w w' t t.elems d fun l k =>
       e.2.2 t (modeRM w.mode) (elemOf t (rdV w t.pair a l) k)) ∧
  (∀ (s : State) (w : Warp) (t ct : Ty) (d a : Reg), s.runs w → Ty.ofCode (modeT w.mode) = some t → Ty.ofCode (modeCT w.mode) = some ct →
     cvtOk t ct = true → (t = .mod64 ∨ ct = .mod64 → qValid w.modq.toNat = true) → s.roomFor w ct.pair d → s.roomFor w t.pair a →
     ∃ w', Completes (.vcvt d a) s w' ∧ KeepsScalars w w' ∧
       LaneResults s w w' ct (Nat.min t.elems ct.elems) d fun l k =>
         convert t ct (modeRM w.mode) w.modq.toNat (elemOf t (rdV w t.pair a l) k))

/-- What the integer operations compute, for every element width: sum, difference, product, multiply-add, absolute value and negation are exact
modulo 2^w under SAT = 0 with no flag, and clamped to the range of the type with ST exactly when they leave it under SAT = 1. Division truncates toward zero
and the remainder takes the sign of the dividend; by zero they give all ones and the dividend, with DZ; the minimum by −1 gives the
minimum, or the maximum with ST under SAT = 1 (R231, R307). The high half of the product, the smaller and the larger, the compares, and the
fields that `vbfe` takes out and `vbfi` puts in, which SAT does not touch (R307, R309, R316). The bitwise, shift and count operations, by bits
(R309, R312). The sum of `vaddi`, fitted (R310), and `vcvt` between integer types, to MOD64 and from it (R234); that a wider type takes a negative
element sign-extended and raises nothing under SAT is the model's choice (log 103). -/
def Obligations.IntegerArithmetic : Prop :=
  (∀ (t : Ty) (sat : Bool) (a b d : Nat), t.isInt = true → a < 2 ^ t.bits → b < 2 ^ t.bits →
     let x := intVal t a
     let y := intVal t b
     let w := t.bits
     let r := fun op => (intOp t sat op a b d).1
     let c := b % 2 ^ 32
     let pos := if w = 8 then c % 16 else c % 256
     let len := if w ≤ pos then 0 else Nat.min (if w = 8 then c / 16 % 16 else c / 256 % 256) (w - pos)
     (r .mulhi : Int) = x * y / 2 ^ w % 2 ^ w ∧ r .min = (if y < x then b else a) ∧ r .max = (if x < y then b else a) ∧
     (∀ i, i < w → (r .bfe).testBit i = (decide (len ≠ 0) && if i < len then a.testBit (pos + i) else t.signed && a.testBit (pos + len - 1)) ∧
       (r .bfi).testBit i = (decide (pos ≤ i ∧ i < pos + len) && a.testBit (i - pos))) ∧
     (∀ op ∈ [IOp.mulhi, .min, .max, .bfe, .bfi], (intOp t sat op a b d).2 = 0 ∧ r op < 2 ^ w) ∧
     (intCmp t .eq a b = decide (x = y) ∧ intCmp t .ne a b = decide (x ≠ y) ∧ intCmp t .lt a b = decide (x < y) ∧
       intCmp t .le a b = decide (x ≤ y) ∧ intCmp t .gt a b = decide (y < x) ∧ intCmp t .ge a b = decide (y ≤ x))) ∧
  (∀ (t : Ty) (a b d : Nat), t.isInt = true → a < 2 ^ t.bits → b < 2 ^ t.bits → d < 2 ^ t.bits →
     let lo : Int := if t.signed then -2 ^ (t.bits - 1) else 0
     let hi : Int := if t.signed then 2 ^ (t.bits - 1) - 1 else 2 ^ t.bits - 1
     ∀ e ∈ [(IOp.add, intVal t a + intVal t b), (.sub, intVal t a - intVal t b), (.mul, intVal t a * intVal t b),
         (.fma, intVal t d + intVal t a * intVal t b), (.fnma, intVal t d - intVal t a * intVal t b),
         (.abs, if intVal t a < 0 then -intVal t a else intVal t a), (.neg, -intVal t a)],
       ((intOp t false e.1 a b d).1 : Int) = e.2 % 2 ^ t.bits ∧ (intOp t false e.1 a b d).2 = 0 ∧
       intVal t (intOp t true e.1 a b d).1 = max lo (min hi e.2) ∧
       ((intOp t true e.1 a b d).2 = if lo ≤ e.2 ∧ e.2 ≤ hi then 0 else Flags.st)) ∧
  (∀ (t : Ty) (sat : Bool) (a b d : Nat), t.isInt = true → a < 2 ^ t.bits → b < 2 ^ t.bits →
     (b = 0 → intOp t sat .div a b d = (2 ^ t.bits - 1, .dz) ∧ intOp t sat .rem a b d = (a, .dz)) ∧
     (t.signed = true → intVal t a = -2 ^ (t.bits - 1) → intVal t b = -1 →
       intOp t sat .div a b d = (if sat then (2 ^ (t.bits - 1) - 1, .st) else (a, 0)) ∧ intOp t sat .rem a b d = (0, 0)) ∧
     (b ≠ 0 → ¬(t.signed = true ∧ intVal t a = -2 ^ (t.bits - 1) ∧ intVal t b = -1) →
       intVal t (intOp t sat .div a b d).1 * intVal t b + intVal t (intOp t sat .rem a b d).1 = intVal t a ∧
       (intVal t (intOp t sat .rem a b d).1).natAbs < (intVal t b).natAbs ∧
       0 ≤ intVal t (intOp t sat .rem a b d).1 * intVal t a ∧ (intOp t sat .div a b d).2 = 0 ∧ (intOp t sat .rem a b d).2 = 0)) ∧
  (∀ (t : Ty) (sat : Bool) (a b d : Nat), t.isInt = true → a < 2 ^ t.bits → b < 2 ^ t.bits →
     let w := t.bits
     let r := fun op => (intOp t sat op a b d).1
     (∀ i, i < w → (r .and).testBit i = (a.testBit i && b.testBit i) ∧ (r .or).testBit i = (a.testBit i || b.testBit i) ∧
       (r .xor).testBit i = (a.testBit i != b.testBit i) ∧ (r .not).testBit i = !a.testBit i ∧
       (r .shl).testBit i = (decide (b ≤ i) && a.testBit (i - b)) ∧ (r .shr).testBit i = a.testBit (i + b) ∧
       (r .sra).testBit i = a.testBit (Nat.min (i + b) (w - 1)) ∧ (r .brev).testBit i = a.testBit (w - 1 - i)) ∧
     r .popc = ((List.range w).filter a.testBit).length ∧
     (a = 0 → r .clz = w ∧ r .ctz = w) ∧
     (a ≠ 0 → a / 2 ^ (w - 1 - r .clz) = 1 ∧ a % 2 ^ r .ctz = 0 ∧ a.testBit (r .ctz) = true) ∧
     ∀ op ∈ [IOp.and, .or, .xor, .not, .shl, .shr, .sra, .brev, .popc, .clz, .ctz], (intOp t sat op a b d).2 = 0 ∧ r op < 2 ^ w) ∧
  (∀ (t ct : Ty) (r : RMode) (q a : Nat) (imm : BitVec 9), t.isInt = true → a < 2 ^ t.bits →
     let n := intVal t a
     let fitted := fun (u : Ty) (v : Int) (out : Nat × Flags) => out.1 < 2 ^ u.bits ∧
       (r.sat = false → (out.1 : Int) = v % 2 ^ u.bits ∧ out.2 = 0) ∧
       (r.sat = true → intVal u out.1 = max u.least (min u.greatest v) ∧ out.2 = if u.least ≤ v ∧ v ≤ u.greatest then 0 else Flags.st)
     fitted t (n + imm.toInt) (addImm imm.toInt t r a) ∧
     (ct.isInt = true → t.bits < ct.bits → ((convert t ct r q a).1 : Int) = n % 2 ^ ct.bits ∧ (convert t ct r q a).2 = 0) ∧
     (ct.isInt = true → ct.bits ≤ t.bits → fitted ct n (convert t ct r q a)) ∧
     (0 < q → ((convert t .mod64 r q a).1 : Int) = n % q ∧ (convert t .mod64 r q a).2 = 0)) ∧
  ∀ ct ∈ [Ty.i64, .n64, .mod64], ∀ (r : RMode) (q a : Nat), convert .mod64 ct r q a = (a % q, 0)

/-- What the floating operations, the compares, `vaddi`, `vcvt` and the functions of R230 give. A NaN result is the canonical NaN of its format
whatever the NaN it came from, and a signalling NaN among the operands sets NV and a quiet one alone sets nothing (R222, R313); that `vfma` and
`vfnma` set nothing for a quiet NaN addend beside a product of zero and infinity is the model's choice (log 27). On numbers, in every rounding mode,
under SAT and FTZ, the sum, difference, product, quotient, multiply-add, root, reciprocal, reciprocal of the root and fraction are Round of the exact
number, with the flags and the sign of a zero; minimum, maximum, absolute value and negation give an operand's bits; the rounding to an integer is
exact; the compares hold as the numbers do, and as R316 says of a NaN (R223, R226, R227, R229, R307, R313, R316). Infinities follow R223 and R226. A
conversion is exact, rounded or clamped (R234). Of R230 the special inputs are stated, and the arguments whose function value is a rational number or
lies past every number of the format; other values are Round of an enclosure, whose last resort is the model's choice (log 7). -/
def Obligations.NanResultsAreCanonical : Prop :=
  (∀ f ∈ [Fmt.f16, .bf16, .f32, .f64], ∀ (r : RMode) (a b d : Nat), r.rm < 4 → f.isNumber a → f.isNumber b → f.isNumber d →
     NumberResults f r a b d) ∧
  (∀ f ∈ [Fmt.f16, .bf16, .f32, .f64], ∀ (r : RMode) (n m : Bool) (a b : Nat), r.rm < 4 → f.isNumber a → f.isNumber b →
     InfiniteResults f r n m a b) ∧
  (∀ (t ct : Ty) (r : RMode) (q a : Nat), r.rm < 4 → a < 2 ^ t.bits → ConversionResults t ct r q a) ∧
  (∀ f ∈ [Fmt.f16, .f32], ∀ (r : RMode) (a : Nat), r.rm < 4 → FunctionResults f r a) ∧
  (∀ (t : Ty) (f : Fmt) (r : RMode) (a : Nat) (imm : BitVec 9), t.isFloat = true → t.fmt? = some f → r.rm < 4 →
     let out := addImm imm.toInt t r a
     (f.isNumber a → Rounded f r (.of (f.valueIn r.ftz a + imm.toInt)) out ∧ (f.valueIn r.ftz a + imm.toInt = 0 →
       out = ((if f.valueIn r.ftz a = 0 ∧ f.sign a = 0 then 0 else if r.rm = 2 then 1 else 0) * f.signBit, 0))) ∧
     (∀ n : Bool, a = f.withSign n f.infMag → out = f.limit r n 0) ∧ (f.isNaN a → out = (f.nan, if f.isSnan a then .nv else 0))) ∧
  (∀ f ∈ [Fmt.f16, .bf16, .f32, .f64], ∀ (rm a b d : Nat) (sat : Bool) (o : FOp), a < 2 ^ f.width → b < 2 ^ f.width → d < 2 ^ f.width →
     let zero := fun (n : Nat) => if isSub f n then n / f.signBit % 2 * f.signBit else n
     let v := floatOp f ⟨rm, sat, false⟩ o (zero a) (zero b) (zero d)
     floatOp f ⟨rm, sat, true⟩ o a b d = if isSub f v.1 then (zero v.1, .uf ||| .nx) else v) ∧
  (∀ f ∈ [Fmt.f16, .bf16, .f32, .f64], ∀ (ftz : Bool) (a : Nat), a < 2 ^ f.width → ((unpackIn f ftz a).isNan = true ↔ f.isNaN a) ∧
     ((unpackIn f ftz a).isSnan = true ↔ f.isNaN a ∧ f.isSnan a = true)) ∧
  ∀ (f : Fmt) (r : RMode) (a b d : Nat),
    let x := unpackIn f r.ftz a
    let y := unpackIn f r.ftz b
    let z := unpackIn f r.ftz d
    let flags := fun (vs : List Val) => if vs.any Val.isSnan then Flags.nv else 0
    (x.isNan = true ∨ y.isNan = true → ∀ op ∈ [FOp.add, .sub, .mul, .div, .min, .max], floatOp f r op a b d = (f.nan, flags [x, y])) ∧
    (x.isNan = true ∨ y.isNan = true ∨ z.isNan = true → ∀ op ∈ [FOp.fma, .fnma], floatOp f r op a b d = (f.nan, flags [x, y, z])) ∧
    (x.isNan = true → ∀ op ∈ [FOp.abs, .neg, .rcp, .rsq, .sqrt, .rnd, .frc], floatOp f r op a b d = (f.nan, flags [x])) ∧
    (x.isNan = true ∨ y.isNan = true → ∀ c : Cond, (floatCmp f r.ftz c a b).1 = decide (c = .ne ∨ c = .unord) ∧
      (floatCmp f r.ftz c a b).2 = if c ∈ [Cond.lt, .le, .gt, .ge] then Flags.nv else flags [x, y])

/-- The lane moves complete: `vmov` a, `vmovi` its immediate, `vmovhi` bits [31:16] with the rest kept, in the participating lanes; `vsel`
a or b by the guard in every active lane; `vmulw` the exact product of the low elements (R308, R310, R317). -/
def Obligations.LaneMoves : Prop :=
  ∀ (s : State) (w : Warp) (t : Ty) (d a : Reg) (b : SrcB) (i17 : BitVec 17) (i16 : BitVec 16), s.runs w →
    Ty.ofCode (modeT w.mode) = some t →
    let puts := fun (i : Instr) (pair : Bool) (mask : Word) (v : Nat → Nat) => ∃ w', Completes i s w' ∧ KeepsScalars w w' ∧ w'.mode = w.mode ∧
      ∀ l, l < 32 → rdV w' pair d l = if mask.getLsbD l then v l else rdV w pair d l
    let bits := if t.pair then 64 else 32
    (s.roomFor w t.pair d → s.roomForB w t.pair b → puts (.vmov d b) t.pair (s.part w) fun l => rdB w t.pair b l) ∧
    (s.roomFor w t.pair d → puts (.vmovi d i17) t.pair (s.part w) fun _ => (i17.toInt % 2 ^ bits).toNat) ∧
    (s.roomFor w t.pair d → puts (.vmovhi d i16) false (s.part w) fun l => i16.toNat * 2 ^ 16 + (w.vreg d.toNat l).toNat % 2 ^ 16) ∧
    (s.roomFor w t.pair d → s.roomFor w t.pair a → s.roomForB w t.pair b →
      puts (.vsel d a b) t.pair (s.active w) fun l => if (guardMask w).getLsbD l then rdV w t.pair a l else rdB w t.pair b l) ∧
    (t.isInt = true → t.bits ≤ 32 → s.roomFor w (t.bits = 32) d → s.roomFor w false a → s.roomForB w false b →
      puts (.vmulw d a b) (t.bits = 32) (s.part w) fun l =>
        let product := fun k => ((intVal t (elemOf t (rdV w false a l) k) * intVal t (elemOf t (rdB w false b l) k)) % 2 ^ (2 * t.bits)).toNat
        product 0 + if t.bits = 8 then 2 ^ 16 * product 1 else 0)

/-- Predicates: `vcmp` combines the compare of all elements of a lane, with its flags; `plop`, `pmovs` and `pset` write the participating
lanes of their predicate, and `pmovs` to S and `vvote` an S register; other lanes keep theirs (R316, R318, R320). The compares are given by
value in IntegerArithmetic and NanResultsAreCanonical. -/
def Obligations.PredicateResults : Prop :=
  ∀ (s : State) (w : Warp) (p x y : PReg) (d a : Reg) (b : SrcB) (tt : BitVec 4), s.runs w →
    let puts := fun (i : Instr) (v : Nat → Bool) => ∃ w', Completes i s w' ∧ w'.v = w.v ∧ w'.s = w.s ∧ w'.mode = w.mode ∧
      ∀ l, l < 32 → (w'.preg p).getLsbD l = if (s.part w).getLsbD l && p ≠ 7 then v l else (w.preg p).getLsbD l
    let m := fun (neg : Bool) => s.part w &&& (if neg then ~~~(w.preg x) else w.preg x)
    (∀ (t : Ty) (cond : Cond) (comb : Combine), Ty.ofCode (modeT w.mode) = some t →
      (t.isFloat = true ∨ (t.isInt = true ∧ cond ≠ .unord ∧ cond ≠ .ord)) → s.roomFor w t.pair a → s.roomForB w t.pair b →
      let compare := fun l k => match t.fmt? with
        | some f => floatCmp f (modeRM w.mode).ftz cond (elemOf t (rdV w t.pair a l) k) (elemOf t (rdB w t.pair b l) k)
        | none => (intCmp t cond (elemOf t (rdV w t.pair a l) k) (elemOf t (rdB w t.pair b l) k), 0)
      let holds := fun l => (List.range t.elems).all fun k => (compare l k).1
      ∃ w', Completes (.vcmp cond comb p a b) s w' ∧ w'.v = w.v ∧ w'.s = w.s ∧
        (∀ l, l < 32 → (w'.preg p).getLsbD l = if (s.part w).getLsbD l && p ≠ 7 then
            (match comb with
              | .set => holds l
              | .and => (w.preg p).getLsbD l && holds l
              | .or => (w.preg p).getLsbD l || holds l)
          else (w.preg p).getLsbD l) ∧
        RaisesFlags w w' fun f => ∃ l k, (s.part w).getLsbD l = true ∧ k < t.elems ∧ (compare l k).2.getLsbD f = true) ∧
    puts (.plop p x y tt) (fun l => tt.getLsbD (2 * ((w.preg x).getLsbD l).toNat + ((w.preg y).getLsbD l).toNat)) ∧
    puts (.pmovsP p a) (fun l => (w.sreg a.toNat).getLsbD l) ∧
    puts (.pset .f p) (fun _ => false) ∧ puts (.pset .t p) (fun _ => true) ∧
    (s.roomFor w false a → puts (.pset (.nz a) p) fun l => decide (w.vreg a.toNat l ≠ 0)) ∧
    Completes (.pmovsS d x) s (w.setS d.toNat (w.preg x &&& s.part w)) ∧
    ∀ neg, Completes (.vvote .ballot neg d x) s (w.setS d.toNat (m neg)) ∧
      Completes (.vvote .any neg d x) s (w.setS d.toNat (if m neg = 0 then 0 else 1)) ∧
      Completes (.vvote .all neg d x) s (w.setS d.toNat (if m neg = s.part w then 1 else 0))

/-- The shuffles complete with the source lane of R319 where it participates, and the lane's own value of a elsewhere; no other S
register, predicate or flag changes. -/
def Obligations.ShuffleResults : Prop :=
  ∀ (s : State) (w : Warp) (t : Ty) (d a : Reg) (b : SrcB), s.runs w → Ty.ofCode (modeT w.mode) = some t →
    s.roomFor w t.pair d → s.roomFor w t.pair a → s.roomForB w false b →
    let puts := fun (i : Instr) (src : Nat → Nat → Int) => ∃ w', Completes i s w' ∧ KeepsScalars w w' ∧ w'.mode = w.mode ∧ ∀ l, l < 32 →
      rdV w' t.pair d l = if (s.part w).getLsbD l then
          (let j := src l (rdB w false b l)
           if 0 ≤ j ∧ j ≤ 31 ∧ (s.part w).getLsbD j.toNat = true then rdV w t.pair a j.toNat else rdV w t.pair a l)
        else rdV w t.pair d l
    puts (.vshflIdx d a b) (fun _ c => c) ∧ puts (.vshflXor d a b) (fun l c => ((l ^^^ (c % 32) : Nat) : Int)) ∧
    puts (.vshflUp d a b) (fun l c => (l : Int) - c) ∧ puts (.vshflDn d a b) (fun l c => (l : Int) + c)

/-- `vred` writes to every participating lane the butterfly over all of them, and `vscan` to lane l the one over those no higher than l,
for each element position, subnormal elements read as zero under FTZ (R321, R240, R227). With no participating lane nothing is written. -/
def Obligations.ReductionResults : Prop :=
  ∀ (s : State) (w : Warp) (t : Ty) (d a : Reg) (op : RedOp), s.runs w → Ty.ofCode (modeT w.mode) = some t →
    (match op with
      | .add => numTy t = true ∨ t = .mod64
      | .min | .max => numTy t = true
      | _ => t.isInt = true) →
    (t = .mod64 → qValid w.modq.toNat = true) → s.roomFor w t.pair d → s.roomFor w t.pair a →
    let q := w.modq.toNat
    let read := fun (x : Nat) => match t.fmt? with
      | some f => flushBits f (modeRM w.mode).ftz x
      | none => x
    let tree := fun (top k : Nat) => butterfly (redOp t (modeRM w.mode) q op) [16, 8, 4, 2, 1]
      ((List.range 32).map fun l => if (s.part w).getLsbD l && l ≤ top then some (read (elemOf t (rdV w t.pair a l) k)) else none) 0
    let residue := fun (n : Nat) => (if t = .mod64 then n % q else n) % 2 ^ t.bits
    (∃ w', Completes (.vred op d a) s w' ∧ KeepsScalars w w' ∧
      LaneResults s w w' t t.elems d fun _ k => (residue (tree 31 k).1, (tree 31 k).2)) ∧
    ∃ w', Completes (.vscan op d a) s w' ∧ KeepsScalars w w' ∧
      LaneResults s w w' t t.elems d fun l k => (residue (tree l k).1, (tree l k).2)

/-- The modular instructions complete with residues below q that are exact, for T = MOD64 and a valid q; they raise no flag. `vbfly`
writes V[a] last (R322, R233). -/
def Obligations.ModularResults : Prop :=
  ∀ (s : State) (w : Warp) (d a : Reg) (b : SrcB), s.runs w → Ty.ofCode (modeT w.mode) = some .mod64 →
    let q := w.modq.toNat
    q % 2 = 1 → 3 ≤ q → q < 2 ^ 63 → s.roomFor w true d → s.roomFor w true a → s.roomForB w true b →
    let puts := fun (i : Instr) (v : Nat → Int) => ∃ w', Completes i s w' ∧ KeepsScalars w w' ∧ w'.mode = w.mode ∧ ∀ l, (s.part w).getLsbD l = true →
      (rdV w' true d l : Int) = v l % q ∧ rdV w' true d l < q
    let x := fun l => (rdV w true d l : Int)
    let y := fun l => (rdV w true a l : Int)
    let z := fun l => (rdB w true b l : Int)
    puts (.vmodmul d a b) (fun l => y l * z l) ∧ puts (.vmodadd d a b) (fun l => y l + z l) ∧ puts (.vmodsub d a b) (fun l => y l - z l) ∧
    ∃ w', Completes (.vbfly d a b) s w' ∧ KeepsScalars w w' ∧ w'.mode = w.mode ∧ ∀ l, (s.part w).getLsbD l = true →
      (rdV w' true a l : Int) = (x l - z l * y l) % q ∧ (d ≠ a → (rdV w' true d l : Int) = (x l + z l * y l) % q)

/-- `vclass` completes with the class mask of each element, in bits [16k + 9:16k], which has one of the ten bits of R314 by the element's bits;
`vqnt` with the image of the block of the 32 lanes, lanes that do not participate supplying +0, with the scale, the codes and the flags of R235 to
R237; `vdeq` with Round of the elements of the image in V[a] by R225, R238 and R239 (R314, R324 to R326). That under a scale of 0xFF no element
is read for a signalling NaN is the model's choice (log 103). -/
def Obligations.ClassAndBlockResults : Prop :=
  (∀ f ∈ [Fmt.f16, .bf16, .f32, .f64], ∀ a, a < 2 ^ f.width →
    let e := a / 2 ^ f.mw % 2 ^ f.ew
    let m := a % 2 ^ f.mw
    let pick := fun (minus plus : Nat) => if f.sign a = 1 then minus else plus
    classMask f a = 2 ^ (if e = 2 ^ f.ew - 1 then (if m = 0 then pick 2 9 else if 2 ^ (f.mw - 1) ≤ m then 1 else 0)
      else if e = 0 then (if m = 0 then pick 5 6 else pick 4 7) else pick 3 8)) ∧
  ∀ (s : State) (w : Warp) (t : Ty) (d a : Reg) (f : BlockFmt), s.runs w → Ty.ofCode (modeT w.mode) = some t → s.roomFor w false d →
    (t.isFloat = true → s.roomFor w t.pair a → ∃ w', Completes (.vclass d a) s w' ∧ KeepsScalars w w' ∧ w'.mode = w.mode ∧
      ∀ l k fm, (s.part w).getLsbD l = true → k < t.elems → t.fmt? = some fm →
        rdV w' false d l / 2 ^ (16 * k) % 2 ^ (if t.elems = 1 then 32 else 16) = classMask fm (elemOf t (rdV w t.pair a l) k)) ∧
    (∀ fm, t.fmt? = some fm → (t = .f16 ∨ t = .bf16 ∨ t = .f32) → s.roomFor w false a →
      let ftz := (modeRM w.mode).ftz
      let eight := f = .mxfp8e4 ∨ f = .mxfp8e5
      let el := fun l => if (s.part w).getLsbD l then (w.vreg a.toNat l).toNat % 2 ^ t.bits else 0
      let block := encodeBlock f ((List.range 32).map fun l => unpackIn fm ftz (el l))
      let code := fun l => block.codes.getD l 0
      Encoded f fm ftz el block ∧
      (∃ w', Completes (.vqnt f d a) s w' ∧ KeepsScalars w w' ∧
        (∀ l, (s.part w).getLsbD l = true → rdV w' false d l =
          if eight then (if l < 8 then ((List.range 4).map fun i => code (4 * l + i) * 2 ^ (8 * i)).sum else if l = 8 then block.scale else 0)
          else (if l < 4 then ((List.range 8).map fun i => code (8 * l + i) * 2 ^ (4 * i)).sum else if l = 4 then block.scale else 0)) ∧
        RaisesFlags w w' fun b => s.part w ≠ 0 ∧ block.flags.getLsbD b = true) ∧
      let read := fun k => if eight then (w.vreg a.toNat (k / 4)).toNat / 2 ^ (8 * (k % 4)) % 256
        else (w.vreg a.toNat (k / 8)).toNat / 2 ^ (4 * (k % 8)) % 16
      let scale := (w.vreg a.toNat (if eight then 8 else 4)).toNat % 256
      ∃ (w' : Warp) (element : Nat → Nat × Flags), Completes (.vdeq f d a) s w' ∧ KeepsScalars w w' ∧
        (∀ l, l < 32 → Decoded f fm (modeRM w.mode) scale read l (element l)) ∧
        (∀ l, (s.part w).getLsbD l = true → rdV w' false d l = (element l).1 % 2 ^ 32) ∧
        RaisesFlags w w' fun b => ∃ l, (s.part w).getLsbD l = true ∧ (element l).2.getLsbD b = true)

/-- A vector instruction whose T is reserved or outside its types raises ILLTYPE with MODE, and so does `vcvt` for a reserved CT or a pairing that
R234 leaves out; one that computes modulo a q that is not valid raises it with MODQLO; and one of a register beyond the allocation or an odd pair
raises ILLEGAL with its word, T and q passing (R251, R254, R233, R234, R248, R249, R266, R316). -/
def Obligations.VectorTraps : Prop :=
  ∀ (s : State) (w : Warp) (d a : Reg) (b : SrcB) (i9 : BitVec 9) (i17 : BitVec 17) (i16 : BitVec 16) (f : BlockFmt) (op : RedOp) (p : PReg)
    (cond : Cond) (comb : Combine), s.runs w →
    let typed := fun (i : Instr) => Traps i s ⟨.illtype, w.mode⟩
    let modulus := fun (i : Instr) => Traps i s ⟨.illtype, BitVec.ofNat 32 w.modq.toNat⟩
    let illegal := fun (i : Instr) => Traps i s ⟨.illegal, encode i⟩
    let any := fun (_ : Ty) => true
    let dab := fun (t : Ty) => s.roomFor w t.pair d ∧ s.roomFor w t.pair a ∧ s.roomForB w t.pair b
    let da := fun (t : Ty) => s.roomFor w t.pair d ∧ s.roomFor w t.pair a
    let shuffled := fun (t : Ty) => da t ∧ s.roomForB w false b
    let block := fun (_ : Ty) => s.roomFor w false d ∧ s.roomFor w false a
    let quant := fun (t : Ty) => t = .f16 || t = .bf16 || t = .f32
    let reduces := fun (t : Ty) => match op with
      | .add => numTy t || t = .mod64
      | .min | .max => numTy t
      | _ => t.isInt
    let forms : List (Instr × (Ty → Bool) × (Ty → Prop)) := (binaryOps d a b).map (fun e => (e.1, e.2.1, dab)) ++
      (unaryOps d a i9).map (fun e => (e.1, e.2.1, da)) ++
      [(.vmulw d a b, fun t => t.isInt && t.bits ≤ 32, fun t => s.roomFor w (t.bits = 32) d ∧ s.roomFor w false a ∧ s.roomForB w false b),
        (.vsel d a b, any, dab), (.vmov d b, any, fun t => s.roomFor w t.pair d ∧ s.roomForB w t.pair b),
        (.vmovi d i17, any, fun t => s.roomFor w t.pair d), (.vmovhi d i16, any, fun t => s.roomFor w t.pair d),
        (.vshflIdx d a b, any, shuffled), (.vshflXor d a b, any, shuffled), (.vshflUp d a b, any, shuffled), (.vshflDn d a b, any, shuffled),
        (.vclass d a, Ty.isFloat, fun t => s.roomFor w false d ∧ s.roomFor w t.pair a), (.vqnt f d a, quant, block), (.vdeq f d a, quant, block),
        (.vcmp cond comb p a b, fun t => t.isFloat || (t.isInt && cond ≠ .unord && cond ≠ .ord),
          fun t => s.roomFor w t.pair a ∧ s.roomForB w t.pair b)]
    let moduli : List (Instr × (Ty → Bool) × (Ty → Prop)) := [(.vred op d a, reduces, da), (.vscan op d a, reduces, da),
      (.vmodmul d a b, fun t => t = .mod64, dab), (.vmodadd d a b, fun t => t = .mod64, dab), (.vmodsub d a b, fun t => t = .mod64, dab),
      (.vbfly d a b, fun t => t = .mod64, dab)]
    (Ty.ofCode (modeT w.mode) = none → (∀ e ∈ forms, typed e.1) ∧ (∀ e ∈ moduli, typed e.1) ∧ typed (.vcvt d a)) ∧
    (∀ t, Ty.ofCode (modeT w.mode) = some t →
      (∀ e ∈ forms, (e.2.1 t = false → typed e.1) ∧ (e.2.1 t = true → ¬e.2.2 t → illegal e.1)) ∧
      (∀ e ∈ moduli, (e.2.1 t = false → typed e.1) ∧ (e.2.1 t = true → t = .mod64 → qValid w.modq.toNat = false → modulus e.1) ∧
        (e.2.1 t = true → (t = .mod64 → qValid w.modq.toNat = true) → ¬e.2.2 t → illegal e.1)) ∧
      (Ty.ofCode (modeCT w.mode) = none → typed (.vcvt d a)) ∧
      ∀ ct, Ty.ofCode (modeCT w.mode) = some ct →
        let paired := (t = .mod64 → ct = .i64 ∨ ct = .n64 ∨ ct = .mod64) ∧ (ct = .mod64 → t.isInt = true ∨ t = .mod64)
        (¬paired → typed (.vcvt d a)) ∧
        (paired → t = .mod64 ∨ ct = .mod64 → qValid w.modq.toNat = false → modulus (.vcvt d a)) ∧
        (paired → (t = .mod64 ∨ ct = .mod64 → qValid w.modq.toNat = true) → ¬(s.roomFor w ct.pair d ∧ s.roomFor w t.pair a) → illegal (.vcvt d a))) ∧
    (¬s.roomFor w false a → illegal (.pset (.nz a) p))

/-- What a vector instruction leaves unchanged: with no trap, every V register but d (and a, for `vbfly`) and every lane that does not
take part, every S register, every predicate but that of a compare or a predicate instruction, and MODE but its flags (R303). -/
def Obligations.VectorFrame : Prop :=
  ∀ (s : State) (w : Warp) (t : Ty) (d a : Reg) (b : SrcB) (i9 : BitVec 9) (i17 : BitVec 17) (i16 : BitVec 16) (f : BlockFmt) (op : RedOp)
    (p x y : PReg) (tt : BitVec 4) (ps : PsetOp) (cond : Cond) (comb : Combine), s.runs w → Ty.ofCode (modeT w.mode) = some t →
    let size := fun (pair : Bool) => if pair then 2 else 1
    let frame := fun (i : Instr) (v : Nat → Nat → Prop) (q : PReg → Prop) (m : Word) => Framed i s w v (fun _ => False) q m
    let lanesOf := fun (n : Nat) => inLanes d.toNat n (s.part w)
    let no := fun (_ : PReg) => False
    (∀ e ∈ binaryOps d a b, frame e.1 (lanesOf (size t.pair)) no 0x80FFFFFF) ∧
    (∀ e ∈ unaryOps d a i9, frame e.1 (lanesOf (size t.pair)) no 0x80FFFFFF) ∧
    (∀ i ∈ [Instr.vred op d a, .vscan op d a], frame i (lanesOf (size t.pair)) no 0x80FFFFFF) ∧
    (∀ i ∈ [Instr.vmov d b, .vmovi d i17, .vshflIdx d a b, .vshflXor d a b, .vshflUp d a b, .vshflDn d a b],
      frame i (lanesOf (size t.pair)) no 0xFFFFFFFF) ∧
    frame (.vsel d a b) (inLanes d.toNat (size t.pair) (s.active w)) no 0xFFFFFFFF ∧
    frame (.vmulw d a b) (lanesOf (size (t.bits = 32))) no 0xFFFFFFFF ∧
    (∀ i ∈ [Instr.vmovhi d i16, .vclass d a], frame i (lanesOf 1) no 0xFFFFFFFF) ∧
    (∀ i ∈ [Instr.vqnt f d a, .vdeq f d a], frame i (lanesOf 1) no 0x80FFFFFF) ∧
    (∀ ct, Ty.ofCode (modeCT w.mode) = some ct → frame (.vcvt d a) (lanesOf (size ct.pair)) no 0x80FFFFFF) ∧
    (∀ i ∈ [Instr.vmodmul d a b, .vmodadd d a b, .vmodsub d a b], frame i (lanesOf 2) no 0xFFFFFFFF) ∧
    frame (.vbfly d a b) (fun r l => lanesOf 2 r l ∨ inLanes a.toNat 2 (s.part w) r l) no 0xFFFFFFFF ∧
    frame (.vcmp cond comb p a b) (fun _ _ => False) (· = p) 0x80FFFFFF ∧
    ∀ i ∈ [Instr.plop p x y tt, .pmovsP p a, .pset ps p], frame i (fun _ _ => False) (· = p) 0xFFFFFFFF

/-! Memory and counters. -/

/-- The memory instructions of lanes that pass their checks move on and issue one operation whose requests are the accesses of the
participating lanes, each at the address of its lane, with the bytes of its registers, combined by lines; with no participating lane they
only move on. No byte of memory changes at issue (R327, R328, R330, R140). -/
def Obligations.LaneAccessesIssue : Prop :=
  ∀ (s : State) (w : Warp) (m : MemWidth) (sx : Bool) (op : AtomOp) (t : Reg) (a : AddrOp) (la : Look), s.runs w →
    ∀ e ∈ laneAccesses m sx op t a la, s.roomForAddr w e.scratch a → t.toNat + e.regs ≤ (s.cardOf w).regs →
      (∀ l, (s.part w).getLsbD l = true → addressFits e.size (s.cardOf w).scrSize (addrOf e.scratch a w l)) →
      (s.part w = 0 → Completes e.instr s w) ∧
      (s.part w ≠ 0 → IssuesOp e.instr s (w.advance s.curSide) e.kind (s.part w) la.toNat fun reqs =>
        ByLine reqs ((s.partLanes w).map fun l => (l, addrOf e.scratch a w l, e.size, bytesFrom w t.toNat l e.sends)))

/-- `ldu` issues one load of the address in its S pair, whatever the lanes; `pref` and `cmnt.wbi` one request for each line that a
participating lane names, without a test of the address; `cmnt.inv` one operation (R336, R341, R343). The counter instructions that pass
their checks issue one operation: each participating lane names its own counter, with the operand of its pair; in the uniform form the
lowest participating lane alone. `cwait` holds its slot until it completes. With no participating lane the instruction completes at once
and leaves CSTAT OK, after the counter instructions of the warp that have not completed (R111, R115, R328, R344, R346). -/
def Obligations.LineAndCounterRequestsIssue : Prop :=
  (∀ (s : State) (w : Warp) (m : MemWidth) (sx : Bool) (pm : PrefMode) (t r : Reg) (a : AddrOp) (la : Look), s.runs w →
     let w' := w.advance s.curSide
     let va := BitVec.ofNat 64 ((w.sreg (r.toNat + 1)).toNat * 2 ^ 32 + (w.sreg r.toNat).toNat)
     let lines := fun reqs => Combined id (fun _ => 0) reqs
       ((s.partLanes w).map fun l => (l, BitVec.ofNat 64 ((addrOf false a w l).toNat / 128 * 128), 0, []))
     (addressFits m.bytes (s.cardOf w).scrSize va →
       IssuesOp (.ldu m sx t r la) s w' (.loadS m sx t.toNat) 1 la.toNat fun reqs => ByLine reqs [(0, va, m.bytes, [])]) ∧
     (s.roomForAddr w false a → s.part w ≠ 0 →
       IssuesOp (.pref pm a la) s w' (.pref pm) (s.part w) la.toNat lines ∧
       IssuesOp (.cmntWbi a la) s w' .cmntWbi (s.part w) la.toNat lines) ∧
     (s.part w ≠ 0 → IssuesOp (.cmntInv la) s w' .cmntInv (s.part w) la.toNat fun reqs => reqs.length = 1) ∧
     (s.roomForAddr w false a → s.part w = 0 → ∀ i ∈ [Instr.pref pm a la, .cmntWbi a la, .cmntInv la], Completes i s w)) ∧
  (∀ (s : State) (w : Warp) (f : CtrField) (t : Reg) (a : AddrOp), s.runs w → s.roomForAddr w false a →
     (∀ l, (s.part w).getLsbD l = true → addressFits 8 (s.cardOf w).scrSize (addrOf false a w l)) →
     ∀ e ∈ counterOps f t a, t.toNat + (if e.2 = .test then 4 else 2) ≤ (s.cardOf w).regs →
       let uni := match a with
         | .uni _ => true
         | .lane _ => false
       let w1 := w.advance s.curSide
       let w' := if e.2 = .wait then w1.setSlot s.curSide { w1.slot s.curSide with hold := .cwait s.nextOp } else w1
       let issues := fun (w' : Warp) => IssuesOp e.1 s w' (.counter e.2 f.scope f.sc t.toNat uni) (s.part w) f.la.toNat fun reqs =>
         Combined id (fun _ => 0) reqs (((if uni then (s.partLanes w).take 1 else s.partLanes w)).map fun l =>
           (l, addrOf false a w l, 8, if e.2 = .read then [] else bytesFrom w t.toNat l 8))
       let behind := (s.stream s.curKey).any fun d => d.2.kind.isCounter
       (s.part w ≠ 0 → issues w') ∧
       (s.part w = 0 → behind = true → issues w1) ∧
       (s.part w = 0 → behind = false → Completes e.1 s { w with cstat := 0 }))

/-- What a memory, atomic or counter instruction raises at its checks: ILLEGAL for a register beyond the allocation; then ALIGN with the
address of the lowest participating lane that is misaligned; then SCRBOUND with that of the lowest whose access passes SCRSIZE. No request
goes out (R249, R329, R266). The checks of the matrix instructions: ILLTYPE with MODE for `mdrn` under a reserved CT; ILLEGAL without the array,
beyond the card's tiles or the allocation, or for an odd tile or register of a 64-bit drain; then COLLDIV at the home slot when the two slots
stand at different matrix instructions; for `mldw` and `mstr`, FMTDIV with the lowest lane whose format word differs, then PAIRING with the word
that is not legal or, for `mstr`, not the active plane's; for `mldw` ALIGN and SCRBOUND with S[a]; for `mstr` ILLTYPE with MODQLO for an
invalid q, then ILLEGAL for the activation group or the pair of tiles (R251, R362, R364, R366, R367). -/
def Obligations.MemoryTraps : Prop :=
  (∀ (s : State) (w : Warp) (m : MemWidth) (sx : Bool) (op : AtomOp) (f : CtrField) (t : Reg) (a : AddrOp) (la : Look), s.runs w →
     let forms := (laneAccesses m sx op t a la).map (fun e => (e.instr, e.scratch, e.size, e.regs)) ++
       (counterOps f t a).map fun e => (e.1, false, 8, if e.2 = .test then 4 else 2)
     ∀ e ∈ forms,
       let room := s.roomForAddr w e.2.1 a ∧ t.toNat + e.2.2.2 ≤ (s.cardOf w).regs
       let va := addrOf e.2.1 a w
       let aligned := fun l => (va l).toNat % e.2.2.1 = 0
       let inside := fun l => inWindow (va l) = true → windowOff (va l) + e.2.2.1 ≤ (s.cardOf w).scrSize
       (¬room → Traps e.1 s ⟨.illegal, encode e.1⟩) ∧
       ∀ l, l ∈ s.partLanes w → room →
         (¬aligned l → (∀ j, j ∈ s.partLanes w → j < l → aligned j) → Traps e.1 s ⟨.align, BitVec.ofNat 32 (va l).toNat⟩) ∧
         ((∀ j, j ∈ s.partLanes w → aligned j) → ¬inside l → (∀ j, j ∈ s.partLanes w → j < l → inside j) →
           Traps e.1 s ⟨.scrbound, BitVec.ofNat 32 (va l).toNat⟩)) ∧
  (∀ (s : State) (w : Warp) (g : Workgroup) (tile : BitVec 5) (q : BitVec 2) (t a : Reg) (la : Look), s.runs w → s.wg? w.wg = some g →
     let m := s.meeting s.curKey w s.curSide
     let queue := s.arrays.get [] (s.curKey / 64)
     let pairOf := fun (wide : Prop) => wide → tile.toNat % 2 = 0 ∧ tile.toNat + 1 < g.card.tiles
     let forms := [(Instr.mldw t a la, t.toNat < g.card.regs), (.mswap la, True), (.mstr tile t a la, tile.toNat < g.card.tiles ∧ a.toNat < g.card.regs),
         (.mzero tile la, tile.toNat < g.card.tiles), (.mlda tile q t la, tile.toNat < g.card.tiles ∧ t.toNat + 32 ≤ g.card.regs)] ++
       match Ty.ofCode (modeCT w.mode) with
       | some ct => [(.mdrn tile q t la, tile.toNat < g.card.tiles ∧ t.toNat + drainRegs ct ≤ g.card.regs ∧ (ct.bits = 64 → t.toNat % 2 = 0) ∧
           pairOf (ct.bits = 64))]
       | none => []
     (Ty.ofCode (modeCT w.mode) = none → Traps (.mdrn tile q t la) s ⟨.illtype, w.mode⟩) ∧
     (∀ e ∈ forms, (¬(g.card.usesArray = true ∧ e.2) → Traps e.1 s ⟨.illegal, encode e.1⟩) ∧
       (g.card.usesArray = true → e.2 → m = .differ →
         exec e.1 s = .next (trapEntry s s.curKey .home ⟨.colldiv, BitVec.ofNat 32 w.away.pc.toNat⟩))) ∧
     (g.card.usesArray = true → m ≠ .differ → m ≠ .wait → queue.length < 8 →
       let vote := voteWord w (if m = .merged then w.home.mask ||| w.away.mask else s.active w)
       let traps := fun (i : Instr) (c : TrapCode) (n : Nat) => Traps i s ⟨c, BitVec.ofNat 32 n⟩
       (t.toNat < g.card.regs →
         let i := Instr.mldw t a la
         let x := (w.sreg a.toNat).toNat
         (∀ l, vote t = .error l → traps i .fmtdiv l) ∧ ∀ f, vote t = .ok f → (wordOk f = false → traps i .pairing f) ∧
           (wordOk f = true → (x % 128 ≠ 0 → traps i .align x) ∧ (x % 128 = 0 → g.card.scrSize < x + ldwBytes (wfOf f) → traps i .scrbound x))) ∧
       (tile.toNat < g.card.tiles → a.toNat < g.card.regs →
         let i := Instr.mstr tile t a la
         (∀ l, vote a = .error l → traps i .fmtdiv l) ∧ ∀ f, vote a = .ok f →
           let good := wordOk f = true ∧ formatAtIssue g ((queue.filter fun e => e.wg = w.wg).map (·.op)) = some (wfOf f)
           let size := groupRegs (afOf f)
           (¬good → traps i .pairing f) ∧ (good → accOf f = 2 → qValid w.modq.toNat = false → traps i .illtype w.modq.toNat) ∧
           (good → (accOf f = 2 → qValid w.modq.toNat = true) →
             ¬(t.toNat + size ≤ g.card.regs ∧ t.toNat + size ≤ 256 ∧ (8 ≤ afOf f → t.toNat % 2 = 0) ∧ pairOf (accOf f = 1 ∨ accOf f = 2)) →
             Traps i s ⟨.illegal, encode i⟩))))

/-- What an operation writes when its requests have been performed: a load the bytes that came back, extended, in the lanes of its
accesses; an `atom` the value at its home; a counter instruction the value in t and t + 1, for `ctest` the test in t + 2, and CSTAT the
largest code; in the uniform form every participating lane takes the one result. A uniform load writes its S register or pair, and S0 not.
Every other register stays, and memory is not written (R247, R330, R334, R336, R337, R344, R345, R115). -/
def Obligations.ResultsOfRequests : Prop :=
  ∀ (s : State) (n k : Nat) (sd : Side) (w : Warp) (o : MemOp), s.warp? k = some w →
    let ps := (o.reqs.map (·.pieces)).flatten
    (ps.map (·.lane)).Nodup → (∀ p ∈ ps, p.lane < 32) →
    let got := fun (p : Piece) => p.got.getD []
    let word := fun (p : Piece) (j : Nat) => BitVec.ofNat 32 (leNat (((got p).drop (4 * j)).take 4))
    let narrow := fun (m : MemWidth) (sx : Bool) (p : Piece) =>
      let x := leNat ((got p).take m.bytes)
      BitVec.ofInt 32 (if sx = true ∧ 2 ^ (8 * m.bytes - 1) ≤ x then (x : Int) - 2 ^ (8 * m.bytes) else x)
    let stays := fun (w' : Warp) (t c : Nat) => ∀ r l, l < 32 → (¬(t ≤ r ∧ r < t + c) ∨ ∀ p ∈ ps, p.lane ≠ l) → w'.vreg r l = w.vreg r l
    let after := fun (ok : Warp → Prop) => ∃ w', (s.completeOp n k sd o).warp? k = some w' ∧ ok w' ∧ w'.p = w.p ∧ w'.mode = w.mode ∧
      ∀ b, (s.completeOp n k sd o).byte b = s.byte b
    (∀ m sx t, o.kind = .load m sx t → after fun w' => stays w' t ((m.bytes + 3) / 4) ∧ w'.s = w.s ∧
      ∀ p ∈ ps, (m.bytes < 4 → w'.vreg t p.lane = narrow m sx p) ∧ (4 ≤ m.bytes → ∀ j, j < m.bytes / 4 → w'.vreg (t + j) p.lane = word p j)) ∧
    (∀ m sx t p, o.kind = .loadS m sx t → ps = [p] → m ≠ .q → after fun w' => w'.v = w.v ∧
      (m.bytes ≤ 4 → ∀ r, w'.sreg r = if r = t ∧ t ≠ 0 then narrow m sx p else w.sreg r) ∧
      (m = .d → ∀ r, w'.sreg r = if r = t + 1 then BitVec.ofNat 32 (leNat (got p) / 2 ^ 32)
        else if r = t ∧ t ≠ 0 then BitVec.ofNat 32 (leNat (got p)) else w.sreg r)) ∧
    (∀ op t, o.kind = .atomic op t true → after fun w' => stays w' t (op.bytes / 4) ∧ w'.s = w.s ∧
      ∀ p ∈ ps, ∀ j, j < op.bytes / 4 → w'.vreg (t + j) p.lane = word p j) ∧
    (∀ kd sc seq t, o.kind = .counter kd sc seq t false → after fun w' => stays w' t (if kd = .test then 4 else 2) ∧ w'.s = w.s ∧
      w'.cstat = o.reqs.foldl (fun c r => Nat.max c r.code) 0 ∧
      ∀ p ∈ ps, w'.vreg t p.lane = BitVec.ofNat 32 (leNat (got p)) ∧ w'.vreg (t + 1) p.lane = BitVec.ofNat 32 (leNat (got p) / 2 ^ 32) ∧
        (kd = .test → w'.vreg (t + 2) p.lane = (if leNat p.data ≤ leNat (got p) then 1 else 0) ∧ w'.vreg (t + 3) p.lane = 0)) ∧
    ∀ kd sc seq t p, o.kind = .counter kd sc seq t true → ps = [p] → after fun w' =>
      w'.cstat = o.reqs.foldl (fun c r => Nat.max c r.code) 0 ∧ w'.s = w.s ∧
      (∀ r l, l < 32 → ¬(t ≤ r ∧ r < t + (if kd = .test then 4 else 2)) ∨ o.mask.getLsbD l = false → w'.vreg r l = w.vreg r l) ∧
      ∀ l, o.mask.getLsbD l = true → w'.vreg t l = BitVec.ofNat 32 (leNat (got p)) ∧
        w'.vreg (t + 1) l = BitVec.ofNat 32 (leNat (got p) / 2 ^ 32) ∧
        (kd = .test → w'.vreg (t + 2) l = (if leNat p.data ≤ leNat (got p) then 1 else 0) ∧ w'.vreg (t + 3) l = 0)

/-- What a home does with a counter of value c and operand n: the new value, the value returned and the CSTAT code. A counter never
decreases but by `cinit`, and never wraps (R114, R115). What a home stores for a data atomic with memory value m and operand v (R337,
R338). -/
def Obligations.HomeEffects : Prop :=
  (∀ (busy : Bool) (c n : Nat), c < 2 ^ 64 → n < 2 ^ 64 →
     (c + n < 2 ^ 64 → ctrEffect .add busy c n = (c + n, c, 0)) ∧ (2 ^ 64 ≤ c + n → ctrEffect .add busy c n = (2 ^ 64 - 1, c, 2)) ∧
     ctrEffect .raise busy c n = (max c n, c, 0) ∧
     ctrEffect .init true c n = (c, c, 3) ∧ ctrEffect .init false c n = (n, c, 0) ∧
     (∀ k ∈ [CtrKind.read, .test, .wait], ctrEffect k busy c n = (c, c, 0)) ∧
     ∀ k, k ≠ .init → c ≤ (ctrEffect k busy c n).1 ∧ (ctrEffect k busy c n).1 < 2 ^ 64) ∧
  (∀ (m v : Nat), m < 2 ^ 64 → v < 2 ^ 128 →
     let i32 := fun (n : Nat) => if n % 2 ^ 32 < 2 ^ 31 then ((n % 2 ^ 32 : Nat) : Int) else (n % 2 ^ 32 : Nat) - 2 ^ 32
     atomicEffect .add64 m v = (m + v) % 2 ^ 64 ∧ atomicEffect .fadd64 m v = (floatOp .f64 RMode.plain .add m v 0).1 ∧
     atomicEffect .cas64 m v = (if m = v % 2 ^ 64 then v / 2 ^ 64 else m) ∧
     (v < 2 ^ 64 → atomicEffect .xchg64 m v = v) ∧
     (m < 2 ^ 32 → atomicEffect .cas32 m v = (if m = v % 2 ^ 32 then v / 2 ^ 32 % 2 ^ 32 else m)) ∧
     (m < 2 ^ 32 → v < 2 ^ 32 →
       atomicEffect .add32 m v = (m + v) % 2 ^ 32 ∧ atomicEffect .fadd32 m v = (floatOp .f32 RMode.plain .add m v 0).1 ∧
       i32 (atomicEffect .imin m v) = min (i32 m) (i32 v) ∧ i32 (atomicEffect .imax m v) = max (i32 m) (i32 v) ∧
       atomicEffect .nmin m v = min m v ∧ atomicEffect .nmax m v = max m v ∧ atomicEffect .xchg32 m v = v ∧
       ∀ i, (atomicEffect .and m v).testBit i = (m.testBit i && v.testBit i) ∧
         (atomicEffect .or m v).testBit i = (m.testBit i || v.testBit i) ∧ (atomicEffect .xor m v).testBit i = (m.testBit i != v.testBit i)))

/-! Copies and the matrix array. -/

/-- A copy that passes its checks at issue moves on and holds its slot until the engine accepts it: `copy` reads its descriptor as a load,
`copyl` and `gath` carry what they read. ILLEGAL for a timeline beyond the card's, or with 0x00040000 and the number for a frozen one (R264,
R347, R350, R352 to R354, R412). Once a `copy` has its turn, ALIGN and SCRBOUND are raised at it for its descriptor, before that is read
(R347, R352). -/
def Obligations.CopiesIssue : Prop :=
  (∀ (s : State) (w : Warp) (g : Workgroup) (out clr : Bool) (tl : BitVec 2) (t a : Reg) (la : Look) (e : GathElem), s.runs w →
    s.wg? w.wg = some g →
    let pair := fun (r : Nat) => BitVec.ofNat 64 ((w.sreg (r + 1)).toNat * 2 ^ 32 + (w.sreg r).toNat)
    let desc := pair t.toNat
    let forms := [Instr.copy out clr tl t a la, .copyl clr tl a la, .gath e tl t a la]
    let room := fun i => i = .gath e tl t a la → s.roomFor w true t
    let held := (w.advance s.curSide).setSlot s.curSide { (w.advance s.curSide).slot s.curSide with hold := .copy s.nextOp }
    let issues := fun i kind vas => IssuesOp i s held kind 0 la.toNat fun reqs => reqs.map (·.va) = vas
    (∀ i ∈ forms, g.card.timelines ≤ tl.toNat ∨ ¬room i → Traps i s ⟨.illegal, encode i⟩) ∧
    (tl.toNat < g.card.timelines → tl.toNat ∈ g.frozenTl → ∀ i ∈ forms, room i → Traps i s ⟨.illegal, BitVec.ofNat 32 (0x00040000 + tl.toNat)⟩) ∧
    (tl.toNat < g.card.timelines → tl.toNat ∉ g.frozenTl →
      issues (.copy out clr tl t a la) (.desc out clr tl.toNat ((List.range 8).map fun j => w.sreg (a.toNat + j))) [desc] ∧
      issues (.copyl clr tl a la) (.linear clr tl.toNat (pair a.toNat) (pair (a.toNat + 2)) (w.sreg (a.toNat + 4)).toNat) [] ∧
      (s.roomFor w true t → issues (.gath e tl t a la) (.gather tl.toNat e.bytes (w.sreg a.toNat)
        (((List.range 32).filter fun l => (s.active w).getLsbD l).map fun l =>
          (l, BitVec.ofNat 64 ((w.vreg (t.toNat + 1) l).toNat * 2 ^ 32 + (w.vreg t.toNat l).toNat)))) []))) ∧
  ∀ (s : State) (n k tl : Nat) (sd : Side) (w : Warp) (o : MemOp) (r : Req) (out clr : Bool) (vals : List Word) (earlier : List (Nat × MemOp)),
    s.warp? k = some w → w.waitsNow n = true → o.kind = .desc out clr tl vals → o.owner = .warp k sd → o.reqs = [r] → r.stage = .core →
    let raises := fun (c : TrapCode) => s.drive n o earlier = trapEntry (({ s with ops := s.ops.erase n }).onWarp k fun w =>
      w.setSlot sd { w.slot sd with pc := o.pc, hold := .none }) k sd ⟨c, BitVec.ofNat 32 r.va.toNat⟩
    (r.va.toNat % 128 ≠ 0 → raises .align) ∧
    (r.va.toNat % 128 = 0 → inWindow r.va = true → (s.cardOf w).scrSize < windowOff r.va + 128 → raises .scrbound)

/-- A matrix instruction whose checks pass moves on and stands at the end of its core's array queue, with its operation; a slot with no
sibling issues alone, two slots at one program counter as one, for the lanes of both. `mldw` also issues the load of its source. No byte
of memory, no tile and no plane changes at issue (R358, R361, R364 to R369). -/
def Obligations.MatrixInstructionsEnterTheQueue : Prop :=
  ∀ (s : State) (w : Warp) (g : Workgroup) (tile : BitVec 5) (q : BitVec 2) (t a : Reg) (la : Look) (f : Nat) (ct : Ty) (both : Bool),
    s.runs w → s.wg? w.wg = some g → s.meeting s.curKey w s.curSide = (if both then .merged else .alone) →
    let core := s.curKey / 64
    let queue := s.arrays.get [] core
    queue.length < 8 → g.card.usesArray = true →
    let mask := if both then w.home.mask ||| w.away.mask else s.active w
    let moved := if both then (w.advance s.curSide).advance s.curSide.other else w.advance s.curSide
    let enters := fun (i : Instr) (op : ArrOp) (la' : Nat) => ∃ t load, exec i s = .next t ∧ t.warp? s.curKey = some moved ∧
      t.arrays.get [] core = queue ++ [⟨w.wg, s.curKey, s.curSide, both, op, load, la'⟩] ∧ t.wgs = s.wgs ∧ (∀ b, t.byte b = s.byte b) ∧
      ((∃ wf, op = .ldw wf none) ∧ load = s.nextOp ∧
          (t.ops.find? load).map (fun o => (o.kind, o.reqs.map fun r => (r.va, r.pieces.map (·.size)))) =
            some (.mldw, [(BitVec.ofNat 64 (windowBase + (w.sreg a.toNat).toNat), [ldwBytes (wfOf f)])]) ∨
        (∀ wf, op ≠ .ldw wf none) ∧ load = 0 ∧ t.ops = s.ops)
    let rows := fun (r n : Nat) => ((List.range 32).filter fun l => mask.getLsbD l).map fun l => (l, (List.range n).map fun j => w.vreg (r + j) l)
    let x := (w.sreg a.toNat).toNat
    enters (.mswap la) .swap 15 ∧
    (tile.toNat < g.card.tiles → enters (.mzero tile la) (.zero tile.toNat) 15) ∧
    (tile.toNat < g.card.tiles → t.toNat + 32 ≤ g.card.regs → enters (.mlda tile q t la) (.lda tile.toNat q.toNat (rows t.toNat 32)) 15) ∧
    (Ty.ofCode (modeCT w.mode) = some ct → tile.toNat < g.card.tiles → t.toNat + drainRegs ct ≤ g.card.regs →
      (ct.bits = 64 → t.toNat % 2 = 0 ∧ tile.toNat % 2 = 0 ∧ tile.toNat + 1 < g.card.tiles) →
      enters (.mdrn tile q t la) (.drn tile.toNat q.toNat t.toNat mask w.mode) la.toNat) ∧
    (t.toNat < g.card.regs → voteWord w mask t = .ok f → wordOk f = true → x % 128 = 0 → x + ldwBytes (wfOf f) ≤ g.card.scrSize →
      enters (.mldw t a la) (.ldw (wfOf f) none) 15) ∧
    (tile.toNat < g.card.tiles → a.toNat < g.card.regs → voteWord w mask a = .ok f → wordOk f = true →
      formatAtIssue g ((queue.filter fun e => e.wg = w.wg).map (·.op)) = some (wfOf f) →
      (accOf f = 2 → qValid w.modq.toNat = true) → t.toNat + groupRegs (afOf f) ≤ g.card.regs → t.toNat + groupRegs (afOf f) ≤ 256 →
      (8 ≤ afOf f → t.toNat % 2 = 0) → (accOf f = 1 ∨ accOf f = 2 → tile.toNat % 2 = 0 ∧ tile.toNat + 1 < g.card.tiles) →
      enters (.mstr tile t a la) (.str tile.toNat f w.modq.toNat (rows t.toNat (groupRegs (afOf f)))) 15)

/-- ARRAY_QUEUE_EXECUTE takes the oldest entry of its core's queue: `mswap` exchanges the planes, `mzero` clears its tile, `mlda` sets a
quarter of it from the registers of the lanes, `mstr` every element by R366, of one tile or of a pair for a 64-bit accumulator, exactly
modulo q for MOD64; `mldw` the plane that is not active from the bytes its load returned, with the scales of its blocks, the others staying;
of an `mstr` of numbers, group by group, the exact sum is rounded and added, and a NaN among them gives the canonical NaN (R225, R241);
`mdrn` the registers of its lanes, each column rounded or converted under CT, the 64-bit ones raw (R226, R234). An `mldw` whose bytes have not come waits, and one whose load is gone leaves without effect (R357, R358, R364
to R369). -/
def Obligations.ArrayTakesItsOldest : Prop :=
  ∀ (s : State) (core : Nat) (e : ArrEntry) (rest : List ArrEntry) (g : Workgroup), s.arrays.get [] core = e :: rest →
    s.wg? e.wg = some g → s.errors = [] →
    let legal := fun (word : Nat) => wordOk word = true ∧ g.activePlane.fmt = some (wfOf word)
    let summed := fun (fm : Fmt) (word : Nat) (rows : List (Nat × List Word)) (i j acc out : Nat) =>
      let af := afOf word
      let wf := wfOf word
      let row := fun (r : Nat) => (((rows.find? fun r => r.1 = i).map (·.2)).getD []).getD r 0
      let width := fun (c : Nat) => if c ≤ 1 then 16 else if c ≤ 5 then 8 else if c ≤ 7 then 4 else 64
      let depth := if wf ≤ 1 then 64 else if wf ≤ 5 then 128 else if wf ≤ 7 then 256 else 16
      let size := if wf ≤ 1 then 16 else if wf ≤ 7 then 32 else 4
      let byte := fun (x : Nat) => (g.activePlane.elems.get 0 (128 * j + x)).toNat
      let x := fun (k : Nat) => if width af = 64 then (row (2 * k + 1)).toNat * 2 ^ 32 + (row (2 * k)).toNat
        else (row (width af * k / 32)).toNat / 2 ^ (width af * k % 32) % 2 ^ width af
      let y := fun (k : Nat) => if width wf = 4 then byte (k / 2) / 2 ^ (4 * (k % 2)) % 16
        else ((List.range (width wf / 8)).map fun z => byte (width wf / 8 * k + z) * 2 ^ (8 * z)).sum
      let xs := fun (k : Nat) => (row (32 + k / 128)).toNat / 2 ^ (8 * (k / 32 % 4)) % 256
      let ys := fun (k : Nat) => (g.activePlane.scales.get 0 (depth / 32 * j + k / 32)).toNat
      ((∀ k, k < depth → operandFinite af (xs k) x k ∧ operandFinite wf (ys k) y k) → Accumulated fm size (depth / size)
        (fun k => operandNumber af (xs k) x k * operandNumber wf (ys k) y k) acc out) ∧
      ((∃ k, k < depth ∧ (operandNaN af (xs k) x k ∨ operandNaN wf (ys k) y k)) → out = fm.nan)
    let drained := fun (ct : Ty) (r : RMode) (c : Nat) (out : Nat × Flags) =>
      (Fmt.f32.isNumber c → (∀ f, ct.fmt? = some f → Rounded f r (.of (Fmt.f32.value c)) out ∧
          (Fmt.f32.value c = 0 → out = (Fmt.f32.sign c * f.signBit, 0))) ∧
        (ct.isInt = true → ToInteger ct r.rm (Fmt.f32.value c) out)) ∧
      (∀ n : Bool, c = Fmt.f32.withSign n Fmt.f32.infMag → (∀ f, ct.fmt? = some f → out = f.limit r n 0) ∧
        (ct.isInt = true → out.1 < 2 ^ ct.bits ∧ intVal ct out.1 = (if n then ct.least else ct.greatest) ∧ out.2 = .nv)) ∧
      (Fmt.f32.isNaN c → (∀ f, ct.fmt? = some f → out = (f.nan, if Fmt.f32.isSnan c then .nv else 0)) ∧ (ct.isInt = true → out = (0, .nv)))
    let becomes := fun (ok : Workgroup → Prop) => ∃ t g', exec (.arrayQueueExecute core) s = .next t ∧ t.arrays.get [] core = rest ∧
      t.wg? e.wg = some g' ∧ ok g' ∧ t.warps = s.warps ∧ ∀ b, t.byte b = s.byte b
    (e.op = .swap → becomes fun g' => g' = { g with activeB := !g.activeB }) ∧
    (∀ n, e.op = .zero n → becomes fun g' => (∀ i x, i < 32 → x < 128 → g'.tileWord n i x = 0) ∧
      ∀ n' i x, i < 32 → x < 128 → n' ≠ n → g'.tileWord n' i x = g.tileWord n' i x) ∧
    (∀ n quarter rows, e.op = .lda n quarter rows → quarter < 4 → becomes fun g' =>
      ∀ n' i x, i < 32 → x < 128 → g'.tileWord n' i x = if n' = n ∧ 32 * quarter ≤ x ∧ x < 32 * quarter + 32 then
        ((rows.find? fun r => r.1 = i).map fun r => r.2.getD (x - 32 * quarter) 0).getD 0 else g.tileWord n' i x) ∧
    (∀ wf bytes, e.op = .ldw wf (some bytes) → 16384 ≤ bytes.length → becomes fun g' => g'.activePlane = g.activePlane ∧
      let p := if g'.activeB then g'.planeA else g'.planeB
      let old := if g.activeB then g.planeA else g.planeB
      p.fmt = some wf ∧ (∀ i, i < 16384 → p.elems.get 0 i = bytes.getD i 0) ∧
        ∀ i, p.scales.get 0 i = if 4 ≤ wf ∧ wf ≤ 7 ∧ 16384 + i < bytes.length then bytes.getD (16384 + i) 0 else old.scales.get 0 i) ∧
    (∀ n word q rows, e.op = .str n word q rows → accOf word = 0 → becomes fun g' =>
      (∀ i j, i < 32 → j < 128 → g'.tileWord n i j = BitVec.ofNat 32 (strElement g.activePlane word q
          (((rows.find? fun r => r.1 = i).map (·.2)).getD []) j (g.tileWord n i j).toNat) ∧
        (legal word → summed .f32 word rows i j (g.tileWord n i j).toNat (g'.tileWord n i j).toNat)) ∧
      ∀ n' i j, i < 32 → j < 128 → n' ≠ n → g'.tileWord n' i j = g.tileWord n' i j) ∧
    (∀ n word q rows, e.op = .str n word q rows → accOf word ≠ 0 → becomes fun g' =>
      let row := fun (i : Nat) => ((rows.find? fun r => r.1 = i).map (·.2)).getD []
      (∀ i j, i < 32 → j < 128 →
        g'.tile64 n i j = BitVec.ofNat 64 (strElement g.activePlane word q (row i) j (g.tile64 n i j).toNat) ∧
        (legal word → accOf word = 1 → summed .f64 word rows i j (g.tile64 n i j).toNat (g'.tile64 n i j).toNat) ∧
        (accOf word = 2 → afOf word = 9 → g.activePlane.fmt = some 9 → 0 < q → q < 2 ^ 63 → (g'.tile64 n i j).toNat = ((g.tile64 n i j).toNat +
          ((List.range 16).map fun k => (((row i).getD (2 * k + 1) 0).toNat * 2 ^ 32 + ((row i).getD (2 * k) 0).toNat) *
            leNat ((List.range 8).map fun b => g.activePlane.elems.get 0 (128 * j + 8 * k + b))).sum) % q)) ∧
      ∀ n' i j, i < 32 → j < 128 → n' ≠ n → n' ≠ n + 1 → g'.tileWord n' i j = g.tileWord n' i j) ∧
    (∀ n quarter t mask mode w, e.op = .drn n quarter t mask mode → s.warp? e.key = some w → ∃ u,
      exec (.arrayQueueExecute core) s = .next u ∧ u.arrays.get [] core = rest ∧ u.wgs = s.wgs ∧
      u.warp? e.key = some (drainWarp g n quarter t mask mode w) ∧ (∀ b, u.byte b = s.byte b) ∧
      ∀ ct, Ty.ofCode (modeCT mode) = some ct → t + drainRegs ct ≤ 256 → quarter < 4 →
        let v := drainWarp g n quarter t mask mode w
        let at' := fun (m : Nat) => 32 * quarter + m
        (∀ r l, r < 256 → l < 32 → ¬inLanes t (drainRegs ct) mask r l → v.vreg r l = w.vreg r l) ∧ v.s = w.s ∧ v.p = w.p ∧
        (ct.bits = 64 → v.mode = w.mode ∧ ∀ l m, l < 32 → m < 32 → mask.getLsbD l = true →
          (v.vreg (t + 2 * m + 1) l).toNat * 2 ^ 32 + (v.vreg (t + 2 * m) l).toNat = (g.tile64 n l (at' m)).toNat) ∧
        (ct.bits < 64 → ∃ out : Nat → Nat → Nat × Flags,
          (∀ l m, l < 32 → m < 32 → mask.getLsbD l = true → drained ct (modeRM mode) (g.tileWord n l (at' m)).toNat (out l m) ∧
            (v.vreg (t + m * ct.bits / 32) l).toNat / 2 ^ (m * ct.bits % 32) % 2 ^ ct.bits = (out l m).1) ∧
          RaisesFlags w v fun b => ∃ l m, l < 32 ∧ m < 32 ∧ mask.getLsbD l = true ∧ (out l m).2.getLsbD b = true)) ∧
    ∀ wf, e.op = .ldw wf none → (s.sourceDue e = true → exec (.arrayQueueExecute core) s = .next s) ∧
      (s.sourceDue e = false → ∃ t, exec (.arrayQueueExecute core) s = .next t ∧ t.arrays.get [] core = rest ∧ t.wgs = s.wgs ∧ t.warps = s.warps)

/-! Translation, records, timelines, commands. -/

/-- WALK takes the oldest entry of a die's miss queue, no soft error standing. When the walk passes and the leaf permits the access, the
core's TLB holds the translation and the leaf's A bit is set; the frame of an aperture-4 leaf is asked about at its peer, the entry
waiting at the end of the queue (log 64). When it parks, or passes to a leaf that does not permit the access, whose A bit is set, a quiet
request ends without effect, and any other stands in the dugout of its die under its cause: on the die while entries last, in the overflow area
after that, and at the unit when that is full too. When it freezes its master, the workgroup stops with status FROZEN, or the timeline of the
copy that made the request stands at 2^64 - 1 and is frozen, the workgroup running on; the request neither parks nor is performed (R23, R26,
R27, R30, R31, R34, R35, R139, R141, R154, R155, R410, R412). -/
def Obligations.WalkAnswers : Prop :=
  ∀ (s : State) (die : Nat) (m : Miss) (rest : List Miss) (ref : ReqRef) (o : MemOp) (r : Req),
    (s.dtu die).missQ = m :: rest → m.refs = [ref] → m.asked = none → s.reqOf ref = some (o, r) → m.page = pageOf r.va →
    m.world = o.world → die = State.dieOfCore o.core → s.errors = [] →
    let answers := fun (ok : State → Prop) => ∃ t, exec (.walk die) s = .next t ∧ ok t
    let stage := fun (t : State) => (t.reqOf ref).map (·.2.stage)
    let units := Nat.max 1 (((r.pieces.foldl (fun n p => n + p.data.length) 0) + 127) / 128)
    let onDie := State.usedUnits (s.dtu die) false + units ≤ 8192
    let overflow := State.usedUnits (s.dtu die) true + units ≤ 262144
    let stands := fun (t : State) (c : Cause) => ∃ p, (t.dtu die).parked = (s.dtu die).parked ++ [p] ∧ p.ref = ref ∧ p.world = o.world ∧
      p.page = pageOf r.va ∧ p.partition = o.partition ∧ p.cause = c ∧ p.overflow = decide (¬onDie) ∧ stage t = some (.parked die p.seq)
    (∀ e, s.walk die o.world o.partition r.va = .ok e → s.heldBack e = false →
      (e.ap ≠ 4 → permCause (o.permAt ref.2) e.ap e.attr = none → answers fun t => (t.dtu die).missQ = rest ∧
        attrBit (t.mem.readNat e.leafPa 8) 14 = true ∧
        ∃ u ∈ t.tlbOf o.core, u.world = e.world ∧ u.vpn = e.vpn ∧ u.size = e.size ∧ u.ap = e.ap ∧ u.pa = e.pa) ∧
      (∀ c, e.ap ≠ 4 → permCause (o.permAt ref.2) e.ap e.attr = some c →
        (o.kind.quiet = true → answers fun t => (t.dtu die).missQ = rest ∧ (t.dtu die).parked = (s.dtu die).parked ∧ stage t = some .done) ∧
        (o.kind.quiet = false → (s.dtu die).waiting = [] → onDie ∨ overflow → answers fun t => (t.dtu die).missQ = rest ∧
          attrBit (t.mem.readNat e.leafPa 8) 14 = true ∧ stands t c)) ∧
      (e.ap = 4 → s.mayAsk die e = true → answers fun t => t.mem = s.mem ∧ stage t = some r.stage ∧
        (t.dtu die).missQ = rest ++ [{ m with asked := some (e, (s.dtu die).asks + 1) }] ∧ (t.dtu die).asks = (s.dtu die).asks + 1)) ∧
    (∀ c, s.walk die o.world o.partition r.va = .park c →
      (o.kind.quiet = true → answers fun t => (t.dtu die).missQ = rest ∧ (t.dtu die).parked = (s.dtu die).parked ∧ stage t = some .done) ∧
      (o.kind.quiet = false → (s.dtu die).waiting = [] → onDie ∨ overflow → answers fun t => (t.dtu die).missQ = rest ∧ t.mem = s.mem ∧ stands t c) ∧
      (o.kind.quiet = false → (s.dtu die).waiting ≠ [] ∨ ¬(onDie ∨ overflow) → answers fun t => (t.dtu die).missQ = rest ∧ t.mem = s.mem ∧
        (t.dtu die).parked = (s.dtu die).parked ∧ ∃ p, (t.dtu die).waiting = (s.dtu die).waiting ++ [p] ∧ p.ref = ref ∧ p.cause = c)) ∧
    ∀ world pa g, s.walk die o.world o.partition r.va = .freeze world pa → s.wg? o.wg = some g →
      let neither := fun (t : State) => ∀ p ∈ (t.dtu die).parked, p ∈ (s.dtu die).parked
      (o.kind.quiet = true → answers fun t => (t.dtu die).missQ = rest ∧ t.wgs = s.wgs ∧ neither t ∧ stage t = some .done) ∧
      (o.kind.quiet = false → (∀ c, o.owner ≠ .copy c) → answers fun t => neither t ∧
        t.wg? o.wg = some { g with phase := .stopping, status := .frozen } ∧ ∀ h, h ≠ o.wg → t.wg? h = s.wg? h) ∧
      ∀ cid x, o.kind.quiet = false → o.owner = .copy cid → s.copies.find? cid = some x → answers fun t => neither t ∧
        ∃ g', t.wg? o.wg = some g' ∧ g'.phase = g.phase ∧ x.tl ∈ g'.frozenTl ∧ (∀ i, i < 8 → g'.scr.get 0 (8 * x.tl + i) = 0xFF) ∧
          ∀ h, h ≠ o.wg → t.wg? h = s.wg? h

/-- PARK_RECORD posts the record of a page once its window has passed, when no record kept earlier stands before it; DUGOUT_RETURN brings
the oldest overflow entry back when it fits; L1_LIFETIME_END takes out the sectors of a core that were filled 65,536 cycles ago, and no
others; TIMELINE_ADVANCE raises a timeline counter to the number of its oldest copy, once that is complete (R146, R148, R154, R95, R102,
R129). -/
def Obligations.RecordsReturnsAndTimelines : Prop :=
  (∀ (s : State) (die pid : Nat) (g : ParkPage) (rest : List ParkPage) (base slots produced consumed : Nat), s.errors = [] →
    (s.dtu die).owed = [] → (∀ y ∈ s.polls, y.who ≠ .repair die g.first.partition) → (s.dtu die).pages = g :: rest → g.posted = none → g.first.cause ≠ .hostOwned →
    g.since + s.reg (Reg.dtu die 0x208) % 2 ^ 16 ≤ s.clk → State.nextId (s.dtu die) ((s.dtu die).pages.length + 1) (s.dtu die).nextPark = some pid →
    s.repairRing die g.first.partition = some (base, slots, produced, consumed) →
    let n := s.mem.readNat produced 8
    let slot := base + 32 * (n % slots)
    n - s.mem.readNat consumed 8 < slots → n + 1 < 2 ^ 64 → (produced + 8 ≤ slot ∨ slot + 32 ≤ produced) →
    let bytes := State.parkRecord g.first pid (Nat.min (State.onPage (s.dtu die) g).length 65535)
    ∃ t, exec (.parkRecord die) s = .next t ∧ bytes.length = 32 ∧ t.mem.readBytes slot 32 = bytes ∧ t.mem.readNat produced 8 = n + 1 ∧
      ∀ a, ¬(slot ≤ a ∧ a < slot + 32) → ¬(produced ≤ a ∧ a < produced + 8) → t.byte a = s.byte a) ∧
  (∀ (s : State) (die : Nat) (p : Parked), (s.dtu die).parked.find? (·.overflow) = some p →
    (State.usedUnits (s.dtu die) false + p.units ≤ 8192 → ∃ t, exec (.dugoutReturn die) s = .next t ∧ t.mem = s.mem ∧
      (t.dtu die).parked = (s.dtu die).parked.map fun q => if q = p then { p with overflow := false } else q) ∧
    (8192 < State.usedUnits (s.dtu die) false + p.units → exec (.dugoutReturn die) s = .next s)) ∧
  (∀ (s : State) (core : Nat), ∃ t, exec (.l1LifetimeEnd core) s = .next t ∧
    (∀ h, h ∈ t.l1Of core ↔ h ∈ s.l1Of core ∧ s.clk < h.filled + 65536) ∧ (∀ c, c ≠ core → t.l1Of c = s.l1Of c) ∧ t.mem = s.mem) ∧
  ∀ (s : State) (g tl cid : Nat) (c : Copy) (x : Workgroup),
    oldest (fun (e : Nat × Copy) => e.2.number) (s.copies.filter fun e => e.2.wg = g && e.2.tl = tl) = some (cid, c) →
    s.wg? g = some x → c.dropped = false → c.number < 2 ^ 64 →
    (s.copyDone cid c = false → exec (.timelineAdvance g tl) s = .next s) ∧
    (s.copyDone cid c = true →
      let v := Nat.max (leNat (State.scrRead x (8 * tl) 8)) c.number
      ∃ t x', exec (.timelineAdvance g tl) s = .next t ∧ t.copies = s.copies.erase cid ∧ t.wg? g = some x' ∧
        (∀ i, i < 8 → x'.scr.get 0 (8 * tl + i) = BitVec.ofNat 8 (v / 2 ^ (8 * i))) ∧
        (∀ a, ¬(8 * tl ≤ a ∧ a < 8 * tl + 8) → x'.scr.get 0 a = x.scr.get 0 a) ∧ t.mem = s.mem)

/-- What the commands of a ring do when they stand next and pass their checks: INVAL leaves no translation of its pages in the cores' TLBs,
the last-level TLB and the walk cache of each of its dies; POT-SET, OWN-HOST and OWN-DEVICE set the entry or bit of every frame of the range and
of no other, once no request and no service call is on its way; RELEASE takes a parked request whose walk now passes out of the dugout; ABANDON
ends the task; KEY-BIND and KEY-RETIRE bind and free a key slot (R38, R40, R150, R152, R409). That KEY-BIND binds none outside production is
the model's choice (log 89). -/
def Obligations.CommandsTakeEffect : Prop :=
  ∀ (s : State) (die part : Nat) (c : Cmd), s.NextCommand die part c →
    let dies := if c.flags % 2 = 1 then List.range 8 else [die]
    let quiet := s.calls = [] ∧ (∀ e ∈ s.hosts, e.2.far = []) ∧ ∀ e ∈ s.ops, e.2.kind.isSvc = false ∧
      ∀ r ∈ e.2.reqs, r.stage ≠ .walked ∧ (∀ n, r.stage ≠ .sent n) ∧ (r.stage = .waiter → ∀ x, r.xl = some x → x.ap ≠ 4)
    let inRange := fun (f : Nat) => c.va ≤ f ∧ f < c.va + c.count
    let answers := fun (i : Instr) (ok : State → Prop) => ∃ t, exec i s = .next t ∧ ok t
    let first := c.va % 2 ^ 57 / 2 ^ 15
    let apart := fun (n k : Nat) => first + c.count ≤ n * k ∨ n * k + k ≤ first
    let leaves := fun (t : State) (ok : TlbEntry → Prop) (walk : WalkEntry → Prop) =>
      (∀ core u, State.dieOfCore core ∈ dies → u ∈ t.tlbOf core → ok u) ∧
      ∀ d ∈ dies, (∀ u ∈ (t.dtu d).tlb, ok u) ∧ ∀ e ∈ (t.dtu d).walkCache, walk e
    (c.op = 1 → answers (.invalVa die part) fun t => leaves t (fun u => u.world = c.world → apart u.vpn (2 ^ (u.size - 15)))
      fun e => e.world = c.world → apart e.key (2 ^ (12 * e.level))) ∧
    (c.op = 2 → answers (.invalWorld die part) fun t => leaves t (fun u => u.world ≠ c.world) fun e => e.world ≠ c.world) ∧
    (c.op = 3 → quiet → answers (.potSet die part) fun t =>
      (∀ f, inRange f → t.potEntry c.aperture f = c.entry) ∧ ∀ ap f, f < 2 ^ 40 → ¬(ap = c.aperture ∧ inRange f) → t.potEntry ap f = s.potEntry ap f) ∧
    (c.op = 4 → quiet → answers (.ownHost die part) fun t =>
      (∀ f, inRange f → t.hostBit c.aperture f = true) ∧ ∀ ap f, f < 2 ^ 40 → ¬(ap = c.aperture ∧ inRange f) → t.hostBit ap f = s.hostBit ap f) ∧
    (c.op = 5 → answers (.ownDevice die part) fun t =>
      (∀ f, inRange f → t.hostBit c.aperture f = false) ∧ ∀ ap f, f < 2 ^ 40 → ¬(ap = c.aperture ∧ inRange f) → t.hostBit ap f = s.hostBit ap f) ∧
    (c.op = 6 → ∀ p o r e, c.flags % 2 = 0 → (s.dtu die).parked = [p] → (s.dtu die).waiting = [] → s.reqOf p.ref = some (o, r) →
      (∀ m ∈ (s.dtu die).missQ, p.ref ∉ m.refs) → p.world = c.world → first ≤ p.page → p.page < first + c.count →
      s.walk die o.world o.partition r.va = .ok e → permCause (o.permAt p.ref.2) e.ap e.attr = none →
      answers (.release die part) fun t => (∀ q ∈ (t.dtu die).parked, q.ref ≠ p.ref) ∧ ∀ q, t.reqOf p.ref = some q → q.2.isParked = false) ∧
    (c.op = 7 → ∀ root u, List.find? (fun (e : Nat × Task) => e.2.id = c.va % 2 ^ 32 && e.2.world = c.world) s.tasks = some (root, u) →
      s.tasks.find? root = some u → u.root = none → answers (.abandon die part) fun t =>
        ((t.tasks.find? root).map fun v => (v.cancelled, v.again, v.status)) = some (true, [], .abandoned)) ∧
    (c.op = 8 → s.reg (Reg.module 0x230) ≠ 2 → answers (.keyBind die part) fun t => t.keys = s.keys) ∧
    (c.op = 8 → s.reg (Reg.module 0x230) = 2 → ∀ i, s.keySlot c.world = none → ((List.range 1024).find? fun i => (s.keys.find? i).isNone) = some i →
      answers (.keyBind die part) fun t => t.keys.find? i = some ⟨c.world, s.draws + 1, 0⟩ ∧ ∀ j, j ≠ i → t.keys.find? j = s.keys.find? j) ∧
    (c.op = 9 → ∀ i k, s.keySlot c.world = some (i, k) → s.worldUsed c.world = false →
      answers (.keyRetire die part) fun t => t.keys.find? i = none ∧ ∀ j, j ≠ i → t.keys.find? j = s.keys.find? j)

/-! The dispatcher. -/

/-- What the dispatcher does with the packet at the head of an enabled queue that has begun none, no soft error standing. A LAUNCH whose
turn it is starts its task, or ends it with ILLEGAL when its card breaks a limit; a FENCE is begun and waits; FENCE_MET goes on past one
all of whose thresholds have been met, and waits while one has not; a SIGNAL adds its value; a packet of no type is skipped and counted, and
a post that stood there is no longer waited for by its poster. Each moves consumed over its slots (R198, R202 to R205, R211, R212). -/
def Obligations.DispatcherServesPackets : Prop :=
  (∀ (s : State) (q : Nat) (x : Queue), s.openQueue q = some x → s.pending x.entry ≠ 0 → s.errors = [] →
     let b := s.slotBytes x.entry 0
     let taken := s.counterOf x.entry.consumed
     let moves := fun (t : State) (n : Nat) => taken + n < 2 ^ 64 → t.counterOf x.entry.consumed = taken + n
     let answers := fun (i : Instr) (ok : State → Prop) => ∃ t, exec i s = .next t ∧ ok t
     (field b 0 1 = 1 → launchOk b = true → s.nextLaunch (q / 32) = some q → (∀ p ∈ s.posts, p.place ≠ some (q, taken)) →
       let card := Card.ofBytes (s.mem.readBytes (formKey (field b 8 8)) 64)
       let cardAt := field b 8 8
       let good := s.worldPart (q / 32) (field b 2 2) = some x.entry.partition ∧ card.ok = true ∧
         s.ownCheck (field b 2 2) x.entry.partition (cardAt / 2 ^ 56 % 8) (cardAt % 2 ^ 55 / 2 ^ 15) = none ∧
         (s.worldConf (q / 32) (field b 2 2) = true → (s.keySlot (field b 2 2)).isSome = true)
       card.residency = 0 → answers (.launch q) fun t => moves t 1 ∧ ∃ u, t.tasks.find? (Map.nextKey s.tasks) = some u ∧
         u.id = q * 2 ^ 24 + (x.launches % (2 ^ 24 - 1) + 1) ∧ u.queue = q ∧ u.world = field b 2 2 ∧ u.partition = x.entry.partition ∧
         u.priority = field b 1 1 ∧ u.bound = field b 4 4 ∧ u.card = card ∧ u.counter = field b 0x10 8 ∧ u.record = field b 0x18 8 ∧
         u.live = 0 ∧ u.parent = none ∧ (good → u.cancelled = false ∧ u.status = .ok ∧ u.next = List.replicate card.stages 0) ∧
         (¬good → u.cancelled = true ∧ u.status = .illegal)) ∧
     (field b 0 1 ∉ [1, 2, 3] → answers (.launch q) fun t => moves t 1 ∧
       ((∀ p ∈ s.posts, p.place ≠ some (q, taken)) → t.tasks = s.tasks ∧ t.posts = s.posts) ∧
       (∀ p, s.posts = [p] → p.published = true → p.place = some (q, taken) → t.posts = [] ∧ ∀ n, t.tasks.find? n =
         if n = p.task then (s.tasks.find? n).map fun u => { u with children := u.children - 1 } else s.tasks.find? n) ∧
       (s.waiters = [] → t.reg (Reg.dispatcher (q / 32) 0x18) = Nat.min (s.reg (Reg.dispatcher (q / 32) 0x18) + 1) (2 ^ 64 - 1))) ∧
     (let n := fenceSlots (field b 1 1)
      let all := ((List.range n).map (s.slotBytes x.entry)).flatten
      field b 0 1 = 2 → n ≤ s.pending x.entry → fenceOk all = true → answers (.fence q) fun t => t.mem = s.mem ∧
       (t.queues.find? q).map Queue.busy = some (.fence n ((fenceEntries all).filter fun e => s.counterOf e.1 < e.2))) ∧
     (field b 0 1 = 3 → signalOk b = true →
       let at' := formKey (field b 8 8)
       (at' + 8 ≤ formKey x.entry.consumed ∨ formKey x.entry.consumed + 8 ≤ at') → answers (.signal q) fun t => moves t 1 ∧
         t.mem.readNat at' 8 = Nat.min (s.mem.readNat at' 8 + field b 0x10 8) (2 ^ 64 - 1))) ∧
  (∀ (s : State) (q n : Nat) (es : List (Nat × Nat)) (x : Queue), s.queues.find? q = some x → x.enabled = true → x.busy = .fence n es →
     s.errors = [] → (es ≠ [] → exec (.fenceMet q) s = .next s) ∧
     (es = [] → s.counterOf x.entry.consumed + n < 2 ^ 64 → ∃ t, exec (.fenceMet q) s = .next t ∧
       t.counterOf x.entry.consumed = s.counterOf x.entry.consumed + n ∧ t.queues.find? q = some { x with busy := .none } ∧
       ∀ a, ¬(formKey x.entry.consumed ≤ a ∧ a < formKey x.entry.consumed + 8) → t.byte a = s.byte a))

/-- POST_PUBLISH of a post that has reached its dispatcher, no soft error standing: it takes the index that reserved holds; once producers
before it have published and there is room, and not before, it writes its LAUNCH in that slot and no other byte but produced, which it advances;
a post that names no queue is refused with ILLEGAL and its selector, at once or, when its warp is in a handler, once the slot runs (R134, R206,
R386). -/
def Obligations.PostsArePublished : Prop :=
  ∀ (s : State) (n : Nat) (p : Post), s.posts.find? (fun p => p.id = n && p.arrived && !p.published) = some p → s.errors = [] →
    (∀ y ∈ s.polls, y.who ≠ .post n) →
    (∀ q i x u, s.queues.find? q = some x → s.tasks.find? p.task = some u → p.place = some (q, i) →
      let e := x.entry
      let slot := e.base + 64 * (i % e.slots)
      let prod := formKey e.produced
      (i ≤ s.counterOf e.produced → i < s.counterOf e.consumed + e.slots → s.counterOf e.produced + 1 < 2 ^ 64 →
        (prod + 8 ≤ slot ∨ slot + 64 ≤ prod) → ∃ t, exec (.postPublish n) s = .next t ∧ t.counterOf e.produced = s.counterOf e.produced + 1 ∧
          t.mem.readBytes slot 64 = leBytes 1 1 ++ leBytes 1 u.priority ++ leBytes 2 u.world ++ leBytes 4 u.bound ++ leBytes 8 p.cardPa ++
            leBytes 8 u.counter ++ leBytes 8 u.record ++ leBytes 32 0 ∧
          (∀ a, ¬(slot ≤ a ∧ a < slot + 64) → ¬(prod ≤ a ∧ a < prod + 8) → t.byte a = s.byte a) ∧
          { p with published := true } ∈ t.posts ∧ t.tasks = s.tasks) ∧
      (s.counterOf e.produced < i ∨ s.counterOf e.consumed + e.slots ≤ i → exec (.postPublish n) s = .next s)) ∧
    (∀ q x, p.place = none → p.refused = false → s.postQueue p = some (q, x) → s.postBefore p q = false → ∃ t p', exec (.postPublish n) s = .next t ∧
      p' ∈ t.posts ∧ p'.id = n ∧ p'.place = some (q, s.counterOf x.entry.reserved)) ∧
    ∀ w, p.place = none → s.postQueue p = none → s.warp? p.warp = some w →
      (w.waitsNow p.id = true → (s.cardOf w).handler.toNat % 4 = 0 → ∃ t, exec (.postPublish n) s = .next t ∧
        (∀ y ∈ t.posts, y.id ≠ n) ∧ ∃ w', t.warp? p.warp = some w' ∧ w'.trapPc = p.pc ∧ w'.trapCode = 0x01 ∧
          w'.trapInfo = BitVec.ofNat 32 (0x00030000 + p.sel.toNat)) ∧
      (w.waitsNow p.id = false → State.framed w p.id = true → ∃ t, exec (.postPublish n) s = .next t ∧ t.warps = s.warps ∧
        { p with refused := true } ∈ t.posts)

/-- WORKGROUP_DISPATCH starts the next workgroup of a task on a core with room: its warps stand at the entry of the card with all lanes,
every register zero (R192, R207). WORKGROUP_END takes one whose warps have ended and whose work is done off its core, and counts it;
TASK_END writes the record of a task that is done, then adds 1 to its counter (R211, R212). That the L1 of the core is empty after a dispatch
is the model's choice (log 44), and so is the use of a counter's or record's address cut to its aperture and an aligned offset (log 48). -/
def Obligations.WorkgroupsStartAndEnd : Prop :=
  (∀ (s : State) (key core st linear : Nat) (u : Task), s.tasks.find? key = some u → s.placeable key u = some ((st, linear), core) →
    s.outranked u.priority = false → ∃ t g, exec (.workgroupDispatch key) s = .next t ∧ t.wg? s.nextOrder = some g ∧
      g.stage = st ∧ g.linear = linear ∧ g.core = core ∧ g.card = u.card ∧ g.task = key ∧ g.world = u.world ∧ g.phase = .running ∧
      g.scr = [] ∧ g.tiles = [] ∧ t.mem = s.mem ∧ t.l1Of core = [] ∧
      ∀ i k, (s.freeSlots core u.card.warps)[i]? = some k → i < u.card.warps →
        t.warp? (64 * core + k) = some (Warp.start s.nextOrder i u.card.entry false)) ∧
  (∀ (s : State) (g : Nat) (x : Workgroup) (u : Task), s.wg? g = some x → s.tasks.find? x.task = some u → s.wgBusy g x = false →
    x.phase = .stopping ∨ (x.phase = .running ∧ s.warps.any (fun e => e.2.wg = g) = false) → ∃ t v, exec (.workgroupEnd g) s = .next t ∧
      t.wg? g = none ∧ t.tasks.find? x.task = some v ∧ v.live = u.live - 1 ∧ (x.status ≠ .ok → u.root = none → u.status = .ok →
        v.status = x.status ∧ v.failStage = x.stage ∧ v.failLinear = x.linear)) ∧
  ∀ (s : State) (key : Nat) (u : Task), s.tasks.find? key = some u → s.taskDone key u = true → u.parent = none → s.errors = [] →
    let apart := formKey u.counter + 8 ≤ formKey u.record ∨ formKey u.record + 32 ≤ formKey u.counter
    ∃ t, exec (.taskEnd key) s = .next t ∧ t.tasks.find? key = none ∧
      (u.record ≠ 0 → u.counter = 0 ∨ apart → t.mem.readBytes (formKey u.record) 32 = leBytes 4 u.id ++ leBytes 1 u.status.code ++
        leBytes 1 u.status.trapCode ++ leBytes 2 u.failStage ++ leBytes 8 u.ended ++ leBytes 8 u.failLinear ++ leBytes 4 u.missed ++ leBytes 4 0) ∧
      (u.counter ≠ 0 → u.record = 0 ∨ apart → t.mem.readNat (formKey u.counter) 8 = Nat.min (s.mem.readNat (formKey u.counter) 8 + 1) (2 ^ 64 - 1))

/-- PREEMPTION_REQUEST asks the workgroups that a LAUNCH without room names: one of class 2 drains until its bound, another that is not
expected to end in time, and may not be flushed, stops for a save; DRAIN_BOUND turns a drain of class 0 or 1 into a save at its bound;
SAVED_WAIT_EXPIRY asks the latest workgroup of the stage; CORE_RETIRE stops the workgroups of its core, and disables an empty one (R209,
R213 to R215, R450). -/
def Obligations.PreemptionStopsWorkgroups : Prop :=
  (∀ (s : State) (key g : Nat) (u : Task) (x : Workgroup) (n : WgName) (ns : List WgName), s.tasks.find? key = some u →
    s.nextOf key u = n :: ns → u.bound ≠ 0 → u.named = [] → s.placeable key u = none →
    s.victims u (s.domainOf u n.1 n.2) = some [g] → s.wg? g = some x → x.phase = .running → x.drain = none →
    ∃ t, exec (.preemptionRequest key) s = .next t ∧ t.mem = s.mem ∧ ∃ v, t.tasks.find? key = some v ∧
      (x.card.pclass = 2 → v.named = [g] ∧ t.wg? g = some { x with preempt := some (s.clk, u.bound), drain := some (Nat.max 1 (s.clk + u.bound)) }) ∧
      (x.card.pclass ≠ 2 → x.card.expected = 0 → x.card.restartable = false → v.named = [g] ∧
        t.wg? g = some { x with preempt := some (s.clk, u.bound), phase := .saving })) ∧
  (∀ (s : State) (g till : Nat) (x : Workgroup), s.wg? g = some x → x.drain = some till → x.phase = .running →
    (till ≠ 0 → till ≤ s.clk → x.card.pclass ≠ 2 → ∃ t, exec (.drainBound g) s = .next t ∧ t.wg? g = some { x with phase := .saving, drain := none }) ∧
    (till = 0 ∨ s.clk < till ∨ x.card.pclass = 2 → exec (.drainBound g) s = .next s)) ∧
  (∀ (s : State) (id g : Nat) (e : Saved) (u : Task) (x : Workgroup), s.saved.find? id = some e → s.tasks.find? e.task = some u →
    e.refused = false → s.pickCore u (s.domain u.queue) = none → (g, x) ∈ s.wgs → s.wg? g = some x → x.task = e.task → x.stage = e.stage →
    e.linear < x.linear → (∀ v ∈ s.wgs, v.2.task = e.task → v.2.stage = e.stage → e.linear < v.2.linear → v = (g, x)) →
    x.phase = .running → x.drain = none → x.card.pclass = 2 →
    (s.clk < e.since + 2 ^ 20 → exec (.savedWaitExpiry id) s = .next s) ∧
    (e.since + 2 ^ 20 ≤ s.clk → ∃ t, exec (.savedWaitExpiry id) s = .next t ∧
      t.wg? g = some { x with preempt := some (s.clk, 65536), drain := some (Nat.max 1 (s.clk + 65536)) })) ∧
  ∀ (s : State) (core : Nat), core < 1024 → core ∉ s.disabled →
    core ∈ s.retiring ∨ ((∀ c ∈ s.retiring, State.dieOfCore c ≠ State.dieOfCore core) ∧
      ∀ e ∈ s.saved, e.2.retire = true → e.1 / 4096 ≠ State.dieOfCore core) →
    (s.residents core = [] → ∃ t, exec (.coreRetire core) s = .next t ∧ t.disabled = s.disabled ++ [core] ∧ t.wgs = s.wgs) ∧
    ∀ g x, s.residents core = [(g, x)] → s.wg? g = some x → x.phase = .running → ∃ t, exec (.coreRetire core) s = .next t ∧
      core ∈ t.retiring ∧ t.wg? g = some { x with preempt := none, phase := .saving, drain := none }

/-- SAVE writes a workgroup that has stopped and is quiet to its pool, enters it in the table of its die and frees its core; the image of a
confidential world is sealed under its key slot, whose counter rises and is the entry's stamp; with no entry, pool, extents or stamp the
workgroup drains to its end instead. RESTORE brings one whose image passes back to a core with room, once the die that saved it has given its
entry to the core's die, and refuses one whose image does not pass, once and for all (R398, R399, R401, R405 to R408). -/
def Obligations.SaveAndRestore : Prop :=
  (∀ (s : State) (g id base size ext : Nat) (x : Workgroup), s.wg? g = some x → x.phase = .saving → s.savable g x = true → s.errors = [] →
    let die := State.dieOfCore x.core
    x.core ∉ s.retiring →
    let parts := x.slots.mapIdx fun i k => s.savedWarp g i x (64 * x.core + k)
    let length := imageLength x.card (parts.map fun p => p.2.2.length)
    let pages := (length + 65535) / 65536
    (∀ key, s.freeEntry die false = some id → s.pool die x.partition = some (base, size) → s.nextStamp die x.world = .ok key →
      s.freeExtents x.partition size pages false = some ext →
      let bytes := State.imageOf x (s.taskId x.task) length id key (parts.map (·.1))
      ∃ t, exec (.save g) s = .next t ∧ t.wg? g = none ∧ t.mem.readBytes (base + 65536 * ext) bytes.length = bytes ∧
        (∀ a, ¬(base + 65536 * ext ≤ a ∧ a < base + 65536 * ext + bytes.length) → t.byte a = s.byte a) ∧
        (key = none → t.keys = s.keys) ∧
        (∀ i k, key = some (i, k) → t.keys.find? i = some k ∧ ∃ old, s.keySlot x.world = some (i, old) ∧ k = { old with counter := old.counter + 1 }) ∧
        ∃ e, t.saved.find? id = some e ∧ e.stamp = ((key.map fun k => k.2.counter).getD 0) ∧ e.wg = g ∧ e.image = base + 65536 * ext ∧ e.length = length ∧ e.task = x.task ∧ e.world = x.world ∧
          e.stage = x.stage ∧ e.linear = x.linear ∧ e.extents = pages ∧ e.refused = false ∧ e.since = s.clk) ∧
    (s.freeEntry die false = none ∨ s.pool die x.partition = none ∨ s.nextStamp die x.world = .error () ∨
      (s.pool die x.partition = some (base, size) ∧ s.freeExtents x.partition size pages false = none) → ∃ t, exec (.save g) s = .next t ∧
      t.wg? g = some { x with phase := .running, drain := some 0 } ∧ t.mem = s.mem)) ∧
  ∀ (s : State) (id core : Nat) (e : Saved) (u : Task), s.saved.find? id = some e → s.tasks.find? e.task = some u → e.refused = false →
    s.outranked u.priority = false → s.errors = [] →
    (s.pickCore u (s.restoreDomain u e.stage e.linear)).or (s.pickCore u (s.domain u.queue)) = some core →
    let die := State.dieOfCore core
    (die ≠ id / 4096 → e.asked ≠ some (die, true) → ∃ t, exec (.restore id) s = .next t ∧
      t.saved.find? id = some { e with asked := some (die, false) } ∧ t.wgs = s.wgs ∧ t.mem = s.mem ∧
      (e.asked ≠ some (die, false) → t.Sends fun p => p.type = .svc ∧ p.src = s.dispatcherEnd die ∧ p.dst = s.dispatcherEnd (id / 4096))) ∧
    (die = id / 4096 ∨ e.asked = some (die, true) →
    (∀ b, s.readImage id e u = .ok b → ∃ t x, exec (.restore id) s = .next t ∧ t.saved.find? id = none ∧ t.wg? e.wg = some x ∧
      x.core = core ∧ x.phase = .running ∧ x.task = e.task ∧ x.world = e.world ∧ x.stage = e.stage ∧ x.linear = e.linear ∧ t.l1Of core = [] ∧
      t.mem = s.mem) ∧
    ∀ st, s.readImage id e u = .error st → ∃ t, exec (.restore id) s = .next t ∧ t.saved.find? id = some { e with refused := true } ∧
      t.wgs = s.wgs ∧ t.warps = s.warps)

/-! Memory devices, packets, the fabric. -/

/-- Refresh balances, mitigations, scrubs, evacuations and soft errors do what R66 to R72 say; the oldest write on its way to a replica
reaches it, all its bytes at once; an epoch that has passed clears its tracker, and a poll that is due reads its counter (R83, R96, R45, R46,
R122). The model's choices are that rows and errors are operands of the events (log 22), that corrected units are counted in blocks of 2^26
cycles (log 66), and that an evacuation may start again after one has completed and a scrub of an uncorrectable unit leaves no record (log 57). -/
def Obligations.MemoryDeviceSteps : Prop :=
  ∀ (s : State) (die n : Nat), die < 8 → n < 72 →
    let c := s.channels.get Channel.empty (72 * die + n)
    let becomes := fun (i : Instr) (c' : Channel) => ∃ t, exec i s = .next t ∧ t.mem = s.mem ∧ t.channels.get Channel.empty (72 * die + n) = c' ∧
      ∀ k, k ≠ 72 * die + n → t.channels.get Channel.empty k = s.channels.get Channel.empty k
    let count := if c.since = s.clk / 2 ^ 26 then c.window else 0
    let group := if n < 64 then 2 * die + n / 32 else 16
    let spare := s.spares.get 0 group < (if n < 64 then 2 else 4)
    becomes (.refresh die n true) { c with balance := if -8 < c.balance then c.balance - 1 else c.balance } ∧
    becomes (.refresh die n false) { c with balance := if c.balance < 8 then c.balance + 1 else c.balance } ∧
    (n < 64 → ∀ row bad, ∃ t, exec (.rowMitigation die n row bad) s = .next t ∧ t.mem = s.mem ∧
      let k := State.rowKey die n row
      let acts := Nat.min (s.rows.get 0 k + 1) 65535
      let due := bad = true ∨ Nat.max 0x40 (s.reg (Reg.memory die 0x50) % 2 ^ 16) ≤ acts
      let more := fun (off : Nat) => Nat.min (s.reg (Reg.memory die off) + 1) (2 ^ 64 - 1)
      (due → t.rows.get 0 k = 0 ∧ t.reg (Reg.memory die 0x60) = more 0x60 ∧
        t.reg (Reg.memory die 0x68) = if bad then more 0x68 else s.reg (Reg.memory die 0x68)) ∧
      (¬due → t.rows.get 0 k = acts ∧ t.reg (Reg.memory die 0x60) = s.reg (Reg.memory die 0x60) ∧
        t.reg (Reg.memory die 0x68) = s.reg (Reg.memory die 0x68)) ∧ ∀ j, j ≠ k → t.rows.get 0 j = s.rows.get 0 j) ∧
    (c.ev = 0 ∨ c.ev = 2 → s.reg (Reg.memory die 0x58) < count →
      (spare → becomes (.evacuationStart die n) { c with ev := 1, window := 0 } ∧
        ∃ t, exec (.evacuationStart die n) s = .next t ∧ t.spares.get 0 group = s.spares.get 0 group + 1) ∧
      (¬spare → ∃ t, exec (.evacuationStart die n) s = .next t ∧ t.channels.get Channel.empty (72 * die + n) = { c with ev := 3 })) ∧
    (c.ev = 1 → becomes (.evacuationComplete die n) { c with ev := 2 }) ∧
    (∀ u k, State.memoryUnit u = true ∨ s.cacheUnit u = true → 0 < k → ∃ t, exec (.softError u k) s = .next t ∧ t.mem = s.mem ∧
      t.errors.find? u = some (Nat.min 32 (s.errors.get 0 u + k))) ∧
    (∀ u, State.memoryUnit u = true →
      (∀ k, s.errors.find? u = some k → 0 < k → k ≤ 2 → ∃ t, exec (.patrolScrub u) s = .next t ∧ t.mem = s.mem ∧ t.errors.find? u = none) ∧
      (∀ k, s.errors.find? u = some k → 3 ≤ k → k ≤ 4 → exec (.patrolScrub u) s = .next s)) ∧
    (∀ line p bs, (s.propagating.find? fun p => p.die = die && p.line = line) = some p →
      s.replicas.find? (State.replicaKey die line) = some bs → ∃ t, exec (.replicaPropagation die line) s = .next t ∧
        t.propagating = s.propagating.erase p ∧ t.mem = s.mem ∧ (∀ k, k ≠ State.replicaKey die line → t.replicas.find? k = s.replicas.find? k) ∧
        t.replicas.find? (State.replicaKey die line) = some (p.parts.foldl (fun bs q =>
          bs.take (q.1 - line) ++ q.2 ++ bs.drop (q.1 - line + q.2.length)) bs)) ∧
    (let d := s.dtu die
     let till := d.epochStart + s.epochLength die
     (till ≤ s.clk → ∃ t, exec (.epochEnd die) s = .next t ∧ t.dtu die = { d with tracker := [], passed := [], epochStart := s.clk } ∧ t.mem = s.mem) ∧
     (s.clk < till → exec (.epochEnd die) s = .next s)) ∧
    ∀ p, s.polls = [p] → s.errors = [] → State.dieOfHome p.home = die → p.last + 256 ≤ s.clk → ∃ t, exec (.agentPoll die) s = .next t ∧ t.mem = s.mem ∧
      t.polls = (if p.threshold ≤ s.mem.readNat p.addr 8 then [] else [{ p with last := s.clk }])

/-- A request of this device that arrives at its home in memory is performed there, and its answer goes back: a read with the bytes, a
write of its pieces and of no other byte, an atomic and a counter operation with the value before and the effects of R337 and R114; a wait
is answered when its threshold is met or no slot is free, and takes the lowest free slot otherwise (R57, R84, R99, R119, R163). An answer
that arrives at the core that asked, the last of its request's, ends the request with what it carries, but for bytes that the warp's store
queue gave before (R80); poisoned data ends the workgroup with MEMERR (R69, R115, R163). An answer has the payload flits of R163, and its header
the tag in ADDR (R162); how a tag is laid out there is the model's choice (log 35). -/
def Obligations.PacketsArePerformed : Prop :=
  (∀ (s : State) (e : Endpoint) (p : Packet), s.Arrives e p → Endpoint.dev p.src = s.devId → keyAp p.addr ≤ 3 → s.errors = [] →
     (∀ d, s.reg (Reg.dtu d 0x010) % 2 = 0) →
     let back := fun (t : State) (ty : PType) (a : Answer) (ps : List Piece) =>
       t.Sends fun r => r.type = ty ∧ (r.header.drop 16).take 8 = leBytes 8 (p.tag.1 * 2 ^ 16 + p.tag.2 % 2 ^ 16) ∧
         r.len = (if ty = .rdr then Nat.max 1 (Nat.min 4 ps.length) else if ty = .wra then 0 else 1) ∧ r.dst = p.src ∧ r.tag = p.tag ∧ r.answer = a ∧ r.pieces = ps
     let outside := fun (a : Nat) => ∀ q ∈ p.pieces, ¬(p.addr + q.off ≤ a ∧ a < p.addr + q.off + q.data.length)
     (p.type = .rd → s.readsReplica p = false → ∃ t, exec (.rd e) s = .next t ∧
       t.mem = s.mem ∧ back t .rdr .done (p.pieces.map fun q => { q with data := s.mem.readBytes (p.addr + q.off) q.size })) ∧
     (p.type = .wr → ∃ t, exec (.wr e) s = .next t ∧ (∀ a, outside a → t.byte a = s.byte a) ∧ back t .wra .done [] ∧
       t.mem = p.pieces.foldl (fun m q => m.writeBytes (p.addr + q.off) q.data) s.mem) ∧
     (∀ q op, p.type = .atm → p.pieces = [q] → atomOf p.fn = some op → ∃ t, exec (.atm e) s = .next t ∧
       let m := s.mem.readNat (p.addr + q.off) op.bytes
       t.mem = s.mem.writeNat (p.addr + q.off) op.bytes (atomicEffect op m (leNat q.data)) ∧
       back t .atmr .done [{ q with got := some (leBytes op.bytes m) }]) ∧
     (∀ q, p.type = .ctr → p.fn < 6 → p.pieces = [q] → State.ctrOf p.fn ≠ .wait → ∃ t, exec (.ctr e) s = .next t ∧
       let k := State.ctrOf p.fn
       let x := ctrEffect k (s.waiters.any fun w => w.addr = p.addr) (s.mem.readNat p.addr 8) (leNat q.data)
       t.mem = (if k.modifies = true ∧ x.2.2 ≠ 3 then s.mem.writeNat p.addr 8 x.1 else s.mem) ∧
       back t .ctrr (.cstat x.2.2) [{ q with got := some (leBytes 8 x.2.1) }]) ∧
     ∀ q, p.type = .ctr → p.fn = 1 → p.pieces = [q] →
       let c := s.mem.readNat p.addr 8
       let n := leNat q.data
       let home := State.homeNo (s.homeNow p)
       let answers := fun (code : Nat) => ∃ t, exec (.ctr e) s = .next t ∧ t.mem = s.mem ∧ back t .ctrr (.cstat code) [{ q with got := some (leBytes 8 c) }]
       (n ≤ c → answers 0) ∧ (c < n → s.freeSlot home false = none → answers 1) ∧
       ∀ k, c < n → s.freeSlot home false = some k → p.via = none → (∀ o, s.ops.find? p.tag.1 = some o → o.owner ≠ .gone) →
         ∃ t, exec (.ctr e) s = .next t ∧ t.mem = s.mem ∧ ∃ w ∈ t.waiters, w.home = home ∧ w.agent = false ∧ w.slot = k ∧ w.addr = p.addr ∧
           w.threshold = n ∧ w.who = .warp p.tag) ∧
  (∀ (s : State) (e : Endpoint) (p : Packet) (o : MemOp) (r : Req) (q c : Piece), s.Arrives e p → p.via = none →
     Endpoint.cls e ∉ [4, 5, 6, 7] → s.reqOf p.tag = some (o, r) → r.pieces = [q] → (∀ n, r.stage ≠ .sent (n + 2)) →
     let ends := fun (i : Instr) (got : Option (List Byte)) => ∃ t o' r', exec i s = .next t ∧ t.reqOf p.tag = some (o', r') ∧ r'.stage = .done ∧
       r'.pieces.map (fun q => (q.lane, q.got)) = [(q.lane, got)] ∧ t.mem = s.mem
     (p.type = .rdr → p.answer = .done → p.pieces = [c] → c.off ≤ q.off → q.off < c.off + c.size →
       ends (.rdr e) (q.got.or (some ((c.data.drop (q.off - c.off)).take q.size)))) ∧
     (p.type = .wra → p.answer = .done → ends (.wra e) q.got) ∧
     (p.type = .atmr → p.answer = .done → p.pieces = [c] → c.got.isSome = true → ends (.atmr e) c.got) ∧
     (∀ code, p.type = .ctrr → p.answer = .cstat code → p.pieces = [c] → c.got.isSome = true → ends (.ctrr e) c.got ∧
       ∃ t, exec (.ctrr e) s = .next t ∧ (t.reqOf p.tag).map (·.2.code) = some (Nat.max r.code code)) ∧
     ∀ i ∈ [Instr.rdr e, .wra e, .atmr e, .ctrr e], ∀ x, p.answer = .poison → s.wg? o.wg = some x → x.phase ≠ .stopping →
       ((i = .rdr e ∧ p.type = .rdr) ∨ (i = .wra e ∧ p.type = .wra) ∨ (i = .atmr e ∧ p.type = .atmr) ∨ (i = .ctrr e ∧ p.type = .ctrr)) →
       ∃ t, exec i s = .next t ∧ t.wg? o.wg = some { x with phase := .stopping, status := .memerr })

/-- The switches and flows. A packet with payload is admitted to its channel, and trimmed to channel 0 when the channel holds more than 24
flits; a grant passes the oldest packet of channel 0 first; ACK, RREQ, NOROUTE, bunts and time act on the flow they name: a NOROUTE has a
request that its source keeps park BAD-ATTR, another packet, a bunt's among them, sent again under an interval of 4,096 cycles, and an ACK or RREQ sent again after as
many; replays retire halves and lanes, and a port trains and retrains, each change of its width with a record (R168, R171, R173, R176 to R178,
R183 to R187). The model's choices are what OPS and ADDR of a NOROUTE say of its packet (log 70), that links to I/O dies have two halves (log
76), that replays are counted at each receiving port (log 77), and, for links of compute dies, whose BRLTH bounds them, and where records stand
(log 33). -/
def Obligations.FabricSteps : Prop :=
  ∀ (s : State),
    let answers := fun (i : Instr) (ok : State → Prop) => ∃ t, exec i s = .next t ∧ t.mem = s.mem ∧ ok t
    (∀ die port p rest, (s.outOf die port).input = p :: rest → p.trimmed = false → 1 ≤ p.len →
      let o := { s.outOf die port with input := rest }
      let held := (o.channel p.channel).foldl (fun n q => n + q.flits) 0
      (held ≤ 24 → answers (.outputQueueArrival die port none) fun t =>
        t.outOf die port = o.setChannel p.channel (o.channel p.channel ++ [p])) ∧
      (24 < held → o.vc0.foldl (fun n q => n + q.flits) 0 < 32 → answers (.outputQueueArrival die port none) fun t =>
        t.outOf die port = { o with vc0 := o.vc0 ++ [{ p with trimmed := true }] })) ∧
    (∀ die port p rest, (s.outOf die port).vc0 = p :: rest → s.outputOpen die port = true → (s.outOf die port).busyTill ≤ s.fclk →
      State.across die port = none → Endpoint.dev p.dst = s.devId → answers (.packetGrant die port) fun t =>
        t.inbox p.dst = s.inbox p.dst ++ [p] ∧ (t.outOf die port).vc0 = rest ∧ (t.outOf die port).busyTill = s.fclk + p.flits) ∧
    (∀ e p rest, s.inbox e = p :: rest → p.trimmed = false → p.type = .ack → answers (.ack e) fun t => ∀ f ∈ s.fabric.srcFlows, f.src = e →
      f.id = p.flow → ∃ f' ∈ t.fabric.srcFlows, f'.id = f.id ∧ f'.unacked = f.unacked.filter fun u => !covered u.packet.seq p.seq) ∧
    (∀ e f, s.flowsAt e = [f] → f.due ≠ 0 → f.dueSince + 32 ≤ s.fclk → answers (.ackDue e) fun t => t.flowsAt e = [{ f with due := 0 }]) ∧
    (∀ e p rest f, s.inbox e = p :: rest → p.trimmed = true → s.flowsAt e = [f] → f.src = p.src → f.id = p.flow → State.ahead f p.seq < 2 ^ 15 →
      f.buffered = [] → answers (.bunt e) fun t => t.inbox e = rest ∧ ∃ f' ∈ t.flowsAt e, p.seq ∈ f'.holes ∧ f'.expected = f.expected) ∧
    (∀ e p rest f, s.inbox e = p :: rest → p.trimmed = false → s.fabric.srcFlows = [f] → f.src = e → f.id = p.flow →
      f.unacked.any (fun u => u.packet.seq = p.seq) = true →
      (p.type = .rreq → answers (.rreq e) fun t => ∃ f', t.fabric.srcFlows = [f'] ∧ p.seq ∈ f'.resend ∧
        f'.interval = if f.lastEvent = .trim then Nat.min (2 * f.interval) 4096 else f.interval) ∧
      ∀ u, p.type = .noroute → p.fn ∉ [2, 3, 4] → f.unacked.find? (fun u => u.packet.seq = p.seq) = some u →
        (u.packet.type.isRequest = false ∨ p.fn = 5 → answers (.noroute e) fun t =>
          ∃ f', t.fabric.srcFlows = [f'] ∧ p.seq ∈ f'.resend ∧ f'.interval = 4096 ∧ f'.unacked.map (·.packet) = f.unacked.map (·.packet)) ∧
        ∀ o r, u.packet.type.isRequest = true → p.fn ≠ 5 → u.packet.via = none → Endpoint.cls e ∉ [4, 5, 7] → s.reqOf u.packet.tag = some (o, r) →
          o.kind.quiet = false → answers (.noroute e) fun t => (∀ f' ∈ t.fabric.srcFlows, u ∉ f'.unacked) ∧
            ∃ q ∈ (t.dtu (State.dieOfCore o.core)).parked ++ (t.dtu (State.dieOfCore o.core)).waiting, q.ref = u.packet.tag ∧ q.cause = .badAttr) ∧
    (∀ e p rest, s.inbox e = p :: rest → p.trimmed = false → p.type = .noroute → p.fn = 2 ∨ p.fn = 3 → answers (.noroute e) fun t =>
      t.fabric.srcFlows = s.fabric.srcFlows ∧ ∃ q, t.fabric.bounced = s.fabric.bounced ++ [(s.fclk + 4096, q)] ∧
        q.type = (if p.fn = 2 then .ack else .rreq) ∧ q.src = e ∧ q.dst = p.addr ∧ q.flow = p.flow ∧ q.seq = p.seq) ∧
    (∀ f u, s.fabric.srcFlows = [f] → f.lowest = some u → f.notBefore ≤ s.fclk → answers (.retransmission f.src f.id) fun t =>
      ∃ f', t.fabric.srcFlows = [f'] ∧ u.packet.seq ∉ f'.resend ∧ f'.notBefore = s.fclk + f.pace ∧ f'.unacked.length = f.unacked.length) ∧
    (∀ f, s.fabric.srcFlows = [f] → answers (.unacknowledgedResend f.src f.id) fun t => ∃ f', t.fabric.srcFlows = [f'] ∧
      ∀ u ∈ f.unacked, u.last + 65536 ≤ s.fclk → u.packet.seq ∈ f'.resend) ∧
    (∀ die port part,
      let k := 16 * (32 * die + port) + part
      let times := ((s.fabric.replays.get [] k).filter fun t => s.fclk < t + 2 ^ 20) ++ [s.fclk]
      (times.length ≤ s.brlth die → answers (.linkReplay die port part) fun t => t.fabric.replays.get [] k = times ∧ t.agenda = s.agenda) ∧
      (∀ d, s.brlth die < times.length → State.across die port = some d → d < 10 → die < 10 → answers (.linkReplay die port part) fun t =>
        t.agenda = .event (.halfRetire die d part) :: s.agenda)) ∧
    (∀ a b half, a < b → b < 10 → a < 8 → half < 2 → (s.fabric.links.get 0 (16 * a + b)).testBit half = false →
      answers (.halfRetire a b half) fun t => t.fabric.links.get 0 (16 * a + b) = s.fabric.links.get 0 (16 * a + b) + 2 ^ half) ∧
    ∀ port, port < 6 →
      let x := s.birrakOf port
      let width := if x.trained then State.birrakWidth x.badLanes else 0
      let records := fun (t : State) (bad : Nat) => t.records = s.records ++
        (if State.birrakWidth bad = width then [] else [[2, BitVec.ofNat 8 port, BitVec.ofNat 8 (State.birrakWidth bad)]])
      (∀ lane, lane < 16 → x.badLanes.testBit lane = false → answers (.laneRetire port lane) fun t =>
        t.birrakOf port = ⟨x.badLanes + 2 ^ lane, s.fclk + 16384, true⟩ ∧ records t (x.badLanes + 2 ^ lane)) ∧
      answers (.portRetrain port) (fun t => t.birrakOf port = ⟨x.badLanes, s.fclk, true⟩ ∧ records t x.badLanes) ∧
      (∀ v : DWord, v.getLsbD 0 = true → s.resetting = [] → answers (.retrain (.battery s.captain) port v) fun t =>
        t.birrakOf port = ⟨0, s.fclk + 16384, true⟩)

/-! Services, hosts, registers. -/

/-- A call whose record has reached its battery is accepted while fewer than 256 are in service, by a battery that runs. A call that its
battery starts is served by its number: ECHO returns its block's word, CLOCK the count, MAP and UNMAP give and take a page of the calling world
with its frame, the file and connection services, CLOSE among them, go to the partition's host and answer what it answers; a call that has been
served completes with its header, then its counter once its writes stand in the replicas of their lines, one of no service with status 1; a header
in a peer's memory goes there first (R96, R379 to R383, R442). The model's choices are the frame MAP takes (log 19) and a proxied service without a
device (log 18). -/
def Obligations.ServicesAnswer : Prop :=
  (∀ (s : State) (n k number : Nat) (o : MemOp), s.ops.find? n = some o →
    let calls := s.calls.filter fun e => e.2.battery = o.partition
    let form := fun (i : Nat) => ((o.reqs[i]?.bind fun r => r.xl).map Xlated.form).getD 0
    (256 ≤ calls.length → s.acceptCall n k o number = s) ∧
    (calls.length < 256 → ∃ c, (s.acceptCall n k o number).calls.find? (Map.nextKey s.calls) = some c ∧ c.battery = o.partition ∧ c.number = number ∧
      c.world = o.world ∧ c.task = o.task ∧ c.arg = form 0 ∧ c.counter = form 1 ∧ c.served = none ∧ (s.acceptCall n k o number).ops.find? n = none) ∧
    (s.ops = [(n, o)] → (s.batteries.get Battery.empty o.partition).stopped = true → s.acceptCalls = s)) ∧
  ∀ (s u : State) (id : Nat) (c : Call), s.calls.find? id = some c →
    let serves := fun (i : Instr) (result status : Nat) (ok : State → Prop) => ∃ t c', exec i s = .next t ∧ t.calls.find? id = some c' ∧
      c'.served = some (result, status) ∧ c'.number = c.number ∧ c'.op = c.op ∧ c'.arg = c.arg ∧ c'.counter = c.counter ∧ c'.closing = c.closing ∧ ok t
    let any := fun (_ : State) => True
    let stopped := (s.batteries.get Battery.empty c.battery).stopped
    (s.startable c = true →
      (∀ e ∈ [(Instr.echo id, 0), (.clock id, 1), (.map id, 0x10), (.unmap id, 0x11), (.closeHandle id, 0x1003)], c.number = e.2 →
        (s.blockBytes id c = (u, .error .bad) → serves e.1 0 2 any) ∧ (s.blockBytes id c = (u, .error .wait) → exec e.1 s = .next u)) ∧
      ∀ b, s.blockBytes id c = (u, .ok b) →
      let va := field b 0x10 8
      let len := field b 0x18 8
      let n := field b 0x20 8
      (c.number = 0 → serves (.echo id) va 0 any) ∧
      (c.number = 1 → serves (.clock id) (u.wall / 720720) 0 any) ∧
      (∀ r, u.tableUnits (u.callRoot c) = .ok r → r.rangeFields c (BitVec.ofNat 64 va) len = false →
        (c.number = 0x10 → serves (.map id) 0 2 any) ∧ (c.number = 0x11 → serves (.unmap id) 0 2 any)) ∧
      (c.number = 0x10 → ∀ r v table f, u.tableUnits (u.callRoot c) = .ok r → r.rangeFields c (BitVec.ofNat 64 va) len = true → field b 0x20 4 < 8 →
        len = 32768 → State.tableFor c (va % 2 ^ 57) State.levels r (r.worldRoot c) = .ok (v, table) →
        let leaf := table + 8 * (va % 2 ^ 57 / 2 ^ 15 % 2 ^ 12)
        v.errors = [] → v.mem.readNat leaf 8 % 2 = 0 → v.freeFrame c.battery 0 reservedFrame 0 = some f →
        serves (.map id) 1 0 fun t => t.potEntry 0 f = 2 ^ 12 + c.world ∧ t.mem.readNat leaf 8 =
          f * 2 ^ 16 + (field b 0x20 4 / 4 % 2 * 2 ^ 8 + field b 0x20 4 / 2 % 2 * 2 ^ 6 + field b 0x20 4 % 2 * 2 ^ 5 + 1)) ∧
      (c.number = 0x11 → ∀ r v leaf e, u.tableUnits (u.callRoot c) = .ok r → r.rangeFields c (BitVec.ofNat 64 va) len = true → len = 32768 →
        State.leavesOf c 1 r (va % 2 ^ 57) = .ok (v, [(leaf, e)]) → v.errors = [] →
        (∀ r ∈ v.users (List.range 8) ⟨1, 1, c.world, 0, 0, va % 2 ^ 57, 1, 0, 0⟩, r.1 = c.op) →
        serves (.unmap id) 1 0 fun t => t.mem.readNat leaf 8 = 0 ∧
          ∀ a f, v.resolve (e / 4 % 8) (e / 2 ^ 16 % 2 ^ 40) = some (a, f) → State.isMemory a = true →
            v.ownCheck c.world c.battery a f = none → t.potEntry a f = 0) ∧
      (∀ i file k bytes, (i = Instr.openFile id (.done k bytes) ∧ file = true ∧ c.number = 0x1000 ∧ field b 0x18 4 ≤ 4096 ∧ field b 0x1C 4 < 16) ∨
          (i = Instr.connect id (.done k bytes) ∧ file = false ∧ c.number = 0x1010 ∧ field b 0x18 4 ≤ 256) → field b 0x18 4 ≠ 0 →
        (∀ w name ld, u.readVia id c (BitVec.ofNat 64 va) (field b 0x18 4) = (w, .ok name) → w.deviceOf c.battery = some ld →
          w.handles.find? k = none → k < 2 ^ 64 → serves i k 0 fun t => t.handles.find? k = some ⟨c.battery, file⟩ ∧
            (t.hosts.get HostPort.empty ld).forwarded = (w.hosts.get HostPort.empty ld).forwarded ++
              [leBytes 4 c.number ++ (leBytes 4 (if file then field b 0x1C 4 else 0) ++ name)]) ∧
        (∀ w, u.readVia id c (BitVec.ofNat 64 va) (field b 0x18 4) = (w, .error .bad) → serves i 0 2 any) ∧
        ∀ w, u.readVia id c (BitVec.ofNat 64 va) (field b 0x18 4) = (w, .error .wait) → exec i s = .next w) ∧
      (∀ i file k bytes, (i = Instr.writeFile id (.done k bytes) ∧ file = true ∧ c.number = 0x1002) ∨
          (i = Instr.send id (.done k bytes) ∧ file = false ∧ c.number = 0x1011) →
        (u.holds c va (some file) = false → serves i 0 2 any) ∧
        (u.holds c va (some file) = true → n ≠ 0 →
          (∀ w data ld, u.readVia id c (BitVec.ofNat 64 len) n = (w, .ok data) → w.deviceOf c.battery = some ld → serves i (Nat.min k n) 0 fun t =>
            (t.hosts.get HostPort.empty ld).forwarded = (w.hosts.get HostPort.empty ld).forwarded ++
              [leBytes 4 c.number ++ ((b.drop 0x10).take (if file then 32 else 24) ++ data)]) ∧
          (∀ w, u.readVia id c (BitVec.ofNat 64 len) n = (w, .error .bad) → serves i 0 2 any) ∧
          ∀ w, u.readVia id c (BitVec.ofNat 64 len) n = (w, .error .wait) → exec i s = .next w)) ∧
      (∀ i file k bytes ld, (i = Instr.readFile id (.done k bytes) ∧ file = true ∧ c.number = 0x1001) ∨
          (i = Instr.recv id (.done k bytes) ∧ file = false ∧ c.number = 0x1012) → u.deviceOf c.battery = some ld →
        (u.holds c va (some file) = false → serves i 0 2 any) ∧
        (u.holds c va (some file) = true → n ≠ 0 →
          let given := bytes.take n
          let pages := State.serviceRange c true (State.pagesIn (BitVec.ofNat 64 len) given.length) u (BitVec.ofNat 64 len) given.length
          (∀ w parts, pages = (w, .ok parts) → w.errors = [] → serves i given.length 0 fun t =>
            ∀ y m, parts = [(y, m)] → State.isMemory y.ap = true → t.mem.readBytes (memKey y.ap y.pa) given.length = given) ∧
          (∀ w, pages = (w, .error .bad) → serves i 0 2 any) ∧
          ∀ w, pages = (w, .error .wait) → exec i s = .next w)) ∧
      (∀ i file ld, (i = Instr.readFile id .denied ∧ file = true ∧ c.number = 0x1001) ∨ (i = Instr.recv id .denied ∧ file = false ∧ c.number = 0x1012) →
        u.deviceOf c.battery = some ld → u.holds c va (some file) = true → n ≠ 0 → serves i 0 3 any) ∧
      (c.number = 0x1003 → (u.holds c va none = true → serves (.closeHandle id) 0 0 fun t => t.handles.find? va = none ∧
          ∀ ld, u.deviceOf c.battery = some ld → (t.hosts.get HostPort.empty ld).forwarded =
            (u.hosts.get HostPort.empty ld).forwarded ++ [leBytes 4 0x1003 ++ (b.drop 0x10).take 8]) ∧
        (u.holds c va none = false → serves (.closeHandle id) 0 2 any))) ∧
    (let late := s.propagating.any fun p => p.owner = .gone && p.task = c.task
    let far := c.arg / 2 ^ 56 % 8 = 4
    let farAdd := c.counter / 2 ^ 56 % 8 = 4
    (stopped = true → exec (.serviceComplete id) s = .next s) ∧
    (∀ result status, c.served = some (result, status) ∨ (c.served = none ∧ s.startable c = true ∧ c.number ∉ State.services ∧ result = 0 ∧ status = 1) →
      stopped = false → c.closing = false → c.owes = 0 → c.adding = false → s.errors = [] → ∃ t, exec (.serviceComplete id) s = .next t ∧
        let closed := { c with served := some (result, status), closing := true, due := false }
        (State.isMemory (c.arg / 2 ^ 56 % 8) = true → c.arg ≠ 0 → c.counter = 0 →
          t.mem.readBytes (formKey c.arg) 16 = leBytes 4 status ++ leBytes 4 0 ++ leBytes 8 result) ∧
        (far → t.calls.find? id = some { closed with due := true } ∧ t.Sends fun p => p.type = .wr ∧ p.src = s.batteryEnd c.battery ∧
          p.pieces.map (·.data) = [leBytes 4 status ++ leBytes 4 0 ++ leBytes 8 result]) ∧
        (¬far → late = true → t.calls.find? id = some closed) ∧
        (¬far → late = false → s.replicas = [] →
          (farAdd → t.calls.find? id = some { closed with adding := true } ∧ t.Sends fun p => p.type = .ctr ∧ p.fn = State.ctrCode .add ∧
            p.src = s.batteryEnd c.battery ∧ p.pieces.map (·.data) = [leBytes 8 1]) ∧
          (¬farAdd → t.calls.find? id = none ∧ (State.isMemory (c.counter / 2 ^ 56 % 8) = true → c.counter ≠ 0 → c.arg = 0 →
            t.mem.readNat (formKey c.counter) 8 = Nat.min (s.mem.readNat (formKey c.counter) 8 + 1) (2 ^ 64 - 1))))) ∧
    (c.served.isSome = true → c.closing = true → stopped = false →
      (c.due = true ∨ c.owes ≠ 0 ∨ c.adding = true ∨ late = true → exec (.serviceComplete id) s = .next s) ∧
      (c.due = false → c.owes = 0 → c.adding = false → late = false → ¬farAdd → ∃ t, exec (.serviceComplete id) s = .next t ∧ t.calls.find? id = none)))

/-- What a host does through its port, behind what it has asked before (R104). A frame of its partition that the host owns is read and
written, and no other byte; one that the device owns reads as poison, and a write of it is discarded; a frame of another world freezes the port. The
counter operations return the old value and have the effect of R114, on a peer's counter by a request that goes there; a translation that fails reads
FAULT; a wait that is met raises vector 1, another is watched; a port that is not bound, or frozen, refuses (R35, R40, R42, R127, R413, R436, R437).
That a request waits while a peer has not said what it knows of a leaf is the model's form (log 97). -/
def Obligations.HostsReachMemory : Prop :=
  ∀ (s : State) (ld : Nat),
    let answer := fun (t : State) => (t.hosts.get HostPort.empty ld).reply
    let port := s.hosts.get HostPort.empty ld
    let idle := port.later = [] ∧ ∀ x ∈ port.far, x.stage ≠ .sent
    let requests := fun (till : DWord) (ap pa size : Nat) (data : Option (List Byte)) => [(Instr.hcadd ld, HostRequest.read 0x20 8),
      (.hcraise ld, .read 0x28 8), (.hcread ld, .read 0x30 8), (.hcwait ld till, .write 0x38 till), (.cxlMemRequest ld ap pa size data, .mem ap pa size data)]
    (∀ till ap pa size data, ld < 16 → ∀ e ∈ requests till ap pa size data,
      (¬idle → ∃ t, exec e.1 s = .next t ∧ t.mem = s.mem ∧ (t.hosts.get HostPort.empty ld).later = port.later ++ [e.2] ∧ t.fabric = s.fabric) ∧
      (idle → s.portWorld ld = none → ∃ t, exec e.1 s = .next t ∧ t.mem = s.mem ∧ answer t = .abort)) ∧
    (idle →
    (∀ world part ap pa size, s.portWorld ld = some (world, part) → ap ≤ 1 → pa / 2 ^ 15 < apFrames ap → pa % 64 + size ≤ 64 →
      s.ownCheck world part ap (pa / 2 ^ 15) = none →
      let key := memKey ap pa
      (s.hostBit ap (pa / 2 ^ 15) = true →
        (s.errors = [] → ∃ t, exec (.cxlMemRequest ld ap pa size none) s = .next t ∧ t.mem = s.mem ∧ answer t = .data (s.mem.readBytes key size)) ∧
        ∀ bs, s.errors = [] → bs.length = size → ∃ t, exec (.cxlMemRequest ld ap pa size (some bs)) s = .next t ∧ t.mem.readBytes key size = bs ∧
          ∀ a, ¬(key ≤ a ∧ a < key + size) → t.byte a = s.byte a) ∧
      (s.hostBit ap (pa / 2 ^ 15) = false →
        (∃ t, exec (.cxlMemRequest ld ap pa size none) s = .next t ∧ t.mem = s.mem ∧ answer t = .poison) ∧
        ∀ bs, ∃ t, exec (.cxlMemRequest ld ap pa size (some bs)) s = .next t ∧ t.mem = s.mem)) ∧
    (∀ world part ap pa size data owner fpa, s.portWorld ld = some (world, part) → ap ≤ 1 → pa / 2 ^ 15 < apFrames ap → pa % 64 + size ≤ 64 →
      s.ownCheck world part ap (pa / 2 ^ 15) = some (.freeze owner fpa) → ∃ t, exec (.cxlMemRequest ld ap pa size data) s = .next t ∧
        (t.hosts.get HostPort.empty ld).frozen = true ∧ answer t = .abort) ∧
    (∀ e ∈ [(Instr.hcadd ld, CtrKind.add), (.hcraise ld, .raise), (.hcread ld, .read)],
      (∀ u world x, s.hostCounter ld e.2 port.addr = (u, some (some (world, x))) → u.errors = [] →
        let y := u.xlate x port.addr
        let key := memKey y.ap y.pa
        let c := u.mem.readNat key 8
        let n := port.operand.toNat
        (x.ap ≠ 4 → ∃ t, exec e.1 s = .next t ∧ answer t = .value (BitVec.ofNat 64 c) ∧
          (t.hosts.get HostPort.empty ld).status = (if e.2 = .add ∧ 2 ^ 64 ≤ c + n then 2 else 0) ∧
          t.mem.readNat key 8 = (if e.2 = .add then Nat.min (c + n) (2 ^ 64 - 1) else if e.2 = .raise then Nat.max c n else c) ∧
          ∀ a, ¬(key ≤ a ∧ a < key + 8) → t.byte a = u.byte a) ∧
        (x.ap = 4 → ∃ t, exec e.1 s = .next t ∧ t.mem = u.mem ∧ t.Sends fun p => p.type = .ctr ∧ p.src = s.deviceEnd ld ∧ p.fn = State.ctrCode e.2 ∧
          p.addr = peerKey (y.pa % 2 ^ 55) ∧ p.world = world ∧ p.pieces.map (fun q => leNat q.data) = [n])) ∧
      (∀ u, s.hostCounter ld e.2 port.addr = (u, none) → ∃ t, exec e.1 s = .next t ∧ t.mem = u.mem ∧
        (t.hosts.get HostPort.empty ld).later.length = (u.hosts.get HostPort.empty ld).later.length + 1) ∧
      ∀ world part u r, s.portWorld ld = some (world, part) → s.agentWalk 0 world part 0 port.addr = (u, some (some r)) →
        ((∃ c, r = .park c) ∨ ∃ x, r = .ok x ∧
          (port.addr.toNat % 8 ≠ 0 ∨ (permCause (if e.2.modifies then .ctrMod else .ctrRead) x.ap x.attr).isSome = true)) →
        ∃ t, exec e.1 s = .next t ∧ t.mem = u.mem ∧ answer t = .value (BitVec.allOnes 64) ∧ (t.hosts.get HostPort.empty ld).status = 4) ∧
    ∀ (till : DWord) w u world x, s.portWorld ld = some w →
      ((s.dropWatch ld).onHost ld fun h => { h with wait := till }).hostCounter ld .wait port.addr = (u, some (some (world, x))) →
      u.heldBack x = false → u.errors = [] →
      let y := u.xlate x port.addr
      let key := memKey y.ap y.pa
      (x.ap ≠ 4 → till.toNat ≤ u.mem.readNat key 8 → ∃ t, exec (.hcwait ld till) s = .next t ∧ t.mem = u.mem ∧
        (t.hosts.get HostPort.empty ld).status = 0 ∧ (t.hosts.get HostPort.empty ld).vectors.testBit 1 = true) ∧
      (x.ap ≠ 4 → u.mem.readNat key 8 < till.toNat → ∃ t, exec (.hcwait ld till) s = .next t ∧ t.mem = u.mem ∧
        (t.hosts.get HostPort.empty ld).status = 5 ∧ ((∃ x ∈ t.waiters, x.who = .host ld ∧ x.addr = key ∧ x.threshold = till.toNat) ∨
          ∃ x ∈ t.polls, x.who = .host ld ∧ x.addr = key ∧ x.threshold = till.toNat)) ∧
      (x.ap = 4 → ∃ t, exec (.hcwait ld till) s = .next t ∧ t.mem = u.mem ∧ (t.hosts.get HostPort.empty ld).status = 5 ∧
        t.Sends fun p => p.type = .ctr ∧ p.fn = State.ctrCode .wait ∧ p.src = s.deviceEnd ld ∧ p.addr = peerKey (y.pa % 2 ^ 55) ∧ p.world = world ∧
          p.pieces.map (fun q => leNat q.data) = [till.toNat]))

/-- Writes of the captain that are accepted leave the register at the bits a write keeps, and those that R61, R65, R436 and R439 refuse
leave it and set the error bit in LSERR, IVERR, LDERR or PERR; QEN, PRETRY, PREQ and PRESET act on queues, saved workgroups, tasks and
partitions; a write by an agent that may not make it, a battery that stands still among them, is ignored (R201, R403, R404, R435, R440, R442, R444). That a refused write changes nothing
but its error bit, and that an ignored one sets none, is the model's choice (log 51), and so are the root table of die 0 as the one that
LDBIND looks into (log 13) and the units that hold a saved workgroup (log 21). -/
def Obligations.RegisterWritesTakeEffect : Prop :=
  ∀ (s : State) (v : DWord), s.resetting = [] → s.errors = [] →
    let cap := Agent.battery s.captain
    let stands := fun (b : Nat) => (s.batteries.get Battery.empty b).stopped = true
    ¬stands s.captain →
    let x := v.toNat
    let reads := fun (i : Instr) (a value : Nat) => ∃ t, exec i s = .next t ∧ t.reg a = value ∧ t.mem = s.mem
    let moves := fun (i : Instr) (a value : Nat) => ∃ t, exec i s = .next t ∧ t.reg a = value ∧ ∀ k,
      s.potEntry (keyAp k) (keyPa k / 2 ^ 15) / 2 ^ 12 % 4 ≠ 1 → t.framePart (keyAp k) (keyPa k) = s.framePart (keyAp k) (keyPa k) → t.byte k = s.byte k
    let en := x / 2 ^ 63 = 1
    (∀ (g : Agent) (i : Instr), (∃ c, g = .core c) ∨ (∃ b, g = .battery b ∧ stands b) →
      i ∈ [.ldbind g 0 v, .lsmask g 0 0 v, .ivctl g 0 v, .ivbase g 0 v, .qen g 0 v, .punit g 0 v, .chown g 0 0 v, .capt g v, .pretry g 0 v,
        .preq g 0 v, .preset g v, .fwcmd g v none, .lcadv g v true, .registerWrite g 0 v] → exec i s = .next s) ∧
    (∀ ld, ld < 16 →
      let a := Reg.host (8 * ld)
      let taken := ∃ m, m < 16 ∧ m ≠ ld ∧ s.reg (Reg.host (8 * m)) / 2 ^ 63 = 1 ∧ s.reg (Reg.host (8 * m)) / 2 ^ 12 % 64 = x / 2 ^ 12 % 64
      let bad := en ∧ (s.worldPart 0 (x % 2 ^ 12) ≠ some (x / 2 ^ 12 % 64) ∨ taken)
      (¬bad → reads (.ldbind cap ld v) a (x / 2 ^ 63 * 2 ^ 63 + x % 2 ^ 18) ∧
        (en → ∃ t, exec (.ldbind cap ld v) s = .next t ∧ (t.hosts.get HostPort.empty ld).frozen = false)) ∧
      (bad → reads (.ldbind cap ld v) a (s.reg a) ∧ reads (.ldbind cap ld v) (Reg.host 0x80) (s.reg (Reg.host 0x80) ||| 2 ^ ld))) ∧
    (∀ die part, die < 8 → part < 64 →
      let a := Reg.memory die (0x200 + 8 * part)
      let taken := ∃ q, q < 64 ∧ q ≠ part ∧ s.reg (Reg.memory die (0x200 + 8 * q)) &&& (x % 2 ^ 16) ≠ 0
      let owns := ∃ n, n < 72 ∧ s.reg (Reg.memory die (0x800 + 8 * n)) = 128 + part
      let bad := taken ∨ (x % 2 ^ 16 = 0 ∧ owns)
      (¬bad → reads (.lsmask cap die part v) a (x % 2 ^ 16)) ∧
        (bad → reads (.lsmask cap die part v) a (s.reg a) ∧
          reads (.lsmask cap die part v) (Reg.memory die 0x48) (s.reg (Reg.memory die 0x48) ||| 1))) ∧
    (∀ r, r < 4 →
      let ctl := Reg.memory 0 (0x20 + 8 * r)
      let base := Reg.memory 0 (8 * r)
      (s.reg ctl / 2 ^ 63 = 0 → reads (.ivbase cap r v) base (x / 2 ^ 32 % 2 ^ 26 * 2 ^ 32 + x % 2 ^ 25)) ∧
      (s.reg ctl / 2 ^ 63 = 1 → exec (.ivbase cap r v) s = .next s ∧ (en → exec (.ivctl cap r v) s = .next s)) ∧
      let kept := x / 2 ^ 63 * 2 ^ 63 + (if x / 2 ^ 40 % 32 = 0 then 1 else x / 2 ^ 40 % 32) * 2 ^ 40 + x % 2 ^ 38
      (¬en → reads (.ivctl cap r v) ctl kept) ∧
      let spans := fun (c q : Nat) =>
        let h := Nat.max 1 (c / 2 ^ 40 % 32)
        let n := c % 2 ^ 38
        ((s.reg (Reg.memory 0 (8 * q)) % 2 ^ 25, (n * h + h) / (h + 1)), (s.reg (Reg.memory 0 (8 * q)) / 2 ^ 32 % 2 ^ 26, (n + h) / (h + 1)))
      let meets := fun (p q : Nat × Nat) => ∃ f, p.1 ≤ f ∧ f < p.1 + p.2 ∧ q.1 ≤ f ∧ f < q.1 + q.2
      let outside := fun (p : Nat × Nat) (top : Nat) => ∃ f, p.1 ≤ f ∧ f < p.1 + p.2 ∧ top ≤ f
      let bad := outside (spans kept r).1 reservedFrame ∨ outside (spans kept r).2 (apFrames 1) ∨ ∃ q, q < 4 ∧ q ≠ r ∧
        s.reg (Reg.memory 0 (0x20 + 8 * q)) / 2 ^ 63 = 1 ∧
        (meets (spans kept r).1 (spans (s.reg (Reg.memory 0 (0x20 + 8 * q))) q).1 ∨
          meets (spans kept r).2 (spans (s.reg (Reg.memory 0 (0x20 + 8 * q))) q).2)
      (en → s.reg ctl / 2 ^ 63 ≠ 1 → ¬bad → reads (.ivctl cap r v) ctl kept) ∧
      (en → s.reg ctl / 2 ^ 63 ≠ 1 → bad → reads (.ivctl cap r v) ctl (s.reg ctl) ∧
        reads (.ivctl cap r v) (Reg.memory 0 0x40) (s.reg (Reg.memory 0 0x40) ||| 2 ^ r))) ∧
    (∀ die k, die < 8 → k < 32 →
      (v.getLsbD k = false → ∃ t, exec (.qen cap die v) s = .next t ∧ (t.queues.find? (32 * die + k)).map Queue.enabled ≠ some true) ∧
      (∀ e, v.getLsbD k = true → ((s.queues.find? (32 * die + k)).map Queue.enabled) ≠ some true → s.readQueue (32 * die + k) = .ok (some e) →
        s.closed e.partition = false → ∃ t, exec (.qen cap die v) s = .next t ∧
          (t.queues.find? (32 * die + k)).map (fun q => (q.enabled, q.entry)) = some (true, e))) ∧
    (∀ u, u < 64 →
      let a := Reg.module (8 * u)
      let y := x / 2 ^ 7 % 2 * 2 ^ 7 + x % 64
      let resident := ∃ g ∈ s.wgs, State.unitOfCore g.2.core = u
      let saved := ∃ e ∈ s.saved, e.2.partition = s.reg a % 64 ∧ ∀ w t, w < 64 → w ≠ u → s.unitPart w = some e.2.partition →
        s.tasks.find? e.2.task = some t → ∀ c ∈ s.domain t.queue, State.unitOfCore c ≠ w
      let bad := s.reg a / 2 ^ 7 = 1 ∧ ((128 ≤ y ∧ s.reg a ≠ y) ∨ (y < 128 ∧ (resident ∨ saved)))
      (¬bad → moves (.punit cap u v) a y) ∧
      (bad → reads (.punit cap u v) a (s.reg a) ∧ reads (.punit cap u v) (Reg.module 0x238) (s.reg (Reg.module 0x238) ||| 1))) ∧
    (∀ die n, die < 8 → n < 72 →
      let a := Reg.memory die (0x800 + 8 * n)
      let y := x / 2 ^ 7 % 2 * 2 ^ 7 + x % 64
      let used := ∃ e ∈ s.pot, e.1 / 2 ^ 40 ≤ 1 ∧ channelOf (e.1 / 2 ^ 40) (e.1 % 2 ^ 40 * 2 ^ 15) = (die, n) ∧ e.2 / 2 ^ 12 % 4 ≠ 0
      let bad := (s.reg a / 2 ^ 7 = 1 ∧ 128 ≤ y ∧ s.reg a ≠ y) ∨ (s.reg a / 2 ^ 7 = 1 ∧ y < 128 ∧ used) ∨
        (128 ≤ y ∧ s.reg (Reg.memory die (0x200 + 8 * (y % 64))) = 0)
      (¬bad → moves (.chown cap die n v) a y) ∧
      (bad → reads (.chown cap die n v) a (s.reg a) ∧ reads (.chown cap die n v) (Reg.module 0x238) (s.reg (Reg.module 0x238) ||| 2))) ∧
    (∀ b, ¬stands b →
      let epoch := s.reg (Reg.module 0x200) / 2 ^ 16 % 2 ^ 32
      (x / 2 ^ 16 % 2 ^ 32 = epoch + 1 → reads (.capt (.battery b) v) (Reg.module 0x200) ((epoch + 1) * 2 ^ 16 + x % 64)) ∧
      (x / 2 ^ 16 % 2 ^ 32 ≠ epoch + 1 → exec (.capt (.battery b) v) s = .next s)) ∧
    (∀ die e, die < 8 → x % 2 ^ 15 / 4096 = die → s.saved.find? (x % 2 ^ 15) = some e → ¬stands e.partition → e.refused = true → ∃ t,
      exec (.pretry (.battery e.partition) die v) s = .next t ∧ t.saved.find? (x % 2 ^ 15) = some { e with refused := false }) ∧
    (∀ die g w, die < 8 → s.wgs = [(g, w)] → State.dieOfCore w.core = die → s.taskId w.task = x % 2 ^ 32 → w.phase = .running → w.drain = none →
      w.card.pclass = 2 → ∃ t, exec (.preq cap die v) s = .next t ∧
        t.wg? g = some { w with preempt := some (s.clk, x / 2 ^ 32), drain := some (Nat.max 1 (s.clk + x / 2 ^ 32)) }) ∧
    (x / 2 ^ 7 % 2 = 1 → x % 64 ≠ s.captain → ∃ t, exec (.preset cap v) s = .next t ∧
      (∀ q y, t.queues.find? q = some y → y.entry.partition = x % 64 → y.enabled = false) ∧
      ∀ e ∈ t.tasks, e.2.partition = x % 64 → e.2.cancelled = true) ∧
    ∀ ld, ld < 16 → (s.portWorld ld).isSome = true → (s.hosts.get HostPort.empty ld).later = [] →
      (∀ x ∈ (s.hosts.get HostPort.empty ld).far, x.stage ≠ .sent) → ∃ t, exec (.registerWrite (.host ld) 0x010 v) s = .next t ∧
      (t.hosts.get HostPort.empty ld).addr = v ∧ t.mem = s.mem

/-- FWCMD switches to an image whose signatures verify and sets the error bit otherwise; LCADV steps to the next state with a good token,
and shows a refusal otherwise (R443, R445). The heartbeat counts while the captain is in service; a battery that watches counts the reads
without an advance, and takes over; a battery whose restart fails stands still, and a second failure retires it (R440 to R442). CLOCK_STEP
moves the core clock by 50 MHz between 400 and 800; THERMAL_TRIP at 400 MHz posts a record and takes the power; a device reset leaves
nothing in the cores, in the fabric's flows, in the tables of ownership and in memory but host memory, keeps the lifecycle state and loads
the firmware image that the boot ROM accepts; without power nothing happens but a device reset (R57, R445, R446, R448, R449). The model's
choices: what outlives a device reset (log 24), that every other byte then reads 0 (log 1), the staged image and the token as operands of
FWCMD and LCADV (log 56), and the form [4] of the thermal record (log 33). -/
def Obligations.ManagementAndPowerSteps : Prop :=
  (∀ (s : State), s.resetting = [] →
     let answers := fun (i : Instr) (ok : State → Prop) => ∃ t, exec i s = .next t ∧ ok t
     (∀ (v : DWord) (n : BitVec 16), v.getLsbD 0 = true →
       answers (.fwcmd (.battery s.captain) v (some n)) (fun t => t.reg (Reg.module 0x210) = n.toNat ∧ t.switches = s.switches + 1) ∧
       answers (.fwcmd (.battery s.captain) v none) (fun t => t.reg (Reg.module 0x210) = s.reg (Reg.module 0x210) ||| 2 ^ 31 ∧
         t.switches = s.switches)) ∧
     (∀ (v : DWord) (token : Bool),
       (v.toNat % 4 = s.reg (Reg.module 0x230) + 1 → token = true → answers (.lcadv .management v token) fun t =>
         t.reg (Reg.module 0x230) = v.toNat % 4 ∧ t.reg (Reg.module 0x248) = 0 ∧ (v.toNat % 4 = 3 → t.keys = [])) ∧
       (v.toNat % 4 ≠ s.reg (Reg.module 0x230) + 1 ∨ token = false → answers (.lcadv .management v token) fun t =>
         t.reg (Reg.module 0x230) = s.reg (Reg.module 0x230) ∧ t.reg (Reg.module 0x248) = 2 ^ 31)) ∧
     (let k := State.heartbeatKey
      ((s.batteries.get Battery.empty s.captain).stopped = false → s.errors = [] → s.beat + 800000 ≤ s.clk → answers .heartbeat fun t => t.beat = s.clk ∧
        t.mem.readNat k 8 = Nat.min (s.mem.readNat k 8 + 1) (2 ^ 64 - 1)) ∧
      (s.clk < s.beat + 800000 → exec .heartbeat s = .next s)) ∧
     (∀ b,
       let x := s.batteries.get Battery.empty b
       let place := s.watchPlace b
       let beats := s.mem.readNat State.heartbeatKey 8
       s.errors = [] → place ≠ 0 → x.stopped = false → x.checked + 800000 ≤ s.clk →
       (beats ≠ x.seen → answers (.heartbeatCheck b) fun t => t.batteries.get Battery.empty b = { x with misses := 0, seen := beats, checked := s.clk }) ∧
       (beats = x.seen → x.misses + 1 < 8 * place → answers (.heartbeatCheck b) fun t =>
         t.batteries.get Battery.empty b = { x with misses := x.misses + 1, checked := s.clk } ∧ t.takeovers = s.takeovers) ∧
       (beats = x.seen → 8 * place ≤ x.misses + 1 → (∀ e ∈ s.batteries, e.2.retired = false) → s.reachable (s.captain / 8) = true →
         s.reg (Reg.module 0x200) < 2 ^ 47 → answers (.heartbeatCheck b) fun t => t.takeovers = s.takeovers ++ [b] ∧ t.beat = s.clk)) ∧
     ∀ b, b < 64 →
       let x := s.batteries.get Battery.empty b
       x.retired = false →
       answers (.batteryRestart b true) (fun t => t.batteries.get Battery.empty b = { x with restarts := 0 }) ∧
       (x.restarts = 0 → answers (.batteryRestart b false) fun t => t.batteries.get Battery.empty b = { x with restarts := 1 } ∧
         (∀ c, c.battery = b → t.startable c = false) ∧ (∀ id c, t.calls.find? id = some c → c.battery = b → exec (.serviceComplete id) t = .next t) ∧
         (∀ v, exec (.capt (.battery b) v) t = .next t) ∧ exec (.heartbeatCheck b) t = .next t ∧ (b = s.captain → exec .heartbeat t = .next t)) ∧
       (x.restarts = 1 → answers (.batteryRestart b false) fun t => (t.batteries.get Battery.empty b).retired = true)) ∧
  (∀ s : State,
     let clock := s.reg (Reg.module 0x228) % 2 ^ 11
     let reads := fun (up : Bool) (m : Nat) => ∃ t, exec (.clockStep up) s = .next t ∧ t.reg (Reg.module 0x228) % 2 ^ 11 = m ∧ t.mem = s.mem
     (s.reg (Reg.module 0x228) < 2 ^ 11 → (clock < 800 → reads true (clock + 50)) ∧ (400 < clock → reads false (clock - 50)) ∧
       (800 ≤ clock → reads true clock) ∧ (clock ≤ 400 → reads false clock)) ∧
     (clock = 400 → s.powered = true → ∃ t, exec .thermalTrip s = .next t ∧ t.powered = false ∧ t.records = s.records ++ [[4]] ∧ t.mem = s.mem) ∧
     ∃ t, exec .deviceReset s = .next t ∧ t.powered = true ∧ t.warps = [] ∧ t.wgs = [] ∧ t.ops = [] ∧ t.pot = [] ∧ t.hostOwned = [] ∧
       t.queues = [] ∧ t.tasks = [] ∧ t.saved = [] ∧ t.keys = [] ∧ t.fabric.srcFlows = [] ∧ t.fabric.outs = [] ∧ t.clk = 0 ∧
       t.disabled = s.disabled ∧ t.reg (Reg.module 0x230) = s.reg (Reg.module 0x230) ∧
       t.reg (Reg.module 0x210) = (match Config.bootImage s.draws with
         | some v => v.toNat
         | none => s.reg (Reg.module 0x210) % 2 ^ 16) ∧
       ∀ a, t.byte a = if keyAp a = 5 then s.byte a else 0) ∧
  (∀ s : State, s.powered = false →
     (s.agenda = [] → step s = .next s) ∧
     (∀ t rest, s.agenda = t :: rest → t ≠ .event .deviceReset → step s = .next { s with agenda := rest }))

/-- The SPDM responder answers a bound requester in the order of R446: what comes before its negotiation is answered with ERROR; an answer
that is signed has the measurements of R447 and the RSA signature, its transcript hash is kept, and VENDOR_DEFINED_REQUEST signs that hash;
who is no requester of it is not answered. The model's choices: the slot number in the low half of the request's third byte, what the
transcript and the hash take in, and where a request offers its algorithms and names its registry (log 23); that the responder answers in
production only (log 89); signatures, hashes and fuses as functions without a body (log 6). -/
def Obligations.ResponderAnswers : Prop :=
  (∀ (s : State) (q : Nat) (request : List Byte), s.answers q = false → ∀ i ∈ [Instr.getVersion q request, .getCapabilities q request,
     .negotiateAlgorithms q request, .getDigests q request, .getCertificate q request, .challenge q request, .getMeasurements q request,
     .vendorDefinedRequest q request], exec i s = .next s) ∧
  ∀ (s : State) (q : Nat) (request : List Byte), s.answers q = true →
    let x := s.spdmOf q
    let done := { x with transcript := x.transcript ++ [request] }
    let becomes := fun (i : Instr) (y : Spdm) => ∃ t, exec i s = .next t ∧ t.spdmOf q = y ∧ t.mem = s.mem ∧ ∀ r, r ≠ q → t.spdmOf r = s.spdmOf r
    let ready := x.version = true ∧ x.capabilities = true ∧ x.algorithms = true
    let hash := fun (content : List Byte) => Config.sha384 (done.transcript.flatten ++ content)
    let blocks := s.measurements q
    let offered := (field request 8 4).testBit 2 = true ∧ (field request 12 4).testBit 1 = true
    let named := (request.drop 4).take Config.registry.length = Config.registry
    let digests := [0, 1].map (fun k => Config.sha384 (Config.chain s.identity k))
    becomes (.getVersion q request) { Spdm.empty with version := true, transcript := [request], signed := x.signed, reply := .version [(1, 3)] } ∧
    (x.version = true → becomes (.getCapabilities q request) { done with
      capabilities := true, reply := .capabilities [.digests, .certificate, .challenge, .measurements, .vendorDefined] }) ∧
    (x.version = true → x.capabilities = true → offered → becomes (.negotiateAlgorithms q request) { done with
      algorithms := true, reply := .algorithms 2 1 }) ∧
    (x.version = false → becomes (.getCapabilities q request) { x with reply := .error }) ∧
    (x.version = false ∨ x.capabilities = false ∨ ¬offered → becomes (.negotiateAlgorithms q request) { x with reply := .error }) ∧
    (¬named → becomes (.vendorDefinedRequest q request) { x with reply := .error }) ∧
    blocks[3]? = some (leBytes 8 (s.reg (Reg.module 0x230)) ++ (s.disabled.map (leBytes 4)).flatten ++ Config.fuses s.identity) ∧
    (¬ready → ∀ i ∈ [Instr.getDigests q request, .getCertificate q request, .challenge q request, .getMeasurements q request,
      .vendorDefinedRequest q request], becomes i { x with reply := .error }) ∧
    (ready →
      becomes (.getDigests q request) { done with reply := .digests digests } ∧
      (∀ k, k < 2 → (request.getD 2 0).toNat % 16 = k → becomes (.getCertificate q request) { done with reply := .certificate (Config.chain s.identity k) }) ∧
      becomes (.challenge q request) (match Config.slhSign s.identity (hash []) with
        | some _ => { done with signed := some (hash []), reply := .challenge (Config.rsaSign s.identity (hash [])) }
        | none => { done with reply := .error }) ∧
      becomes (.getMeasurements q request) (match Config.slhSign s.identity (hash blocks.flatten) with
        | some _ => { done with
            signed := some (hash blocks.flatten), reply := .measurements blocks (Config.rsaSign s.identity (hash blocks.flatten)) }
        | none => { done with reply := .error }) ∧
      (named → becomes (.vendorDefinedRequest q request) (match x.signed.bind (Config.slhSign s.identity) with
        | some sig => { done with reply := .vendor sig }
        | none => { done with reply := .error })))

/-! Reset and invariants. -/

/-- The state after reset: nothing runs, no queue is enabled, no frame is owned, no translation is held; the registers that the spec gives
a reset value hold it, and both invariants below hold (R46, R65, R73, R189, R190, R201, R434, R448). -/
def Obligations.ResetState : Prop :=
  let s := State.reset
  s.warps = [] ∧ s.wgs = [] ∧ s.queues = [] ∧ s.pot = [] ∧ s.hostOwned = [] ∧ s.coreTlb = [] ∧ s.dtus = [] ∧ s.waiters = [] ∧
  (∀ d, d < 8 → s.reg (Reg.dtu d 0x010) = 0x0400000000100000 ∧ s.reg (Reg.dtu d 0x208) = 0x40 ∧ s.reg (Reg.memory d 0x50) = 0x400 ∧
    s.reg (Reg.memory d 0x58) = 0x1000 ∧ s.reg (Reg.fabric d 0x1000) = 0x10000000214 ∧ s.reg (Reg.dispatcher d 8) = 0 ∧ s.reg (Reg.dtu d 0) = 0 ∧
    (∀ r, r < 4 → s.reg (Reg.memory d (0x20 + 8 * r)) = 2 ^ 40)) ∧
  s.reg (Reg.fabric 8 0x1188) = 0x40 ∧ s.reg (Reg.module 0x220) = 3600 ∧ s.reg (Reg.module 0x228) = 800 ∧
  s.mem.wf ∧ MarksReady s

/-- Memory keeps its canonical form in every step: addresses strictly rising, and no byte listed that equals what an unlisted address
reads as (log 1). -/
def Obligations.StepKeepsMemoryCanonical : Prop :=
  ∀ s t : State, s.mem.wf → step s = .next t → t.mem.wf

/-- The quadrants' marks of ready slots stand for exactly the slots that are ready, after every step (R216). -/
def Obligations.StepKeepsReadyMarks : Prop :=
  ∀ s t : State, MarksReady s → step s = .next t → MarksReady t
end

