-- ==== Sys2Proof/Laws/Fields.lean ====
section
/-!
SUPPORT. The fields of an encoded word, format by format (R245), and the round trip of the shapes that many instructions share.
-/

namespace Sys2Proof.Laws

open Instr (encR encW encU encM encC encSrc encAddr bit)

/-- An instruction that a word encodes is read back from its word. -/
def RoundTrip.Statement (i : Instr) : Prop := i.encoded = true → i.WellFormed → decodeWord (encode i) = .ok i

open RoundTrip (Statement)

@[simp] theorem ofNat_toNat_self {n : Nat} (x : BitVec n) : BitVec.ofNat n x.toNat = x := by
  rw [BitVec.ofNat_toNat, BitVec.setWidth_eq]

@[simp] theorem condOf_code (c : Cond) : condOf c.code = c := by cases c <;> rfl
@[simp] theorem combineOf_code (c : Combine) : combineOf c.code = some c := by cases c <;> rfl
@[simp] theorem voteOf_code (c : VoteOp) : voteOf c.code = some c := by cases c <;> rfl
@[simp] theorem redOpOf_code (c : RedOp) : redOpOf c.code = some c := by cases c <;> rfl
@[simp] theorem blockOf_code (c : BlockFmt) : blockOf c.code = some c := by cases c <;> rfl
@[simp] theorem widthOf_code (c : MemWidth) : widthOf c.code = some c := by cases c <;> rfl
@[simp] theorem atomOf_code (c : AtomOp) : atomOf c.code = some c := by cases c <;> rfl
@[simp] theorem prefOf_code (c : PrefMode) : prefOf c.code = some c := by cases c <;> rfl
@[simp] theorem scopeOf_code (c : Scope) : scopeOf c.code = some c := by cases c <;> rfl
@[simp] theorem gathOf_code (c : GathElem) : gathOf c.code = c := by cases c <;> rfl

theorem Cond.code_lt (c : Cond) : c.code < 8 := by cases c <;> decide
theorem Combine.code_lt (c : Combine) : c.code < 3 := by cases c <;> decide
theorem VoteOp.code_lt (c : VoteOp) : c.code < 3 := by cases c <;> decide
theorem RedOp.code_lt (c : RedOp) : c.code < 6 := by cases c <;> decide
theorem BlockFmt.code_lt (c : BlockFmt) : c.code < 8 := by cases c <;> decide
theorem MemWidth.code_lt (c : MemWidth) : c.code < 5 := by cases c <;> decide
theorem AtomOp.code_lt (c : AtomOp) : c.code < 15 := by cases c <;> decide
theorem PrefMode.code_lt (c : PrefMode) : c.code < 3 := by cases c <;> decide
theorem Scope.code_lt (c : Scope) : c.code < 5 := by cases c <;> decide
theorem GathElem.code_lt (c : GathElem) : c.code < 4 := by cases c <;> decide

/-- A field that lies in the low k bits is a field of those bits. -/
theorem bitsOf_low {k lo len : Nat} (x y : Nat) (h : lo + len ≤ k) : bitsOf (x * 2 ^ k + y) lo len = bitsOf y lo len := by
  obtain ⟨m, rfl⟩ : ∃ m, k = lo + (len + m) := ⟨k - lo - len, by omega⟩
  simp only [bitsOf, Nat.pow_add]
  rw [show x * (2 ^ lo * (2 ^ len * 2 ^ m)) + y = y + 2 ^ lo * (x * (2 ^ len * 2 ^ m)) by
    rw [Nat.add_comm, Nat.mul_left_comm],
    Nat.add_mul_div_left _ _ (Nat.two_pow_pos lo),
    show x * (2 ^ len * 2 ^ m) = 2 ^ len * (x * 2 ^ m) by rw [Nat.mul_left_comm], Nat.add_mul_mod_self_left]

/-- A field that lies above the low k bits. -/
theorem bitsOf_high {k lo len : Nat} (x y : Nat) (hy : y < 2 ^ k) : bitsOf (x * 2 ^ k + y) (k + lo) len = bitsOf x lo len := by
  simp only [bitsOf, Nat.pow_add, ← Nat.div_div_eq_div_mul]
  rw [Nat.mul_comm, Nat.mul_add_div (Nat.two_pow_pos k), Nat.div_eq_of_lt hy, Nat.add_zero]

theorem bitsOf_all {x len : Nat} (h : x < 2 ^ len) : bitsOf x 0 len = x := by
  simp only [bitsOf, Nat.pow_zero, Nat.div_one]; exact Nat.mod_eq_of_lt h

/-- A word whose number is n decodes to an instruction that its fields give and that breaks no rule. -/
theorem decode_of_fields {i : Instr} (n op : Nat) (hn : i.encNat = n) (hlt : n < 2 ^ 32) (ho : bitsOf n 25 7 = op)
    (hd : decodeOp op n = .ok i) : Statement i := by
  intro _ h
  have e : (encode i).toNat = n := by rw [encode, BitVec.toNat_ofNat, hn]; exact Nat.mod_eq_of_lt hlt
  rw [Instr.WellFormed] at h
  rw [decodeWord, e, decodeFields, ho, hd]
  simp only [h]

section fields
variable {op : Nat} {d a t : Reg} {b imm off f : Nat} {la : Look}

/-- The R, X and I formats: opcode, d, a, nine bits. -/
theorem encR_lt (ho : op < 128) (hb : b < 512) : encR op d a b < 2 ^ 32 := by
  have := d.isLt; have := a.isLt; simp only [encR]; omega
theorem encR_op (ho : op < 128) (hb : b < 512) : bitsOf (encR op d a b) 25 7 = op := by
  have := d.isLt; have := a.isLt; simp only [encR, bitsOf]; omega
theorem encR_d (hb : b < 512) : fD (encR op d a b) = d := by
  have := d.isLt; have := a.isLt
  apply BitVec.eq_of_toNat_eq; simp only [fD, regAt, encR, bitsOf, BitVec.toNat_ofNat]; omega
theorem encR_a (hb : b < 512) : fA (encR op d a b) = a := by
  have := d.isLt; have := a.isLt
  apply BitVec.eq_of_toNat_eq; simp only [fA, regAt, encR, bitsOf, BitVec.toNat_ofNat]; omega
theorem encR_low (lo len : Nat) (h : lo + len ≤ 9) : bitsOf (encR op d a b) lo len = bitsOf b lo len := by
  rw [show encR op d a b = (op * 2 ^ 16 + d.toNat * 2 ^ 8 + a.toNat) * 2 ^ 9 + b by simp only [encR]; omega, bitsOf_low _ _ h]

/-- The W and B formats: opcode, d, seventeen bits. -/
theorem encW_lt (ho : op < 128) (hi : imm < 2 ^ 17) : encW op d imm < 2 ^ 32 := by
  have := d.isLt; simp only [encW]; omega
theorem encW_op (ho : op < 128) (hi : imm < 2 ^ 17) : bitsOf (encW op d imm) 25 7 = op := by
  have := d.isLt; simp only [encW, bitsOf]; omega
theorem encW_d (hi : imm < 2 ^ 17) : fD (encW op d imm) = d := by
  have := d.isLt
  apply BitVec.eq_of_toNat_eq; simp only [fD, regAt, encW, bitsOf, BitVec.toNat_ofNat]; omega
theorem encW_low (lo len : Nat) (h : lo + len ≤ 17) : bitsOf (encW op d imm) lo len = bitsOf imm lo len := by
  rw [show encW op d imm = (op * 2 ^ 8 + d.toNat) * 2 ^ 17 + imm by simp only [encW]; omega, bitsOf_low _ _ h]

/-- The J format: opcode, twenty-five bits. -/
theorem encJ_op (ho : op < 128) (hi : off < 2 ^ 25) : bitsOf (op * 2 ^ 25 + off) 25 7 = op := by
  simp only [bitsOf]; omega

/-- The M format: opcode, t, a, L, five bits. -/
theorem encM_lt (ho : op < 128) (hf : f < 32) : encM op t la (a.toNat * 2 ^ 9 + f) < 2 ^ 32 := by
  have := t.isLt; have := a.isLt; have := la.isLt; simp only [encM]; omega
theorem encM_op (ho : op < 128) (hf : f < 32) : bitsOf (encM op t la (a.toNat * 2 ^ 9 + f)) 25 7 = op := by
  have := t.isLt; have := a.isLt; have := la.isLt; simp only [encM, bitsOf]; omega
theorem encM_t (hf : f < 32) : fD (encM op t la (a.toNat * 2 ^ 9 + f)) = t := by
  have := t.isLt; have := a.isLt; have := la.isLt
  apply BitVec.eq_of_toNat_eq; simp only [fD, regAt, encM, bitsOf, BitVec.toNat_ofNat]; omega
theorem encM_a (hf : f < 32) : fA (encM op t la (a.toNat * 2 ^ 9 + f)) = a := by
  have := t.isLt; have := a.isLt; have := la.isLt
  apply BitVec.eq_of_toNat_eq; simp only [fA, regAt, encM, bitsOf, BitVec.toNat_ofNat]; omega
theorem encM_la (hf : f < 32) : fL (encM op t la (a.toNat * 2 ^ 9 + f)) = la := by
  have := t.isLt; have := a.isLt; have := la.isLt
  apply BitVec.eq_of_toNat_eq; simp only [fL, encM, bitsOf, BitVec.toNat_ofNat]; omega
theorem encM_low (lo len : Nat) (h : lo + len ≤ 5) : bitsOf (encM op t la (a.toNat * 2 ^ 9 + f)) lo len = bitsOf f lo len := by
  rw [show encM op t la (a.toNat * 2 ^ 9 + f) = (op * 2 ^ 20 + t.toNat * 2 ^ 12 + a.toNat * 2 ^ 4 + la.toNat) * 2 ^ 5 + f by
    simp only [encM]; omega, bitsOf_low _ _ h]

end fields

/-! The shapes that several instructions share. -/

theorem src_fields (b : SrcB) : encSrc b < 512 ∧ fSrc (encSrc b) = b := by
  cases b with
  | v r =>
    have := r.isLt
    refine ⟨by simp only [encSrc]; omega, ?_⟩
    have h0 : bitsOf (r.toNat * 2) 0 1 = 0 := by simp only [bitsOf]; omega
    have h1 : bitsOf (r.toNat * 2) 1 8 = r.toNat := by simp only [bitsOf]; omega
    simp [fSrc, fS, fB, regAt, encSrc, h0, h1]
  | s r =>
    have := r.isLt
    refine ⟨by simp only [encSrc]; omega, ?_⟩
    have h0 : bitsOf (r.toNat * 2 + 1) 0 1 = 1 := by simp only [bitsOf]; omega
    have h1 : bitsOf (r.toNat * 2 + 1) 1 8 = r.toNat := by simp only [bitsOf]; omega
    simp [fSrc, fS, fB, regAt, encSrc, h0, h1]

theorem encR_src {op : Nat} {d a : Reg} (b : SrcB) : fSrc (encR op d a (encSrc b)) = b := by
  have h := (src_fields b).2
  simp only [fSrc, fS, fB, regAt, encR_low 0 1 (by decide), encR_low 1 8 (by decide)] at h ⊢
  exact h

/-- The uniform operations with three registers. -/
theorem roundTrip_S {k : Reg → Reg → Reg → Instr} (op : Nat) (ho : op < 128)
    (hn : ∀ d a b, (k d a b).encNat = encR op d a (b.toNat * 2)) (hd : ∀ w, decodeOp op w = decS k w) (d a b : Reg) :
    Statement (k d a b) := by
  have hb : b.toNat * 2 < 512 := by have := b.isLt; omega
  refine decode_of_fields _ op (hn d a b) (encR_lt ho hb) (encR_op ho hb) ?_
  have h0 : bitsOf (b.toNat * 2) 0 1 = 0 := by simp only [bitsOf]; omega
  have h1 : bitsOf (b.toNat * 2) 1 8 = b.toNat := by simp only [bitsOf]; omega
  simp [hd, decS, zeroBits, encR_low, encR_d hb, encR_a hb, h0, h1, fB, regAt]

/-- The vector operations with three registers. -/
theorem roundTrip_V {k : Reg → Reg → SrcB → Instr} (op : Nat) (ho : op < 128)
    (hn : ∀ d a b, (k d a b).encNat = encR op d a (encSrc b)) (hd : ∀ w, decodeOp op w = decV k w) (d a : Reg) (b : SrcB) :
    Statement (k d a b) := by
  have hb := (src_fields b).1
  refine decode_of_fields _ op (hn d a b) (encR_lt ho hb) (encR_op ho hb) ?_
  simp [hd, decV, encR_d hb, encR_a hb, encR_src]

/-- The unary group. -/
theorem roundTrip_U {k : Reg → Reg → Instr} (f : Nat) (hf : f < 512) (hn : ∀ d a, (k d a).encNat = encU f d a)
    (hd : ∀ w, bitsOf w 0 9 = f → decUnary w = .ok (k (fD w) (fA w))) (d a : Reg) : Statement (k d a) := by
  refine decode_of_fields _ 0x49 (hn d a) (encR_lt (by decide) hf) (encR_op (by decide) hf) ?_
  rw [show decodeOp 0x49 (encU f d a) = decUnary (encU f d a) from rfl,
    hd _ (by rw [encU, encR_low 0 9 (by decide), bitsOf_all hf]), encU, encR_d hf, encR_a hf]

/-- An instruction of d and seventeen bits. -/
theorem roundTrip_W {k : Reg → BitVec 17 → Instr} (op : Nat) (ho : op < 128) (hn : ∀ d imm, (k d imm).encNat = encW op d imm.toNat)
    (hd : ∀ w, decodeOp op w = .ok (k (fD w) (BitVec.ofNat 17 (bitsOf w 0 17)))) (d : Reg) (imm : BitVec 17) : Statement (k d imm) := by
  refine decode_of_fields _ op (hn d imm) (encW_lt ho imm.isLt) (encW_op ho imm.isLt) ?_
  simp [hd, encW_d imm.isLt, encW_low, bitsOf_all imm.isLt]

/-- An instruction of d and sixteen bits. -/
theorem roundTrip_H {k : Reg → BitVec 16 → Instr} (op : Nat) (ho : op < 128) (hn : ∀ d imm, (k d imm).encNat = encW op d imm.toNat)
    (hd : ∀ w, decodeOp op w = zeroBits (bitsOf w 16 1) (k (fD w) (BitVec.ofNat 16 (bitsOf w 0 16)))) (d : Reg) (imm : BitVec 16) :
    Statement (k d imm) := by
  have hi : imm.toNat < 2 ^ 17 := Nat.lt_trans imm.isLt (by decide)
  refine decode_of_fields _ op (hn d imm) (encW_lt ho hi) (encW_op ho hi) ?_
  have h0 : bitsOf imm.toNat 16 1 = 0 := by have := imm.isLt; simp only [bitsOf]; omega
  simp [hd, zeroBits, encW_d hi, encW_low, bitsOf_all imm.isLt, h0]

/-- An instruction of seventeen bits alone. -/
theorem roundTrip_T {k : BitVec 17 → Instr} (op : Nat) (ho : op < 128) (hn : ∀ imm, (k imm).encNat = encW op 0 imm.toNat)
    (hd : ∀ w, decodeOp op w = zeroBits (bitsOf w 17 8) (k (BitVec.ofNat 17 (bitsOf w 0 17)))) (imm : BitVec 17) : Statement (k imm) := by
  refine decode_of_fields _ op (hn imm) (encW_lt ho imm.isLt) (encW_op ho imm.isLt) ?_
  have h0 : bitsOf (encW op 0 imm.toNat) 17 8 = 0 := by
    have := imm.isLt; have : (0 : Reg).toNat = 0 := rfl; simp only [encW, bitsOf]; omega
  rw [hd, h0, encW_low 0 17 (by decide), bitsOf_all imm.isLt, ofNat_toNat_self]; rfl

/-- An instruction of d, a and nine bits. -/
theorem roundTrip_I {k : Reg → Reg → BitVec 9 → Instr} (op : Nat) (ho : op < 128)
    (hn : ∀ d a imm, (k d a imm).encNat = encR op d a imm.toNat)
    (hd : ∀ w, decodeOp op w = .ok (k (fD w) (fA w) (BitVec.ofNat 9 (bitsOf w 0 9)))) (d a : Reg) (imm : BitVec 9) :
    Statement (k d a imm) := by
  refine decode_of_fields _ op (hn d a imm) (encR_lt ho imm.isLt) (encR_op ho imm.isLt) ?_
  simp [hd, encR_d imm.isLt, encR_a imm.isLt, encR_low, bitsOf_all imm.isLt]

/-- An instruction of d and nine bits, with a zero. -/
theorem roundTrip_D9 {k : Reg → BitVec 9 → Instr} (op : Nat) (ho : op < 128) (hn : ∀ d n, (k d n).encNat = encR op d 0 n.toNat)
    (hd : ∀ w, decodeOp op w = zeroBits (bitsOf w 9 8) (k (fD w) (BitVec.ofNat 9 (bitsOf w 0 9)))) (d : Reg) (n : BitVec 9) :
    Statement (k d n) := by
  refine decode_of_fields _ op (hn d n) (encR_lt ho n.isLt) (encR_op ho n.isLt) ?_
  have h0 : bitsOf (encR op d 0 n.toNat) 9 8 = 0 := by
    have := n.isLt; have : (0 : Reg).toNat = 0 := rfl; simp only [encR, bitsOf]; omega
  rw [hd, h0, encR_d n.isLt, encR_low 0 9 (by decide), bitsOf_all n.isLt, ofNat_toNat_self]; rfl

/-- An instruction of a alone. -/
theorem roundTrip_A {k : Reg → Instr} (op : Nat) (ho : op < 128) (hn : ∀ a, (k a).encNat = encR op 0 a 0)
    (hd : ∀ w, decodeOp op w = zeroBits (bitsOf w 17 8 + bitsOf w 0 9) (k (fA w))) (a : Reg) : Statement (k a) := by
  have h9 : (0 : Nat) < 512 := by decide
  refine decode_of_fields _ op (hn a) (encR_lt ho h9) (encR_op ho h9) ?_
  have h0 : bitsOf (encR op 0 a 0) 17 8 = 0 := by
    have := a.isLt; have : (0 : Reg).toNat = 0 := rfl; simp only [encR, bitsOf]; omega
  have h1 : bitsOf 0 0 9 = 0 := rfl
  rw [hd, h0, encR_a h9, encR_low 0 9 (by decide), h1]; rfl

/-- An instruction of a signed word offset. -/
theorem roundTrip_J {k : BitVec 25 → Instr} (op : Nat) (ho : op < 128) (hn : ∀ off, (k off).encNat = op * 2 ^ 25 + off.toNat)
    (hd : ∀ w, decodeOp op w = .ok (k (BitVec.ofNat 25 (bitsOf w 0 25)))) (off : BitVec 25) : Statement (k off) := by
  have hi := off.isLt
  refine decode_of_fields _ op (hn off) (by omega) (encJ_op ho hi) ?_
  rw [hd, bitsOf_low (k := 25) _ _ (by decide), bitsOf_all hi, ofNat_toNat_self]

/-! Memory instructions: the rest of the word as field a and five bits. -/

/-- The function bits of an address operand. -/
def uniBit : AddrOp → Nat
  | .lane _ => 0
  | .uni _ => 16
def addrReg : AddrOp → Reg
  | .lane r => r
  | .uni r => r

theorem encAddr_eq (a : AddrOp) (x : Nat) : encAddr a + x = (addrReg a).toNat * 2 ^ 9 + (uniBit a + x) := by
  cases a <;> simp only [encAddr, addrReg, uniBit] <;> omega
theorem uniBit_le (a : AddrOp) : uniBit a ≤ 16 := by cases a <;> simp only [uniBit] <;> omega

theorem encM_addr {op : Nat} {t : Reg} {la : Look} {a : AddrOp} {x : Nat} (hx : x < 16) :
    fAddr (encM op t la ((addrReg a).toNat * 2 ^ 9 + (uniBit a + x))) = a := by
  have := uniBit_le a
  rw [fAddr, encM_low 4 1 (by decide), encM_a (by omega)]
  cases a with
  | lane r => rw [show bitsOf (uniBit (.lane r) + x) 4 1 = 0 by simp only [bitsOf, uniBit]; omega]; rfl
  | uni r => rw [show bitsOf (uniBit (.uni r) + x) 4 1 = 1 by simp only [bitsOf, uniBit]; omega]; rfl

theorem low_addr {a : AddrOp} {x : Nat} (lo len : Nat) (h : lo + len ≤ 4) : bitsOf (uniBit a + x) lo len = bitsOf x lo len := by
  cases a with
  | lane r => rw [uniBit, Nat.zero_add]
  | uni r => rw [show uniBit (.uni r) + x = 1 * 2 ^ 4 + x from rfl, bitsOf_low _ _ h]

/-! What a zero register field says of the bits. -/

theorem field_toNat {w lo : Nat} {r : Reg} (h : regAt w lo = r) : bitsOf w lo 8 = r.toNat := by
  rw [← h, regAt, BitVec.toNat_ofNat]; simp only [bitsOf]; omega
theorem zeroD {w : Nat} (h : fD w = 0) : bitsOf w 17 8 = 0 := field_toNat h
theorem zeroDA {w : Nat} (hd : fD w = 0) (ha : fA w = 0) : bitsOf w 9 16 = 0 := by
  have h1 : bitsOf w 17 8 = 0 := field_toNat hd
  have h2 : bitsOf w 9 8 = 0 := field_toNat ha
  simp only [bitsOf] at *; omega
theorem quarter {w : Nat} {q : BitVec 2} (h : fA w = BitVec.ofNat 8 q.toNat) : bitsOf w 11 6 = 0 ∧ fQ w = q := by
  have h1 : bitsOf w 9 8 = (BitVec.ofNat 8 q.toNat).toNat := field_toNat h
  have := q.isLt
  rw [BitVec.toNat_ofNat] at h1
  refine ⟨by simp only [bitsOf] at *; omega, BitVec.eq_of_toNat_eq ?_⟩
  rw [fQ, BitVec.toNat_ofNat]; simp only [bitsOf] at *; omega

/-- What the decoder reads of a word with an address operand and four bits. -/
theorem roundTrip_M {i : Instr} (op : Nat) (ho : op < 128) (t : Reg) (a : AddrOp) (la : Look) (x : Nat) (hx : x < 16)
    (hn : i.encNat = encM op t la (encAddr a + x))
    (hd : ∀ w, fD w = t → fAddr w = a → fL w = la → (∀ lo len, lo + len ≤ 4 → bitsOf w lo len = bitsOf x lo len) → decodeOp op w = .ok i) :
    Statement i := by
  have := uniBit_le a
  rw [encAddr_eq] at hn
  refine decode_of_fields _ op hn (encM_lt ho (by omega)) (encM_op ho (by omega)) (hd _ (encM_t (by omega)) (encM_addr hx) (encM_la (by omega)) ?_)
  intro lo len h
  rw [encM_low lo len (by omega), low_addr lo len h]

/-- What the decoder reads of a word with field a and five bits. -/
theorem roundTrip_N {i : Instr} (op : Nat) (ho : op < 128) (t a : Reg) (la : Look) (f : Nat) (hf : f < 32)
    (hn : i.encNat = encM op t la (a.toNat * 2 ^ 9 + f))
    (hd : ∀ w, fD w = t → fA w = a → fL w = la → (∀ lo len, lo + len ≤ 5 → bitsOf w lo len = bitsOf f lo len) → decodeOp op w = .ok i) :
    Statement i :=
  decode_of_fields _ op hn (encM_lt ho hf) (encM_op ho hf) (hd _ (encM_t hf) (encM_a hf) (encM_la hf) fun lo len h => encM_low lo len h)

/-- The counter instructions. -/
theorem roundTrip_C {k : CtrField → Reg → AddrOp → Instr} (op : Nat) (ho : op < 128) (hn : ∀ f t a, (k f t a).encNat = encC op f t a)
    (hd : ∀ w, decodeOp op w = decCtr k w) (f : CtrField) (t : Reg) (a : AddrOp) : Statement (k f t a) := by
  obtain ⟨sc, q, la⟩ := f
  have h5 := Scope.code_lt sc
  have hb : bit q 3 ≤ 8 := by cases q <;> decide
  refine roundTrip_M op ho t a la (bit q 3 + sc.code) (by omega) ?_ ?_
  · rw [hn, encC]; simp only [Nat.add_assoc]
  · intro w ht ha hl hx
    have h0 : bitsOf (bit q 3 + sc.code) 0 3 = sc.code := by cases q <;> simp [bit, bitsOf] <;> omega
    have h1 : (bitsOf (bit q 3 + sc.code) 3 1 = 1) = (q = true) := by cases q <;> simp [bit, bitsOf] <;> omega
    simp [hd, decCtr, funVal, ht, ha, hl, hx, h0, h1]

end Sys2Proof.Laws
end

