-- ==== Sys2Proof/Laws/Map.lean ====
section
/-!
SUPPORT. The laws of sparse tables and of memory: reading what was written, leaving every other key alone, and keeping the canonical
form.
-/

namespace Sys2Proof.Machine

namespace Map
variable {β : Type}

@[simp] theorem find?_insert_self (k : Nat) (v : β) (m : Map β) : (m.insert k v).find? k = some v := by
  induction m with
  | nil => simp [insert, find?]
  | cons e m ih =>
    obtain ⟨j, u⟩ := e
    unfold insert; split
    · simp [find?]
    · split
      · simp [find?]
      · simp [find?, ih, Ne.symm ‹¬k = j›]

theorem find?_insert_of_ne {k j : Nat} (h : j ≠ k) (v : β) (m : Map β) : (m.insert k v).find? j = m.find? j := by
  induction m with
  | nil => simp [insert, find?, h.symm]
  | cons e m ih =>
    obtain ⟨i, u⟩ := e
    unfold insert; split
    · simp [find?, h.symm]
    · split
      · subst_vars; simp [find?, h.symm]
      · simp [find?, ih]

@[simp] theorem find?_erase_self (k : Nat) (m : Map β) : (m.erase k).find? k = none := by
  induction m with
  | nil => rfl
  | cons e m ih => obtain ⟨j, u⟩ := e; unfold erase; split <;> simp_all [find?]; omega

theorem find?_erase_of_ne {k j : Nat} (h : j ≠ k) (m : Map β) : (m.erase k).find? j = m.find? j := by
  induction m with
  | nil => rfl
  | cons e m ih => obtain ⟨i, u⟩ := e; unfold erase; split <;> simp_all [find?]; intro; omega

theorem find?_adjust_self (k : Nat) (f : β → β) (m : Map β) : (m.adjust k f).find? k = (m.find? k).map f := by
  unfold adjust; split <;> simp_all

theorem find?_adjust_of_ne {k j : Nat} (h : j ≠ k) (f : β → β) (m : Map β) : (m.adjust k f).find? j = m.find? j := by
  unfold adjust; split <;> simp_all [find?_insert_of_ne]

theorem get_insert_self (d : β) (k : Nat) (v : β) (m : Map β) : (m.insert k v).get d k = v := by simp [get]
theorem get_insert_of_ne {k j : Nat} (h : j ≠ k) (d v : β) (m : Map β) : (m.insert k v).get d j = m.get d j := by
  simp [get, find?_insert_of_ne h]

variable [DecidableEq β]

@[simp] theorem get_put_self (d : β) (m : Map β) (k : Nat) (v : β) : (m.put d k v).get d k = v := by
  unfold put; split <;> simp_all [get]

theorem get_put_of_ne {k j : Nat} (h : j ≠ k) (d d' : β) (m : Map β) (v : β) : (m.put d k v).get d' j = m.get d' j := by
  unfold put; split <;> simp [get, find?_erase_of_ne h, find?_insert_of_ne h]

omit [DecidableEq β] in
theorem mem_insert {k : Nat} {v : β} {m : Map β} {p : Nat × β} (h : p ∈ m.insert k v) : p = (k, v) ∨ p ∈ m := by
  induction m with
  | nil => simpa [insert] using h
  | cons e m ih =>
    obtain ⟨j, u⟩ := e; unfold insert at h; split at h
    · exact (List.mem_cons.1 h)
    · split at h
      · exact (List.mem_cons.1 h).imp id (List.mem_cons_of_mem _)
      · rcases List.mem_cons.1 h with h | h
        · exact .inr (h ▸ List.mem_cons_self)
        · exact (ih h).imp id (List.mem_cons_of_mem _)

omit [DecidableEq β] in
theorem mem_erase {k : Nat} {m : Map β} {p : Nat × β} (h : p ∈ m.erase k) : p ∈ m := by
  induction m with
  | nil => exact h
  | cons e m ih => obtain ⟨j, u⟩ := e; unfold erase at h; split at h <;> simp_all; exact h.imp id ih

omit [DecidableEq β] in
theorem pairwise_insert {k : Nat} {v : β} {m : Map β} (h : m.Pairwise (fun p q => p.1 < q.1)) :
    (m.insert k v).Pairwise (fun p q => p.1 < q.1) := by
  induction m with
  | nil => simp [insert]
  | cons e m ih =>
    obtain ⟨j, u⟩ := e
    obtain ⟨h1, h2⟩ := List.pairwise_cons.1 h
    unfold insert; split
    · refine List.pairwise_cons.2 ⟨fun p hp => ?_, h⟩
      rcases List.mem_cons.1 hp with rfl | hp
      · assumption
      · exact Nat.lt_trans ‹_› (h1 p hp)
    · split
      · subst_vars; exact List.pairwise_cons.2 ⟨h1, h2⟩
      · refine List.pairwise_cons.2 ⟨fun p hp => ?_, ih h2⟩
        rcases mem_insert hp with rfl | hp
        · simp only; omega
        · exact h1 p hp

omit [DecidableEq β] in
theorem pairwise_erase {k : Nat} {m : Map β} (h : m.Pairwise (fun p q => p.1 < q.1)) : (m.erase k).Pairwise (fun p q => p.1 < q.1) := by
  induction m with
  | nil => exact h
  | cons e m ih =>
    obtain ⟨j, u⟩ := e
    obtain ⟨h1, h2⟩ := List.pairwise_cons.1 h
    unfold erase; split
    · exact ih h2
    · exact List.pairwise_cons.2 ⟨fun p hp => h1 p (mem_erase hp), ih h2⟩

/-- Setting a key keeps the canonical form. -/
theorem canon_put {d : β} {m : Map β} (h : Canon d m) (k : Nat) (v : β) : Canon d (m.put d k v) := by
  unfold put; split
  · exact ⟨pairwise_erase h.1, fun p hp => h.2 p (mem_erase hp)⟩
  · refine ⟨pairwise_insert h.1, fun p hp => ?_⟩
    rcases mem_insert hp with rfl | hp
    · assumption
    · exact h.2 p hp

omit [DecidableEq β] in
/-- Dropping entries keeps the canonical form. -/
theorem canon_filter {d : β} {m : Map β} (h : Canon d m) (f : Nat × β → Bool) : Canon d (m.filter f) :=
  ⟨h.1.filter f, fun p hp => h.2 p (List.mem_filter.1 hp).1⟩

end Map

namespace Memory

@[simp] theorem read_write_self (m : Memory) (a : Nat) (b : Byte) : (m.write a b).read a = b := Map.get_put_self ..

theorem read_write_of_ne {a c : Nat} (h : c ≠ a) (m : Memory) (b : Byte) : (m.write a b).read c = m.read c := Map.get_put_of_ne h ..

theorem wf_write {m : Memory} (h : m.wf) (a : Nat) (b : Byte) : (m.write a b).wf := Map.canon_put h a b

theorem wf_writeBytes {m : Memory} (h : m.wf) (a : Nat) (bs : List Byte) : (m.writeBytes a bs).wf := by
  induction bs generalizing m a with
  | nil => exact h
  | cons b bs ih => exact ih (wf_write h a b) (a + 1)

theorem wf_writeNat {m : Memory} (h : m.wf) (a n v : Nat) : (m.writeNat a n v).wf := wf_writeBytes h a _

/-- A write leaves the bytes outside it alone. -/
theorem read_writeBytes_of_not_mem {m : Memory} {a c : Nat} {bs : List Byte} (h : c < a ∨ a + bs.length ≤ c) :
    (m.writeBytes a bs).read c = m.read c := by
  induction bs generalizing m a with
  | nil => rfl
  | cons b bs ih =>
    rw [writeBytes, ih (by simp only [List.length_cons] at h; omega), read_write_of_ne (by simp only [List.length_cons] at h; omega)]

/-- The bytes written are read back. -/
theorem readBytes_writeBytes (m : Memory) (a : Nat) (bs : List Byte) : (m.writeBytes a bs).readBytes a bs.length = bs := by
  induction bs generalizing m a with
  | nil => rfl
  | cons b bs ih =>
    rw [writeBytes, List.length_cons, readBytes, ih, read_writeBytes_of_not_mem (.inl (Nat.lt_succ_self a)), read_write_self]

/-- A part of what is read is the read of that part. -/
theorem readBytes_part (m : Memory) (a n off k : Nat) (h : off + k ≤ n) : ((m.readBytes a n).drop off).take k = m.readBytes (a + off) k := by
  induction off generalizing a n with
  | zero =>
    induction k generalizing a n with
    | zero => rfl
    | succ k ih =>
      obtain ⟨n, rfl⟩ : ∃ i, n = i + 1 := ⟨n - 1, by omega⟩
      have := ih (a + 1) n (by omega)
      simpa [readBytes] using this
  | succ off ih =>
    obtain ⟨n, rfl⟩ : ∃ i, n = i + 1 := ⟨n - 1, by omega⟩
    rw [readBytes, List.drop_succ_cons, ih (a + 1) n (by omega), Nat.add_assoc, Nat.add_comm 1 off]

end Memory

end Sys2Proof.Machine
end

