-- ==== Sys2Proof/Laws/State.lean ====
section
/-!
SUPPORT. What each update of the state leaves in each of its fields.
-/

namespace Sys2Proof.Machine.State

@[simp] theorem setWarp_agenda (s : State) (k : Nat) (w : Warp) : (s.setWarp k w).agenda = s.agenda := rfl
@[simp] theorem setWarp_curKey (s : State) (k : Nat) (w : Warp) : (s.setWarp k w).curKey = s.curKey := rfl
@[simp] theorem setWarp_curSide (s : State) (k : Nat) (w : Warp) : (s.setWarp k w).curSide = s.curSide := rfl
@[simp] theorem setWarp_clk (s : State) (k : Nat) (w : Warp) : (s.setWarp k w).clk = s.clk := rfl
@[simp] theorem setWarp_fclk (s : State) (k : Nat) (w : Warp) : (s.setWarp k w).fclk = s.fclk := rfl
@[simp] theorem setWarp_wall (s : State) (k : Nat) (w : Warp) : (s.setWarp k w).wall = s.wall := rfl
@[simp] theorem setWarp_draws (s : State) (k : Nat) (w : Warp) : (s.setWarp k w).draws = s.draws := rfl
@[simp] theorem setWarp_mem (s : State) (k : Nat) (w : Warp) : (s.setWarp k w).mem = s.mem := rfl
@[simp] theorem setWarp_pot (s : State) (k : Nat) (w : Warp) : (s.setWarp k w).pot = s.pot := rfl
@[simp] theorem setWarp_hostOwned (s : State) (k : Nat) (w : Warp) : (s.setWarp k w).hostOwned = s.hostOwned := rfl
@[simp] theorem setWarp_confs (s : State) (k : Nat) (w : Warp) : (s.setWarp k w).confs = s.confs := rfl
@[simp] theorem setWarp_rootWritten (s : State) (k : Nat) (w : Warp) : (s.setWarp k w).rootWritten = s.rootWritten := rfl
@[simp] theorem setWarp_written (s : State) (k : Nat) (w : Warp) : (s.setWarp k w).written = s.written := rfl
@[simp] theorem setWarp_mmio (s : State) (k : Nat) (w : Warp) : (s.setWarp k w).mmio = s.mmio := rfl
@[simp] theorem setWarp_disabled (s : State) (k : Nat) (w : Warp) : (s.setWarp k w).disabled = s.disabled := rfl
@[simp] theorem setWarp_retiring (s : State) (k : Nat) (w : Warp) : (s.setWarp k w).retiring = s.retiring := rfl
@[simp] theorem setWarp_warps (s : State) (k : Nat) (w : Warp) : (s.setWarp k w).warps = s.warps.insert k w := rfl
@[simp] theorem setWarp_quads (s : State) (k : Nat) (w : Warp) : (s.setWarp k w).quads = s.quads := rfl
@[simp] theorem setWarp_coreTlb (s : State) (k : Nat) (w : Warp) : (s.setWarp k w).coreTlb = s.coreTlb := rfl
@[simp] theorem setWarp_l1 (s : State) (k : Nat) (w : Warp) : (s.setWarp k w).l1 = s.l1 := rfl
@[simp] theorem setWarp_fetched (s : State) (k : Nat) (w : Warp) : (s.setWarp k w).fetched = s.fetched := rfl
@[simp] theorem setWarp_ilines (s : State) (k : Nat) (w : Warp) : (s.setWarp k w).ilines = s.ilines := rfl
@[simp] theorem setWarp_staging (s : State) (k : Nat) (w : Warp) : (s.setWarp k w).staging = s.staging := rfl
@[simp] theorem setWarp_lamport (s : State) (k : Nat) (w : Warp) : (s.setWarp k w).lamport = s.lamport := rfl
@[simp] theorem setWarp_arrays (s : State) (k : Nat) (w : Warp) : (s.setWarp k w).arrays = s.arrays := rfl
@[simp] theorem setWarp_wgs (s : State) (k : Nat) (w : Warp) : (s.setWarp k w).wgs = s.wgs := rfl
@[simp] theorem setWarp_ops (s : State) (k : Nat) (w : Warp) : (s.setWarp k w).ops = s.ops := rfl
@[simp] theorem setWarp_nextOp (s : State) (k : Nat) (w : Warp) : (s.setWarp k w).nextOp = s.nextOp := rfl
@[simp] theorem setWarp_copies (s : State) (k : Nat) (w : Warp) : (s.setWarp k w).copies = s.copies := rfl
@[simp] theorem setWarp_dtus (s : State) (k : Nat) (w : Warp) : (s.setWarp k w).dtus = s.dtus := rfl
@[simp] theorem setWarp_replicas (s : State) (k : Nat) (w : Warp) : (s.setWarp k w).replicas = s.replicas := rfl
@[simp] theorem setWarp_propagating (s : State) (k : Nat) (w : Warp) : (s.setWarp k w).propagating = s.propagating := rfl
@[simp] theorem setWarp_l2 (s : State) (k : Nat) (w : Warp) : (s.setWarp k w).l2 = s.l2 := rfl
@[simp] theorem setWarp_waiters (s : State) (k : Nat) (w : Warp) : (s.setWarp k w).waiters = s.waiters := rfl
@[simp] theorem setWarp_polls (s : State) (k : Nat) (w : Warp) : (s.setWarp k w).polls = s.polls := rfl
@[simp] theorem setWarp_stamps (s : State) (k : Nat) (w : Warp) : (s.setWarp k w).stamps = s.stamps := rfl
@[simp] theorem setWarp_fabric (s : State) (k : Nat) (w : Warp) : (s.setWarp k w).fabric = s.fabric := rfl
@[simp] theorem setWarp_queues (s : State) (k : Nat) (w : Warp) : (s.setWarp k w).queues = s.queues := rfl
@[simp] theorem setWarp_tasks (s : State) (k : Nat) (w : Warp) : (s.setWarp k w).tasks = s.tasks := rfl
@[simp] theorem setWarp_posts (s : State) (k : Nat) (w : Warp) : (s.setWarp k w).posts = s.posts := rfl
@[simp] theorem setWarp_saved (s : State) (k : Nat) (w : Warp) : (s.setWarp k w).saved = s.saved := rfl
@[simp] theorem setWarp_nextOrder (s : State) (k : Nat) (w : Warp) : (s.setWarp k w).nextOrder = s.nextOrder := rfl
@[simp] theorem setWarp_lastQueue (s : State) (k : Nat) (w : Warp) : (s.setWarp k w).lastQueue = s.lastQueue := rfl
@[simp] theorem setWarp_calls (s : State) (k : Nat) (w : Warp) : (s.setWarp k w).calls = s.calls := rfl
@[simp] theorem setWarp_handles (s : State) (k : Nat) (w : Warp) : (s.setWarp k w).handles = s.handles := rfl
@[simp] theorem setWarp_batteries (s : State) (k : Nat) (w : Warp) : (s.setWarp k w).batteries = s.batteries := rfl
@[simp] theorem setWarp_switches (s : State) (k : Nat) (w : Warp) : (s.setWarp k w).switches = s.switches := rfl
@[simp] theorem setWarp_takeovers (s : State) (k : Nat) (w : Warp) : (s.setWarp k w).takeovers = s.takeovers := rfl
@[simp] theorem setWarp_beat (s : State) (k : Nat) (w : Warp) : (s.setWarp k w).beat = s.beat := rfl
@[simp] theorem setWarp_resetting (s : State) (k : Nat) (w : Warp) : (s.setWarp k w).resetting = s.resetting := rfl
@[simp] theorem setWarp_hosts (s : State) (k : Nat) (w : Warp) : (s.setWarp k w).hosts = s.hosts := rfl
@[simp] theorem setWarp_keys (s : State) (k : Nat) (w : Warp) : (s.setWarp k w).keys = s.keys := rfl
@[simp] theorem setWarp_channels (s : State) (k : Nat) (w : Warp) : (s.setWarp k w).channels = s.channels := rfl
@[simp] theorem setWarp_spares (s : State) (k : Nat) (w : Warp) : (s.setWarp k w).spares = s.spares := rfl
@[simp] theorem setWarp_rows (s : State) (k : Nat) (w : Warp) : (s.setWarp k w).rows = s.rows := rfl
@[simp] theorem setWarp_errors (s : State) (k : Nat) (w : Warp) : (s.setWarp k w).errors = s.errors := rfl
@[simp] theorem setWarp_spdm (s : State) (k : Nat) (w : Warp) : (s.setWarp k w).spdm = s.spdm := rfl
@[simp] theorem setWarp_identity (s : State) (k : Nat) (w : Warp) : (s.setWarp k w).identity = s.identity := rfl
@[simp] theorem setWarp_records (s : State) (k : Nat) (w : Warp) : (s.setWarp k w).records = s.records := rfl
@[simp] theorem setWarp_powered (s : State) (k : Nat) (w : Warp) : (s.setWarp k w).powered = s.powered := rfl

@[simp] theorem setWg_agenda (s : State) (g : Nat) (x : Workgroup) : (s.setWg g x).agenda = s.agenda := rfl
@[simp] theorem setWg_curKey (s : State) (g : Nat) (x : Workgroup) : (s.setWg g x).curKey = s.curKey := rfl
@[simp] theorem setWg_curSide (s : State) (g : Nat) (x : Workgroup) : (s.setWg g x).curSide = s.curSide := rfl
@[simp] theorem setWg_clk (s : State) (g : Nat) (x : Workgroup) : (s.setWg g x).clk = s.clk := rfl
@[simp] theorem setWg_fclk (s : State) (g : Nat) (x : Workgroup) : (s.setWg g x).fclk = s.fclk := rfl
@[simp] theorem setWg_wall (s : State) (g : Nat) (x : Workgroup) : (s.setWg g x).wall = s.wall := rfl
@[simp] theorem setWg_draws (s : State) (g : Nat) (x : Workgroup) : (s.setWg g x).draws = s.draws := rfl
@[simp] theorem setWg_mem (s : State) (g : Nat) (x : Workgroup) : (s.setWg g x).mem = s.mem := rfl
@[simp] theorem setWg_pot (s : State) (g : Nat) (x : Workgroup) : (s.setWg g x).pot = s.pot := rfl
@[simp] theorem setWg_hostOwned (s : State) (g : Nat) (x : Workgroup) : (s.setWg g x).hostOwned = s.hostOwned := rfl
@[simp] theorem setWg_confs (s : State) (g : Nat) (x : Workgroup) : (s.setWg g x).confs = s.confs := rfl
@[simp] theorem setWg_rootWritten (s : State) (g : Nat) (x : Workgroup) : (s.setWg g x).rootWritten = s.rootWritten := rfl
@[simp] theorem setWg_written (s : State) (g : Nat) (x : Workgroup) : (s.setWg g x).written = s.written := rfl
@[simp] theorem setWg_mmio (s : State) (g : Nat) (x : Workgroup) : (s.setWg g x).mmio = s.mmio := rfl
@[simp] theorem setWg_disabled (s : State) (g : Nat) (x : Workgroup) : (s.setWg g x).disabled = s.disabled := rfl
@[simp] theorem setWg_retiring (s : State) (g : Nat) (x : Workgroup) : (s.setWg g x).retiring = s.retiring := rfl
@[simp] theorem setWg_warps (s : State) (g : Nat) (x : Workgroup) : (s.setWg g x).warps = s.warps := rfl
@[simp] theorem setWg_quads (s : State) (g : Nat) (x : Workgroup) : (s.setWg g x).quads = s.quads := rfl
@[simp] theorem setWg_coreTlb (s : State) (g : Nat) (x : Workgroup) : (s.setWg g x).coreTlb = s.coreTlb := rfl
@[simp] theorem setWg_l1 (s : State) (g : Nat) (x : Workgroup) : (s.setWg g x).l1 = s.l1 := rfl
@[simp] theorem setWg_fetched (s : State) (g : Nat) (x : Workgroup) : (s.setWg g x).fetched = s.fetched := rfl
@[simp] theorem setWg_ilines (s : State) (g : Nat) (x : Workgroup) : (s.setWg g x).ilines = s.ilines := rfl
@[simp] theorem setWg_staging (s : State) (g : Nat) (x : Workgroup) : (s.setWg g x).staging = s.staging := rfl
@[simp] theorem setWg_lamport (s : State) (g : Nat) (x : Workgroup) : (s.setWg g x).lamport = s.lamport := rfl
@[simp] theorem setWg_arrays (s : State) (g : Nat) (x : Workgroup) : (s.setWg g x).arrays = s.arrays := rfl
@[simp] theorem setWg_wgs (s : State) (g : Nat) (x : Workgroup) : (s.setWg g x).wgs = s.wgs.insert g x := rfl
@[simp] theorem setWg_ops (s : State) (g : Nat) (x : Workgroup) : (s.setWg g x).ops = s.ops := rfl
@[simp] theorem setWg_nextOp (s : State) (g : Nat) (x : Workgroup) : (s.setWg g x).nextOp = s.nextOp := rfl
@[simp] theorem setWg_copies (s : State) (g : Nat) (x : Workgroup) : (s.setWg g x).copies = s.copies := rfl
@[simp] theorem setWg_dtus (s : State) (g : Nat) (x : Workgroup) : (s.setWg g x).dtus = s.dtus := rfl
@[simp] theorem setWg_replicas (s : State) (g : Nat) (x : Workgroup) : (s.setWg g x).replicas = s.replicas := rfl
@[simp] theorem setWg_propagating (s : State) (g : Nat) (x : Workgroup) : (s.setWg g x).propagating = s.propagating := rfl
@[simp] theorem setWg_l2 (s : State) (g : Nat) (x : Workgroup) : (s.setWg g x).l2 = s.l2 := rfl
@[simp] theorem setWg_waiters (s : State) (g : Nat) (x : Workgroup) : (s.setWg g x).waiters = s.waiters := rfl
@[simp] theorem setWg_polls (s : State) (g : Nat) (x : Workgroup) : (s.setWg g x).polls = s.polls := rfl
@[simp] theorem setWg_stamps (s : State) (g : Nat) (x : Workgroup) : (s.setWg g x).stamps = s.stamps := rfl
@[simp] theorem setWg_fabric (s : State) (g : Nat) (x : Workgroup) : (s.setWg g x).fabric = s.fabric := rfl
@[simp] theorem setWg_queues (s : State) (g : Nat) (x : Workgroup) : (s.setWg g x).queues = s.queues := rfl
@[simp] theorem setWg_tasks (s : State) (g : Nat) (x : Workgroup) : (s.setWg g x).tasks = s.tasks := rfl
@[simp] theorem setWg_posts (s : State) (g : Nat) (x : Workgroup) : (s.setWg g x).posts = s.posts := rfl
@[simp] theorem setWg_saved (s : State) (g : Nat) (x : Workgroup) : (s.setWg g x).saved = s.saved := rfl
@[simp] theorem setWg_nextOrder (s : State) (g : Nat) (x : Workgroup) : (s.setWg g x).nextOrder = s.nextOrder := rfl
@[simp] theorem setWg_lastQueue (s : State) (g : Nat) (x : Workgroup) : (s.setWg g x).lastQueue = s.lastQueue := rfl
@[simp] theorem setWg_calls (s : State) (g : Nat) (x : Workgroup) : (s.setWg g x).calls = s.calls := rfl
@[simp] theorem setWg_handles (s : State) (g : Nat) (x : Workgroup) : (s.setWg g x).handles = s.handles := rfl
@[simp] theorem setWg_batteries (s : State) (g : Nat) (x : Workgroup) : (s.setWg g x).batteries = s.batteries := rfl
@[simp] theorem setWg_switches (s : State) (g : Nat) (x : Workgroup) : (s.setWg g x).switches = s.switches := rfl
@[simp] theorem setWg_takeovers (s : State) (g : Nat) (x : Workgroup) : (s.setWg g x).takeovers = s.takeovers := rfl
@[simp] theorem setWg_beat (s : State) (g : Nat) (x : Workgroup) : (s.setWg g x).beat = s.beat := rfl
@[simp] theorem setWg_resetting (s : State) (g : Nat) (x : Workgroup) : (s.setWg g x).resetting = s.resetting := rfl
@[simp] theorem setWg_hosts (s : State) (g : Nat) (x : Workgroup) : (s.setWg g x).hosts = s.hosts := rfl
@[simp] theorem setWg_keys (s : State) (g : Nat) (x : Workgroup) : (s.setWg g x).keys = s.keys := rfl
@[simp] theorem setWg_channels (s : State) (g : Nat) (x : Workgroup) : (s.setWg g x).channels = s.channels := rfl
@[simp] theorem setWg_spares (s : State) (g : Nat) (x : Workgroup) : (s.setWg g x).spares = s.spares := rfl
@[simp] theorem setWg_rows (s : State) (g : Nat) (x : Workgroup) : (s.setWg g x).rows = s.rows := rfl
@[simp] theorem setWg_errors (s : State) (g : Nat) (x : Workgroup) : (s.setWg g x).errors = s.errors := rfl
@[simp] theorem setWg_spdm (s : State) (g : Nat) (x : Workgroup) : (s.setWg g x).spdm = s.spdm := rfl
@[simp] theorem setWg_identity (s : State) (g : Nat) (x : Workgroup) : (s.setWg g x).identity = s.identity := rfl
@[simp] theorem setWg_records (s : State) (g : Nat) (x : Workgroup) : (s.setWg g x).records = s.records := rfl
@[simp] theorem setWg_powered (s : State) (g : Nat) (x : Workgroup) : (s.setWg g x).powered = s.powered := rfl

@[simp] theorem onWarp_agenda (s : State) (k : Nat) (f : Warp → Warp) : (s.onWarp k f).agenda = s.agenda := rfl
@[simp] theorem onWarp_curKey (s : State) (k : Nat) (f : Warp → Warp) : (s.onWarp k f).curKey = s.curKey := rfl
@[simp] theorem onWarp_curSide (s : State) (k : Nat) (f : Warp → Warp) : (s.onWarp k f).curSide = s.curSide := rfl
@[simp] theorem onWarp_clk (s : State) (k : Nat) (f : Warp → Warp) : (s.onWarp k f).clk = s.clk := rfl
@[simp] theorem onWarp_fclk (s : State) (k : Nat) (f : Warp → Warp) : (s.onWarp k f).fclk = s.fclk := rfl
@[simp] theorem onWarp_wall (s : State) (k : Nat) (f : Warp → Warp) : (s.onWarp k f).wall = s.wall := rfl
@[simp] theorem onWarp_draws (s : State) (k : Nat) (f : Warp → Warp) : (s.onWarp k f).draws = s.draws := rfl
@[simp] theorem onWarp_mem (s : State) (k : Nat) (f : Warp → Warp) : (s.onWarp k f).mem = s.mem := rfl
@[simp] theorem onWarp_pot (s : State) (k : Nat) (f : Warp → Warp) : (s.onWarp k f).pot = s.pot := rfl
@[simp] theorem onWarp_hostOwned (s : State) (k : Nat) (f : Warp → Warp) : (s.onWarp k f).hostOwned = s.hostOwned := rfl
@[simp] theorem onWarp_confs (s : State) (k : Nat) (f : Warp → Warp) : (s.onWarp k f).confs = s.confs := rfl
@[simp] theorem onWarp_rootWritten (s : State) (k : Nat) (f : Warp → Warp) : (s.onWarp k f).rootWritten = s.rootWritten := rfl
@[simp] theorem onWarp_written (s : State) (k : Nat) (f : Warp → Warp) : (s.onWarp k f).written = s.written := rfl
@[simp] theorem onWarp_mmio (s : State) (k : Nat) (f : Warp → Warp) : (s.onWarp k f).mmio = s.mmio := rfl
@[simp] theorem onWarp_disabled (s : State) (k : Nat) (f : Warp → Warp) : (s.onWarp k f).disabled = s.disabled := rfl
@[simp] theorem onWarp_retiring (s : State) (k : Nat) (f : Warp → Warp) : (s.onWarp k f).retiring = s.retiring := rfl
@[simp] theorem onWarp_warps (s : State) (k : Nat) (f : Warp → Warp) : (s.onWarp k f).warps = s.warps.adjust k f := rfl
@[simp] theorem onWarp_quads (s : State) (k : Nat) (f : Warp → Warp) : (s.onWarp k f).quads = s.quads := rfl
@[simp] theorem onWarp_coreTlb (s : State) (k : Nat) (f : Warp → Warp) : (s.onWarp k f).coreTlb = s.coreTlb := rfl
@[simp] theorem onWarp_l1 (s : State) (k : Nat) (f : Warp → Warp) : (s.onWarp k f).l1 = s.l1 := rfl
@[simp] theorem onWarp_fetched (s : State) (k : Nat) (f : Warp → Warp) : (s.onWarp k f).fetched = s.fetched := rfl
@[simp] theorem onWarp_ilines (s : State) (k : Nat) (f : Warp → Warp) : (s.onWarp k f).ilines = s.ilines := rfl
@[simp] theorem onWarp_staging (s : State) (k : Nat) (f : Warp → Warp) : (s.onWarp k f).staging = s.staging := rfl
@[simp] theorem onWarp_lamport (s : State) (k : Nat) (f : Warp → Warp) : (s.onWarp k f).lamport = s.lamport := rfl
@[simp] theorem onWarp_arrays (s : State) (k : Nat) (f : Warp → Warp) : (s.onWarp k f).arrays = s.arrays := rfl
@[simp] theorem onWarp_wgs (s : State) (k : Nat) (f : Warp → Warp) : (s.onWarp k f).wgs = s.wgs := rfl
@[simp] theorem onWarp_ops (s : State) (k : Nat) (f : Warp → Warp) : (s.onWarp k f).ops = s.ops := rfl
@[simp] theorem onWarp_nextOp (s : State) (k : Nat) (f : Warp → Warp) : (s.onWarp k f).nextOp = s.nextOp := rfl
@[simp] theorem onWarp_copies (s : State) (k : Nat) (f : Warp → Warp) : (s.onWarp k f).copies = s.copies := rfl
@[simp] theorem onWarp_dtus (s : State) (k : Nat) (f : Warp → Warp) : (s.onWarp k f).dtus = s.dtus := rfl
@[simp] theorem onWarp_replicas (s : State) (k : Nat) (f : Warp → Warp) : (s.onWarp k f).replicas = s.replicas := rfl
@[simp] theorem onWarp_propagating (s : State) (k : Nat) (f : Warp → Warp) : (s.onWarp k f).propagating = s.propagating := rfl
@[simp] theorem onWarp_l2 (s : State) (k : Nat) (f : Warp → Warp) : (s.onWarp k f).l2 = s.l2 := rfl
@[simp] theorem onWarp_waiters (s : State) (k : Nat) (f : Warp → Warp) : (s.onWarp k f).waiters = s.waiters := rfl
@[simp] theorem onWarp_polls (s : State) (k : Nat) (f : Warp → Warp) : (s.onWarp k f).polls = s.polls := rfl
@[simp] theorem onWarp_stamps (s : State) (k : Nat) (f : Warp → Warp) : (s.onWarp k f).stamps = s.stamps := rfl
@[simp] theorem onWarp_fabric (s : State) (k : Nat) (f : Warp → Warp) : (s.onWarp k f).fabric = s.fabric := rfl
@[simp] theorem onWarp_queues (s : State) (k : Nat) (f : Warp → Warp) : (s.onWarp k f).queues = s.queues := rfl
@[simp] theorem onWarp_tasks (s : State) (k : Nat) (f : Warp → Warp) : (s.onWarp k f).tasks = s.tasks := rfl
@[simp] theorem onWarp_posts (s : State) (k : Nat) (f : Warp → Warp) : (s.onWarp k f).posts = s.posts := rfl
@[simp] theorem onWarp_saved (s : State) (k : Nat) (f : Warp → Warp) : (s.onWarp k f).saved = s.saved := rfl
@[simp] theorem onWarp_nextOrder (s : State) (k : Nat) (f : Warp → Warp) : (s.onWarp k f).nextOrder = s.nextOrder := rfl
@[simp] theorem onWarp_lastQueue (s : State) (k : Nat) (f : Warp → Warp) : (s.onWarp k f).lastQueue = s.lastQueue := rfl
@[simp] theorem onWarp_calls (s : State) (k : Nat) (f : Warp → Warp) : (s.onWarp k f).calls = s.calls := rfl
@[simp] theorem onWarp_handles (s : State) (k : Nat) (f : Warp → Warp) : (s.onWarp k f).handles = s.handles := rfl
@[simp] theorem onWarp_batteries (s : State) (k : Nat) (f : Warp → Warp) : (s.onWarp k f).batteries = s.batteries := rfl
@[simp] theorem onWarp_switches (s : State) (k : Nat) (f : Warp → Warp) : (s.onWarp k f).switches = s.switches := rfl
@[simp] theorem onWarp_takeovers (s : State) (k : Nat) (f : Warp → Warp) : (s.onWarp k f).takeovers = s.takeovers := rfl
@[simp] theorem onWarp_beat (s : State) (k : Nat) (f : Warp → Warp) : (s.onWarp k f).beat = s.beat := rfl
@[simp] theorem onWarp_resetting (s : State) (k : Nat) (f : Warp → Warp) : (s.onWarp k f).resetting = s.resetting := rfl
@[simp] theorem onWarp_hosts (s : State) (k : Nat) (f : Warp → Warp) : (s.onWarp k f).hosts = s.hosts := rfl
@[simp] theorem onWarp_keys (s : State) (k : Nat) (f : Warp → Warp) : (s.onWarp k f).keys = s.keys := rfl
@[simp] theorem onWarp_channels (s : State) (k : Nat) (f : Warp → Warp) : (s.onWarp k f).channels = s.channels := rfl
@[simp] theorem onWarp_spares (s : State) (k : Nat) (f : Warp → Warp) : (s.onWarp k f).spares = s.spares := rfl
@[simp] theorem onWarp_rows (s : State) (k : Nat) (f : Warp → Warp) : (s.onWarp k f).rows = s.rows := rfl
@[simp] theorem onWarp_errors (s : State) (k : Nat) (f : Warp → Warp) : (s.onWarp k f).errors = s.errors := rfl
@[simp] theorem onWarp_spdm (s : State) (k : Nat) (f : Warp → Warp) : (s.onWarp k f).spdm = s.spdm := rfl
@[simp] theorem onWarp_identity (s : State) (k : Nat) (f : Warp → Warp) : (s.onWarp k f).identity = s.identity := rfl
@[simp] theorem onWarp_records (s : State) (k : Nat) (f : Warp → Warp) : (s.onWarp k f).records = s.records := rfl
@[simp] theorem onWarp_powered (s : State) (k : Nat) (f : Warp → Warp) : (s.onWarp k f).powered = s.powered := rfl

@[simp] theorem onWg_agenda (s : State) (g : Nat) (f : Workgroup → Workgroup) : (s.onWg g f).agenda = s.agenda := rfl
@[simp] theorem onWg_curKey (s : State) (g : Nat) (f : Workgroup → Workgroup) : (s.onWg g f).curKey = s.curKey := rfl
@[simp] theorem onWg_curSide (s : State) (g : Nat) (f : Workgroup → Workgroup) : (s.onWg g f).curSide = s.curSide := rfl
@[simp] theorem onWg_clk (s : State) (g : Nat) (f : Workgroup → Workgroup) : (s.onWg g f).clk = s.clk := rfl
@[simp] theorem onWg_fclk (s : State) (g : Nat) (f : Workgroup → Workgroup) : (s.onWg g f).fclk = s.fclk := rfl
@[simp] theorem onWg_wall (s : State) (g : Nat) (f : Workgroup → Workgroup) : (s.onWg g f).wall = s.wall := rfl
@[simp] theorem onWg_draws (s : State) (g : Nat) (f : Workgroup → Workgroup) : (s.onWg g f).draws = s.draws := rfl
@[simp] theorem onWg_mem (s : State) (g : Nat) (f : Workgroup → Workgroup) : (s.onWg g f).mem = s.mem := rfl
@[simp] theorem onWg_pot (s : State) (g : Nat) (f : Workgroup → Workgroup) : (s.onWg g f).pot = s.pot := rfl
@[simp] theorem onWg_hostOwned (s : State) (g : Nat) (f : Workgroup → Workgroup) : (s.onWg g f).hostOwned = s.hostOwned := rfl
@[simp] theorem onWg_confs (s : State) (g : Nat) (f : Workgroup → Workgroup) : (s.onWg g f).confs = s.confs := rfl
@[simp] theorem onWg_rootWritten (s : State) (g : Nat) (f : Workgroup → Workgroup) : (s.onWg g f).rootWritten = s.rootWritten := rfl
@[simp] theorem onWg_written (s : State) (g : Nat) (f : Workgroup → Workgroup) : (s.onWg g f).written = s.written := rfl
@[simp] theorem onWg_mmio (s : State) (g : Nat) (f : Workgroup → Workgroup) : (s.onWg g f).mmio = s.mmio := rfl
@[simp] theorem onWg_disabled (s : State) (g : Nat) (f : Workgroup → Workgroup) : (s.onWg g f).disabled = s.disabled := rfl
@[simp] theorem onWg_retiring (s : State) (g : Nat) (f : Workgroup → Workgroup) : (s.onWg g f).retiring = s.retiring := rfl
@[simp] theorem onWg_warps (s : State) (g : Nat) (f : Workgroup → Workgroup) : (s.onWg g f).warps = s.warps := rfl
@[simp] theorem onWg_quads (s : State) (g : Nat) (f : Workgroup → Workgroup) : (s.onWg g f).quads = s.quads := rfl
@[simp] theorem onWg_coreTlb (s : State) (g : Nat) (f : Workgroup → Workgroup) : (s.onWg g f).coreTlb = s.coreTlb := rfl
@[simp] theorem onWg_l1 (s : State) (g : Nat) (f : Workgroup → Workgroup) : (s.onWg g f).l1 = s.l1 := rfl
@[simp] theorem onWg_fetched (s : State) (g : Nat) (f : Workgroup → Workgroup) : (s.onWg g f).fetched = s.fetched := rfl
@[simp] theorem onWg_ilines (s : State) (g : Nat) (f : Workgroup → Workgroup) : (s.onWg g f).ilines = s.ilines := rfl
@[simp] theorem onWg_staging (s : State) (g : Nat) (f : Workgroup → Workgroup) : (s.onWg g f).staging = s.staging := rfl
@[simp] theorem onWg_lamport (s : State) (g : Nat) (f : Workgroup → Workgroup) : (s.onWg g f).lamport = s.lamport := rfl
@[simp] theorem onWg_arrays (s : State) (g : Nat) (f : Workgroup → Workgroup) : (s.onWg g f).arrays = s.arrays := rfl
@[simp] theorem onWg_wgs (s : State) (g : Nat) (f : Workgroup → Workgroup) : (s.onWg g f).wgs = s.wgs.adjust g f := rfl
@[simp] theorem onWg_ops (s : State) (g : Nat) (f : Workgroup → Workgroup) : (s.onWg g f).ops = s.ops := rfl
@[simp] theorem onWg_nextOp (s : State) (g : Nat) (f : Workgroup → Workgroup) : (s.onWg g f).nextOp = s.nextOp := rfl
@[simp] theorem onWg_copies (s : State) (g : Nat) (f : Workgroup → Workgroup) : (s.onWg g f).copies = s.copies := rfl
@[simp] theorem onWg_dtus (s : State) (g : Nat) (f : Workgroup → Workgroup) : (s.onWg g f).dtus = s.dtus := rfl
@[simp] theorem onWg_replicas (s : State) (g : Nat) (f : Workgroup → Workgroup) : (s.onWg g f).replicas = s.replicas := rfl
@[simp] theorem onWg_propagating (s : State) (g : Nat) (f : Workgroup → Workgroup) : (s.onWg g f).propagating = s.propagating := rfl
@[simp] theorem onWg_l2 (s : State) (g : Nat) (f : Workgroup → Workgroup) : (s.onWg g f).l2 = s.l2 := rfl
@[simp] theorem onWg_waiters (s : State) (g : Nat) (f : Workgroup → Workgroup) : (s.onWg g f).waiters = s.waiters := rfl
@[simp] theorem onWg_polls (s : State) (g : Nat) (f : Workgroup → Workgroup) : (s.onWg g f).polls = s.polls := rfl
@[simp] theorem onWg_stamps (s : State) (g : Nat) (f : Workgroup → Workgroup) : (s.onWg g f).stamps = s.stamps := rfl
@[simp] theorem onWg_fabric (s : State) (g : Nat) (f : Workgroup → Workgroup) : (s.onWg g f).fabric = s.fabric := rfl
@[simp] theorem onWg_queues (s : State) (g : Nat) (f : Workgroup → Workgroup) : (s.onWg g f).queues = s.queues := rfl
@[simp] theorem onWg_tasks (s : State) (g : Nat) (f : Workgroup → Workgroup) : (s.onWg g f).tasks = s.tasks := rfl
@[simp] theorem onWg_posts (s : State) (g : Nat) (f : Workgroup → Workgroup) : (s.onWg g f).posts = s.posts := rfl
@[simp] theorem onWg_saved (s : State) (g : Nat) (f : Workgroup → Workgroup) : (s.onWg g f).saved = s.saved := rfl
@[simp] theorem onWg_nextOrder (s : State) (g : Nat) (f : Workgroup → Workgroup) : (s.onWg g f).nextOrder = s.nextOrder := rfl
@[simp] theorem onWg_lastQueue (s : State) (g : Nat) (f : Workgroup → Workgroup) : (s.onWg g f).lastQueue = s.lastQueue := rfl
@[simp] theorem onWg_calls (s : State) (g : Nat) (f : Workgroup → Workgroup) : (s.onWg g f).calls = s.calls := rfl
@[simp] theorem onWg_handles (s : State) (g : Nat) (f : Workgroup → Workgroup) : (s.onWg g f).handles = s.handles := rfl
@[simp] theorem onWg_batteries (s : State) (g : Nat) (f : Workgroup → Workgroup) : (s.onWg g f).batteries = s.batteries := rfl
@[simp] theorem onWg_switches (s : State) (g : Nat) (f : Workgroup → Workgroup) : (s.onWg g f).switches = s.switches := rfl
@[simp] theorem onWg_takeovers (s : State) (g : Nat) (f : Workgroup → Workgroup) : (s.onWg g f).takeovers = s.takeovers := rfl
@[simp] theorem onWg_beat (s : State) (g : Nat) (f : Workgroup → Workgroup) : (s.onWg g f).beat = s.beat := rfl
@[simp] theorem onWg_resetting (s : State) (g : Nat) (f : Workgroup → Workgroup) : (s.onWg g f).resetting = s.resetting := rfl
@[simp] theorem onWg_hosts (s : State) (g : Nat) (f : Workgroup → Workgroup) : (s.onWg g f).hosts = s.hosts := rfl
@[simp] theorem onWg_keys (s : State) (g : Nat) (f : Workgroup → Workgroup) : (s.onWg g f).keys = s.keys := rfl
@[simp] theorem onWg_channels (s : State) (g : Nat) (f : Workgroup → Workgroup) : (s.onWg g f).channels = s.channels := rfl
@[simp] theorem onWg_spares (s : State) (g : Nat) (f : Workgroup → Workgroup) : (s.onWg g f).spares = s.spares := rfl
@[simp] theorem onWg_rows (s : State) (g : Nat) (f : Workgroup → Workgroup) : (s.onWg g f).rows = s.rows := rfl
@[simp] theorem onWg_errors (s : State) (g : Nat) (f : Workgroup → Workgroup) : (s.onWg g f).errors = s.errors := rfl
@[simp] theorem onWg_spdm (s : State) (g : Nat) (f : Workgroup → Workgroup) : (s.onWg g f).spdm = s.spdm := rfl
@[simp] theorem onWg_identity (s : State) (g : Nat) (f : Workgroup → Workgroup) : (s.onWg g f).identity = s.identity := rfl
@[simp] theorem onWg_records (s : State) (g : Nat) (f : Workgroup → Workgroup) : (s.onWg g f).records = s.records := rfl
@[simp] theorem onWg_powered (s : State) (g : Nat) (f : Workgroup → Workgroup) : (s.onWg g f).powered = s.powered := rfl

@[simp] theorem onOp_agenda (s : State) (n : Nat) (f : MemOp → MemOp) : (s.onOp n f).agenda = s.agenda := rfl
@[simp] theorem onOp_curKey (s : State) (n : Nat) (f : MemOp → MemOp) : (s.onOp n f).curKey = s.curKey := rfl
@[simp] theorem onOp_curSide (s : State) (n : Nat) (f : MemOp → MemOp) : (s.onOp n f).curSide = s.curSide := rfl
@[simp] theorem onOp_clk (s : State) (n : Nat) (f : MemOp → MemOp) : (s.onOp n f).clk = s.clk := rfl
@[simp] theorem onOp_fclk (s : State) (n : Nat) (f : MemOp → MemOp) : (s.onOp n f).fclk = s.fclk := rfl
@[simp] theorem onOp_wall (s : State) (n : Nat) (f : MemOp → MemOp) : (s.onOp n f).wall = s.wall := rfl
@[simp] theorem onOp_draws (s : State) (n : Nat) (f : MemOp → MemOp) : (s.onOp n f).draws = s.draws := rfl
@[simp] theorem onOp_mem (s : State) (n : Nat) (f : MemOp → MemOp) : (s.onOp n f).mem = s.mem := rfl
@[simp] theorem onOp_pot (s : State) (n : Nat) (f : MemOp → MemOp) : (s.onOp n f).pot = s.pot := rfl
@[simp] theorem onOp_hostOwned (s : State) (n : Nat) (f : MemOp → MemOp) : (s.onOp n f).hostOwned = s.hostOwned := rfl
@[simp] theorem onOp_confs (s : State) (n : Nat) (f : MemOp → MemOp) : (s.onOp n f).confs = s.confs := rfl
@[simp] theorem onOp_rootWritten (s : State) (n : Nat) (f : MemOp → MemOp) : (s.onOp n f).rootWritten = s.rootWritten := rfl
@[simp] theorem onOp_written (s : State) (n : Nat) (f : MemOp → MemOp) : (s.onOp n f).written = s.written := rfl
@[simp] theorem onOp_mmio (s : State) (n : Nat) (f : MemOp → MemOp) : (s.onOp n f).mmio = s.mmio := rfl
@[simp] theorem onOp_disabled (s : State) (n : Nat) (f : MemOp → MemOp) : (s.onOp n f).disabled = s.disabled := rfl
@[simp] theorem onOp_retiring (s : State) (n : Nat) (f : MemOp → MemOp) : (s.onOp n f).retiring = s.retiring := rfl
@[simp] theorem onOp_warps (s : State) (n : Nat) (f : MemOp → MemOp) : (s.onOp n f).warps = s.warps := rfl
@[simp] theorem onOp_quads (s : State) (n : Nat) (f : MemOp → MemOp) : (s.onOp n f).quads = s.quads := rfl
@[simp] theorem onOp_coreTlb (s : State) (n : Nat) (f : MemOp → MemOp) : (s.onOp n f).coreTlb = s.coreTlb := rfl
@[simp] theorem onOp_l1 (s : State) (n : Nat) (f : MemOp → MemOp) : (s.onOp n f).l1 = s.l1 := rfl
@[simp] theorem onOp_fetched (s : State) (n : Nat) (f : MemOp → MemOp) : (s.onOp n f).fetched = s.fetched := rfl
@[simp] theorem onOp_ilines (s : State) (n : Nat) (f : MemOp → MemOp) : (s.onOp n f).ilines = s.ilines := rfl
@[simp] theorem onOp_staging (s : State) (n : Nat) (f : MemOp → MemOp) : (s.onOp n f).staging = s.staging := rfl
@[simp] theorem onOp_lamport (s : State) (n : Nat) (f : MemOp → MemOp) : (s.onOp n f).lamport = s.lamport := rfl
@[simp] theorem onOp_arrays (s : State) (n : Nat) (f : MemOp → MemOp) : (s.onOp n f).arrays = s.arrays := rfl
@[simp] theorem onOp_wgs (s : State) (n : Nat) (f : MemOp → MemOp) : (s.onOp n f).wgs = s.wgs := rfl
@[simp] theorem onOp_ops (s : State) (n : Nat) (f : MemOp → MemOp) : (s.onOp n f).ops = s.ops.adjust n f := rfl
@[simp] theorem onOp_nextOp (s : State) (n : Nat) (f : MemOp → MemOp) : (s.onOp n f).nextOp = s.nextOp := rfl
@[simp] theorem onOp_copies (s : State) (n : Nat) (f : MemOp → MemOp) : (s.onOp n f).copies = s.copies := rfl
@[simp] theorem onOp_dtus (s : State) (n : Nat) (f : MemOp → MemOp) : (s.onOp n f).dtus = s.dtus := rfl
@[simp] theorem onOp_replicas (s : State) (n : Nat) (f : MemOp → MemOp) : (s.onOp n f).replicas = s.replicas := rfl
@[simp] theorem onOp_propagating (s : State) (n : Nat) (f : MemOp → MemOp) : (s.onOp n f).propagating = s.propagating := rfl
@[simp] theorem onOp_l2 (s : State) (n : Nat) (f : MemOp → MemOp) : (s.onOp n f).l2 = s.l2 := rfl
@[simp] theorem onOp_waiters (s : State) (n : Nat) (f : MemOp → MemOp) : (s.onOp n f).waiters = s.waiters := rfl
@[simp] theorem onOp_polls (s : State) (n : Nat) (f : MemOp → MemOp) : (s.onOp n f).polls = s.polls := rfl
@[simp] theorem onOp_stamps (s : State) (n : Nat) (f : MemOp → MemOp) : (s.onOp n f).stamps = s.stamps := rfl
@[simp] theorem onOp_fabric (s : State) (n : Nat) (f : MemOp → MemOp) : (s.onOp n f).fabric = s.fabric := rfl
@[simp] theorem onOp_queues (s : State) (n : Nat) (f : MemOp → MemOp) : (s.onOp n f).queues = s.queues := rfl
@[simp] theorem onOp_tasks (s : State) (n : Nat) (f : MemOp → MemOp) : (s.onOp n f).tasks = s.tasks := rfl
@[simp] theorem onOp_posts (s : State) (n : Nat) (f : MemOp → MemOp) : (s.onOp n f).posts = s.posts := rfl
@[simp] theorem onOp_saved (s : State) (n : Nat) (f : MemOp → MemOp) : (s.onOp n f).saved = s.saved := rfl
@[simp] theorem onOp_nextOrder (s : State) (n : Nat) (f : MemOp → MemOp) : (s.onOp n f).nextOrder = s.nextOrder := rfl
@[simp] theorem onOp_lastQueue (s : State) (n : Nat) (f : MemOp → MemOp) : (s.onOp n f).lastQueue = s.lastQueue := rfl
@[simp] theorem onOp_calls (s : State) (n : Nat) (f : MemOp → MemOp) : (s.onOp n f).calls = s.calls := rfl
@[simp] theorem onOp_handles (s : State) (n : Nat) (f : MemOp → MemOp) : (s.onOp n f).handles = s.handles := rfl
@[simp] theorem onOp_batteries (s : State) (n : Nat) (f : MemOp → MemOp) : (s.onOp n f).batteries = s.batteries := rfl
@[simp] theorem onOp_switches (s : State) (n : Nat) (f : MemOp → MemOp) : (s.onOp n f).switches = s.switches := rfl
@[simp] theorem onOp_takeovers (s : State) (n : Nat) (f : MemOp → MemOp) : (s.onOp n f).takeovers = s.takeovers := rfl
@[simp] theorem onOp_beat (s : State) (n : Nat) (f : MemOp → MemOp) : (s.onOp n f).beat = s.beat := rfl
@[simp] theorem onOp_resetting (s : State) (n : Nat) (f : MemOp → MemOp) : (s.onOp n f).resetting = s.resetting := rfl
@[simp] theorem onOp_hosts (s : State) (n : Nat) (f : MemOp → MemOp) : (s.onOp n f).hosts = s.hosts := rfl
@[simp] theorem onOp_keys (s : State) (n : Nat) (f : MemOp → MemOp) : (s.onOp n f).keys = s.keys := rfl
@[simp] theorem onOp_channels (s : State) (n : Nat) (f : MemOp → MemOp) : (s.onOp n f).channels = s.channels := rfl
@[simp] theorem onOp_spares (s : State) (n : Nat) (f : MemOp → MemOp) : (s.onOp n f).spares = s.spares := rfl
@[simp] theorem onOp_rows (s : State) (n : Nat) (f : MemOp → MemOp) : (s.onOp n f).rows = s.rows := rfl
@[simp] theorem onOp_errors (s : State) (n : Nat) (f : MemOp → MemOp) : (s.onOp n f).errors = s.errors := rfl
@[simp] theorem onOp_spdm (s : State) (n : Nat) (f : MemOp → MemOp) : (s.onOp n f).spdm = s.spdm := rfl
@[simp] theorem onOp_identity (s : State) (n : Nat) (f : MemOp → MemOp) : (s.onOp n f).identity = s.identity := rfl
@[simp] theorem onOp_records (s : State) (n : Nat) (f : MemOp → MemOp) : (s.onOp n f).records = s.records := rfl
@[simp] theorem onOp_powered (s : State) (n : Nat) (f : MemOp → MemOp) : (s.onOp n f).powered = s.powered := rfl

@[simp] theorem newOp_agenda (s : State) (o : MemOp) : (s.newOp o).agenda = s.agenda := rfl
@[simp] theorem newOp_curKey (s : State) (o : MemOp) : (s.newOp o).curKey = s.curKey := rfl
@[simp] theorem newOp_curSide (s : State) (o : MemOp) : (s.newOp o).curSide = s.curSide := rfl
@[simp] theorem newOp_clk (s : State) (o : MemOp) : (s.newOp o).clk = s.clk := rfl
@[simp] theorem newOp_fclk (s : State) (o : MemOp) : (s.newOp o).fclk = s.fclk := rfl
@[simp] theorem newOp_wall (s : State) (o : MemOp) : (s.newOp o).wall = s.wall := rfl
@[simp] theorem newOp_draws (s : State) (o : MemOp) : (s.newOp o).draws = s.draws := rfl
@[simp] theorem newOp_mem (s : State) (o : MemOp) : (s.newOp o).mem = s.mem := rfl
@[simp] theorem newOp_pot (s : State) (o : MemOp) : (s.newOp o).pot = s.pot := rfl
@[simp] theorem newOp_hostOwned (s : State) (o : MemOp) : (s.newOp o).hostOwned = s.hostOwned := rfl
@[simp] theorem newOp_confs (s : State) (o : MemOp) : (s.newOp o).confs = s.confs := rfl
@[simp] theorem newOp_rootWritten (s : State) (o : MemOp) : (s.newOp o).rootWritten = s.rootWritten := rfl
@[simp] theorem newOp_written (s : State) (o : MemOp) : (s.newOp o).written = s.written := rfl
@[simp] theorem newOp_mmio (s : State) (o : MemOp) : (s.newOp o).mmio = s.mmio := rfl
@[simp] theorem newOp_disabled (s : State) (o : MemOp) : (s.newOp o).disabled = s.disabled := rfl
@[simp] theorem newOp_retiring (s : State) (o : MemOp) : (s.newOp o).retiring = s.retiring := rfl
@[simp] theorem newOp_warps (s : State) (o : MemOp) : (s.newOp o).warps = s.warps := rfl
@[simp] theorem newOp_quads (s : State) (o : MemOp) : (s.newOp o).quads = s.quads := rfl
@[simp] theorem newOp_coreTlb (s : State) (o : MemOp) : (s.newOp o).coreTlb = s.coreTlb := rfl
@[simp] theorem newOp_l1 (s : State) (o : MemOp) : (s.newOp o).l1 = s.l1 := rfl
@[simp] theorem newOp_fetched (s : State) (o : MemOp) : (s.newOp o).fetched = s.fetched := rfl
@[simp] theorem newOp_ilines (s : State) (o : MemOp) : (s.newOp o).ilines = s.ilines := rfl
@[simp] theorem newOp_staging (s : State) (o : MemOp) : (s.newOp o).staging = s.staging := rfl
@[simp] theorem newOp_lamport (s : State) (o : MemOp) : (s.newOp o).lamport = s.lamport := rfl
@[simp] theorem newOp_arrays (s : State) (o : MemOp) : (s.newOp o).arrays = s.arrays := rfl
@[simp] theorem newOp_wgs (s : State) (o : MemOp) : (s.newOp o).wgs = s.wgs := rfl
@[simp] theorem newOp_ops (s : State) (o : MemOp) : (s.newOp o).ops = s.ops.insert s.nextOp o := rfl
@[simp] theorem newOp_nextOp (s : State) (o : MemOp) : (s.newOp o).nextOp = s.nextOp + 1 := rfl
@[simp] theorem newOp_copies (s : State) (o : MemOp) : (s.newOp o).copies = s.copies := rfl
@[simp] theorem newOp_dtus (s : State) (o : MemOp) : (s.newOp o).dtus = s.dtus := rfl
@[simp] theorem newOp_replicas (s : State) (o : MemOp) : (s.newOp o).replicas = s.replicas := rfl
@[simp] theorem newOp_propagating (s : State) (o : MemOp) : (s.newOp o).propagating = s.propagating := rfl
@[simp] theorem newOp_l2 (s : State) (o : MemOp) : (s.newOp o).l2 = s.l2 := rfl
@[simp] theorem newOp_waiters (s : State) (o : MemOp) : (s.newOp o).waiters = s.waiters := rfl
@[simp] theorem newOp_polls (s : State) (o : MemOp) : (s.newOp o).polls = s.polls := rfl
@[simp] theorem newOp_stamps (s : State) (o : MemOp) : (s.newOp o).stamps = s.stamps := rfl
@[simp] theorem newOp_fabric (s : State) (o : MemOp) : (s.newOp o).fabric = s.fabric := rfl
@[simp] theorem newOp_queues (s : State) (o : MemOp) : (s.newOp o).queues = s.queues := rfl
@[simp] theorem newOp_tasks (s : State) (o : MemOp) : (s.newOp o).tasks = s.tasks := rfl
@[simp] theorem newOp_posts (s : State) (o : MemOp) : (s.newOp o).posts = s.posts := rfl
@[simp] theorem newOp_saved (s : State) (o : MemOp) : (s.newOp o).saved = s.saved := rfl
@[simp] theorem newOp_nextOrder (s : State) (o : MemOp) : (s.newOp o).nextOrder = s.nextOrder := rfl
@[simp] theorem newOp_lastQueue (s : State) (o : MemOp) : (s.newOp o).lastQueue = s.lastQueue := rfl
@[simp] theorem newOp_calls (s : State) (o : MemOp) : (s.newOp o).calls = s.calls := rfl
@[simp] theorem newOp_handles (s : State) (o : MemOp) : (s.newOp o).handles = s.handles := rfl
@[simp] theorem newOp_batteries (s : State) (o : MemOp) : (s.newOp o).batteries = s.batteries := rfl
@[simp] theorem newOp_switches (s : State) (o : MemOp) : (s.newOp o).switches = s.switches := rfl
@[simp] theorem newOp_takeovers (s : State) (o : MemOp) : (s.newOp o).takeovers = s.takeovers := rfl
@[simp] theorem newOp_beat (s : State) (o : MemOp) : (s.newOp o).beat = s.beat := rfl
@[simp] theorem newOp_resetting (s : State) (o : MemOp) : (s.newOp o).resetting = s.resetting := rfl
@[simp] theorem newOp_hosts (s : State) (o : MemOp) : (s.newOp o).hosts = s.hosts := rfl
@[simp] theorem newOp_keys (s : State) (o : MemOp) : (s.newOp o).keys = s.keys := rfl
@[simp] theorem newOp_channels (s : State) (o : MemOp) : (s.newOp o).channels = s.channels := rfl
@[simp] theorem newOp_spares (s : State) (o : MemOp) : (s.newOp o).spares = s.spares := rfl
@[simp] theorem newOp_rows (s : State) (o : MemOp) : (s.newOp o).rows = s.rows := rfl
@[simp] theorem newOp_errors (s : State) (o : MemOp) : (s.newOp o).errors = s.errors := rfl
@[simp] theorem newOp_spdm (s : State) (o : MemOp) : (s.newOp o).spdm = s.spdm := rfl
@[simp] theorem newOp_identity (s : State) (o : MemOp) : (s.newOp o).identity = s.identity := rfl
@[simp] theorem newOp_records (s : State) (o : MemOp) : (s.newOp o).records = s.records := rfl
@[simp] theorem newOp_powered (s : State) (o : MemOp) : (s.newOp o).powered = s.powered := rfl

@[simp] theorem stopWg_agenda (s : State) (g : Nat) (st : Status) : (s.stopWg g st).agenda = s.agenda := rfl
@[simp] theorem stopWg_curKey (s : State) (g : Nat) (st : Status) : (s.stopWg g st).curKey = s.curKey := rfl
@[simp] theorem stopWg_curSide (s : State) (g : Nat) (st : Status) : (s.stopWg g st).curSide = s.curSide := rfl
@[simp] theorem stopWg_clk (s : State) (g : Nat) (st : Status) : (s.stopWg g st).clk = s.clk := rfl
@[simp] theorem stopWg_fclk (s : State) (g : Nat) (st : Status) : (s.stopWg g st).fclk = s.fclk := rfl
@[simp] theorem stopWg_wall (s : State) (g : Nat) (st : Status) : (s.stopWg g st).wall = s.wall := rfl
@[simp] theorem stopWg_draws (s : State) (g : Nat) (st : Status) : (s.stopWg g st).draws = s.draws := rfl
@[simp] theorem stopWg_mem (s : State) (g : Nat) (st : Status) : (s.stopWg g st).mem = s.mem := rfl
@[simp] theorem stopWg_pot (s : State) (g : Nat) (st : Status) : (s.stopWg g st).pot = s.pot := rfl
@[simp] theorem stopWg_hostOwned (s : State) (g : Nat) (st : Status) : (s.stopWg g st).hostOwned = s.hostOwned := rfl
@[simp] theorem stopWg_confs (s : State) (g : Nat) (st : Status) : (s.stopWg g st).confs = s.confs := rfl
@[simp] theorem stopWg_rootWritten (s : State) (g : Nat) (st : Status) : (s.stopWg g st).rootWritten = s.rootWritten := rfl
@[simp] theorem stopWg_written (s : State) (g : Nat) (st : Status) : (s.stopWg g st).written = s.written := rfl
@[simp] theorem stopWg_mmio (s : State) (g : Nat) (st : Status) : (s.stopWg g st).mmio = s.mmio := rfl
@[simp] theorem stopWg_disabled (s : State) (g : Nat) (st : Status) : (s.stopWg g st).disabled = s.disabled := rfl
@[simp] theorem stopWg_retiring (s : State) (g : Nat) (st : Status) : (s.stopWg g st).retiring = s.retiring := rfl
@[simp] theorem stopWg_warps (s : State) (g : Nat) (st : Status) : (s.stopWg g st).warps = s.warps := rfl
@[simp] theorem stopWg_quads (s : State) (g : Nat) (st : Status) : (s.stopWg g st).quads = s.quads := rfl
@[simp] theorem stopWg_coreTlb (s : State) (g : Nat) (st : Status) : (s.stopWg g st).coreTlb = s.coreTlb := rfl
@[simp] theorem stopWg_l1 (s : State) (g : Nat) (st : Status) : (s.stopWg g st).l1 = s.l1 := rfl
@[simp] theorem stopWg_fetched (s : State) (g : Nat) (st : Status) : (s.stopWg g st).fetched = s.fetched := rfl
@[simp] theorem stopWg_ilines (s : State) (g : Nat) (st : Status) : (s.stopWg g st).ilines = s.ilines := rfl
@[simp] theorem stopWg_staging (s : State) (g : Nat) (st : Status) : (s.stopWg g st).staging = s.staging := rfl
@[simp] theorem stopWg_lamport (s : State) (g : Nat) (st : Status) : (s.stopWg g st).lamport = s.lamport := rfl
@[simp] theorem stopWg_arrays (s : State) (g : Nat) (st : Status) : (s.stopWg g st).arrays = s.arrays := rfl
@[simp] theorem stopWg_ops (s : State) (g : Nat) (st : Status) : (s.stopWg g st).ops = s.ops := rfl
@[simp] theorem stopWg_nextOp (s : State) (g : Nat) (st : Status) : (s.stopWg g st).nextOp = s.nextOp := rfl
@[simp] theorem stopWg_copies (s : State) (g : Nat) (st : Status) : (s.stopWg g st).copies = s.copies := rfl
@[simp] theorem stopWg_dtus (s : State) (g : Nat) (st : Status) : (s.stopWg g st).dtus = s.dtus := rfl
@[simp] theorem stopWg_replicas (s : State) (g : Nat) (st : Status) : (s.stopWg g st).replicas = s.replicas := rfl
@[simp] theorem stopWg_propagating (s : State) (g : Nat) (st : Status) : (s.stopWg g st).propagating = s.propagating := rfl
@[simp] theorem stopWg_l2 (s : State) (g : Nat) (st : Status) : (s.stopWg g st).l2 = s.l2 := rfl
@[simp] theorem stopWg_waiters (s : State) (g : Nat) (st : Status) : (s.stopWg g st).waiters = s.waiters := rfl
@[simp] theorem stopWg_polls (s : State) (g : Nat) (st : Status) : (s.stopWg g st).polls = s.polls := rfl
@[simp] theorem stopWg_stamps (s : State) (g : Nat) (st : Status) : (s.stopWg g st).stamps = s.stamps := rfl
@[simp] theorem stopWg_fabric (s : State) (g : Nat) (st : Status) : (s.stopWg g st).fabric = s.fabric := rfl
@[simp] theorem stopWg_queues (s : State) (g : Nat) (st : Status) : (s.stopWg g st).queues = s.queues := rfl
@[simp] theorem stopWg_tasks (s : State) (g : Nat) (st : Status) : (s.stopWg g st).tasks = s.tasks := rfl
@[simp] theorem stopWg_posts (s : State) (g : Nat) (st : Status) : (s.stopWg g st).posts = s.posts := rfl
@[simp] theorem stopWg_saved (s : State) (g : Nat) (st : Status) : (s.stopWg g st).saved = s.saved := rfl
@[simp] theorem stopWg_nextOrder (s : State) (g : Nat) (st : Status) : (s.stopWg g st).nextOrder = s.nextOrder := rfl
@[simp] theorem stopWg_lastQueue (s : State) (g : Nat) (st : Status) : (s.stopWg g st).lastQueue = s.lastQueue := rfl
@[simp] theorem stopWg_calls (s : State) (g : Nat) (st : Status) : (s.stopWg g st).calls = s.calls := rfl
@[simp] theorem stopWg_handles (s : State) (g : Nat) (st : Status) : (s.stopWg g st).handles = s.handles := rfl
@[simp] theorem stopWg_batteries (s : State) (g : Nat) (st : Status) : (s.stopWg g st).batteries = s.batteries := rfl
@[simp] theorem stopWg_switches (s : State) (g : Nat) (st : Status) : (s.stopWg g st).switches = s.switches := rfl
@[simp] theorem stopWg_takeovers (s : State) (g : Nat) (st : Status) : (s.stopWg g st).takeovers = s.takeovers := rfl
@[simp] theorem stopWg_beat (s : State) (g : Nat) (st : Status) : (s.stopWg g st).beat = s.beat := rfl
@[simp] theorem stopWg_resetting (s : State) (g : Nat) (st : Status) : (s.stopWg g st).resetting = s.resetting := rfl
@[simp] theorem stopWg_hosts (s : State) (g : Nat) (st : Status) : (s.stopWg g st).hosts = s.hosts := rfl
@[simp] theorem stopWg_keys (s : State) (g : Nat) (st : Status) : (s.stopWg g st).keys = s.keys := rfl
@[simp] theorem stopWg_channels (s : State) (g : Nat) (st : Status) : (s.stopWg g st).channels = s.channels := rfl
@[simp] theorem stopWg_spares (s : State) (g : Nat) (st : Status) : (s.stopWg g st).spares = s.spares := rfl
@[simp] theorem stopWg_rows (s : State) (g : Nat) (st : Status) : (s.stopWg g st).rows = s.rows := rfl
@[simp] theorem stopWg_errors (s : State) (g : Nat) (st : Status) : (s.stopWg g st).errors = s.errors := rfl
@[simp] theorem stopWg_spdm (s : State) (g : Nat) (st : Status) : (s.stopWg g st).spdm = s.spdm := rfl
@[simp] theorem stopWg_identity (s : State) (g : Nat) (st : Status) : (s.stopWg g st).identity = s.identity := rfl
@[simp] theorem stopWg_records (s : State) (g : Nat) (st : Status) : (s.stopWg g st).records = s.records := rfl
@[simp] theorem stopWg_powered (s : State) (g : Nat) (st : Status) : (s.stopWg g st).powered = s.powered := rfl

@[simp] theorem setReg_agenda (s : State) (a v : Nat) : (s.setReg a v).agenda = s.agenda := rfl
@[simp] theorem setReg_curKey (s : State) (a v : Nat) : (s.setReg a v).curKey = s.curKey := rfl
@[simp] theorem setReg_curSide (s : State) (a v : Nat) : (s.setReg a v).curSide = s.curSide := rfl
@[simp] theorem setReg_clk (s : State) (a v : Nat) : (s.setReg a v).clk = s.clk := rfl
@[simp] theorem setReg_fclk (s : State) (a v : Nat) : (s.setReg a v).fclk = s.fclk := rfl
@[simp] theorem setReg_wall (s : State) (a v : Nat) : (s.setReg a v).wall = s.wall := rfl
@[simp] theorem setReg_draws (s : State) (a v : Nat) : (s.setReg a v).draws = s.draws := rfl
@[simp] theorem setReg_mem (s : State) (a v : Nat) : (s.setReg a v).mem = s.mem := rfl
@[simp] theorem setReg_pot (s : State) (a v : Nat) : (s.setReg a v).pot = s.pot := rfl
@[simp] theorem setReg_hostOwned (s : State) (a v : Nat) : (s.setReg a v).hostOwned = s.hostOwned := rfl
@[simp] theorem setReg_confs (s : State) (a v : Nat) : (s.setReg a v).confs = s.confs := rfl
@[simp] theorem setReg_rootWritten (s : State) (a v : Nat) : (s.setReg a v).rootWritten = s.rootWritten := rfl
@[simp] theorem setReg_written (s : State) (a v : Nat) : (s.setReg a v).written = s.written := rfl
@[simp] theorem setReg_mmio (s : State) (a v : Nat) : (s.setReg a v).mmio = s.mmio.put (regReset a) a v := rfl
@[simp] theorem setReg_disabled (s : State) (a v : Nat) : (s.setReg a v).disabled = s.disabled := rfl
@[simp] theorem setReg_retiring (s : State) (a v : Nat) : (s.setReg a v).retiring = s.retiring := rfl
@[simp] theorem setReg_warps (s : State) (a v : Nat) : (s.setReg a v).warps = s.warps := rfl
@[simp] theorem setReg_quads (s : State) (a v : Nat) : (s.setReg a v).quads = s.quads := rfl
@[simp] theorem setReg_coreTlb (s : State) (a v : Nat) : (s.setReg a v).coreTlb = s.coreTlb := rfl
@[simp] theorem setReg_l1 (s : State) (a v : Nat) : (s.setReg a v).l1 = s.l1 := rfl
@[simp] theorem setReg_fetched (s : State) (a v : Nat) : (s.setReg a v).fetched = s.fetched := rfl
@[simp] theorem setReg_ilines (s : State) (a v : Nat) : (s.setReg a v).ilines = s.ilines := rfl
@[simp] theorem setReg_staging (s : State) (a v : Nat) : (s.setReg a v).staging = s.staging := rfl
@[simp] theorem setReg_lamport (s : State) (a v : Nat) : (s.setReg a v).lamport = s.lamport := rfl
@[simp] theorem setReg_arrays (s : State) (a v : Nat) : (s.setReg a v).arrays = s.arrays := rfl
@[simp] theorem setReg_wgs (s : State) (a v : Nat) : (s.setReg a v).wgs = s.wgs := rfl
@[simp] theorem setReg_ops (s : State) (a v : Nat) : (s.setReg a v).ops = s.ops := rfl
@[simp] theorem setReg_nextOp (s : State) (a v : Nat) : (s.setReg a v).nextOp = s.nextOp := rfl
@[simp] theorem setReg_copies (s : State) (a v : Nat) : (s.setReg a v).copies = s.copies := rfl
@[simp] theorem setReg_dtus (s : State) (a v : Nat) : (s.setReg a v).dtus = s.dtus := rfl
@[simp] theorem setReg_replicas (s : State) (a v : Nat) : (s.setReg a v).replicas = s.replicas := rfl
@[simp] theorem setReg_propagating (s : State) (a v : Nat) : (s.setReg a v).propagating = s.propagating := rfl
@[simp] theorem setReg_l2 (s : State) (a v : Nat) : (s.setReg a v).l2 = s.l2 := rfl
@[simp] theorem setReg_waiters (s : State) (a v : Nat) : (s.setReg a v).waiters = s.waiters := rfl
@[simp] theorem setReg_polls (s : State) (a v : Nat) : (s.setReg a v).polls = s.polls := rfl
@[simp] theorem setReg_stamps (s : State) (a v : Nat) : (s.setReg a v).stamps = s.stamps := rfl
@[simp] theorem setReg_fabric (s : State) (a v : Nat) : (s.setReg a v).fabric = s.fabric := rfl
@[simp] theorem setReg_queues (s : State) (a v : Nat) : (s.setReg a v).queues = s.queues := rfl
@[simp] theorem setReg_tasks (s : State) (a v : Nat) : (s.setReg a v).tasks = s.tasks := rfl
@[simp] theorem setReg_posts (s : State) (a v : Nat) : (s.setReg a v).posts = s.posts := rfl
@[simp] theorem setReg_saved (s : State) (a v : Nat) : (s.setReg a v).saved = s.saved := rfl
@[simp] theorem setReg_nextOrder (s : State) (a v : Nat) : (s.setReg a v).nextOrder = s.nextOrder := rfl
@[simp] theorem setReg_lastQueue (s : State) (a v : Nat) : (s.setReg a v).lastQueue = s.lastQueue := rfl
@[simp] theorem setReg_calls (s : State) (a v : Nat) : (s.setReg a v).calls = s.calls := rfl
@[simp] theorem setReg_handles (s : State) (a v : Nat) : (s.setReg a v).handles = s.handles := rfl
@[simp] theorem setReg_batteries (s : State) (a v : Nat) : (s.setReg a v).batteries = s.batteries := rfl
@[simp] theorem setReg_switches (s : State) (a v : Nat) : (s.setReg a v).switches = s.switches := rfl
@[simp] theorem setReg_takeovers (s : State) (a v : Nat) : (s.setReg a v).takeovers = s.takeovers := rfl
@[simp] theorem setReg_beat (s : State) (a v : Nat) : (s.setReg a v).beat = s.beat := rfl
@[simp] theorem setReg_resetting (s : State) (a v : Nat) : (s.setReg a v).resetting = s.resetting := rfl
@[simp] theorem setReg_hosts (s : State) (a v : Nat) : (s.setReg a v).hosts = s.hosts := rfl
@[simp] theorem setReg_keys (s : State) (a v : Nat) : (s.setReg a v).keys = s.keys := rfl
@[simp] theorem setReg_channels (s : State) (a v : Nat) : (s.setReg a v).channels = s.channels := rfl
@[simp] theorem setReg_spares (s : State) (a v : Nat) : (s.setReg a v).spares = s.spares := rfl
@[simp] theorem setReg_rows (s : State) (a v : Nat) : (s.setReg a v).rows = s.rows := rfl
@[simp] theorem setReg_errors (s : State) (a v : Nat) : (s.setReg a v).errors = s.errors := rfl
@[simp] theorem setReg_spdm (s : State) (a v : Nat) : (s.setReg a v).spdm = s.spdm := rfl
@[simp] theorem setReg_identity (s : State) (a v : Nat) : (s.setReg a v).identity = s.identity := rfl
@[simp] theorem setReg_records (s : State) (a v : Nat) : (s.setReg a v).records = s.records := rfl
@[simp] theorem setReg_powered (s : State) (a v : Nat) : (s.setReg a v).powered = s.powered := rfl

@[simp] theorem bump_agenda (s : State) (a n : Nat) : (s.bump a n).agenda = s.agenda := rfl
@[simp] theorem bump_curKey (s : State) (a n : Nat) : (s.bump a n).curKey = s.curKey := rfl
@[simp] theorem bump_curSide (s : State) (a n : Nat) : (s.bump a n).curSide = s.curSide := rfl
@[simp] theorem bump_clk (s : State) (a n : Nat) : (s.bump a n).clk = s.clk := rfl
@[simp] theorem bump_fclk (s : State) (a n : Nat) : (s.bump a n).fclk = s.fclk := rfl
@[simp] theorem bump_wall (s : State) (a n : Nat) : (s.bump a n).wall = s.wall := rfl
@[simp] theorem bump_draws (s : State) (a n : Nat) : (s.bump a n).draws = s.draws := rfl
@[simp] theorem bump_mem (s : State) (a n : Nat) : (s.bump a n).mem = s.mem := rfl
@[simp] theorem bump_pot (s : State) (a n : Nat) : (s.bump a n).pot = s.pot := rfl
@[simp] theorem bump_hostOwned (s : State) (a n : Nat) : (s.bump a n).hostOwned = s.hostOwned := rfl
@[simp] theorem bump_confs (s : State) (a n : Nat) : (s.bump a n).confs = s.confs := rfl
@[simp] theorem bump_rootWritten (s : State) (a n : Nat) : (s.bump a n).rootWritten = s.rootWritten := rfl
@[simp] theorem bump_written (s : State) (a n : Nat) : (s.bump a n).written = s.written := rfl
@[simp] theorem bump_disabled (s : State) (a n : Nat) : (s.bump a n).disabled = s.disabled := rfl
@[simp] theorem bump_retiring (s : State) (a n : Nat) : (s.bump a n).retiring = s.retiring := rfl
@[simp] theorem bump_warps (s : State) (a n : Nat) : (s.bump a n).warps = s.warps := rfl
@[simp] theorem bump_quads (s : State) (a n : Nat) : (s.bump a n).quads = s.quads := rfl
@[simp] theorem bump_coreTlb (s : State) (a n : Nat) : (s.bump a n).coreTlb = s.coreTlb := rfl
@[simp] theorem bump_l1 (s : State) (a n : Nat) : (s.bump a n).l1 = s.l1 := rfl
@[simp] theorem bump_fetched (s : State) (a n : Nat) : (s.bump a n).fetched = s.fetched := rfl
@[simp] theorem bump_ilines (s : State) (a n : Nat) : (s.bump a n).ilines = s.ilines := rfl
@[simp] theorem bump_staging (s : State) (a n : Nat) : (s.bump a n).staging = s.staging := rfl
@[simp] theorem bump_lamport (s : State) (a n : Nat) : (s.bump a n).lamport = s.lamport := rfl
@[simp] theorem bump_arrays (s : State) (a n : Nat) : (s.bump a n).arrays = s.arrays := rfl
@[simp] theorem bump_wgs (s : State) (a n : Nat) : (s.bump a n).wgs = s.wgs := rfl
@[simp] theorem bump_ops (s : State) (a n : Nat) : (s.bump a n).ops = s.ops := rfl
@[simp] theorem bump_nextOp (s : State) (a n : Nat) : (s.bump a n).nextOp = s.nextOp := rfl
@[simp] theorem bump_copies (s : State) (a n : Nat) : (s.bump a n).copies = s.copies := rfl
@[simp] theorem bump_dtus (s : State) (a n : Nat) : (s.bump a n).dtus = s.dtus := rfl
@[simp] theorem bump_replicas (s : State) (a n : Nat) : (s.bump a n).replicas = s.replicas := rfl
@[simp] theorem bump_propagating (s : State) (a n : Nat) : (s.bump a n).propagating = s.propagating := rfl
@[simp] theorem bump_l2 (s : State) (a n : Nat) : (s.bump a n).l2 = s.l2 := rfl
@[simp] theorem bump_waiters (s : State) (a n : Nat) : (s.bump a n).waiters = s.waiters := rfl
@[simp] theorem bump_polls (s : State) (a n : Nat) : (s.bump a n).polls = s.polls := rfl
@[simp] theorem bump_stamps (s : State) (a n : Nat) : (s.bump a n).stamps = s.stamps := rfl
@[simp] theorem bump_fabric (s : State) (a n : Nat) : (s.bump a n).fabric = s.fabric := rfl
@[simp] theorem bump_queues (s : State) (a n : Nat) : (s.bump a n).queues = s.queues := rfl
@[simp] theorem bump_tasks (s : State) (a n : Nat) : (s.bump a n).tasks = s.tasks := rfl
@[simp] theorem bump_posts (s : State) (a n : Nat) : (s.bump a n).posts = s.posts := rfl
@[simp] theorem bump_saved (s : State) (a n : Nat) : (s.bump a n).saved = s.saved := rfl
@[simp] theorem bump_nextOrder (s : State) (a n : Nat) : (s.bump a n).nextOrder = s.nextOrder := rfl
@[simp] theorem bump_lastQueue (s : State) (a n : Nat) : (s.bump a n).lastQueue = s.lastQueue := rfl
@[simp] theorem bump_calls (s : State) (a n : Nat) : (s.bump a n).calls = s.calls := rfl
@[simp] theorem bump_handles (s : State) (a n : Nat) : (s.bump a n).handles = s.handles := rfl
@[simp] theorem bump_batteries (s : State) (a n : Nat) : (s.bump a n).batteries = s.batteries := rfl
@[simp] theorem bump_switches (s : State) (a n : Nat) : (s.bump a n).switches = s.switches := rfl
@[simp] theorem bump_takeovers (s : State) (a n : Nat) : (s.bump a n).takeovers = s.takeovers := rfl
@[simp] theorem bump_beat (s : State) (a n : Nat) : (s.bump a n).beat = s.beat := rfl
@[simp] theorem bump_resetting (s : State) (a n : Nat) : (s.bump a n).resetting = s.resetting := rfl
@[simp] theorem bump_hosts (s : State) (a n : Nat) : (s.bump a n).hosts = s.hosts := rfl
@[simp] theorem bump_keys (s : State) (a n : Nat) : (s.bump a n).keys = s.keys := rfl
@[simp] theorem bump_channels (s : State) (a n : Nat) : (s.bump a n).channels = s.channels := rfl
@[simp] theorem bump_spares (s : State) (a n : Nat) : (s.bump a n).spares = s.spares := rfl
@[simp] theorem bump_rows (s : State) (a n : Nat) : (s.bump a n).rows = s.rows := rfl
@[simp] theorem bump_errors (s : State) (a n : Nat) : (s.bump a n).errors = s.errors := rfl
@[simp] theorem bump_spdm (s : State) (a n : Nat) : (s.bump a n).spdm = s.spdm := rfl
@[simp] theorem bump_identity (s : State) (a n : Nat) : (s.bump a n).identity = s.identity := rfl
@[simp] theorem bump_records (s : State) (a n : Nat) : (s.bump a n).records = s.records := rfl
@[simp] theorem bump_powered (s : State) (a n : Nat) : (s.bump a n).powered = s.powered := rfl

@[simp] theorem onQuad_agenda (s : State) (q : Nat) (f : Quad → Quad) : (s.onQuad q f).agenda = s.agenda := rfl
@[simp] theorem onQuad_curKey (s : State) (q : Nat) (f : Quad → Quad) : (s.onQuad q f).curKey = s.curKey := rfl
@[simp] theorem onQuad_curSide (s : State) (q : Nat) (f : Quad → Quad) : (s.onQuad q f).curSide = s.curSide := rfl
@[simp] theorem onQuad_clk (s : State) (q : Nat) (f : Quad → Quad) : (s.onQuad q f).clk = s.clk := rfl
@[simp] theorem onQuad_fclk (s : State) (q : Nat) (f : Quad → Quad) : (s.onQuad q f).fclk = s.fclk := rfl
@[simp] theorem onQuad_wall (s : State) (q : Nat) (f : Quad → Quad) : (s.onQuad q f).wall = s.wall := rfl
@[simp] theorem onQuad_draws (s : State) (q : Nat) (f : Quad → Quad) : (s.onQuad q f).draws = s.draws := rfl
@[simp] theorem onQuad_mem (s : State) (q : Nat) (f : Quad → Quad) : (s.onQuad q f).mem = s.mem := rfl
@[simp] theorem onQuad_pot (s : State) (q : Nat) (f : Quad → Quad) : (s.onQuad q f).pot = s.pot := rfl
@[simp] theorem onQuad_hostOwned (s : State) (q : Nat) (f : Quad → Quad) : (s.onQuad q f).hostOwned = s.hostOwned := rfl
@[simp] theorem onQuad_confs (s : State) (q : Nat) (f : Quad → Quad) : (s.onQuad q f).confs = s.confs := rfl
@[simp] theorem onQuad_rootWritten (s : State) (q : Nat) (f : Quad → Quad) : (s.onQuad q f).rootWritten = s.rootWritten := rfl
@[simp] theorem onQuad_written (s : State) (q : Nat) (f : Quad → Quad) : (s.onQuad q f).written = s.written := rfl
@[simp] theorem onQuad_mmio (s : State) (q : Nat) (f : Quad → Quad) : (s.onQuad q f).mmio = s.mmio := rfl
@[simp] theorem onQuad_disabled (s : State) (q : Nat) (f : Quad → Quad) : (s.onQuad q f).disabled = s.disabled := rfl
@[simp] theorem onQuad_retiring (s : State) (q : Nat) (f : Quad → Quad) : (s.onQuad q f).retiring = s.retiring := rfl
@[simp] theorem onQuad_warps (s : State) (q : Nat) (f : Quad → Quad) : (s.onQuad q f).warps = s.warps := rfl
@[simp] theorem onQuad_quads (s : State) (q : Nat) (f : Quad → Quad) : (s.onQuad q f).quads = s.quads.put Quad.empty q (f (s.quad q)) := rfl
@[simp] theorem onQuad_coreTlb (s : State) (q : Nat) (f : Quad → Quad) : (s.onQuad q f).coreTlb = s.coreTlb := rfl
@[simp] theorem onQuad_l1 (s : State) (q : Nat) (f : Quad → Quad) : (s.onQuad q f).l1 = s.l1 := rfl
@[simp] theorem onQuad_fetched (s : State) (q : Nat) (f : Quad → Quad) : (s.onQuad q f).fetched = s.fetched := rfl
@[simp] theorem onQuad_ilines (s : State) (q : Nat) (f : Quad → Quad) : (s.onQuad q f).ilines = s.ilines := rfl
@[simp] theorem onQuad_staging (s : State) (q : Nat) (f : Quad → Quad) : (s.onQuad q f).staging = s.staging := rfl
@[simp] theorem onQuad_lamport (s : State) (q : Nat) (f : Quad → Quad) : (s.onQuad q f).lamport = s.lamport := rfl
@[simp] theorem onQuad_arrays (s : State) (q : Nat) (f : Quad → Quad) : (s.onQuad q f).arrays = s.arrays := rfl
@[simp] theorem onQuad_wgs (s : State) (q : Nat) (f : Quad → Quad) : (s.onQuad q f).wgs = s.wgs := rfl
@[simp] theorem onQuad_ops (s : State) (q : Nat) (f : Quad → Quad) : (s.onQuad q f).ops = s.ops := rfl
@[simp] theorem onQuad_nextOp (s : State) (q : Nat) (f : Quad → Quad) : (s.onQuad q f).nextOp = s.nextOp := rfl
@[simp] theorem onQuad_copies (s : State) (q : Nat) (f : Quad → Quad) : (s.onQuad q f).copies = s.copies := rfl
@[simp] theorem onQuad_dtus (s : State) (q : Nat) (f : Quad → Quad) : (s.onQuad q f).dtus = s.dtus := rfl
@[simp] theorem onQuad_replicas (s : State) (q : Nat) (f : Quad → Quad) : (s.onQuad q f).replicas = s.replicas := rfl
@[simp] theorem onQuad_propagating (s : State) (q : Nat) (f : Quad → Quad) : (s.onQuad q f).propagating = s.propagating := rfl
@[simp] theorem onQuad_l2 (s : State) (q : Nat) (f : Quad → Quad) : (s.onQuad q f).l2 = s.l2 := rfl
@[simp] theorem onQuad_waiters (s : State) (q : Nat) (f : Quad → Quad) : (s.onQuad q f).waiters = s.waiters := rfl
@[simp] theorem onQuad_polls (s : State) (q : Nat) (f : Quad → Quad) : (s.onQuad q f).polls = s.polls := rfl
@[simp] theorem onQuad_stamps (s : State) (q : Nat) (f : Quad → Quad) : (s.onQuad q f).stamps = s.stamps := rfl
@[simp] theorem onQuad_fabric (s : State) (q : Nat) (f : Quad → Quad) : (s.onQuad q f).fabric = s.fabric := rfl
@[simp] theorem onQuad_queues (s : State) (q : Nat) (f : Quad → Quad) : (s.onQuad q f).queues = s.queues := rfl
@[simp] theorem onQuad_tasks (s : State) (q : Nat) (f : Quad → Quad) : (s.onQuad q f).tasks = s.tasks := rfl
@[simp] theorem onQuad_posts (s : State) (q : Nat) (f : Quad → Quad) : (s.onQuad q f).posts = s.posts := rfl
@[simp] theorem onQuad_saved (s : State) (q : Nat) (f : Quad → Quad) : (s.onQuad q f).saved = s.saved := rfl
@[simp] theorem onQuad_nextOrder (s : State) (q : Nat) (f : Quad → Quad) : (s.onQuad q f).nextOrder = s.nextOrder := rfl
@[simp] theorem onQuad_lastQueue (s : State) (q : Nat) (f : Quad → Quad) : (s.onQuad q f).lastQueue = s.lastQueue := rfl
@[simp] theorem onQuad_calls (s : State) (q : Nat) (f : Quad → Quad) : (s.onQuad q f).calls = s.calls := rfl
@[simp] theorem onQuad_handles (s : State) (q : Nat) (f : Quad → Quad) : (s.onQuad q f).handles = s.handles := rfl
@[simp] theorem onQuad_batteries (s : State) (q : Nat) (f : Quad → Quad) : (s.onQuad q f).batteries = s.batteries := rfl
@[simp] theorem onQuad_switches (s : State) (q : Nat) (f : Quad → Quad) : (s.onQuad q f).switches = s.switches := rfl
@[simp] theorem onQuad_takeovers (s : State) (q : Nat) (f : Quad → Quad) : (s.onQuad q f).takeovers = s.takeovers := rfl
@[simp] theorem onQuad_beat (s : State) (q : Nat) (f : Quad → Quad) : (s.onQuad q f).beat = s.beat := rfl
@[simp] theorem onQuad_resetting (s : State) (q : Nat) (f : Quad → Quad) : (s.onQuad q f).resetting = s.resetting := rfl
@[simp] theorem onQuad_hosts (s : State) (q : Nat) (f : Quad → Quad) : (s.onQuad q f).hosts = s.hosts := rfl
@[simp] theorem onQuad_keys (s : State) (q : Nat) (f : Quad → Quad) : (s.onQuad q f).keys = s.keys := rfl
@[simp] theorem onQuad_channels (s : State) (q : Nat) (f : Quad → Quad) : (s.onQuad q f).channels = s.channels := rfl
@[simp] theorem onQuad_spares (s : State) (q : Nat) (f : Quad → Quad) : (s.onQuad q f).spares = s.spares := rfl
@[simp] theorem onQuad_rows (s : State) (q : Nat) (f : Quad → Quad) : (s.onQuad q f).rows = s.rows := rfl
@[simp] theorem onQuad_errors (s : State) (q : Nat) (f : Quad → Quad) : (s.onQuad q f).errors = s.errors := rfl
@[simp] theorem onQuad_spdm (s : State) (q : Nat) (f : Quad → Quad) : (s.onQuad q f).spdm = s.spdm := rfl
@[simp] theorem onQuad_identity (s : State) (q : Nat) (f : Quad → Quad) : (s.onQuad q f).identity = s.identity := rfl
@[simp] theorem onQuad_records (s : State) (q : Nat) (f : Quad → Quad) : (s.onQuad q f).records = s.records := rfl
@[simp] theorem onQuad_powered (s : State) (q : Nat) (f : Quad → Quad) : (s.onQuad q f).powered = s.powered := rfl

@[simp] theorem setTlb_agenda (s : State) (core : Nat) (l : List TlbEntry) : (s.setTlb core l).agenda = s.agenda := rfl
@[simp] theorem setTlb_curKey (s : State) (core : Nat) (l : List TlbEntry) : (s.setTlb core l).curKey = s.curKey := rfl
@[simp] theorem setTlb_curSide (s : State) (core : Nat) (l : List TlbEntry) : (s.setTlb core l).curSide = s.curSide := rfl
@[simp] theorem setTlb_clk (s : State) (core : Nat) (l : List TlbEntry) : (s.setTlb core l).clk = s.clk := rfl
@[simp] theorem setTlb_fclk (s : State) (core : Nat) (l : List TlbEntry) : (s.setTlb core l).fclk = s.fclk := rfl
@[simp] theorem setTlb_wall (s : State) (core : Nat) (l : List TlbEntry) : (s.setTlb core l).wall = s.wall := rfl
@[simp] theorem setTlb_draws (s : State) (core : Nat) (l : List TlbEntry) : (s.setTlb core l).draws = s.draws := rfl
@[simp] theorem setTlb_mem (s : State) (core : Nat) (l : List TlbEntry) : (s.setTlb core l).mem = s.mem := rfl
@[simp] theorem setTlb_pot (s : State) (core : Nat) (l : List TlbEntry) : (s.setTlb core l).pot = s.pot := rfl
@[simp] theorem setTlb_hostOwned (s : State) (core : Nat) (l : List TlbEntry) : (s.setTlb core l).hostOwned = s.hostOwned := rfl
@[simp] theorem setTlb_confs (s : State) (core : Nat) (l : List TlbEntry) : (s.setTlb core l).confs = s.confs := rfl
@[simp] theorem setTlb_rootWritten (s : State) (core : Nat) (l : List TlbEntry) : (s.setTlb core l).rootWritten = s.rootWritten := rfl
@[simp] theorem setTlb_written (s : State) (core : Nat) (l : List TlbEntry) : (s.setTlb core l).written = s.written := rfl
@[simp] theorem setTlb_mmio (s : State) (core : Nat) (l : List TlbEntry) : (s.setTlb core l).mmio = s.mmio := rfl
@[simp] theorem setTlb_disabled (s : State) (core : Nat) (l : List TlbEntry) : (s.setTlb core l).disabled = s.disabled := rfl
@[simp] theorem setTlb_retiring (s : State) (core : Nat) (l : List TlbEntry) : (s.setTlb core l).retiring = s.retiring := rfl
@[simp] theorem setTlb_warps (s : State) (core : Nat) (l : List TlbEntry) : (s.setTlb core l).warps = s.warps := rfl
@[simp] theorem setTlb_quads (s : State) (core : Nat) (l : List TlbEntry) : (s.setTlb core l).quads = s.quads := rfl
@[simp] theorem setTlb_coreTlb (s : State) (core : Nat) (l : List TlbEntry) : (s.setTlb core l).coreTlb = s.coreTlb.put [] core l := rfl
@[simp] theorem setTlb_l1 (s : State) (core : Nat) (l : List TlbEntry) : (s.setTlb core l).l1 = s.l1 := rfl
@[simp] theorem setTlb_fetched (s : State) (core : Nat) (l : List TlbEntry) : (s.setTlb core l).fetched = s.fetched := rfl
@[simp] theorem setTlb_ilines (s : State) (core : Nat) (l : List TlbEntry) : (s.setTlb core l).ilines = s.ilines := rfl
@[simp] theorem setTlb_staging (s : State) (core : Nat) (l : List TlbEntry) : (s.setTlb core l).staging = s.staging := rfl
@[simp] theorem setTlb_lamport (s : State) (core : Nat) (l : List TlbEntry) : (s.setTlb core l).lamport = s.lamport := rfl
@[simp] theorem setTlb_arrays (s : State) (core : Nat) (l : List TlbEntry) : (s.setTlb core l).arrays = s.arrays := rfl
@[simp] theorem setTlb_wgs (s : State) (core : Nat) (l : List TlbEntry) : (s.setTlb core l).wgs = s.wgs := rfl
@[simp] theorem setTlb_ops (s : State) (core : Nat) (l : List TlbEntry) : (s.setTlb core l).ops = s.ops := rfl
@[simp] theorem setTlb_nextOp (s : State) (core : Nat) (l : List TlbEntry) : (s.setTlb core l).nextOp = s.nextOp := rfl
@[simp] theorem setTlb_copies (s : State) (core : Nat) (l : List TlbEntry) : (s.setTlb core l).copies = s.copies := rfl
@[simp] theorem setTlb_dtus (s : State) (core : Nat) (l : List TlbEntry) : (s.setTlb core l).dtus = s.dtus := rfl
@[simp] theorem setTlb_replicas (s : State) (core : Nat) (l : List TlbEntry) : (s.setTlb core l).replicas = s.replicas := rfl
@[simp] theorem setTlb_propagating (s : State) (core : Nat) (l : List TlbEntry) : (s.setTlb core l).propagating = s.propagating := rfl
@[simp] theorem setTlb_l2 (s : State) (core : Nat) (l : List TlbEntry) : (s.setTlb core l).l2 = s.l2 := rfl
@[simp] theorem setTlb_waiters (s : State) (core : Nat) (l : List TlbEntry) : (s.setTlb core l).waiters = s.waiters := rfl
@[simp] theorem setTlb_polls (s : State) (core : Nat) (l : List TlbEntry) : (s.setTlb core l).polls = s.polls := rfl
@[simp] theorem setTlb_stamps (s : State) (core : Nat) (l : List TlbEntry) : (s.setTlb core l).stamps = s.stamps := rfl
@[simp] theorem setTlb_fabric (s : State) (core : Nat) (l : List TlbEntry) : (s.setTlb core l).fabric = s.fabric := rfl
@[simp] theorem setTlb_queues (s : State) (core : Nat) (l : List TlbEntry) : (s.setTlb core l).queues = s.queues := rfl
@[simp] theorem setTlb_tasks (s : State) (core : Nat) (l : List TlbEntry) : (s.setTlb core l).tasks = s.tasks := rfl
@[simp] theorem setTlb_posts (s : State) (core : Nat) (l : List TlbEntry) : (s.setTlb core l).posts = s.posts := rfl
@[simp] theorem setTlb_saved (s : State) (core : Nat) (l : List TlbEntry) : (s.setTlb core l).saved = s.saved := rfl
@[simp] theorem setTlb_nextOrder (s : State) (core : Nat) (l : List TlbEntry) : (s.setTlb core l).nextOrder = s.nextOrder := rfl
@[simp] theorem setTlb_lastQueue (s : State) (core : Nat) (l : List TlbEntry) : (s.setTlb core l).lastQueue = s.lastQueue := rfl
@[simp] theorem setTlb_calls (s : State) (core : Nat) (l : List TlbEntry) : (s.setTlb core l).calls = s.calls := rfl
@[simp] theorem setTlb_handles (s : State) (core : Nat) (l : List TlbEntry) : (s.setTlb core l).handles = s.handles := rfl
@[simp] theorem setTlb_batteries (s : State) (core : Nat) (l : List TlbEntry) : (s.setTlb core l).batteries = s.batteries := rfl
@[simp] theorem setTlb_switches (s : State) (core : Nat) (l : List TlbEntry) : (s.setTlb core l).switches = s.switches := rfl
@[simp] theorem setTlb_takeovers (s : State) (core : Nat) (l : List TlbEntry) : (s.setTlb core l).takeovers = s.takeovers := rfl
@[simp] theorem setTlb_beat (s : State) (core : Nat) (l : List TlbEntry) : (s.setTlb core l).beat = s.beat := rfl
@[simp] theorem setTlb_resetting (s : State) (core : Nat) (l : List TlbEntry) : (s.setTlb core l).resetting = s.resetting := rfl
@[simp] theorem setTlb_hosts (s : State) (core : Nat) (l : List TlbEntry) : (s.setTlb core l).hosts = s.hosts := rfl
@[simp] theorem setTlb_keys (s : State) (core : Nat) (l : List TlbEntry) : (s.setTlb core l).keys = s.keys := rfl
@[simp] theorem setTlb_channels (s : State) (core : Nat) (l : List TlbEntry) : (s.setTlb core l).channels = s.channels := rfl
@[simp] theorem setTlb_spares (s : State) (core : Nat) (l : List TlbEntry) : (s.setTlb core l).spares = s.spares := rfl
@[simp] theorem setTlb_rows (s : State) (core : Nat) (l : List TlbEntry) : (s.setTlb core l).rows = s.rows := rfl
@[simp] theorem setTlb_errors (s : State) (core : Nat) (l : List TlbEntry) : (s.setTlb core l).errors = s.errors := rfl
@[simp] theorem setTlb_spdm (s : State) (core : Nat) (l : List TlbEntry) : (s.setTlb core l).spdm = s.spdm := rfl
@[simp] theorem setTlb_identity (s : State) (core : Nat) (l : List TlbEntry) : (s.setTlb core l).identity = s.identity := rfl
@[simp] theorem setTlb_records (s : State) (core : Nat) (l : List TlbEntry) : (s.setTlb core l).records = s.records := rfl
@[simp] theorem setTlb_powered (s : State) (core : Nat) (l : List TlbEntry) : (s.setTlb core l).powered = s.powered := rfl

@[simp] theorem onDtu_agenda (s : State) (die : Nat) (f : Dtu → Dtu) : (s.onDtu die f).agenda = s.agenda := rfl
@[simp] theorem onDtu_curKey (s : State) (die : Nat) (f : Dtu → Dtu) : (s.onDtu die f).curKey = s.curKey := rfl
@[simp] theorem onDtu_curSide (s : State) (die : Nat) (f : Dtu → Dtu) : (s.onDtu die f).curSide = s.curSide := rfl
@[simp] theorem onDtu_clk (s : State) (die : Nat) (f : Dtu → Dtu) : (s.onDtu die f).clk = s.clk := rfl
@[simp] theorem onDtu_fclk (s : State) (die : Nat) (f : Dtu → Dtu) : (s.onDtu die f).fclk = s.fclk := rfl
@[simp] theorem onDtu_wall (s : State) (die : Nat) (f : Dtu → Dtu) : (s.onDtu die f).wall = s.wall := rfl
@[simp] theorem onDtu_draws (s : State) (die : Nat) (f : Dtu → Dtu) : (s.onDtu die f).draws = s.draws := rfl
@[simp] theorem onDtu_mem (s : State) (die : Nat) (f : Dtu → Dtu) : (s.onDtu die f).mem = s.mem := rfl
@[simp] theorem onDtu_pot (s : State) (die : Nat) (f : Dtu → Dtu) : (s.onDtu die f).pot = s.pot := rfl
@[simp] theorem onDtu_hostOwned (s : State) (die : Nat) (f : Dtu → Dtu) : (s.onDtu die f).hostOwned = s.hostOwned := rfl
@[simp] theorem onDtu_confs (s : State) (die : Nat) (f : Dtu → Dtu) : (s.onDtu die f).confs = s.confs := rfl
@[simp] theorem onDtu_rootWritten (s : State) (die : Nat) (f : Dtu → Dtu) : (s.onDtu die f).rootWritten = s.rootWritten := rfl
@[simp] theorem onDtu_written (s : State) (die : Nat) (f : Dtu → Dtu) : (s.onDtu die f).written = s.written := rfl
@[simp] theorem onDtu_mmio (s : State) (die : Nat) (f : Dtu → Dtu) : (s.onDtu die f).mmio = s.mmio := rfl
@[simp] theorem onDtu_disabled (s : State) (die : Nat) (f : Dtu → Dtu) : (s.onDtu die f).disabled = s.disabled := rfl
@[simp] theorem onDtu_retiring (s : State) (die : Nat) (f : Dtu → Dtu) : (s.onDtu die f).retiring = s.retiring := rfl
@[simp] theorem onDtu_warps (s : State) (die : Nat) (f : Dtu → Dtu) : (s.onDtu die f).warps = s.warps := rfl
@[simp] theorem onDtu_quads (s : State) (die : Nat) (f : Dtu → Dtu) : (s.onDtu die f).quads = s.quads := rfl
@[simp] theorem onDtu_coreTlb (s : State) (die : Nat) (f : Dtu → Dtu) : (s.onDtu die f).coreTlb = s.coreTlb := rfl
@[simp] theorem onDtu_l1 (s : State) (die : Nat) (f : Dtu → Dtu) : (s.onDtu die f).l1 = s.l1 := rfl
@[simp] theorem onDtu_fetched (s : State) (die : Nat) (f : Dtu → Dtu) : (s.onDtu die f).fetched = s.fetched := rfl
@[simp] theorem onDtu_ilines (s : State) (die : Nat) (f : Dtu → Dtu) : (s.onDtu die f).ilines = s.ilines := rfl
@[simp] theorem onDtu_staging (s : State) (die : Nat) (f : Dtu → Dtu) : (s.onDtu die f).staging = s.staging := rfl
@[simp] theorem onDtu_lamport (s : State) (die : Nat) (f : Dtu → Dtu) : (s.onDtu die f).lamport = s.lamport := rfl
@[simp] theorem onDtu_arrays (s : State) (die : Nat) (f : Dtu → Dtu) : (s.onDtu die f).arrays = s.arrays := rfl
@[simp] theorem onDtu_wgs (s : State) (die : Nat) (f : Dtu → Dtu) : (s.onDtu die f).wgs = s.wgs := rfl
@[simp] theorem onDtu_ops (s : State) (die : Nat) (f : Dtu → Dtu) : (s.onDtu die f).ops = s.ops := rfl
@[simp] theorem onDtu_nextOp (s : State) (die : Nat) (f : Dtu → Dtu) : (s.onDtu die f).nextOp = s.nextOp := rfl
@[simp] theorem onDtu_copies (s : State) (die : Nat) (f : Dtu → Dtu) : (s.onDtu die f).copies = s.copies := rfl
@[simp] theorem onDtu_dtus (s : State) (die : Nat) (f : Dtu → Dtu) : (s.onDtu die f).dtus = s.dtus.put Dtu.empty die (f (s.dtu die)) := rfl
@[simp] theorem onDtu_replicas (s : State) (die : Nat) (f : Dtu → Dtu) : (s.onDtu die f).replicas = s.replicas := rfl
@[simp] theorem onDtu_propagating (s : State) (die : Nat) (f : Dtu → Dtu) : (s.onDtu die f).propagating = s.propagating := rfl
@[simp] theorem onDtu_l2 (s : State) (die : Nat) (f : Dtu → Dtu) : (s.onDtu die f).l2 = s.l2 := rfl
@[simp] theorem onDtu_waiters (s : State) (die : Nat) (f : Dtu → Dtu) : (s.onDtu die f).waiters = s.waiters := rfl
@[simp] theorem onDtu_polls (s : State) (die : Nat) (f : Dtu → Dtu) : (s.onDtu die f).polls = s.polls := rfl
@[simp] theorem onDtu_stamps (s : State) (die : Nat) (f : Dtu → Dtu) : (s.onDtu die f).stamps = s.stamps := rfl
@[simp] theorem onDtu_fabric (s : State) (die : Nat) (f : Dtu → Dtu) : (s.onDtu die f).fabric = s.fabric := rfl
@[simp] theorem onDtu_queues (s : State) (die : Nat) (f : Dtu → Dtu) : (s.onDtu die f).queues = s.queues := rfl
@[simp] theorem onDtu_tasks (s : State) (die : Nat) (f : Dtu → Dtu) : (s.onDtu die f).tasks = s.tasks := rfl
@[simp] theorem onDtu_posts (s : State) (die : Nat) (f : Dtu → Dtu) : (s.onDtu die f).posts = s.posts := rfl
@[simp] theorem onDtu_saved (s : State) (die : Nat) (f : Dtu → Dtu) : (s.onDtu die f).saved = s.saved := rfl
@[simp] theorem onDtu_nextOrder (s : State) (die : Nat) (f : Dtu → Dtu) : (s.onDtu die f).nextOrder = s.nextOrder := rfl
@[simp] theorem onDtu_lastQueue (s : State) (die : Nat) (f : Dtu → Dtu) : (s.onDtu die f).lastQueue = s.lastQueue := rfl
@[simp] theorem onDtu_calls (s : State) (die : Nat) (f : Dtu → Dtu) : (s.onDtu die f).calls = s.calls := rfl
@[simp] theorem onDtu_handles (s : State) (die : Nat) (f : Dtu → Dtu) : (s.onDtu die f).handles = s.handles := rfl
@[simp] theorem onDtu_batteries (s : State) (die : Nat) (f : Dtu → Dtu) : (s.onDtu die f).batteries = s.batteries := rfl
@[simp] theorem onDtu_switches (s : State) (die : Nat) (f : Dtu → Dtu) : (s.onDtu die f).switches = s.switches := rfl
@[simp] theorem onDtu_takeovers (s : State) (die : Nat) (f : Dtu → Dtu) : (s.onDtu die f).takeovers = s.takeovers := rfl
@[simp] theorem onDtu_beat (s : State) (die : Nat) (f : Dtu → Dtu) : (s.onDtu die f).beat = s.beat := rfl
@[simp] theorem onDtu_resetting (s : State) (die : Nat) (f : Dtu → Dtu) : (s.onDtu die f).resetting = s.resetting := rfl
@[simp] theorem onDtu_hosts (s : State) (die : Nat) (f : Dtu → Dtu) : (s.onDtu die f).hosts = s.hosts := rfl
@[simp] theorem onDtu_keys (s : State) (die : Nat) (f : Dtu → Dtu) : (s.onDtu die f).keys = s.keys := rfl
@[simp] theorem onDtu_channels (s : State) (die : Nat) (f : Dtu → Dtu) : (s.onDtu die f).channels = s.channels := rfl
@[simp] theorem onDtu_spares (s : State) (die : Nat) (f : Dtu → Dtu) : (s.onDtu die f).spares = s.spares := rfl
@[simp] theorem onDtu_rows (s : State) (die : Nat) (f : Dtu → Dtu) : (s.onDtu die f).rows = s.rows := rfl
@[simp] theorem onDtu_errors (s : State) (die : Nat) (f : Dtu → Dtu) : (s.onDtu die f).errors = s.errors := rfl
@[simp] theorem onDtu_spdm (s : State) (die : Nat) (f : Dtu → Dtu) : (s.onDtu die f).spdm = s.spdm := rfl
@[simp] theorem onDtu_identity (s : State) (die : Nat) (f : Dtu → Dtu) : (s.onDtu die f).identity = s.identity := rfl
@[simp] theorem onDtu_records (s : State) (die : Nat) (f : Dtu → Dtu) : (s.onDtu die f).records = s.records := rfl
@[simp] theorem onDtu_powered (s : State) (die : Nat) (f : Dtu → Dtu) : (s.onDtu die f).powered = s.powered := rfl

@[simp] theorem onFabric_agenda (s : State) (f : Fabric → Fabric) : (s.onFabric f).agenda = s.agenda := rfl
@[simp] theorem onFabric_curKey (s : State) (f : Fabric → Fabric) : (s.onFabric f).curKey = s.curKey := rfl
@[simp] theorem onFabric_curSide (s : State) (f : Fabric → Fabric) : (s.onFabric f).curSide = s.curSide := rfl
@[simp] theorem onFabric_clk (s : State) (f : Fabric → Fabric) : (s.onFabric f).clk = s.clk := rfl
@[simp] theorem onFabric_fclk (s : State) (f : Fabric → Fabric) : (s.onFabric f).fclk = s.fclk := rfl
@[simp] theorem onFabric_wall (s : State) (f : Fabric → Fabric) : (s.onFabric f).wall = s.wall := rfl
@[simp] theorem onFabric_draws (s : State) (f : Fabric → Fabric) : (s.onFabric f).draws = s.draws := rfl
@[simp] theorem onFabric_mem (s : State) (f : Fabric → Fabric) : (s.onFabric f).mem = s.mem := rfl
@[simp] theorem onFabric_pot (s : State) (f : Fabric → Fabric) : (s.onFabric f).pot = s.pot := rfl
@[simp] theorem onFabric_hostOwned (s : State) (f : Fabric → Fabric) : (s.onFabric f).hostOwned = s.hostOwned := rfl
@[simp] theorem onFabric_confs (s : State) (f : Fabric → Fabric) : (s.onFabric f).confs = s.confs := rfl
@[simp] theorem onFabric_rootWritten (s : State) (f : Fabric → Fabric) : (s.onFabric f).rootWritten = s.rootWritten := rfl
@[simp] theorem onFabric_written (s : State) (f : Fabric → Fabric) : (s.onFabric f).written = s.written := rfl
@[simp] theorem onFabric_mmio (s : State) (f : Fabric → Fabric) : (s.onFabric f).mmio = s.mmio := rfl
@[simp] theorem onFabric_disabled (s : State) (f : Fabric → Fabric) : (s.onFabric f).disabled = s.disabled := rfl
@[simp] theorem onFabric_retiring (s : State) (f : Fabric → Fabric) : (s.onFabric f).retiring = s.retiring := rfl
@[simp] theorem onFabric_warps (s : State) (f : Fabric → Fabric) : (s.onFabric f).warps = s.warps := rfl
@[simp] theorem onFabric_quads (s : State) (f : Fabric → Fabric) : (s.onFabric f).quads = s.quads := rfl
@[simp] theorem onFabric_coreTlb (s : State) (f : Fabric → Fabric) : (s.onFabric f).coreTlb = s.coreTlb := rfl
@[simp] theorem onFabric_l1 (s : State) (f : Fabric → Fabric) : (s.onFabric f).l1 = s.l1 := rfl
@[simp] theorem onFabric_fetched (s : State) (f : Fabric → Fabric) : (s.onFabric f).fetched = s.fetched := rfl
@[simp] theorem onFabric_ilines (s : State) (f : Fabric → Fabric) : (s.onFabric f).ilines = s.ilines := rfl
@[simp] theorem onFabric_staging (s : State) (f : Fabric → Fabric) : (s.onFabric f).staging = s.staging := rfl
@[simp] theorem onFabric_lamport (s : State) (f : Fabric → Fabric) : (s.onFabric f).lamport = s.lamport := rfl
@[simp] theorem onFabric_arrays (s : State) (f : Fabric → Fabric) : (s.onFabric f).arrays = s.arrays := rfl
@[simp] theorem onFabric_wgs (s : State) (f : Fabric → Fabric) : (s.onFabric f).wgs = s.wgs := rfl
@[simp] theorem onFabric_ops (s : State) (f : Fabric → Fabric) : (s.onFabric f).ops = s.ops := rfl
@[simp] theorem onFabric_nextOp (s : State) (f : Fabric → Fabric) : (s.onFabric f).nextOp = s.nextOp := rfl
@[simp] theorem onFabric_copies (s : State) (f : Fabric → Fabric) : (s.onFabric f).copies = s.copies := rfl
@[simp] theorem onFabric_dtus (s : State) (f : Fabric → Fabric) : (s.onFabric f).dtus = s.dtus := rfl
@[simp] theorem onFabric_replicas (s : State) (f : Fabric → Fabric) : (s.onFabric f).replicas = s.replicas := rfl
@[simp] theorem onFabric_propagating (s : State) (f : Fabric → Fabric) : (s.onFabric f).propagating = s.propagating := rfl
@[simp] theorem onFabric_l2 (s : State) (f : Fabric → Fabric) : (s.onFabric f).l2 = s.l2 := rfl
@[simp] theorem onFabric_waiters (s : State) (f : Fabric → Fabric) : (s.onFabric f).waiters = s.waiters := rfl
@[simp] theorem onFabric_polls (s : State) (f : Fabric → Fabric) : (s.onFabric f).polls = s.polls := rfl
@[simp] theorem onFabric_stamps (s : State) (f : Fabric → Fabric) : (s.onFabric f).stamps = s.stamps := rfl
@[simp] theorem onFabric_fabric (s : State) (f : Fabric → Fabric) : (s.onFabric f).fabric = f s.fabric := rfl
@[simp] theorem onFabric_queues (s : State) (f : Fabric → Fabric) : (s.onFabric f).queues = s.queues := rfl
@[simp] theorem onFabric_tasks (s : State) (f : Fabric → Fabric) : (s.onFabric f).tasks = s.tasks := rfl
@[simp] theorem onFabric_posts (s : State) (f : Fabric → Fabric) : (s.onFabric f).posts = s.posts := rfl
@[simp] theorem onFabric_saved (s : State) (f : Fabric → Fabric) : (s.onFabric f).saved = s.saved := rfl
@[simp] theorem onFabric_nextOrder (s : State) (f : Fabric → Fabric) : (s.onFabric f).nextOrder = s.nextOrder := rfl
@[simp] theorem onFabric_lastQueue (s : State) (f : Fabric → Fabric) : (s.onFabric f).lastQueue = s.lastQueue := rfl
@[simp] theorem onFabric_calls (s : State) (f : Fabric → Fabric) : (s.onFabric f).calls = s.calls := rfl
@[simp] theorem onFabric_handles (s : State) (f : Fabric → Fabric) : (s.onFabric f).handles = s.handles := rfl
@[simp] theorem onFabric_batteries (s : State) (f : Fabric → Fabric) : (s.onFabric f).batteries = s.batteries := rfl
@[simp] theorem onFabric_switches (s : State) (f : Fabric → Fabric) : (s.onFabric f).switches = s.switches := rfl
@[simp] theorem onFabric_takeovers (s : State) (f : Fabric → Fabric) : (s.onFabric f).takeovers = s.takeovers := rfl
@[simp] theorem onFabric_beat (s : State) (f : Fabric → Fabric) : (s.onFabric f).beat = s.beat := rfl
@[simp] theorem onFabric_resetting (s : State) (f : Fabric → Fabric) : (s.onFabric f).resetting = s.resetting := rfl
@[simp] theorem onFabric_hosts (s : State) (f : Fabric → Fabric) : (s.onFabric f).hosts = s.hosts := rfl
@[simp] theorem onFabric_keys (s : State) (f : Fabric → Fabric) : (s.onFabric f).keys = s.keys := rfl
@[simp] theorem onFabric_channels (s : State) (f : Fabric → Fabric) : (s.onFabric f).channels = s.channels := rfl
@[simp] theorem onFabric_spares (s : State) (f : Fabric → Fabric) : (s.onFabric f).spares = s.spares := rfl
@[simp] theorem onFabric_rows (s : State) (f : Fabric → Fabric) : (s.onFabric f).rows = s.rows := rfl
@[simp] theorem onFabric_errors (s : State) (f : Fabric → Fabric) : (s.onFabric f).errors = s.errors := rfl
@[simp] theorem onFabric_spdm (s : State) (f : Fabric → Fabric) : (s.onFabric f).spdm = s.spdm := rfl
@[simp] theorem onFabric_identity (s : State) (f : Fabric → Fabric) : (s.onFabric f).identity = s.identity := rfl
@[simp] theorem onFabric_records (s : State) (f : Fabric → Fabric) : (s.onFabric f).records = s.records := rfl
@[simp] theorem onFabric_powered (s : State) (f : Fabric → Fabric) : (s.onFabric f).powered = s.powered := rfl

@[simp] theorem beginIssue_agenda (s : State) (k : Nat) (sd : Side) : (s.beginIssue k sd).agenda = s.agenda := rfl
@[simp] theorem beginIssue_curKey (s : State) (k : Nat) (sd : Side) : (s.beginIssue k sd).curKey = k := rfl
@[simp] theorem beginIssue_curSide (s : State) (k : Nat) (sd : Side) : (s.beginIssue k sd).curSide = sd := rfl
@[simp] theorem beginIssue_clk (s : State) (k : Nat) (sd : Side) : (s.beginIssue k sd).clk = s.clk := rfl
@[simp] theorem beginIssue_fclk (s : State) (k : Nat) (sd : Side) : (s.beginIssue k sd).fclk = s.fclk := rfl
@[simp] theorem beginIssue_wall (s : State) (k : Nat) (sd : Side) : (s.beginIssue k sd).wall = s.wall := rfl
@[simp] theorem beginIssue_draws (s : State) (k : Nat) (sd : Side) : (s.beginIssue k sd).draws = s.draws := rfl
@[simp] theorem beginIssue_mem (s : State) (k : Nat) (sd : Side) : (s.beginIssue k sd).mem = s.mem := rfl
@[simp] theorem beginIssue_pot (s : State) (k : Nat) (sd : Side) : (s.beginIssue k sd).pot = s.pot := rfl
@[simp] theorem beginIssue_hostOwned (s : State) (k : Nat) (sd : Side) : (s.beginIssue k sd).hostOwned = s.hostOwned := rfl
@[simp] theorem beginIssue_confs (s : State) (k : Nat) (sd : Side) : (s.beginIssue k sd).confs = s.confs := rfl
@[simp] theorem beginIssue_rootWritten (s : State) (k : Nat) (sd : Side) : (s.beginIssue k sd).rootWritten = s.rootWritten := rfl
@[simp] theorem beginIssue_written (s : State) (k : Nat) (sd : Side) : (s.beginIssue k sd).written = s.written := rfl
@[simp] theorem beginIssue_mmio (s : State) (k : Nat) (sd : Side) : (s.beginIssue k sd).mmio = s.mmio := rfl
@[simp] theorem beginIssue_disabled (s : State) (k : Nat) (sd : Side) : (s.beginIssue k sd).disabled = s.disabled := rfl
@[simp] theorem beginIssue_retiring (s : State) (k : Nat) (sd : Side) : (s.beginIssue k sd).retiring = s.retiring := rfl
@[simp] theorem beginIssue_warps (s : State) (k : Nat) (sd : Side) : (s.beginIssue k sd).warps = s.warps := rfl
@[simp] theorem beginIssue_quads (s : State) (k : Nat) (sd : Side) : (s.beginIssue k sd).quads = s.quads := rfl
@[simp] theorem beginIssue_coreTlb (s : State) (k : Nat) (sd : Side) : (s.beginIssue k sd).coreTlb = s.coreTlb := rfl
@[simp] theorem beginIssue_l1 (s : State) (k : Nat) (sd : Side) : (s.beginIssue k sd).l1 = s.l1 := rfl
@[simp] theorem beginIssue_ilines (s : State) (k : Nat) (sd : Side) : (s.beginIssue k sd).ilines = s.ilines := rfl
@[simp] theorem beginIssue_staging (s : State) (k : Nat) (sd : Side) : (s.beginIssue k sd).staging = s.staging := rfl
@[simp] theorem beginIssue_lamport (s : State) (k : Nat) (sd : Side) : (s.beginIssue k sd).lamport = s.lamport := rfl
@[simp] theorem beginIssue_arrays (s : State) (k : Nat) (sd : Side) : (s.beginIssue k sd).arrays = s.arrays := rfl
@[simp] theorem beginIssue_wgs (s : State) (k : Nat) (sd : Side) : (s.beginIssue k sd).wgs = s.wgs := rfl
@[simp] theorem beginIssue_ops (s : State) (k : Nat) (sd : Side) : (s.beginIssue k sd).ops = s.ops := rfl
@[simp] theorem beginIssue_nextOp (s : State) (k : Nat) (sd : Side) : (s.beginIssue k sd).nextOp = s.nextOp := rfl
@[simp] theorem beginIssue_copies (s : State) (k : Nat) (sd : Side) : (s.beginIssue k sd).copies = s.copies := rfl
@[simp] theorem beginIssue_dtus (s : State) (k : Nat) (sd : Side) : (s.beginIssue k sd).dtus = s.dtus := rfl
@[simp] theorem beginIssue_replicas (s : State) (k : Nat) (sd : Side) : (s.beginIssue k sd).replicas = s.replicas := rfl
@[simp] theorem beginIssue_propagating (s : State) (k : Nat) (sd : Side) : (s.beginIssue k sd).propagating = s.propagating := rfl
@[simp] theorem beginIssue_l2 (s : State) (k : Nat) (sd : Side) : (s.beginIssue k sd).l2 = s.l2 := rfl
@[simp] theorem beginIssue_waiters (s : State) (k : Nat) (sd : Side) : (s.beginIssue k sd).waiters = s.waiters := rfl
@[simp] theorem beginIssue_polls (s : State) (k : Nat) (sd : Side) : (s.beginIssue k sd).polls = s.polls := rfl
@[simp] theorem beginIssue_stamps (s : State) (k : Nat) (sd : Side) : (s.beginIssue k sd).stamps = s.stamps := rfl
@[simp] theorem beginIssue_fabric (s : State) (k : Nat) (sd : Side) : (s.beginIssue k sd).fabric = s.fabric := rfl
@[simp] theorem beginIssue_queues (s : State) (k : Nat) (sd : Side) : (s.beginIssue k sd).queues = s.queues := rfl
@[simp] theorem beginIssue_tasks (s : State) (k : Nat) (sd : Side) : (s.beginIssue k sd).tasks = s.tasks := rfl
@[simp] theorem beginIssue_posts (s : State) (k : Nat) (sd : Side) : (s.beginIssue k sd).posts = s.posts := rfl
@[simp] theorem beginIssue_saved (s : State) (k : Nat) (sd : Side) : (s.beginIssue k sd).saved = s.saved := rfl
@[simp] theorem beginIssue_nextOrder (s : State) (k : Nat) (sd : Side) : (s.beginIssue k sd).nextOrder = s.nextOrder := rfl
@[simp] theorem beginIssue_lastQueue (s : State) (k : Nat) (sd : Side) : (s.beginIssue k sd).lastQueue = s.lastQueue := rfl
@[simp] theorem beginIssue_calls (s : State) (k : Nat) (sd : Side) : (s.beginIssue k sd).calls = s.calls := rfl
@[simp] theorem beginIssue_handles (s : State) (k : Nat) (sd : Side) : (s.beginIssue k sd).handles = s.handles := rfl
@[simp] theorem beginIssue_batteries (s : State) (k : Nat) (sd : Side) : (s.beginIssue k sd).batteries = s.batteries := rfl
@[simp] theorem beginIssue_switches (s : State) (k : Nat) (sd : Side) : (s.beginIssue k sd).switches = s.switches := rfl
@[simp] theorem beginIssue_takeovers (s : State) (k : Nat) (sd : Side) : (s.beginIssue k sd).takeovers = s.takeovers := rfl
@[simp] theorem beginIssue_beat (s : State) (k : Nat) (sd : Side) : (s.beginIssue k sd).beat = s.beat := rfl
@[simp] theorem beginIssue_resetting (s : State) (k : Nat) (sd : Side) : (s.beginIssue k sd).resetting = s.resetting := rfl
@[simp] theorem beginIssue_hosts (s : State) (k : Nat) (sd : Side) : (s.beginIssue k sd).hosts = s.hosts := rfl
@[simp] theorem beginIssue_keys (s : State) (k : Nat) (sd : Side) : (s.beginIssue k sd).keys = s.keys := rfl
@[simp] theorem beginIssue_channels (s : State) (k : Nat) (sd : Side) : (s.beginIssue k sd).channels = s.channels := rfl
@[simp] theorem beginIssue_spares (s : State) (k : Nat) (sd : Side) : (s.beginIssue k sd).spares = s.spares := rfl
@[simp] theorem beginIssue_rows (s : State) (k : Nat) (sd : Side) : (s.beginIssue k sd).rows = s.rows := rfl
@[simp] theorem beginIssue_errors (s : State) (k : Nat) (sd : Side) : (s.beginIssue k sd).errors = s.errors := rfl
@[simp] theorem beginIssue_spdm (s : State) (k : Nat) (sd : Side) : (s.beginIssue k sd).spdm = s.spdm := rfl
@[simp] theorem beginIssue_identity (s : State) (k : Nat) (sd : Side) : (s.beginIssue k sd).identity = s.identity := rfl
@[simp] theorem beginIssue_records (s : State) (k : Nat) (sd : Side) : (s.beginIssue k sd).records = s.records := rfl
@[simp] theorem beginIssue_powered (s : State) (k : Nat) (sd : Side) : (s.beginIssue k sd).powered = s.powered := rfl

/-! What a warp or a workgroup reads as after an update. -/

@[simp] theorem setWarp_warp?_self (s : State) (k : Nat) (w : Warp) : (s.setWarp k w).warp? k = some w := Map.find?_insert_self ..
theorem setWarp_warp?_of_ne (s : State) {k j : Nat} (h : j ≠ k) (w : Warp) : (s.setWarp k w).warp? j = s.warp? j :=
  Map.find?_insert_of_ne h ..
@[simp] theorem setWarp_wg? (s : State) (k : Nat) (w : Warp) (g : Nat) : (s.setWarp k w).wg? g = s.wg? g := rfl
@[simp] theorem setWg_wg?_self (s : State) (g : Nat) (x : Workgroup) : (s.setWg g x).wg? g = some x := Map.find?_insert_self ..
theorem setWg_wg?_of_ne (s : State) {g j : Nat} (h : j ≠ g) (x : Workgroup) : (s.setWg g x).wg? j = s.wg? j := Map.find?_insert_of_ne h ..
theorem onWarp_warp?_self (s : State) (k : Nat) (f : Warp → Warp) : (s.onWarp k f).warp? k = (s.warp? k).map f := Map.find?_adjust_self ..
theorem onWarp_warp?_of_ne (s : State) {k j : Nat} (h : j ≠ k) (f : Warp → Warp) : (s.onWarp k f).warp? j = s.warp? j :=
  Map.find?_adjust_of_ne h ..
@[simp] theorem onWarp_wg? (s : State) (k : Nat) (f : Warp → Warp) (g : Nat) : (s.onWarp k f).wg? g = s.wg? g := rfl
@[simp] theorem onWg_warp? (s : State) (g : Nat) (f : Workgroup → Workgroup) (k : Nat) : (s.onWg g f).warp? k = s.warp? k := rfl
@[simp] theorem stopWg_warp? (s : State) (g : Nat) (st : Status) (k : Nat) : (s.stopWg g st).warp? k = s.warp? k := rfl
@[simp] theorem newOp_warp? (s : State) (o : MemOp) (k : Nat) : (s.newOp o).warp? k = s.warp? k := rfl
@[simp] theorem reg_setReg_self (s : State) (a v : Nat) : (s.setReg a v).reg a = v := Map.get_put_self ..
theorem reg_setReg_of_ne (s : State) {a b : Nat} (h : b ≠ a) (v : Nat) : (s.setReg a v).reg b = s.reg b := by
  simp [reg, Map.get_put_of_ne h]

/-- The memory after a reset is canonical. -/
theorem reset_mem_wf : State.reset.mem.wf := ⟨List.Pairwise.nil, fun _ h => nomatch h⟩

end Sys2Proof.Machine.State
end

