-- ==== Sys2Proof/Laws/Warp.lean ====
section
/-!
SUPPORT. What each update of a warp leaves in each of its fields, and what registers, predicates and slots read as after it.
-/

namespace Sys2Proof.Machine.Warp

@[simp] theorem setSlot_wg (w : Warp) (sd : Side) (x : Slot) : (w.setSlot sd x).wg = w.wg := by cases sd <;> rfl
@[simp] theorem setSlot_number (w : Warp) (sd : Side) (x : Slot) : (w.setSlot sd x).number = w.number := by cases sd <;> rfl
@[simp] theorem setSlot_depth (w : Warp) (sd : Side) (x : Slot) : (w.setSlot sd x).depth = w.depth := by cases sd <;> rfl
@[simp] theorem setSlot_v (w : Warp) (sd : Side) (x : Slot) : (w.setSlot sd x).v = w.v := by cases sd <;> rfl
@[simp] theorem setSlot_s (w : Warp) (sd : Side) (x : Slot) : (w.setSlot sd x).s = w.s := by cases sd <;> rfl
@[simp] theorem setSlot_p (w : Warp) (sd : Side) (x : Slot) : (w.setSlot sd x).p = w.p := by cases sd <;> rfl
@[simp] theorem setSlot_mode (w : Warp) (sd : Side) (x : Slot) : (w.setSlot sd x).mode = w.mode := by cases sd <;> rfl
@[simp] theorem setSlot_cstat (w : Warp) (sd : Side) (x : Slot) : (w.setSlot sd x).cstat = w.cstat := by cases sd <;> rfl
@[simp] theorem setSlot_trapPc (w : Warp) (sd : Side) (x : Slot) : (w.setSlot sd x).trapPc = w.trapPc := by cases sd <;> rfl
@[simp] theorem setSlot_trapCode (w : Warp) (sd : Side) (x : Slot) : (w.setSlot sd x).trapCode = w.trapCode := by cases sd <;> rfl
@[simp] theorem setSlot_trapInfo (w : Warp) (sd : Side) (x : Slot) : (w.setSlot sd x).trapInfo = w.trapInfo := by cases sd <;> rfl
@[simp] theorem setSlot_modq (w : Warp) (sd : Side) (x : Slot) : (w.setSlot sd x).modq = w.modq := by cases sd <;> rfl
@[simp] theorem setSlot_clkhi (w : Warp) (sd : Side) (x : Slot) : (w.setSlot sd x).clkhi = w.clkhi := by cases sd <;> rfl
@[simp] theorem setSlot_frame (w : Warp) (sd : Side) (x : Slot) : (w.setSlot sd x).frame = w.frame := by cases sd <;> rfl
@[simp] theorem setSlot_top (w : Warp) (sd : Side) (x : Slot) : (w.setSlot sd x).top = w.top := by cases sd <;> rfl
@[simp] theorem setSlot_topReq (w : Warp) (sd : Side) (x : Slot) : (w.setSlot sd x).topReq = w.topReq := by cases sd <;> rfl
@[simp] theorem setSlot_resolved (w : Warp) (sd : Side) (x : Slot) : (w.setSlot sd x).resolved = w.resolved := by cases sd <;> rfl
@[simp] theorem setSlot_entered (w : Warp) (sd : Side) (x : Slot) : (w.setSlot sd x).entered = w.entered := by cases sd <;> rfl
@[simp] theorem setSlot_token (w : Warp) (sd : Side) (x : Slot) : (w.setSlot sd x).token = w.token := by cases sd <;> rfl

@[simp] theorem setV_wg (w : Warp) (r l : Nat) (x : Word) : (w.setV r l x).wg = w.wg := rfl
@[simp] theorem setV_number (w : Warp) (r l : Nat) (x : Word) : (w.setV r l x).number = w.number := rfl
@[simp] theorem setV_home (w : Warp) (r l : Nat) (x : Word) : (w.setV r l x).home = w.home := rfl
@[simp] theorem setV_away (w : Warp) (r l : Nat) (x : Word) : (w.setV r l x).away = w.away := rfl
@[simp] theorem setV_depth (w : Warp) (r l : Nat) (x : Word) : (w.setV r l x).depth = w.depth := rfl
@[simp] theorem setV_s (w : Warp) (r l : Nat) (x : Word) : (w.setV r l x).s = w.s := rfl
@[simp] theorem setV_p (w : Warp) (r l : Nat) (x : Word) : (w.setV r l x).p = w.p := rfl
@[simp] theorem setV_mode (w : Warp) (r l : Nat) (x : Word) : (w.setV r l x).mode = w.mode := rfl
@[simp] theorem setV_cstat (w : Warp) (r l : Nat) (x : Word) : (w.setV r l x).cstat = w.cstat := rfl
@[simp] theorem setV_trapPc (w : Warp) (r l : Nat) (x : Word) : (w.setV r l x).trapPc = w.trapPc := rfl
@[simp] theorem setV_trapCode (w : Warp) (r l : Nat) (x : Word) : (w.setV r l x).trapCode = w.trapCode := rfl
@[simp] theorem setV_trapInfo (w : Warp) (r l : Nat) (x : Word) : (w.setV r l x).trapInfo = w.trapInfo := rfl
@[simp] theorem setV_modq (w : Warp) (r l : Nat) (x : Word) : (w.setV r l x).modq = w.modq := rfl
@[simp] theorem setV_clkhi (w : Warp) (r l : Nat) (x : Word) : (w.setV r l x).clkhi = w.clkhi := rfl
@[simp] theorem setV_frame (w : Warp) (r l : Nat) (x : Word) : (w.setV r l x).frame = w.frame := rfl
@[simp] theorem setV_top (w : Warp) (r l : Nat) (x : Word) : (w.setV r l x).top = w.top := rfl
@[simp] theorem setV_topReq (w : Warp) (r l : Nat) (x : Word) : (w.setV r l x).topReq = w.topReq := rfl
@[simp] theorem setV_resolved (w : Warp) (r l : Nat) (x : Word) : (w.setV r l x).resolved = w.resolved := rfl
@[simp] theorem setV_entered (w : Warp) (r l : Nat) (x : Word) : (w.setV r l x).entered = w.entered := rfl
@[simp] theorem setV_token (w : Warp) (r l : Nat) (x : Word) : (w.setV r l x).token = w.token := rfl

@[simp] theorem setS_wg (w : Warp) (r : Nat) (x : Word) : (w.setS r x).wg = w.wg := by unfold setS; split <;> rfl
@[simp] theorem setS_number (w : Warp) (r : Nat) (x : Word) : (w.setS r x).number = w.number := by unfold setS; split <;> rfl
@[simp] theorem setS_home (w : Warp) (r : Nat) (x : Word) : (w.setS r x).home = w.home := by unfold setS; split <;> rfl
@[simp] theorem setS_away (w : Warp) (r : Nat) (x : Word) : (w.setS r x).away = w.away := by unfold setS; split <;> rfl
@[simp] theorem setS_depth (w : Warp) (r : Nat) (x : Word) : (w.setS r x).depth = w.depth := by unfold setS; split <;> rfl
@[simp] theorem setS_v (w : Warp) (r : Nat) (x : Word) : (w.setS r x).v = w.v := by unfold setS; split <;> rfl
@[simp] theorem setS_p (w : Warp) (r : Nat) (x : Word) : (w.setS r x).p = w.p := by unfold setS; split <;> rfl
@[simp] theorem setS_mode (w : Warp) (r : Nat) (x : Word) : (w.setS r x).mode = w.mode := by unfold setS; split <;> rfl
@[simp] theorem setS_cstat (w : Warp) (r : Nat) (x : Word) : (w.setS r x).cstat = w.cstat := by unfold setS; split <;> rfl
@[simp] theorem setS_trapPc (w : Warp) (r : Nat) (x : Word) : (w.setS r x).trapPc = w.trapPc := by unfold setS; split <;> rfl
@[simp] theorem setS_trapCode (w : Warp) (r : Nat) (x : Word) : (w.setS r x).trapCode = w.trapCode := by unfold setS; split <;> rfl
@[simp] theorem setS_trapInfo (w : Warp) (r : Nat) (x : Word) : (w.setS r x).trapInfo = w.trapInfo := by unfold setS; split <;> rfl
@[simp] theorem setS_modq (w : Warp) (r : Nat) (x : Word) : (w.setS r x).modq = w.modq := by unfold setS; split <;> rfl
@[simp] theorem setS_clkhi (w : Warp) (r : Nat) (x : Word) : (w.setS r x).clkhi = w.clkhi := by unfold setS; split <;> rfl
@[simp] theorem setS_frame (w : Warp) (r : Nat) (x : Word) : (w.setS r x).frame = w.frame := by unfold setS; split <;> rfl
@[simp] theorem setS_top (w : Warp) (r : Nat) (x : Word) : (w.setS r x).top = w.top := by unfold setS; split <;> rfl
@[simp] theorem setS_topReq (w : Warp) (r : Nat) (x : Word) : (w.setS r x).topReq = w.topReq := by unfold setS; split <;> rfl
@[simp] theorem setS_resolved (w : Warp) (r : Nat) (x : Word) : (w.setS r x).resolved = w.resolved := by unfold setS; split <;> rfl
@[simp] theorem setS_entered (w : Warp) (r : Nat) (x : Word) : (w.setS r x).entered = w.entered := by unfold setS; split <;> rfl
@[simp] theorem setS_token (w : Warp) (r : Nat) (x : Word) : (w.setS r x).token = w.token := by unfold setS; split <;> rfl

@[simp] theorem setP_wg (w : Warp) (p : PReg) (x : Word) : (w.setP p x).wg = w.wg := by unfold setP; split <;> rfl
@[simp] theorem setP_number (w : Warp) (p : PReg) (x : Word) : (w.setP p x).number = w.number := by unfold setP; split <;> rfl
@[simp] theorem setP_home (w : Warp) (p : PReg) (x : Word) : (w.setP p x).home = w.home := by unfold setP; split <;> rfl
@[simp] theorem setP_away (w : Warp) (p : PReg) (x : Word) : (w.setP p x).away = w.away := by unfold setP; split <;> rfl
@[simp] theorem setP_depth (w : Warp) (p : PReg) (x : Word) : (w.setP p x).depth = w.depth := by unfold setP; split <;> rfl
@[simp] theorem setP_v (w : Warp) (p : PReg) (x : Word) : (w.setP p x).v = w.v := by unfold setP; split <;> rfl
@[simp] theorem setP_s (w : Warp) (p : PReg) (x : Word) : (w.setP p x).s = w.s := by unfold setP; split <;> rfl
@[simp] theorem setP_mode (w : Warp) (p : PReg) (x : Word) : (w.setP p x).mode = w.mode := by unfold setP; split <;> rfl
@[simp] theorem setP_cstat (w : Warp) (p : PReg) (x : Word) : (w.setP p x).cstat = w.cstat := by unfold setP; split <;> rfl
@[simp] theorem setP_trapPc (w : Warp) (p : PReg) (x : Word) : (w.setP p x).trapPc = w.trapPc := by unfold setP; split <;> rfl
@[simp] theorem setP_trapCode (w : Warp) (p : PReg) (x : Word) : (w.setP p x).trapCode = w.trapCode := by unfold setP; split <;> rfl
@[simp] theorem setP_trapInfo (w : Warp) (p : PReg) (x : Word) : (w.setP p x).trapInfo = w.trapInfo := by unfold setP; split <;> rfl
@[simp] theorem setP_modq (w : Warp) (p : PReg) (x : Word) : (w.setP p x).modq = w.modq := by unfold setP; split <;> rfl
@[simp] theorem setP_clkhi (w : Warp) (p : PReg) (x : Word) : (w.setP p x).clkhi = w.clkhi := by unfold setP; split <;> rfl
@[simp] theorem setP_frame (w : Warp) (p : PReg) (x : Word) : (w.setP p x).frame = w.frame := by unfold setP; split <;> rfl
@[simp] theorem setP_top (w : Warp) (p : PReg) (x : Word) : (w.setP p x).top = w.top := by unfold setP; split <;> rfl
@[simp] theorem setP_topReq (w : Warp) (p : PReg) (x : Word) : (w.setP p x).topReq = w.topReq := by unfold setP; split <;> rfl
@[simp] theorem setP_resolved (w : Warp) (p : PReg) (x : Word) : (w.setP p x).resolved = w.resolved := by unfold setP; split <;> rfl
@[simp] theorem setP_entered (w : Warp) (p : PReg) (x : Word) : (w.setP p x).entered = w.entered := by unfold setP; split <;> rfl
@[simp] theorem setP_token (w : Warp) (p : PReg) (x : Word) : (w.setP p x).token = w.token := by unfold setP; split <;> rfl

@[simp] theorem setSPair_wg (w : Warp) (r : Nat) (x : DWord) : (w.setSPair r x).wg = w.wg := by simp [setSPair]
@[simp] theorem setSPair_number (w : Warp) (r : Nat) (x : DWord) : (w.setSPair r x).number = w.number := by simp [setSPair]
@[simp] theorem setSPair_home (w : Warp) (r : Nat) (x : DWord) : (w.setSPair r x).home = w.home := by simp [setSPair]
@[simp] theorem setSPair_away (w : Warp) (r : Nat) (x : DWord) : (w.setSPair r x).away = w.away := by simp [setSPair]
@[simp] theorem setSPair_depth (w : Warp) (r : Nat) (x : DWord) : (w.setSPair r x).depth = w.depth := by simp [setSPair]
@[simp] theorem setSPair_v (w : Warp) (r : Nat) (x : DWord) : (w.setSPair r x).v = w.v := by simp [setSPair]
@[simp] theorem setSPair_p (w : Warp) (r : Nat) (x : DWord) : (w.setSPair r x).p = w.p := by simp [setSPair]
@[simp] theorem setSPair_mode (w : Warp) (r : Nat) (x : DWord) : (w.setSPair r x).mode = w.mode := by simp [setSPair]
@[simp] theorem setSPair_cstat (w : Warp) (r : Nat) (x : DWord) : (w.setSPair r x).cstat = w.cstat := by simp [setSPair]
@[simp] theorem setSPair_trapPc (w : Warp) (r : Nat) (x : DWord) : (w.setSPair r x).trapPc = w.trapPc := by simp [setSPair]
@[simp] theorem setSPair_trapCode (w : Warp) (r : Nat) (x : DWord) : (w.setSPair r x).trapCode = w.trapCode := by simp [setSPair]
@[simp] theorem setSPair_trapInfo (w : Warp) (r : Nat) (x : DWord) : (w.setSPair r x).trapInfo = w.trapInfo := by simp [setSPair]
@[simp] theorem setSPair_modq (w : Warp) (r : Nat) (x : DWord) : (w.setSPair r x).modq = w.modq := by simp [setSPair]
@[simp] theorem setSPair_clkhi (w : Warp) (r : Nat) (x : DWord) : (w.setSPair r x).clkhi = w.clkhi := by simp [setSPair]
@[simp] theorem setSPair_frame (w : Warp) (r : Nat) (x : DWord) : (w.setSPair r x).frame = w.frame := by simp [setSPair]
@[simp] theorem setSPair_top (w : Warp) (r : Nat) (x : DWord) : (w.setSPair r x).top = w.top := by simp [setSPair]
@[simp] theorem setSPair_topReq (w : Warp) (r : Nat) (x : DWord) : (w.setSPair r x).topReq = w.topReq := by simp [setSPair]
@[simp] theorem setSPair_resolved (w : Warp) (r : Nat) (x : DWord) : (w.setSPair r x).resolved = w.resolved := by simp [setSPair]
@[simp] theorem setSPair_entered (w : Warp) (r : Nat) (x : DWord) : (w.setSPair r x).entered = w.entered := by simp [setSPair]
@[simp] theorem setSPair_token (w : Warp) (r : Nat) (x : DWord) : (w.setSPair r x).token = w.token := by simp [setSPair]

@[simp] theorem raise_wg (w : Warp) (f : Flags) : (w.raise f).wg = w.wg := rfl
@[simp] theorem raise_number (w : Warp) (f : Flags) : (w.raise f).number = w.number := rfl
@[simp] theorem raise_home (w : Warp) (f : Flags) : (w.raise f).home = w.home := rfl
@[simp] theorem raise_away (w : Warp) (f : Flags) : (w.raise f).away = w.away := rfl
@[simp] theorem raise_depth (w : Warp) (f : Flags) : (w.raise f).depth = w.depth := rfl
@[simp] theorem raise_v (w : Warp) (f : Flags) : (w.raise f).v = w.v := rfl
@[simp] theorem raise_s (w : Warp) (f : Flags) : (w.raise f).s = w.s := rfl
@[simp] theorem raise_p (w : Warp) (f : Flags) : (w.raise f).p = w.p := rfl
@[simp] theorem raise_cstat (w : Warp) (f : Flags) : (w.raise f).cstat = w.cstat := rfl
@[simp] theorem raise_trapPc (w : Warp) (f : Flags) : (w.raise f).trapPc = w.trapPc := rfl
@[simp] theorem raise_trapCode (w : Warp) (f : Flags) : (w.raise f).trapCode = w.trapCode := rfl
@[simp] theorem raise_trapInfo (w : Warp) (f : Flags) : (w.raise f).trapInfo = w.trapInfo := rfl
@[simp] theorem raise_modq (w : Warp) (f : Flags) : (w.raise f).modq = w.modq := rfl
@[simp] theorem raise_clkhi (w : Warp) (f : Flags) : (w.raise f).clkhi = w.clkhi := rfl
@[simp] theorem raise_frame (w : Warp) (f : Flags) : (w.raise f).frame = w.frame := rfl
@[simp] theorem raise_top (w : Warp) (f : Flags) : (w.raise f).top = w.top := rfl
@[simp] theorem raise_topReq (w : Warp) (f : Flags) : (w.raise f).topReq = w.topReq := rfl
@[simp] theorem raise_resolved (w : Warp) (f : Flags) : (w.raise f).resolved = w.resolved := rfl
@[simp] theorem raise_entered (w : Warp) (f : Flags) : (w.raise f).entered = w.entered := rfl
@[simp] theorem raise_token (w : Warp) (f : Flags) : (w.raise f).token = w.token := rfl

@[simp] theorem advance_wg (w : Warp) (sd : Side) : (w.advance sd).wg = w.wg := by simp [advance]
@[simp] theorem advance_number (w : Warp) (sd : Side) : (w.advance sd).number = w.number := by simp [advance]
@[simp] theorem advance_depth (w : Warp) (sd : Side) : (w.advance sd).depth = w.depth := by simp [advance]
@[simp] theorem advance_v (w : Warp) (sd : Side) : (w.advance sd).v = w.v := by simp [advance]
@[simp] theorem advance_s (w : Warp) (sd : Side) : (w.advance sd).s = w.s := by simp [advance]
@[simp] theorem advance_p (w : Warp) (sd : Side) : (w.advance sd).p = w.p := by simp [advance]
@[simp] theorem advance_mode (w : Warp) (sd : Side) : (w.advance sd).mode = w.mode := by simp [advance]
@[simp] theorem advance_cstat (w : Warp) (sd : Side) : (w.advance sd).cstat = w.cstat := by simp [advance]
@[simp] theorem advance_trapPc (w : Warp) (sd : Side) : (w.advance sd).trapPc = w.trapPc := by simp [advance]
@[simp] theorem advance_trapCode (w : Warp) (sd : Side) : (w.advance sd).trapCode = w.trapCode := by simp [advance]
@[simp] theorem advance_trapInfo (w : Warp) (sd : Side) : (w.advance sd).trapInfo = w.trapInfo := by simp [advance]
@[simp] theorem advance_modq (w : Warp) (sd : Side) : (w.advance sd).modq = w.modq := by simp [advance]
@[simp] theorem advance_clkhi (w : Warp) (sd : Side) : (w.advance sd).clkhi = w.clkhi := by simp [advance]
@[simp] theorem advance_frame (w : Warp) (sd : Side) : (w.advance sd).frame = w.frame := by simp [advance]
@[simp] theorem advance_top (w : Warp) (sd : Side) : (w.advance sd).top = w.top := by simp [advance]
@[simp] theorem advance_topReq (w : Warp) (sd : Side) : (w.advance sd).topReq = w.topReq := by simp [advance]
@[simp] theorem advance_resolved (w : Warp) (sd : Side) : (w.advance sd).resolved = w.resolved := by simp [advance]
@[simp] theorem advance_entered (w : Warp) (sd : Side) : (w.advance sd).entered = w.entered := by simp [advance]
@[simp] theorem advance_token (w : Warp) (sd : Side) : (w.advance sd).token = w.token := by simp [advance]

@[simp] theorem goto_wg (w : Warp) (sd : Side) (pc : DWord) : (w.goto sd pc).wg = w.wg := by simp [goto]
@[simp] theorem goto_number (w : Warp) (sd : Side) (pc : DWord) : (w.goto sd pc).number = w.number := by simp [goto]
@[simp] theorem goto_depth (w : Warp) (sd : Side) (pc : DWord) : (w.goto sd pc).depth = w.depth := by simp [goto]
@[simp] theorem goto_v (w : Warp) (sd : Side) (pc : DWord) : (w.goto sd pc).v = w.v := by simp [goto]
@[simp] theorem goto_s (w : Warp) (sd : Side) (pc : DWord) : (w.goto sd pc).s = w.s := by simp [goto]
@[simp] theorem goto_p (w : Warp) (sd : Side) (pc : DWord) : (w.goto sd pc).p = w.p := by simp [goto]
@[simp] theorem goto_mode (w : Warp) (sd : Side) (pc : DWord) : (w.goto sd pc).mode = w.mode := by simp [goto]
@[simp] theorem goto_cstat (w : Warp) (sd : Side) (pc : DWord) : (w.goto sd pc).cstat = w.cstat := by simp [goto]
@[simp] theorem goto_trapPc (w : Warp) (sd : Side) (pc : DWord) : (w.goto sd pc).trapPc = w.trapPc := by simp [goto]
@[simp] theorem goto_trapCode (w : Warp) (sd : Side) (pc : DWord) : (w.goto sd pc).trapCode = w.trapCode := by simp [goto]
@[simp] theorem goto_trapInfo (w : Warp) (sd : Side) (pc : DWord) : (w.goto sd pc).trapInfo = w.trapInfo := by simp [goto]
@[simp] theorem goto_modq (w : Warp) (sd : Side) (pc : DWord) : (w.goto sd pc).modq = w.modq := by simp [goto]
@[simp] theorem goto_clkhi (w : Warp) (sd : Side) (pc : DWord) : (w.goto sd pc).clkhi = w.clkhi := by simp [goto]
@[simp] theorem goto_frame (w : Warp) (sd : Side) (pc : DWord) : (w.goto sd pc).frame = w.frame := by simp [goto]
@[simp] theorem goto_top (w : Warp) (sd : Side) (pc : DWord) : (w.goto sd pc).top = w.top := by simp [goto]
@[simp] theorem goto_topReq (w : Warp) (sd : Side) (pc : DWord) : (w.goto sd pc).topReq = w.topReq := by simp [goto]
@[simp] theorem goto_resolved (w : Warp) (sd : Side) (pc : DWord) : (w.goto sd pc).resolved = w.resolved := by simp [goto]
@[simp] theorem goto_entered (w : Warp) (sd : Side) (pc : DWord) : (w.goto sd pc).entered = w.entered := by simp [goto]
@[simp] theorem goto_token (w : Warp) (sd : Side) (pc : DWord) : (w.goto sd pc).token = w.token := by simp [goto]

@[simp] theorem record_wg (w : Warp) (pc : DWord) (t : Trap) : (w.record pc t).wg = w.wg := rfl
@[simp] theorem record_number (w : Warp) (pc : DWord) (t : Trap) : (w.record pc t).number = w.number := rfl
@[simp] theorem record_home (w : Warp) (pc : DWord) (t : Trap) : (w.record pc t).home = w.home := rfl
@[simp] theorem record_away (w : Warp) (pc : DWord) (t : Trap) : (w.record pc t).away = w.away := rfl
@[simp] theorem record_depth (w : Warp) (pc : DWord) (t : Trap) : (w.record pc t).depth = w.depth := rfl
@[simp] theorem record_v (w : Warp) (pc : DWord) (t : Trap) : (w.record pc t).v = w.v := rfl
@[simp] theorem record_s (w : Warp) (pc : DWord) (t : Trap) : (w.record pc t).s = w.s := rfl
@[simp] theorem record_p (w : Warp) (pc : DWord) (t : Trap) : (w.record pc t).p = w.p := rfl
@[simp] theorem record_mode (w : Warp) (pc : DWord) (t : Trap) : (w.record pc t).mode = w.mode := rfl
@[simp] theorem record_cstat (w : Warp) (pc : DWord) (t : Trap) : (w.record pc t).cstat = w.cstat := rfl
@[simp] theorem record_modq (w : Warp) (pc : DWord) (t : Trap) : (w.record pc t).modq = w.modq := rfl
@[simp] theorem record_clkhi (w : Warp) (pc : DWord) (t : Trap) : (w.record pc t).clkhi = w.clkhi := rfl
@[simp] theorem record_frame (w : Warp) (pc : DWord) (t : Trap) : (w.record pc t).frame = w.frame := rfl
@[simp] theorem record_top (w : Warp) (pc : DWord) (t : Trap) : (w.record pc t).top = w.top := rfl
@[simp] theorem record_topReq (w : Warp) (pc : DWord) (t : Trap) : (w.record pc t).topReq = w.topReq := rfl
@[simp] theorem record_resolved (w : Warp) (pc : DWord) (t : Trap) : (w.record pc t).resolved = w.resolved := rfl
@[simp] theorem record_entered (w : Warp) (pc : DWord) (t : Trap) : (w.record pc t).entered = w.entered := rfl
@[simp] theorem record_token (w : Warp) (pc : DWord) (t : Trap) : (w.record pc t).token = w.token := rfl

@[simp] theorem enter_wg (w : Warp) (h : DWord) (sd : Side) : (w.enter h sd).wg = w.wg := rfl
@[simp] theorem enter_number (w : Warp) (h : DWord) (sd : Side) : (w.enter h sd).number = w.number := rfl
@[simp] theorem enter_depth (w : Warp) (h : DWord) (sd : Side) : (w.enter h sd).depth = w.depth := rfl
@[simp] theorem enter_v (w : Warp) (h : DWord) (sd : Side) : (w.enter h sd).v = w.v := rfl
@[simp] theorem enter_s (w : Warp) (h : DWord) (sd : Side) : (w.enter h sd).s = w.s := rfl
@[simp] theorem enter_p (w : Warp) (h : DWord) (sd : Side) : (w.enter h sd).p = w.p := rfl
@[simp] theorem enter_mode (w : Warp) (h : DWord) (sd : Side) : (w.enter h sd).mode = w.mode := rfl
@[simp] theorem enter_cstat (w : Warp) (h : DWord) (sd : Side) : (w.enter h sd).cstat = w.cstat := rfl
@[simp] theorem enter_trapPc (w : Warp) (h : DWord) (sd : Side) : (w.enter h sd).trapPc = w.trapPc := rfl
@[simp] theorem enter_trapCode (w : Warp) (h : DWord) (sd : Side) : (w.enter h sd).trapCode = w.trapCode := rfl
@[simp] theorem enter_trapInfo (w : Warp) (h : DWord) (sd : Side) : (w.enter h sd).trapInfo = w.trapInfo := rfl
@[simp] theorem enter_modq (w : Warp) (h : DWord) (sd : Side) : (w.enter h sd).modq = w.modq := rfl
@[simp] theorem enter_clkhi (w : Warp) (h : DWord) (sd : Side) : (w.enter h sd).clkhi = w.clkhi := rfl
@[simp] theorem enter_token (w : Warp) (h : DWord) (sd : Side) : (w.enter h sd).token = w.token := rfl
@[simp] theorem enter_entered (w : Warp) (h : DWord) (sd : Side) : (w.enter h sd).entered = true := rfl

/-! Registers, predicates and slots. -/

@[simp] theorem slot_setSlot_self (w : Warp) (sd : Side) (x : Slot) : (w.setSlot sd x).slot sd = x := by cases sd <;> rfl
@[simp] theorem slot_setSlot_other (w : Warp) (sd : Side) (x : Slot) : (w.setSlot sd x).slot sd.other = w.slot sd.other := by cases sd <;> rfl
@[simp] theorem slot_setSlot_of_other (w : Warp) (sd : Side) (x : Slot) : (w.setSlot sd.other x).slot sd = w.slot sd := by cases sd <;> rfl
@[simp] theorem setSlot_setSlot (w : Warp) (sd : Side) (x y : Slot) : (w.setSlot sd x).setSlot sd y = w.setSlot sd y := by cases sd <;> rfl

@[simp] theorem slot_advance_self (w : Warp) (sd : Side) : (w.advance sd).slot sd = { w.slot sd with pc := (w.slot sd).pc + 4 } := by
  simp [advance]
@[simp] theorem slot_advance_other (w : Warp) (sd : Side) : (w.advance sd).slot sd.other = w.slot sd.other := by simp [advance]
@[simp] theorem slot_goto_self (w : Warp) (sd : Side) (pc : DWord) : (w.goto sd pc).slot sd = { w.slot sd with pc := pc } := by
  simp [goto]
@[simp] theorem slot_goto_other (w : Warp) (sd : Side) (pc : DWord) : (w.goto sd pc).slot sd.other = w.slot sd.other := by simp [goto]

@[simp] theorem slot_setV (w : Warp) (r l : Nat) (x : Word) (sd : Side) : (w.setV r l x).slot sd = w.slot sd := by cases sd <;> rfl
@[simp] theorem slot_setS (w : Warp) (r : Nat) (x : Word) (sd : Side) : (w.setS r x).slot sd = w.slot sd := by
  cases sd <;> simp [slot]
@[simp] theorem slot_setP (w : Warp) (p : PReg) (x : Word) (sd : Side) : (w.setP p x).slot sd = w.slot sd := by
  cases sd <;> simp [slot]
@[simp] theorem slot_setSPair (w : Warp) (r : Nat) (x : DWord) (sd : Side) : (w.setSPair r x).slot sd = w.slot sd := by simp [setSPair]
@[simp] theorem slot_raise (w : Warp) (f : Flags) (sd : Side) : (w.raise f).slot sd = w.slot sd := by cases sd <;> rfl

theorem vreg_setV_self (w : Warp) (r l : Nat) (x : Word) : (w.setV r l x).vreg r l = x := Map.get_put_self ..
theorem vreg_setV_of_ne (w : Warp) {r l r' l' : Nat} (hl : l < 32) (hl' : l' < 32) (h : ¬(r' = r ∧ l' = l)) (x : Word) :
    (w.setV r l x).vreg r' l' = w.vreg r' l' := Map.get_put_of_ne (by omega) ..
@[simp] theorem vreg_setS (w : Warp) (r : Nat) (x : Word) (r' l : Nat) : (w.setS r x).vreg r' l = w.vreg r' l := by simp [vreg]
@[simp] theorem vreg_setP (w : Warp) (p : PReg) (x : Word) (r' l : Nat) : (w.setP p x).vreg r' l = w.vreg r' l := by simp [vreg]
@[simp] theorem vreg_setSlot (w : Warp) (sd : Side) (x : Slot) (r' l : Nat) : (w.setSlot sd x).vreg r' l = w.vreg r' l := by simp [vreg]
@[simp] theorem vreg_advance (w : Warp) (sd : Side) (r' l : Nat) : (w.advance sd).vreg r' l = w.vreg r' l := by simp [vreg]
@[simp] theorem vreg_raise (w : Warp) (f : Flags) (r' l : Nat) : (w.raise f).vreg r' l = w.vreg r' l := rfl

/-- S0 reads zero, whatever is written to it (R247). -/
@[simp] theorem sreg_zero (w : Warp) : w.sreg 0 = 0 := rfl
@[simp] theorem setS_zero (w : Warp) (x : Word) : w.setS 0 x = w := rfl
theorem sreg_setS_self (w : Warp) {r : Nat} (h : r ≠ 0) (x : Word) : (w.setS r x).sreg r = x := by simp [sreg, setS, h]
theorem sreg_setS_of_ne (w : Warp) {r r' : Nat} (h : r' ≠ r) (x : Word) : (w.setS r x).sreg r' = w.sreg r' := by
  unfold setS; split
  · rfl
  · simp [sreg, Map.get_put_of_ne h]
@[simp] theorem sreg_setV (w : Warp) (r l : Nat) (x : Word) (r' : Nat) : (w.setV r l x).sreg r' = w.sreg r' := rfl
@[simp] theorem sreg_setP (w : Warp) (p : PReg) (x : Word) (r' : Nat) : (w.setP p x).sreg r' = w.sreg r' := by simp [sreg]
@[simp] theorem sreg_setSlot (w : Warp) (sd : Side) (x : Slot) (r' : Nat) : (w.setSlot sd x).sreg r' = w.sreg r' := by simp [sreg]
@[simp] theorem sreg_advance (w : Warp) (sd : Side) (r' : Nat) : (w.advance sd).sreg r' = w.sreg r' := by simp [sreg]
@[simp] theorem sreg_raise (w : Warp) (f : Flags) (r' : Nat) : (w.raise f).sreg r' = w.sreg r' := rfl

/-- P7 reads true in every lane, whatever is written to it (R247). -/
@[simp] theorem preg_seven (w : Warp) : w.preg 7 = 0xFFFFFFFF := rfl
@[simp] theorem setP_seven (w : Warp) (x : Word) : w.setP 7 x = w := rfl
theorem preg_setP_self (w : Warp) {p : PReg} (h : p ≠ 7) (x : Word) : (w.setP p x).preg p = x := by
  rw [preg, if_neg h, setP, if_neg h]; exact Map.get_put_self ..
theorem preg_setP_of_ne (w : Warp) {p q : PReg} (h : q ≠ p) (x : Word) : (w.setP p x).preg q = w.preg q := by
  unfold setP; split
  · rfl
  · simp only [preg]; split
    · rfl
    · exact Map.get_put_of_ne (fun e => h (BitVec.eq_of_toNat_eq e)) ..
@[simp] theorem preg_setV (w : Warp) (r l : Nat) (x : Word) (q : PReg) : (w.setV r l x).preg q = w.preg q := rfl
@[simp] theorem preg_setS (w : Warp) (r : Nat) (x : Word) (q : PReg) : (w.setS r x).preg q = w.preg q := by simp [preg]
@[simp] theorem preg_setSlot (w : Warp) (sd : Side) (x : Slot) (q : PReg) : (w.setSlot sd x).preg q = w.preg q := by simp [preg]
@[simp] theorem preg_advance (w : Warp) (sd : Side) (q : PReg) : (w.advance sd).preg q = w.preg q := by simp [preg]
@[simp] theorem preg_raise (w : Warp) (f : Flags) (q : PReg) : (w.raise f).preg q = w.preg q := rfl

end Sys2Proof.Machine.Warp
end

