-- ==== Sys2Proof/Laws/Ops.lean ====
section
/-!
SUPPORT. What the shared operations do: the shapes that instructions run in, taking a trap, and lane results.
-/

namespace Sys2Proof.Machine

section shapes
variable {f : Local} {i : Instr} {s t : State} {w w' : Warp} {e : Trap}

theorem runLocal_ok (h : s.runs w) (hf : f (lctx s w s.curSide i) w = .ok w') :
    runLocal f i s = .next (s.setWarp s.curKey (w'.advance s.curSide)) := by simp only [runLocal, h, hf]

theorem runLocal_trap (h : s.runs w) (hf : f (lctx s w s.curSide i) w = .error e) :
    runLocal f i s = .next (trapEntry s s.curKey s.curSide e) := by simp only [runLocal, h, hf]

/-- Everything a local instruction can do. -/
theorem runLocal_cases (h : runLocal f i s = .next t) :
    (s.warp? s.curKey = none ∧ t = s) ∨
    ∃ w, s.runs w ∧ ((∃ w', f (lctx s w s.curSide i) w = .ok w' ∧ t = s.setWarp s.curKey (w'.advance s.curSide)) ∨
      ∃ e, f (lctx s w s.curSide i) w = .error e ∧ t = trapEntry s s.curKey s.curSide e) := by
  unfold runLocal at h
  split at h
  · exact .inl ⟨‹_›, (Host.Outcome.next.inj h).symm⟩
  · rename_i w hw
    split at h
    · exact .inr ⟨w, hw, .inl ⟨_, ‹_›, (Host.Outcome.next.inj h).symm⟩⟩
    · exact .inr ⟨w, hw, .inr ⟨_, ‹_›, (Host.Outcome.next.inj h).symm⟩⟩

theorem runLocal_next (f : Local) (i : Instr) (s : State) : ∃ t, runLocal f i s = .next t := by
  unfold runLocal; split
  · exact ⟨_, rfl⟩
  · split <;> exact ⟨_, rfl⟩

theorem runControl_ok (h : s.runs w) (hf : f (lctx s w s.curSide i) w = .ok w') : runControl f i s = .next (s.setWarp s.curKey w') := by
  simp only [runControl, h, hf]

theorem runControl_trap (h : s.runs w) (hf : f (lctx s w s.curSide i) w = .error e) :
    runControl f i s = .next (trapEntry s s.curKey s.curSide e) := by simp only [runControl, h, hf]

/-- Everything a control instruction can do. -/
theorem runControl_cases (h : runControl f i s = .next t) :
    (s.warp? s.curKey = none ∧ t = s) ∨
    ∃ w, s.runs w ∧ ((∃ w', f (lctx s w s.curSide i) w = .ok w' ∧ t = s.setWarp s.curKey w') ∨
      ∃ e, f (lctx s w s.curSide i) w = .error e ∧ t = trapEntry s s.curKey s.curSide e) := by
  unfold runControl at h
  split at h
  · exact .inl ⟨‹_›, (Host.Outcome.next.inj h).symm⟩
  · rename_i w hw
    split at h
    · exact .inr ⟨w, hw, .inl ⟨_, ‹_›, (Host.Outcome.next.inj h).symm⟩⟩
    · exact .inr ⟨w, hw, .inr ⟨_, ‹_›, (Host.Outcome.next.inj h).symm⟩⟩

theorem runControl_next (f : Local) (i : Instr) (s : State) : ∃ t, runControl f i s = .next t := by
  unfold runControl; split
  · exact ⟨_, rfl⟩
  · split <;> exact ⟨_, rfl⟩

variable {plan : LCtx → Nat → Warp → Except Trap Plan} {hold : Warp → Warp} {p : Plan}

theorem runMemHold_ok (h : s.runs w) (hp : plan (lctx s w s.curSide i) (s.cardOf w).scrSize w = .ok p) (hr : p.reqs ≠ []) :
    runMemHold plan hold i s =
      .next ((s.setWarp s.curKey (hold (w.advance s.curSide))).issue s.curKey s.curSide w p (fnOf i)) := by
  simp only [runMemHold, h, hp]
  rw [if_neg]
  cases hq : p.reqs <;> simp_all

theorem runMemHold_empty (h : s.runs w) (hp : plan (lctx s w s.curSide i) (s.cardOf w).scrSize w = .ok p) (hr : p.reqs = []) :
    runMemHold plan hold i s =
      .next ((s.setWarp s.curKey (w.advance s.curSide)).sendNothing s.curKey s.curSide w p (fnOf i)) := by
  simp only [runMemHold, h, hp, hr]; rfl

theorem runMemHold_trap (h : s.runs w) (hp : plan (lctx s w s.curSide i) (s.cardOf w).scrSize w = .error e) :
    runMemHold plan hold i s = .next (trapEntry s s.curKey s.curSide e) := by simp only [runMemHold, h, hp]

theorem runMemHold_next (plan : LCtx → Nat → Warp → Except Trap Plan) (hold : Warp → Warp) (i : Instr) (s : State) :
    ∃ t, runMemHold plan hold i s = .next t := by
  unfold runMemHold; split
  · exact ⟨_, rfl⟩
  · split <;> exact ⟨_, rfl⟩

theorem runMem_next (plan : LCtx → Nat → Warp → Except Trap Plan) (i : Instr) (s : State) : ∃ t, runMem plan i s = .next t :=
  runMemHold_next plan _ i s

/-- Everything a memory instruction can do. -/
theorem runMemHold_cases (h : runMemHold plan hold i s = .next t) :
    (s.warp? s.curKey = none ∧ t = s) ∨
    ∃ w, s.runs w ∧ ((∃ p, plan (lctx s w s.curSide i) (s.cardOf w).scrSize w = .ok p ∧
        ((p.reqs = [] ∧ t = (s.setWarp s.curKey (w.advance s.curSide)).sendNothing s.curKey s.curSide w p (fnOf i)) ∨
          (p.reqs ≠ [] ∧ t = (s.setWarp s.curKey (hold (w.advance s.curSide))).issue s.curKey s.curSide w p (fnOf i)))) ∨
      ∃ e, plan (lctx s w s.curSide i) (s.cardOf w).scrSize w = .error e ∧ t = trapEntry s s.curKey s.curSide e) := by
  cases hw : s.warp? s.curKey with
  | none => rw [runMemHold, hw] at h; exact .inl ⟨rfl, (Host.Outcome.next.inj h).symm⟩
  | some w =>
    refine .inr ⟨w, hw, ?_⟩
    cases hp : plan (lctx s w s.curSide i) (s.cardOf w).scrSize w with
    | error e => rw [runMemHold_trap hw hp] at h; exact .inr ⟨e, rfl, (Host.Outcome.next.inj h).symm⟩
    | ok p =>
      refine .inl ⟨p, rfl, ?_⟩
      by_cases hr : p.reqs = []
      · rw [runMemHold_empty hw hp hr] at h; exact .inl ⟨hr, (Host.Outcome.next.inj h).symm⟩
      · rw [runMemHold_ok hw hp hr] at h; exact .inr ⟨hr, (Host.Outcome.next.inj h).symm⟩

/-- What an instruction with no participating lane does: a counter instruction leaves CSTAT OK at once, or stands behind the warp's
counter instructions; any other nothing. -/
theorem sendNothing_cases (s : State) (k : Nat) (sd : Side) (w : Warp) (p : Plan) (n : Nat) :
    s.sendNothing k sd w p n = s ∨ s.sendNothing k sd w p n = s.issue k sd w p n ∨
      s.sendNothing k sd w p n = s.onWarp k fun w => { w with cstat := 0 } := by
  unfold State.sendNothing; split
  · exact .inl rfl
  · split
    · exact .inr (.inl rfl)
    · exact .inr (.inr rfl)

end shapes

/-! An issued operation. -/

@[simp] theorem issue_warps (s : State) (k : Nat) (sd : Side) (w : Warp) (p : Plan) (n : Nat) : (s.issue k sd w p n).warps = s.warps := by
  unfold State.issue; cases p.sc <;> cases p.idle <;> rfl
@[simp] theorem issue_mem (s : State) (k : Nat) (sd : Side) (w : Warp) (p : Plan) (n : Nat) : (s.issue k sd w p n).mem = s.mem := by
  unfold State.issue; cases p.sc <;> cases p.idle <;> rfl
@[simp] theorem issue_nextOp (s : State) (k : Nat) (sd : Side) (w : Warp) (p : Plan) (n : Nat) :
    (s.issue k sd w p n).nextOp = s.nextOp + 1 := by
  unfold State.issue; cases p.sc <;> cases p.idle <;> rfl
/-- It changes the table of operations and, for an `.sc` operation, the core's timestamp, and nothing else. -/
theorem issue_rest (s : State) (k : Nat) (sd : Side) (w : Warp) (p : Plan) (n : Nat) :
    { s.issue k sd w p n with ops := s.ops, nextOp := s.nextOp, lamport := s.lamport } = s := by
  unfold State.issue; cases p.sc <;> cases p.idle <;> rfl

/-! Taking a trap (R391, R392). -/

theorem trapEntry_enter {s : State} {k : Nat} {w : Warp} {sd : Side} {t : Trap} (h : s.warp? k = some w) (h0 : (s.cardOf w).handler ≠ 0)
    (h4 : (s.cardOf w).handler.toNat % 4 = 0) (hf : w.frame = none) :
    trapEntry s k sd t = s.setWarp k ((w.record (w.slot sd).pc t).enter (s.cardOf w).handler sd) := by
  simp [trapEntry, h, h4, Warp.inHandler, hf]
  intro h; exact absurd h h0

theorem trapEntry_stop {s : State} {k : Nat} {w : Warp} {sd : Side} {t : Trap} (h : s.warp? k = some w)
    (h0 : (s.cardOf w).handler = 0 ∨ w.inHandler = true) :
    trapEntry s k sd t = (s.setWarp k (w.record (w.slot sd).pc t)).stopWg w.wg (.trap t.code.code) := by
  rcases h0 with h0 | h0 <;> simp [trapEntry, h, h0]

/-- Of the state, a trap changes only its warp and the workgroup that it ends. -/
theorem trapEntry_rest (s : State) (k : Nat) (sd : Side) (t : Trap) :
    { trapEntry s k sd t with warps := s.warps, wgs := s.wgs } = s := by
  unfold trapEntry; split
  · rfl
  · simp only; split
    · rfl
    · split <;> rfl

/-! Lane results (R303). -/

theorem mem_lanes {m : Word} {l : Nat} : l ∈ lanes m ↔ l < 32 ∧ m.getLsbD l = true := by simp [lanes]
theorem lanes_lt {m : Word} {l : Nat} (h : l ∈ lanes m) : l < 32 := (mem_lanes.1 h).1
theorem nodup_lanes (m : Word) : (lanes m).Nodup := List.Nodup.sublist List.filter_sublist List.nodup_range

theorem wrLanes_nil (w : Warp) (pair : Bool) (r : Reg) : wrLanes w pair r [] = w := rfl
theorem wrLanes_cons (w : Warp) (pair : Bool) (r : Reg) (p : Nat × Nat) (res : List (Nat × Nat)) :
    wrLanes w pair r (p :: res) = wrLanes (wrV w pair r p.1 p.2) pair r res := rfl

/-- Of the warp, lane results change only V registers. -/
theorem wrV_rest (w : Warp) (pair : Bool) (r : Reg) (l n : Nat) : { wrV w pair r l n with v := w.v } = w := by
  unfold wrV; split <;> rfl
theorem wrLanes_rest (w : Warp) (pair : Bool) (r : Reg) (res : List (Nat × Nat)) : { wrLanes w pair r res with v := w.v } = w := by
  induction res generalizing w with
  | nil => rfl
  | cons p res ih =>
    have h := ih (wrV w pair r p.1 p.2)
    rw [wrLanes_cons]
    calc { wrLanes (wrV w pair r p.1 p.2) pair r res with v := w.v }
        = { ({ wrLanes (wrV w pair r p.1 p.2) pair r res with v := (wrV w pair r p.1 p.2).v } : Warp) with v := w.v } := rfl
      _ = { wrV w pair r p.1 p.2 with v := w.v } := by rw [h]
      _ = w := wrV_rest ..

theorem vreg_wrV_of_not (w : Warp) (pair : Bool) {r : Reg} {l n r' l' : Nat} (hl : l < 32) (hl' : l' < 32)
    (h : ¬(r.toNat ≤ r' ∧ r' < r.toNat + (if pair then 2 else 1) ∧ l' = l)) : (wrV w pair r l n).vreg r' l' = w.vreg r' l' := by
  unfold wrV; split
  · rw [if_pos ‹_›] at h
    rw [Warp.setVPair, Warp.vreg_setV_of_ne _ hl hl' (by omega), Warp.vreg_setV_of_ne _ hl hl' (by omega)]
  · rw [if_neg ‹_›] at h
    rw [Warp.vreg_setV_of_ne _ hl hl' (by omega)]

/-- A register or a lane that no result names keeps its value. -/
theorem vreg_wrLanes_of_not (w : Warp) (pair : Bool) {r : Reg} {res : List (Nat × Nat)} {r' l' : Nat} (hres : ∀ p ∈ res, p.1 < 32)
    (hl' : l' < 32) (h : ¬(r.toNat ≤ r' ∧ r' < r.toNat + (if pair then 2 else 1) ∧ l' ∈ res.map Prod.fst)) :
    (wrLanes w pair r res).vreg r' l' = w.vreg r' l' := by
  induction res generalizing w with
  | nil => rfl
  | cons p res ih =>
    rw [wrLanes_cons, ih _ (fun q hq => hres q (List.mem_cons_of_mem _ hq)), vreg_wrV_of_not _ _ (hres p List.mem_cons_self) hl']
    · intro h'; exact h ⟨h'.1, h'.2.1, by rw [h'.2.2]; simp⟩
    · intro h'; exact h ⟨h'.1, h'.2.1, by rw [List.map_cons]; exact List.mem_cons_of_mem _ h'.2.2⟩

theorem DWord.ofPair_lo_hi (d : DWord) : DWord.ofPair d.lo d.hi = d := by
  apply BitVec.eq_of_getLsbD_eq
  intro i hi
  rw [DWord.ofPair, show BitVec.append d.hi d.lo = d.hi ++ d.lo from rfl, BitVec.getLsbD_append, DWord.lo, DWord.hi]
  split
  · simp [*]
  · simp only [BitVec.getLsbD_setWidth, BitVec.getLsbD_ushiftRight]
    rw [show 32 + (i - 32) = i by omega]; simp; omega

theorem rdV_wrV_self (w : Warp) (pair : Bool) (r : Reg) {l n : Nat} (hl : l < 32) :
    rdV (wrV w pair r l n) pair r l = n % 2 ^ (if pair then 64 else 32) := by
  cases pair
  · simp [rdV, wrV, Warp.vreg_setV_self]
  · have h : (wrV w true r l n).vpair r.toNat l = BitVec.ofNat 64 n := by
      rw [Warp.vpair, wrV, if_pos rfl, Warp.setVPair, Warp.vreg_setV_self, Warp.vreg_setV_of_ne _ hl hl (by omega), Warp.vreg_setV_self,
        DWord.ofPair_lo_hi]
    rw [rdV, if_pos rfl, h, BitVec.toNat_ofNat, if_pos rfl]

theorem rdV_wrLanes_of_not (w : Warp) (pair : Bool) {r : Reg} {res : List (Nat × Nat)} {l : Nat} (hres : ∀ p ∈ res, p.1 < 32)
    (hl : l < 32) (h : l ∉ res.map Prod.fst) : rdV (wrLanes w pair r res) pair r l = rdV w pair r l := by
  have h1 (r' : Nat) : (wrLanes w pair r res).vreg r' l = w.vreg r' l := vreg_wrLanes_of_not w pair hres hl (fun h' => h h'.2.2)
  simp only [rdV, Warp.vpair, h1]

/-- The result of a lane stands in it. -/
theorem rdV_wrLanes (w : Warp) (pair : Bool) (r : Reg) (ls : List Nat) (g : Nat → Nat) {l : Nat} (hls : ∀ l ∈ ls, l < 32) (hn : ls.Nodup)
    (hl : l ∈ ls) : rdV (wrLanes w pair r (ls.map fun l => (l, g l))) pair r l = g l % 2 ^ (if pair then 64 else 32) := by
  induction ls generalizing w with
  | nil => cases hl
  | cons x xs ih =>
    rw [List.map_cons, wrLanes_cons]
    obtain ⟨hx, hn⟩ := List.nodup_cons.1 hn
    have hxs : ∀ l ∈ xs, l < 32 := fun l h => hls l (List.mem_cons_of_mem _ h)
    rcases List.mem_cons.1 hl with rfl | h
    · rw [rdV_wrLanes_of_not _ _ _ (hls l hl), rdV_wrV_self _ _ _ (hls l hl)]
      · simpa using hx
      · simpa using hxs
    · exact ih _ hxs hn h

end Sys2Proof.Machine
end

