-- ==== Sys2Proof/Laws/Frames.lean ====
section
/-!
SUPPORT. Frames of the instructions that act on their warp alone: from what the meaning leaves in the warp to what it leaves in the state.
-/

namespace Sys2Proof.Machine

/-- An instruction over `runLocal` keeps what its function keeps in the warp. -/
theorem framed_local {f : Local} {i : Instr} {s : State} {w : Warp} {v : Nat → Nat → Prop} {sr : Nat → Prop} {p : PReg → Prop} {m : Word}
    (h : s.runs w) (e : exec i s = runLocal f i s)
    (hf : ∀ w', f (lctx s w s.curSide i) w = .ok w' → KeepsWarp s.curSide w (w'.advance s.curSide) v sr p m) : Framed i s w v sr p m := by
  cases hr : f (lctx s w s.curSide i) w with
  | error t => exact .inl ⟨t, e.trans (runLocal_trap h hr)⟩
  | ok w' =>
    refine .inr ⟨_, _, e.trans (runLocal_ok h hr), ⟨rfl, fun k hk => State.setWarp_warp?_of_ne _ hk _, fun _ => rfl⟩, State.setWarp_warp?_self .., hf w' hr⟩

/-- A write of one S register keeps the rest of the warp. -/
theorem keeps_setS {sd : Side} {w : Warp} (r : Nat) (x : Word) :
    KeepsWarp sd w ((w.setS r x).advance sd) (fun _ _ => False) (fun r' => r' = r) (fun _ => False) 0xFFFFFFFF := by
  constructor <;> simp
  intro r' _ h; exact Warp.sreg_setS_of_ne _ h _

end Sys2Proof.Machine
end

