-- ==== Sys2Proof/Laws/Homes.lean ====
section
/-!
SUPPORT. What the shared operations of homes and of the fabric leave alone: with no soft error standing, a read at a home and the use of
a line change the lines of slices and the replicas; a packet that is sent changes the fabric and what counts there.
-/

namespace Sys2Proof.Machine

namespace State

/-- The second state is the first but for the lines of slices, the replicas and the notes of what was written. -/
def SameButLines (s t : State) : Prop :=
  t = { s with l2 := t.l2, replicas := t.replicas, rootWritten := t.rootWritten, written := t.written }

theorem SameButLines.refl (s : State) : s.SameButLines s := rfl
theorem SameButLines.trans {s t u : State} (h : s.SameButLines t) (h' : t.SameButLines u) : s.SameButLines u := by
  unfold SameButLines at *; rw [h] at h'; exact h'
theorem SameButLines.mem {s t : State} (h : s.SameButLines t) : t.mem = s.mem := by rw [h]
theorem SameButLines.errors {s t : State} (h : s.SameButLines t) : t.errors = s.errors := by rw [h]
theorem SameButLines.waiters {s t : State} (h : s.SameButLines t) : t.waiters = s.waiters := by rw [h]
theorem SameButLines.mmio {s t : State} (h : s.SameButLines t) : t.mmio = s.mmio := by rw [h]
theorem SameButLines.ops {s t : State} (h : s.SameButLines t) : t.ops = s.ops := by rw [h]

theorem setErrors_zero {s : State} (h : s.errors = []) (u : Nat) : s.setErrors u 0 = s := by
  have : s.errors.erase u = s.errors := by rw [h]; rfl
  rw [setErrors, if_pos rfl, this]

theorem dropLine_same {s : State} (h : s.errors = []) (n : Nat) (x : L2Line) : s.SameButLines (s.dropLine n x) := by
  have fixed : ∀ (us : List Nat) (err : Nat → Nat), us.foldl (fun s u =>
      let k := s.errors.get 0 (err u)
      let s := if x.dirty then (if 3 ≤ k then s.evictionRecord u k else s).setErrors u k else s
      s.setErrors (err u) 0) s = s := by
    intro us err
    induction us with
    | nil => rfl
    | cons u us ih =>
      have hk : s.errors.get 0 (err u) = 0 := by rw [h]; rfl
      rw [List.foldl_cons]
      have one : (let k := s.errors.get 0 (err u)
          let s := if x.dirty then (if 3 ≤ k then s.evictionRecord u k else s).setErrors u k else s
          s.setErrors (err u) 0) = s := by
        rw [hk]; simp [setErrors_zero h]
      rw [one]; exact ih
  unfold dropLine
  simp only [fixed]
  split <;> rfl

theorem useLine_same {s : State} (h : s.errors = []) (n line : Nat) (dirty : Bool) : s.SameButLines (s.useLine n line dirty) := by
  unfold useLine
  split
  · rfl
  · rename_i hl
    have step : ∀ t : State, s.SameButLines t → s.SameButLines
        (State.setL2 (if n = t.homeSlice line then (unitsOfLine line).foldl (fun s u => s.setErrors (l2Unit u) (s.errors.get 0 u)) t else t) n
          ((if n = t.homeSlice line then (unitsOfLine line).foldl (fun s u => s.setErrors (l2Unit u) (s.errors.get 0 u)) t else t).l2Of n ++
            [⟨line, dirty, (if n = t.homeSlice line then (unitsOfLine line).foldl (fun s u => s.setErrors (l2Unit u) (s.errors.get 0 u)) t else t).clk, false⟩])) := by
      intro t ht
      have he : t.errors = [] := ht.errors.trans h
      have fixed : ∀ us : List Nat, us.foldl (fun s u => s.setErrors (l2Unit u) (s.errors.get 0 u)) t = t := by
        intro us
        induction us with
        | nil => rfl
        | cons u us ih =>
          have hk : t.errors.get 0 u = 0 := by rw [he]; rfl
          simp only [List.foldl_cons, hk, setErrors_zero he]
          exact ih
      simp only [fixed, ite_self]
      exact ht.trans rfl
    split
    · exact step s (.refl s)
    · split
      · exact step _ (dropLine_same h n _)
      · exact step s (.refl s)

theorem readChannel_same {s : State} (h : s.errors = []) (u : Nat) : s.readChannel u = .ok s := by
  have hk : s.errors.get 0 u = 0 := by rw [h]; rfl
  simp [readChannel, readStored, hk]

/-- A unit is read at its home when no soft error stands, and only its line is used. -/
theorem readUnit_ok {s : State} (h : s.errors = []) (u : Nat) : ∃ t, s.readUnit u = .ok t ∧ s.SameButLines t := by
  unfold readUnit
  split
  · exact ⟨s, readChannel_same h u, .refl s⟩
  · simp only [readChannel_same h]
    split
    · exact ⟨_, rfl, useLine_same h ..⟩
    · have hk : s.errors.get 0 (l2Unit u) = 0 := by rw [h]; rfl
      simp only [readStored, hk]
      exact ⟨_, rfl, useLine_same h ..⟩

/-- So are the units of a range. -/
theorem readUnits_ok {s : State} (h : s.errors = []) (us : List Nat) : ∃ t, s.readUnits us = .ok t ∧ s.SameButLines t := by
  induction us generalizing s with
  | nil => exact ⟨s, rfl, .refl s⟩
  | cons u us ih =>
    obtain ⟨t, ht, hs⟩ := readUnit_ok h u
    obtain ⟨v, hv, ht'⟩ := ih (hs.errors.trans h)
    exact ⟨v, by rw [readUnits, ht]; exact hv, hs.trans ht'⟩

/-- A write with no waiter of its words: the bytes are written, and beside them only lines of slices change. -/
theorem poke_same (s : State) (key : Nat) (bs : List Byte) (hw : s.waiters = []) (h : s.errors = []) :
    State.SameButLines { s with mem := s.mem.writeBytes key bs } (s.poke key bs) := by
  have wr : ∀ (t : State), t.waiters = [] → t.wakeRange key bs.length = t := by
    intro t ht; rw [wakeRange, ht]; rfl
  have nc : ∀ (t : State), t.errors = [] → t.newCode key bs.length = t := by
    intro t ht; rw [newCode, ht]; cases t; cases ht; rfl
  have base : ∀ (b : Bool) (l : List Nat), State.SameButLines { s with mem := s.mem.writeBytes key bs }
      { s with mem := s.mem.writeBytes key bs, rootWritten := b, written := l } := fun _ _ => rfl
  unfold poke
  dsimp only
  generalize (s.rootWritten || (_ && _)) = b
  generalize List.foldl noteWritten s.written _ = l
  have hu := useLine_same (s := { s with mem := s.mem.writeBytes key bs, rootWritten := b, written := l }) h
  split
  · rw [nc _ ((hu ..).errors.trans h), wr _ ((hu ..).waiters.trans hw)]; exact (base b l).trans (hu ..)
  · rw [nc { s with mem := s.mem.writeBytes key bs, rootWritten := b, written := l } h,
      wr { s with mem := s.mem.writeBytes key bs, rootWritten := b, written := l } hw]; exact base b l

/-- The second state is the first but for the fabric, the registers and the records of the module. -/
def SameButFabric (s t : State) : Prop := t = { s with fabric := t.fabric, mmio := t.mmio, records := t.records }

theorem SameButFabric.refl (s : State) : s.SameButFabric s := rfl
theorem SameButFabric.trans {s t u : State} (h : s.SameButFabric t) (h' : t.SameButFabric u) : s.SameButFabric u := by
  unfold SameButFabric at *; rw [h] at h'; exact h'
theorem SameButFabric.mem {s t : State} (h : s.SameButFabric t) : t.mem = s.mem := by rw [h]
theorem SameButFabric.ops {s t : State} (h : s.SameButFabric t) : t.ops = s.ops := by rw [h]
theorem SameButFabric.waiters {s t : State} (h : s.SameButFabric t) : t.waiters = s.waiters := by rw [h]

theorem onFabric_same (s : State) (f : Fabric → Fabric) : s.SameButFabric (s.onFabric f) := rfl
theorem setReg_same (s : State) (a v : Nat) : s.SameButFabric (s.setReg a v) := rfl
theorem bump_same (s : State) (a n : Nat) : s.SameButFabric (s.bump a n) := by
  unfold bump; rfl
theorem place_same (s : State) (sw : Nat) (p : Packet) : s.SameButFabric (s.place sw p) := by
  unfold place; split <;> rfl
theorem discard_same (s : State) (die port : Nat) : s.SameButFabric (s.discard die port) := by
  unfold discard; exact (bump_same s (Reg.port die port 0x48) 1).trans rfl
theorem noRoute_same (s : State) (sw port : Nat) (p : Packet) : s.SameButFabric (s.noRoute sw port p) := by
  unfold noRoute
  have back : ∀ (t : State) (q : Packet), t.SameButFabric (if t.unroutable sw q then t.discard sw port else t.place sw q) := by
    intro t q; split
    · exact discard_same ..
    · exact place_same ..
  dsimp only
  split
  · exact back ..
  · split
    · exact discard_same ..
    · exact (discard_same ..).trans (back ..)
theorem arriveFrom_same (s : State) (sw port : Nat) (p : Packet) : s.SameButFabric (s.arriveFrom sw port p) := by
  unfold arriveFrom; split
  · exact noRoute_same ..
  · exact place_same ..
/-- A packet that is sent changes the fabric, and registers and records where it finds no way. -/
theorem send_same (s : State) (p : Packet) : s.SameButFabric (s.send p) := by
  unfold send; split
  · unfold inject
    dsimp only
    cases s.fabric.srcFlows.find? fun f => f.src = p.src && s.together f.dst p.dst && f.vc = p.vc with
    | some f => exact (onFabric_same ..).trans (arriveFrom_same ..)
    | none => exact (onFabric_same ..).trans ((onFabric_same ..).trans (arriveFrom_same ..))
  · exact onFabric_same ..

end State

end Sys2Proof.Machine
end

