-- ==== Sys2Proof/Laws/Lanes.lean ====
section
/-!
SUPPORT. What the elementwise operand forms leave in each element of each lane, and in the flags (R228, R232, R303).
-/

namespace Sys2Proof.Machine

/-- Element k of a number of n packed elements, built low element first. -/
theorem elem_cons (b r rest k : Nat) :
    (r % 2 ^ b + 2 ^ b * rest) / 2 ^ (b * k) % 2 ^ b = if k = 0 then r % 2 ^ b else rest / 2 ^ (b * (k - 1)) % 2 ^ b := by
  split
  · subst_vars; simp
  · obtain ⟨j, rfl⟩ : ∃ j, k = j + 1 := ⟨k - 1, by omega⟩
    rw [Nat.mul_succ, Nat.add_comm (b * j) b, Nat.pow_add, ← Nat.div_div_eq_div_mul, Nat.add_mul_div_left _ _ (Nat.two_pow_pos b),
      Nat.div_eq_of_lt (Nat.mod_lt _ (Nat.two_pow_pos b)), Nat.zero_add, Nat.add_sub_cancel]

theorem elem_div (b x k : Nat) : x / 2 ^ b / 2 ^ (b * k) = x / 2 ^ (b * (k + 1)) := by
  rw [Nat.div_div_eq_div_mul, ← Nat.pow_add, Nat.mul_succ, Nat.add_comm]

/-- The elements of a result are the operation on the elements of its operands. -/
theorem mapElems_elem (b : Nat) (f : Nat → Nat → Nat → Nat × Flags) (n x y z k : Nat) (h : k < n) :
    (mapElems b f n x y z).1 / 2 ^ (b * k) % 2 ^ b =
      (f (x / 2 ^ (b * k) % 2 ^ b) (y / 2 ^ (b * k) % 2 ^ b) (z / 2 ^ (b * k) % 2 ^ b)).1 % 2 ^ b := by
  induction n generalizing x y z k with
  | zero => omega
  | succ n ih =>
    rw [mapElems, elem_cons]
    cases k with
    | zero => simp
    | succ k => rw [if_neg (by omega), Nat.add_sub_cancel, ih _ _ _ _ (by omega), elem_div, elem_div, elem_div]

theorem mapElems_lt (b : Nat) (f : Nat → Nat → Nat → Nat × Flags) (n x y z : Nat) : (mapElems b f n x y z).1 < 2 ^ (b * n) := by
  induction n generalizing x y z with
  | zero => simp [mapElems]
  | succ n ih =>
    rw [mapElems, Nat.mul_succ, Nat.add_comm (b * n) b, Nat.pow_add]
    have h1 := Nat.mod_lt (f (x % 2 ^ b) (y % 2 ^ b) (z % 2 ^ b)).1 (Nat.two_pow_pos b)
    have h2 := Nat.mul_le_mul_left (2 ^ b) (ih (x / 2 ^ b) (y / 2 ^ b) (z / 2 ^ b))
    simp only [Nat.mul_succ] at h2
    simp only
    omega

theorem mapElems_flag (b : Nat) (f : Nat → Nat → Nat → Nat × Flags) (n x y z i : Nat) :
    (mapElems b f n x y z).2.getLsbD i = true ↔
      ∃ k, k < n ∧ (f (x / 2 ^ (b * k) % 2 ^ b) (y / 2 ^ (b * k) % 2 ^ b) (z / 2 ^ (b * k) % 2 ^ b)).2.getLsbD i = true := by
  induction n generalizing x y z with
  | zero => simp [mapElems]
  | succ n ih =>
    rw [mapElems]
    simp only [BitVec.getLsbD_or, Bool.or_eq_true, ih, elem_div]
    constructor
    · rintro (h | ⟨k, hk, h⟩)
      · exact ⟨0, by omega, by simpa using h⟩
      · exact ⟨k + 1, by omega, h⟩
    · rintro ⟨k, hk, h⟩
      cases k with
      | zero => exact .inl (by simpa using h)
      | succ k => exact .inr ⟨k, by omega, h⟩

/-- The lanes of a mask are the bits set in it. -/
theorem lane_lt {m : Word} {l : Nat} (h : m.getLsbD l = true) : l < 32 := by
  rcases Nat.lt_or_ge l 32 with h' | h'
  · exact h'
  · rw [BitVec.getLsbD_of_ge _ _ h'] at h; cases h

theorem mem_lanes_iff {m : Word} {l : Nat} : l ∈ lanes m ↔ m.getLsbD l = true :=
  ⟨fun h => (mem_lanes.1 h).2, fun h => mem_lanes.2 ⟨lane_lt h, h⟩⟩

theorem foldl_or_flag {α : Type} (f : α → Flags) (xs : List α) (init : Flags) (i : Nat) :
    (xs.foldl (fun fl p => fl ||| f p) init).getLsbD i = true ↔ init.getLsbD i = true ∨ ∃ x ∈ xs, (f x).getLsbD i = true := by
  induction xs generalizing init with
  | nil => simp
  | cons x xs ih => simp [ih, or_assoc]

theorem orFlags_flag (m : Word) (f : Flags) {b : Nat} (hb : b < 7) :
    (orFlags m f).getLsbD (24 + b) = true ↔ m.getLsbD (24 + b) = true ∨ f.getLsbD b = true := by
  simp only [orFlags, flagWord, BitVec.getLsbD_or, Bool.or_eq_true, BitVec.getLsbD_shiftLeft, BitVec.getLsbD_setWidth]
  have h1 : 24 + b < 32 := by omega
  have h2 : b < 32 := by omega
  simp [h1, h2]

/-- The bits of MODE other than the flags stay. -/
theorem orFlags_rest (m : Word) (f : Flags) : orFlags m f &&& 0x80FFFFFF = m &&& 0x80FFFFFF := by
  apply BitVec.eq_of_getLsbD_eq
  intro i hi
  simp only [orFlags, flagWord, BitVec.getLsbD_and, BitVec.getLsbD_or, BitVec.getLsbD_shiftLeft, BitVec.getLsbD_setWidth]
  by_cases h : i < 24
  · simp [h]
  · rcases Nat.lt_or_ge i 31 with h' | h'
    · have : (0x80FFFFFF : Word).getLsbD i = false := by
        have : i = 24 ∨ i = 25 ∨ i = 26 ∨ i = 27 ∨ i = 28 ∨ i = 29 ∨ i = 30 := by omega
        rcases this with rfl | rfl | rfl | rfl | rfl | rfl | rfl <;> rfl
      rw [this, Bool.and_false, Bool.and_false]
    · have : f.getLsbD (i - 24) = false := BitVec.getLsbD_of_ge _ _ (by omega)
      simp [this]

/-- What `writeResults` leaves: results in their lanes, flags in MODE, nothing else. -/
theorem writeResults_lane (w : Warp) (pair : Bool) (d : Reg) (m : Word) (g : Nat → Nat × Flags) {l : Nat} (h : m.getLsbD l = true) :
    rdV (writeResults w pair d ((lanes m).map fun l => (l, g l))) pair d l = (g l).1 % 2 ^ (if pair then 64 else 32) := by
  have e : ((lanes m).map fun l => (l, g l)).map (fun p => (p.1, p.2.1)) = (lanes m).map fun l => (l, (g l).1) := by simp
  have r := rdV_wrLanes w pair d (lanes m) (fun l => (g l).1) (fun _ h => lanes_lt h) (nodup_lanes m) (mem_lanes_iff.2 h)
  rw [writeResults, e]; exact r

theorem writeResults_flag (w : Warp) (pair : Bool) (d : Reg) (m : Word) (g : Nat → Nat × Flags) {b : Nat} (hb : b < 7) :
    (writeResults w pair d ((lanes m).map fun l => (l, g l))).mode.getLsbD (24 + b) = true ↔
      w.mode.getLsbD (24 + b) = true ∨ ∃ l, m.getLsbD l = true ∧ (g l).2.getLsbD b = true := by
  have e (res : List (Nat × Nat)) : (wrLanes w pair d res).mode = w.mode := by have h := congrArg Warp.mode (wrLanes_rest w pair d res); exact h
  simp only [writeResults, Warp.raise, orFlags_flag _ _ hb, e, foldl_or_flag]
  refine or_congr Iff.rfl ⟨?_, ?_⟩
  · rintro (h | ⟨x, hx, h⟩)
    · simp at h
    · obtain ⟨l, hl, rfl⟩ := List.mem_map.1 hx
      exact ⟨l, mem_lanes_iff.1 hl, h⟩
  · rintro ⟨l, hl, h⟩
    exact .inr ⟨_, List.mem_map.2 ⟨l, mem_lanes_iff.2 hl, rfl⟩, h⟩

theorem writeResults_rest (w : Warp) (pair : Bool) (d : Reg) (res : List (Nat × Nat × Flags)) :
    { writeResults w pair d res with v := w.v, mode := w.mode } = w := by
  have h := wrLanes_rest w pair d (res.map fun p => (p.1, p.2.1))
  calc { writeResults w pair d res with v := w.v, mode := w.mode }
      = { ({ wrLanes w pair d (res.map fun p => (p.1, p.2.1)) with v := w.v } : Warp) with mode := w.mode } := rfl
    _ = w := by rw [h]

theorem writeResults_scalars (w : Warp) (pair : Bool) (d : Reg) (res : List (Nat × Nat × Flags)) : KeepsScalars w (writeResults w pair d res) := by
  have h := writeResults_rest w pair d res
  have hs := congrArg Warp.s h
  have hp := congrArg Warp.p h
  exact ⟨hs, hp⟩

/-- The results of an elementwise operation (R303, R232, R228). -/
theorem laneResults_of {s : State} {w : Warp} {t : Ty} {d : Reg} (g : Nat → Nat × Flags) (f : Nat → Nat → Nat × Flags)
    (hv : ∀ l k, k < t.elems → (g l).1 / 2 ^ (t.bits * k) % 2 ^ t.bits = (f l k).1 % 2 ^ t.bits)
    (hlt : ∀ l, (g l).1 < 2 ^ (t.bits * t.elems)) (hf : ∀ l b, (g l).2.getLsbD b = true ↔ ∃ k, k < t.elems ∧ (f l k).2.getLsbD b = true) :
    LaneResults s w (writeResults w t.pair d ((lanes (s.part w)).map fun l => (l, g l))) t t.elems d f := by
  have hw : t.bits * t.elems = if t.pair then 64 else 32 := by cases t <;> rfl
  constructor
  · intro l k hl hk
    rw [writeResults_lane w t.pair d _ g hl, if_pos hk, elemOf, ← hv l k hk, ← hw, Nat.mod_eq_of_lt (hlt l)]
  · intro b hb
    rw [writeResults_flag w t.pair d _ g hb]
    simp only [hf]
    constructor
    · rintro (h | ⟨l, h1, k, h2, h3⟩)
      · exact .inl h
      · exact .inr ⟨l, k, h1, h2, h3⟩
    · rintro (h | ⟨l, k, h1, h2, h3⟩)
      · exact .inl h
      · exact .inr ⟨l, h1, k, h2, h3⟩

theorem vOk_of_roomFor {s : State} {w : Warp} {pair : Bool} {r : Reg} {i : Instr} {sd : Side} (h : s.roomFor w pair r) :
    vOk (lctx s w sd i) pair r = true := by
  obtain ⟨h1, h2⟩ := h
  cases pair
  · exact decide_eq_true (show r.toNat < (s.cardOf w).regs from h1)
  · have h3 : r.toNat % 2 = 0 := h2 rfl
    have h4 : r.toNat + 1 < (s.cardOf w).regs := h1
    simp [vOk, lctx, h3, h4]

theorem srcOk_of_roomForB {s : State} {w : Warp} {pair : Bool} {b : SrcB} {i : Instr} {sd : Side} (h : s.roomForB w pair b) :
    srcOk (lctx s w sd i) pair b = true := by
  cases b with
  | v r => exact vOk_of_roomFor h
  | s r => cases pair <;> simp_all [srcOk, State.roomForB]

end Sys2Proof.Machine
end

