-- ==== Sys2Proof/Laws/PerInstr.lean ====
section
/-!
SUPPORT. Statements made for every instruction, with one lemma for each: the word of a well-formed instruction decodes to it.
-/

namespace Sys2Proof.Laws

open Instr (encR encW encU encM encC encSrc encAddr bit)
open RoundTrip (Statement)

theorem psetF (p : PReg) : Statement (.pset .f p) := by
  have := p.isLt
  refine decode_of_fields (0x59 * 2 ^ 25 + p.toNat * 2 ^ 17) 0x59 rfl (by omega) (by simp only [bitsOf]; omega) ?_
  generalize hw : 0x59 * 2 ^ 25 + p.toNat * 2 ^ 17 = w
  have h0 : bitsOf w 0 2 = 0 := by simp only [bitsOf, ← hw]; omega
  have h1 : bitsOf w 20 5 = 0 := by simp only [bitsOf, ← hw]; omega
  have h2 : bitsOf w 2 15 = 0 := by simp only [bitsOf, ← hw]; omega
  have h3 : bitsOf w 17 3 = p.toNat := by simp only [bitsOf, ← hw]; omega
  show (match bitsOf w 0 2 with
        | 0 => zeroBits (bitsOf w 20 5 + bitsOf w 2 15) (.pset .f (fP w 17))
        | 1 => zeroBits (bitsOf w 20 5 + bitsOf w 2 15) (.pset .t (fP w 17))
        | 2 => zeroBits (bitsOf w 20 5 + bitsOf w 2 7) (.pset (.nz (fA w)) (fP w 17))
        | _ => .error .functionValue : Dec) = _
  rw [h0, h1, h2, fP, h3, ofNat_toNat_self]; rfl

theorem psetT (p : PReg) : Statement (.pset .t p) := by
  have := p.isLt
  refine decode_of_fields (0x59 * 2 ^ 25 + p.toNat * 2 ^ 17 + 1) 0x59 rfl (by omega) (by simp only [bitsOf]; omega) ?_
  generalize hw : 0x59 * 2 ^ 25 + p.toNat * 2 ^ 17 + 1 = w
  have h0 : bitsOf w 0 2 = 1 := by simp only [bitsOf, ← hw]; omega
  have h1 : bitsOf w 20 5 = 0 := by simp only [bitsOf, ← hw]; omega
  have h2 : bitsOf w 2 15 = 0 := by simp only [bitsOf, ← hw]; omega
  have h3 : bitsOf w 17 3 = p.toNat := by simp only [bitsOf, ← hw]; omega
  show (match bitsOf w 0 2 with
        | 0 => zeroBits (bitsOf w 20 5 + bitsOf w 2 15) (.pset .f (fP w 17))
        | 1 => zeroBits (bitsOf w 20 5 + bitsOf w 2 15) (.pset .t (fP w 17))
        | 2 => zeroBits (bitsOf w 20 5 + bitsOf w 2 7) (.pset (.nz (fA w)) (fP w 17))
        | _ => .error .functionValue : Dec) = _
  rw [h0, h1, h2, fP, h3, ofNat_toNat_self]; rfl

theorem psetNz (a : Reg) (p : PReg) : Statement (.pset (.nz a) p) := by
  have := p.isLt
  have := a.isLt
  refine decode_of_fields (0x59 * 2 ^ 25 + p.toNat * 2 ^ 17 + a.toNat * 2 ^ 9 + 2) 0x59 rfl (by omega) (by simp only [bitsOf]; omega) ?_
  generalize hw : 0x59 * 2 ^ 25 + p.toNat * 2 ^ 17 + a.toNat * 2 ^ 9 + 2 = w
  have h0 : bitsOf w 0 2 = 2 := by simp only [bitsOf, ← hw]; omega
  have h1 : bitsOf w 20 5 = 0 := by simp only [bitsOf, ← hw]; omega
  have h2 : bitsOf w 2 7 = 0 := by simp only [bitsOf, ← hw]; omega
  have h3 : bitsOf w 17 3 = p.toNat := by simp only [bitsOf, ← hw]; omega
  have h4 : bitsOf w 9 8 = a.toNat := by simp only [bitsOf, ← hw]; omega
  show (match bitsOf w 0 2 with
        | 0 => zeroBits (bitsOf w 20 5 + bitsOf w 2 15) (.pset .f (fP w 17))
        | 1 => zeroBits (bitsOf w 20 5 + bitsOf w 2 15) (.pset .t (fP w 17))
        | 2 => zeroBits (bitsOf w 20 5 + bitsOf w 2 7) (.pset (.nz (fA w)) (fP w 17))
        | _ => .error .functionValue : Dec) = _
  rw [h0, h1, h2, fP, h3, fA, regAt, h4, ofNat_toNat_self, ofNat_toNat_self]; rfl

theorem RoundTrip.nop : Statement .nop := fun _ _ => rfl
theorem RoundTrip.bra (off : BitVec 25) : Statement (.bra off) :=
  roundTrip_J 0x01 (by decide) (fun _ => rfl) (fun _ => rfl) off
theorem RoundTrip.call (off : BitVec 25) : Statement (.call off) :=
  roundTrip_J 0x02 (by decide) (fun _ => rfl) (fun _ => rfl) off
theorem RoundTrip.brz (r : Reg) (off : BitVec 17) : Statement (.brz r off) :=
  roundTrip_W 0x03 (by decide) (fun _ _ => rfl) (fun _ => rfl) r off
theorem RoundTrip.brnz (r : Reg) (off : BitVec 17) : Statement (.brnz r off) :=
  roundTrip_W 0x04 (by decide) (fun _ _ => rfl) (fun _ => rfl) r off
theorem RoundTrip.brv (neg : Bool) (p : PReg) (off : BitVec 17) : Statement (.brv neg p off) := by
  have := p.isLt
  have := off.isLt
  have hn : bit neg 20 = 0 ∧ neg = false ∨ bit neg 20 = 1048576 ∧ neg = true := by cases neg <;> simp [bit]
  refine decode_of_fields (0x05 * 2 ^ 25 + bit neg 20 + p.toNat * 2 ^ 17 + off.toNat) 0x05 rfl (by omega) (by simp only [bitsOf]; omega) ?_
  generalize hw : 0x05 * 2 ^ 25 + bit neg 20 + p.toNat * 2 ^ 17 + off.toNat = w
  have h0 : bitsOf w 21 4 = 0 := by simp only [bitsOf, ← hw]; omega
  have h1 : bitsOf w 17 3 = p.toNat := by simp only [bitsOf, ← hw]; omega
  have h2 : bitsOf w 0 17 = off.toNat := by simp only [bitsOf, ← hw]; omega
  show (zeroBits (bitsOf w 21 4) (.brv (bitsOf w 20 1 = 1) (fP w 17) (BitVec.ofNat 17 (bitsOf w 0 17))) : Dec) = _
  rw [h0, fP, h1, h2, ofNat_toNat_self, ofNat_toNat_self]
  have h3 : decide (bitsOf w 20 1 = 1) = neg := by
    obtain ⟨e, rfl⟩ | ⟨e, rfl⟩ := hn
    · rw [decide_eq_false_iff_not]; simp only [bitsOf, ← hw]; omega
    · rw [decide_eq_true_iff]; simp only [bitsOf, ← hw]; omega
  rw [h3]; rfl
theorem RoundTrip.rcv (off : BitVec 25) : Statement (.rcv off) :=
  roundTrip_J 0x06 (by decide) (fun _ => rfl) (fun _ => rfl) off
theorem RoundTrip.jmpr (a : Reg) : Statement (.jmpr a) :=
  roundTrip_A 0x07 (by decide) (fun _ => rfl) (fun _ => rfl) a
theorem RoundTrip.exit : Statement .exit := fun _ _ => rfl
theorem RoundTrip.trap (imm : BitVec 17) : Statement (.trap imm) :=
  roundTrip_T 0x09 (by decide) (fun _ => rfl) (fun _ => rfl) imm
theorem RoundTrip.rtrap : Statement .rtrap := fun _ _ => rfl
theorem RoundTrip.svc (d : Reg) (imm : BitVec 17) : Statement (.svc d imm) :=
  roundTrip_W 0x0B (by decide) (fun _ _ => rfl) (fun _ => rfl) d imm
theorem RoundTrip.nap (a : Reg) : Statement (.nap a) :=
  roundTrip_A 0x0C (by decide) (fun _ => rfl) (fun _ => rfl) a
theorem RoundTrip.yield : Statement .yield := fun _ _ => rfl
theorem RoundTrip.bkpt (imm : BitVec 17) : Statement (.bkpt imm) :=
  roundTrip_T 0x0E (by decide) (fun _ => rfl) (fun _ => rfl) imm
theorem RoundTrip.post (t a : Reg) (la : Look) : Statement (.post t a la) := by
  refine roundTrip_N 0x0F (by decide) t a la (0) (by omega) (by rw [Nat.add_zero]; rfl) ?_
  intro w ht ha hl hx
  show (zeroBits (bitsOf w 0 5) (.post (fD w) (fA w) (fL w)) : Dec) = _
  rw [hx 0 5 (by decide), ht, ha, hl]; rfl
theorem RoundTrip.sadd (d : Reg) (a : Reg) (b : Reg) : Statement (.sadd d a b) :=
  roundTrip_S 0x10 (by decide) (fun _ _ _ => rfl) (fun _ => rfl) d a b
theorem RoundTrip.ssub (d : Reg) (a : Reg) (b : Reg) : Statement (.ssub d a b) :=
  roundTrip_S 0x11 (by decide) (fun _ _ _ => rfl) (fun _ => rfl) d a b
theorem RoundTrip.smul (d : Reg) (a : Reg) (b : Reg) : Statement (.smul d a b) :=
  roundTrip_S 0x12 (by decide) (fun _ _ _ => rfl) (fun _ => rfl) d a b
theorem RoundTrip.smulhi (d : Reg) (a : Reg) (b : Reg) : Statement (.smulhi d a b) :=
  roundTrip_S 0x13 (by decide) (fun _ _ _ => rfl) (fun _ => rfl) d a b
theorem RoundTrip.smulhn (d : Reg) (a : Reg) (b : Reg) : Statement (.smulhn d a b) :=
  roundTrip_S 0x14 (by decide) (fun _ _ _ => rfl) (fun _ => rfl) d a b
theorem RoundTrip.sand (d : Reg) (a : Reg) (b : Reg) : Statement (.sand d a b) :=
  roundTrip_S 0x15 (by decide) (fun _ _ _ => rfl) (fun _ => rfl) d a b
theorem RoundTrip.sor (d : Reg) (a : Reg) (b : Reg) : Statement (.sor d a b) :=
  roundTrip_S 0x16 (by decide) (fun _ _ _ => rfl) (fun _ => rfl) d a b
theorem RoundTrip.sxor (d : Reg) (a : Reg) (b : Reg) : Statement (.sxor d a b) :=
  roundTrip_S 0x17 (by decide) (fun _ _ _ => rfl) (fun _ => rfl) d a b
theorem RoundTrip.sshl (d : Reg) (a : Reg) (b : Reg) : Statement (.sshl d a b) :=
  roundTrip_S 0x18 (by decide) (fun _ _ _ => rfl) (fun _ => rfl) d a b
theorem RoundTrip.sshr (d : Reg) (a : Reg) (b : Reg) : Statement (.sshr d a b) :=
  roundTrip_S 0x19 (by decide) (fun _ _ _ => rfl) (fun _ => rfl) d a b
theorem RoundTrip.ssra (d : Reg) (a : Reg) (b : Reg) : Statement (.ssra d a b) :=
  roundTrip_S 0x1A (by decide) (fun _ _ _ => rfl) (fun _ => rfl) d a b
theorem RoundTrip.smin (d : Reg) (a : Reg) (b : Reg) : Statement (.smin d a b) :=
  roundTrip_S 0x1B (by decide) (fun _ _ _ => rfl) (fun _ => rfl) d a b
theorem RoundTrip.smax (d : Reg) (a : Reg) (b : Reg) : Statement (.smax d a b) :=
  roundTrip_S 0x1C (by decide) (fun _ _ _ => rfl) (fun _ => rfl) d a b
theorem RoundTrip.sslt (d : Reg) (a : Reg) (b : Reg) : Statement (.sslt d a b) :=
  roundTrip_S 0x1D (by decide) (fun _ _ _ => rfl) (fun _ => rfl) d a b
theorem RoundTrip.ssltn (d : Reg) (a : Reg) (b : Reg) : Statement (.ssltn d a b) :=
  roundTrip_S 0x1E (by decide) (fun _ _ _ => rfl) (fun _ => rfl) d a b
theorem RoundTrip.sseq (d : Reg) (a : Reg) (b : Reg) : Statement (.sseq d a b) :=
  roundTrip_S 0x1F (by decide) (fun _ _ _ => rfl) (fun _ => rfl) d a b
theorem RoundTrip.sadd64 (d : Reg) (a : Reg) (b : Reg) : Statement (.sadd64 d a b) :=
  roundTrip_S 0x20 (by decide) (fun _ _ _ => rfl) (fun _ => rfl) d a b
theorem RoundTrip.ssub64 (d : Reg) (a : Reg) (b : Reg) : Statement (.ssub64 d a b) :=
  roundTrip_S 0x21 (by decide) (fun _ _ _ => rfl) (fun _ => rfl) d a b
theorem RoundTrip.saddi (d : Reg) (a : Reg) (imm : BitVec 9) : Statement (.saddi d a imm) :=
  roundTrip_I 0x22 (by decide) (fun _ _ _ => rfl) (fun _ => rfl) d a imm
theorem RoundTrip.smovi (d : Reg) (imm : BitVec 17) : Statement (.smovi d imm) :=
  roundTrip_W 0x23 (by decide) (fun _ _ => rfl) (fun _ => rfl) d imm
theorem RoundTrip.smovhi (d : Reg) (imm : BitVec 16) : Statement (.smovhi d imm) :=
  roundTrip_H 0x24 (by decide) (fun _ _ => rfl) (fun _ => rfl) d imm
theorem RoundTrip.smov (d a : Reg) : Statement (.smov d a) := by
  have hb : 0 < 512 := by omega
  refine decode_of_fields (encR 0x25 d a (0)) 0x25 rfl (encR_lt (by decide) hb) (encR_op (by decide) hb) ?_
  show (zeroBits (bitsOf (encR 0x25 d a (0)) 0 9) (.smov (fD (encR 0x25 d a (0))) (fA (encR 0x25 d a (0)))) : Dec) = _
  rw [encR_low 0 9 (by decide), encR_d hb, encR_a hb]; rfl
theorem RoundTrip.srdl (d a : Reg) (lane : BitVec 5) : Statement (.srdl d a lane) := by
  have := lane.isLt
  have hb : lane.toNat < 512 := by omega
  refine decode_of_fields (encR 0x26 d a (lane.toNat)) 0x26 rfl (encR_lt (by decide) hb) (encR_op (by decide) hb) ?_
  have h0 : bitsOf lane.toNat 5 4 = 0 := by simp only [bitsOf]; omega
  show (zeroBits (bitsOf (encR 0x26 d a (lane.toNat)) 5 4) (.srdl (fD (encR 0x26 d a (lane.toNat))) (fA (encR 0x26 d a (lane.toNat))) (BitVec.ofNat 5 (bitsOf (encR 0x26 d a (lane.toNat)) 0 5))) : Dec) = _
  rw [encR_low 5 4 (by decide), encR_low 0 5 (by decide), h0, bitsOf_all lane.isLt, ofNat_toNat_self, encR_d hb, encR_a hb]; rfl
theorem RoundTrip.mfs (d : Reg) (n : BitVec 9) : Statement (.mfs d n) :=
  roundTrip_D9 0x28 (by decide) (fun _ _ => rfl) (fun _ => rfl) d n
theorem RoundTrip.mts (a : Reg) (n : BitVec 9) : Statement (.mts a n) := by
  have := n.isLt
  have hb : n.toNat < 512 := by omega
  refine decode_of_fields (encR 0x29 0 a (n.toNat)) 0x29 rfl (encR_lt (by decide) hb) (encR_op (by decide) hb) ?_
  show (zeroBits (bitsOf (encR 0x29 0 a (n.toNat)) 17 8) (.mts (fA (encR 0x29 0 a (n.toNat))) (BitVec.ofNat 9 (bitsOf (encR 0x29 0 a (n.toNat)) 0 9))) : Dec) = _
  rw [zeroD (encR_d hb), encR_low 0 9 (by decide), bitsOf_all n.isLt, ofNat_toNat_self, encR_a hb]; rfl
theorem RoundTrip.mfv (d : Reg) (n : BitVec 9) : Statement (.mfv d n) :=
  roundTrip_D9 0x2A (by decide) (fun _ _ => rfl) (fun _ => rfl) d n
theorem RoundTrip.mode (clear : BitVec 7) (value : BitVec 16) : Statement (.mode clear value) := by
  have := clear.isLt
  have := value.isLt
  refine decode_of_fields (0x2B * 2 ^ 25 + clear.toNat * 2 ^ 17 + value.toNat) 0x2B rfl (by omega) (by simp only [bitsOf]; omega) ?_
  generalize hw : 0x2B * 2 ^ 25 + clear.toNat * 2 ^ 17 + value.toNat = w
  have h0 : bitsOf w 24 1 = 0 := by simp only [bitsOf, ← hw]; omega
  have h1 : bitsOf w 16 1 = 0 := by simp only [bitsOf, ← hw]; omega
  have h2 : bitsOf w 17 7 = clear.toNat := by simp only [bitsOf, ← hw]; omega
  have h3 : bitsOf w 0 16 = value.toNat := by simp only [bitsOf, ← hw]; omega
  show (zeroBits (bitsOf w 24 1 + bitsOf w 16 1) (.mode (BitVec.ofNat 7 (bitsOf w 17 7)) (BitVec.ofNat 16 (bitsOf w 0 16))) : Dec) = _
  rw [h0, h1, h2, h3, ofNat_toNat_self, ofNat_toNat_self]; rfl
theorem RoundTrip.modes (a : Reg) : Statement (.modes a) := by
  have hb : 0 < 512 := by omega
  refine decode_of_fields (encR 0x2C 0 a (0)) 0x2C rfl (encR_lt (by decide) hb) (encR_op (by decide) hb) ?_
  show (zeroBits (bitsOf (encR 0x2C 0 a (0)) 17 8 + bitsOf (encR 0x2C 0 a (0)) 1 8) (if fS (encR 0x2C 0 a (0)) then .modesAll (fA (encR 0x2C 0 a (0))) else .modes (fA (encR 0x2C 0 a (0)))) : Dec) = _
  rw [zeroD (encR_d hb), encR_low 1 8 (by decide), fS, encR_low 0 1 (by decide), encR_a hb]; rfl
theorem RoundTrip.modesAll (a : Reg) : Statement (.modesAll a) := by
  have hb : 1 < 512 := by omega
  refine decode_of_fields (encR 0x2C 0 a (1)) 0x2C rfl (encR_lt (by decide) hb) (encR_op (by decide) hb) ?_
  show (zeroBits (bitsOf (encR 0x2C 0 a (1)) 17 8 + bitsOf (encR 0x2C 0 a (1)) 1 8) (if fS (encR 0x2C 0 a (1)) then .modesAll (fA (encR 0x2C 0 a (1))) else .modes (fA (encR 0x2C 0 a (1)))) : Dec) = _
  rw [zeroD (encR_d hb), encR_low 1 8 (by decide), fS, encR_low 0 1 (by decide), encR_a hb]; rfl
theorem RoundTrip.mfmode (d : Reg) : Statement (.mfmode d) := by
  have hb : 0 < 2 ^ 17 := by omega
  refine decode_of_fields (encW 0x2D d (0)) 0x2D rfl (encW_lt (by decide) hb) (encW_op (by decide) hb) ?_
  show (zeroBits (bitsOf (encW 0x2D d (0)) 0 17) (.mfmode (fD (encW 0x2D d (0)))) : Dec) = _
  rw [encW_low 0 17 (by decide), encW_d hb]; rfl
theorem RoundTrip.clrflg (mask : BitVec 7) : Statement (.clrflg mask) := by
  have := mask.isLt
  refine decode_of_fields (0x2E * 2 ^ 25 + mask.toNat) 0x2E rfl (by omega) (by simp only [bitsOf]; omega) ?_
  generalize hw : 0x2E * 2 ^ 25 + mask.toNat = w
  have h0 : bitsOf w 7 18 = 0 := by simp only [bitsOf, ← hw]; omega
  have h1 : bitsOf w 0 7 = mask.toNat := by simp only [bitsOf, ← hw]; omega
  show (zeroBits (bitsOf w 7 18) (.clrflg (BitVec.ofNat 7 (bitsOf w 0 7))) : Dec) = _
  rw [h0, h1, ofNat_toNat_self]; rfl
theorem RoundTrip.vadd (d : Reg) (a : Reg) (b : SrcB) : Statement (.vadd d a b) :=
  roundTrip_V 0x30 (by decide) (fun _ _ _ => rfl) (fun _ => rfl) d a b
theorem RoundTrip.vsub (d : Reg) (a : Reg) (b : SrcB) : Statement (.vsub d a b) :=
  roundTrip_V 0x31 (by decide) (fun _ _ _ => rfl) (fun _ => rfl) d a b
theorem RoundTrip.vmul (d : Reg) (a : Reg) (b : SrcB) : Statement (.vmul d a b) :=
  roundTrip_V 0x32 (by decide) (fun _ _ _ => rfl) (fun _ => rfl) d a b
theorem RoundTrip.vmulhi (d : Reg) (a : Reg) (b : SrcB) : Statement (.vmulhi d a b) :=
  roundTrip_V 0x33 (by decide) (fun _ _ _ => rfl) (fun _ => rfl) d a b
theorem RoundTrip.vmulw (d : Reg) (a : Reg) (b : SrcB) : Statement (.vmulw d a b) :=
  roundTrip_V 0x34 (by decide) (fun _ _ _ => rfl) (fun _ => rfl) d a b
theorem RoundTrip.vfma (d : Reg) (a : Reg) (b : SrcB) : Statement (.vfma d a b) :=
  roundTrip_V 0x35 (by decide) (fun _ _ _ => rfl) (fun _ => rfl) d a b
theorem RoundTrip.vfnma (d : Reg) (a : Reg) (b : SrcB) : Statement (.vfnma d a b) :=
  roundTrip_V 0x36 (by decide) (fun _ _ _ => rfl) (fun _ => rfl) d a b
theorem RoundTrip.vmin (d : Reg) (a : Reg) (b : SrcB) : Statement (.vmin d a b) :=
  roundTrip_V 0x37 (by decide) (fun _ _ _ => rfl) (fun _ => rfl) d a b
theorem RoundTrip.vmax (d : Reg) (a : Reg) (b : SrcB) : Statement (.vmax d a b) :=
  roundTrip_V 0x38 (by decide) (fun _ _ _ => rfl) (fun _ => rfl) d a b
theorem RoundTrip.vdiv (d : Reg) (a : Reg) (b : SrcB) : Statement (.vdiv d a b) :=
  roundTrip_V 0x39 (by decide) (fun _ _ _ => rfl) (fun _ => rfl) d a b
theorem RoundTrip.vrem (d : Reg) (a : Reg) (b : SrcB) : Statement (.vrem d a b) :=
  roundTrip_V 0x3A (by decide) (fun _ _ _ => rfl) (fun _ => rfl) d a b
theorem RoundTrip.vand (d : Reg) (a : Reg) (b : SrcB) : Statement (.vand d a b) :=
  roundTrip_V 0x3B (by decide) (fun _ _ _ => rfl) (fun _ => rfl) d a b
theorem RoundTrip.vor (d : Reg) (a : Reg) (b : SrcB) : Statement (.vor d a b) :=
  roundTrip_V 0x3C (by decide) (fun _ _ _ => rfl) (fun _ => rfl) d a b
theorem RoundTrip.vxor (d : Reg) (a : Reg) (b : SrcB) : Statement (.vxor d a b) :=
  roundTrip_V 0x3D (by decide) (fun _ _ _ => rfl) (fun _ => rfl) d a b
theorem RoundTrip.vshl (d : Reg) (a : Reg) (b : SrcB) : Statement (.vshl d a b) :=
  roundTrip_V 0x3E (by decide) (fun _ _ _ => rfl) (fun _ => rfl) d a b
theorem RoundTrip.vshr (d : Reg) (a : Reg) (b : SrcB) : Statement (.vshr d a b) :=
  roundTrip_V 0x3F (by decide) (fun _ _ _ => rfl) (fun _ => rfl) d a b
theorem RoundTrip.vsra (d : Reg) (a : Reg) (b : SrcB) : Statement (.vsra d a b) :=
  roundTrip_V 0x40 (by decide) (fun _ _ _ => rfl) (fun _ => rfl) d a b
theorem RoundTrip.vsel (d : Reg) (a : Reg) (b : SrcB) : Statement (.vsel d a b) :=
  roundTrip_V 0x41 (by decide) (fun _ _ _ => rfl) (fun _ => rfl) d a b
theorem RoundTrip.vcmp (cond : Cond) (comb : Combine) (p : PReg) (a : Reg) (b : SrcB) : Statement (.vcmp cond comb p a b) := by
  have := p.isLt
  have h1 := Cond.code_lt cond
  have h2 := Combine.code_lt comb
  let d : Reg := BitVec.ofNat 8 (cond.code * 2 ^ 5 + comb.code * 2 ^ 3 + p.toNat)
  have hd : d.toNat = cond.code * 2 ^ 5 + comb.code * 2 ^ 3 + p.toNat := by rw [BitVec.toNat_ofNat]; omega
  have hb := (src_fields b).1
  have hn : (Instr.vcmp cond comb p a b).encNat = encR 0x42 d a (encSrc b) := by
    simp only [encR, hd]; show 0x42 * 2 ^ 25 + cond.code * 2 ^ 22 + comb.code * 2 ^ 20 + p.toNat * 2 ^ 17 + a.toNat * 2 ^ 9 + encSrc b = _; omega
  refine decode_of_fields _ 0x42 hn (encR_lt (by decide) hb) (encR_op (by decide) hb) ?_
  have f (lo len : Nat) (h : lo + len ≤ 8) : bitsOf (encR 0x42 d a (encSrc b)) (17 + lo) len = bitsOf d.toNat lo len := by
    have := a.isLt
    rw [show encR 0x42 d a (encSrc b) = (0x42 * 2 ^ 8 + d.toNat) * 2 ^ 17 + (a.toNat * 2 ^ 9 + encSrc b) by simp only [encR]; omega,
      bitsOf_high _ _ (by omega), bitsOf_low _ _ h]
  have g0 : bitsOf d.toNat 3 2 = comb.code := by rw [hd]; simp only [bitsOf]; omega
  have g1 : bitsOf d.toNat 5 3 = cond.code := by rw [hd]; simp only [bitsOf]; omega
  have g2 : bitsOf d.toNat 0 3 = p.toNat := by rw [hd]; simp only [bitsOf]; omega
  show (funVal (combineOf (bitsOf (encR 0x42 d a (encSrc b)) 20 2)) fun m => .ok (.vcmp (condOf (bitsOf (encR 0x42 d a (encSrc b)) 22 3)) m (fP (encR 0x42 d a (encSrc b)) 17) (fA (encR 0x42 d a (encSrc b))) (fSrc (encR 0x42 d a (encSrc b)))) : Dec) = _
  rw [fP, f 3 2 (by decide), f 5 3 (by decide), f 0 3 (by decide), g0, g1, g2, combineOf_code, condOf_code, ofNat_toNat_self, encR_a hb, encR_src]; rfl
theorem RoundTrip.vbfe (d : Reg) (a : Reg) (b : SrcB) : Statement (.vbfe d a b) :=
  roundTrip_V 0x43 (by decide) (fun _ _ _ => rfl) (fun _ => rfl) d a b
theorem RoundTrip.vbfi (d : Reg) (a : Reg) (b : SrcB) : Statement (.vbfi d a b) :=
  roundTrip_V 0x44 (by decide) (fun _ _ _ => rfl) (fun _ => rfl) d a b
theorem RoundTrip.vmov (d : Reg) (a : SrcB) : Statement (.vmov d a) := by
  cases a with
  | v r =>
    have hb : 0 < 512 := by decide
    refine decode_of_fields (encR 0x45 d r 0) 0x45 rfl (encR_lt (by decide) hb) (encR_op (by decide) hb) ?_
    show (zeroBits (bitsOf (encR 0x45 d r 0) 1 8) (.vmov (fD (encR 0x45 d r 0)) (if fS (encR 0x45 d r 0) then .s (fA (encR 0x45 d r 0)) else .v (fA (encR 0x45 d r 0)))) : Dec) = _
    rw [encR_low 1 8 (by decide), fS, encR_low 0 1 (by decide), encR_d hb, encR_a hb]; rfl
  | s r =>
    have hb : 1 < 512 := by decide
    refine decode_of_fields (encR 0x45 d r 1) 0x45 rfl (encR_lt (by decide) hb) (encR_op (by decide) hb) ?_
    show (zeroBits (bitsOf (encR 0x45 d r 1) 1 8) (.vmov (fD (encR 0x45 d r 1)) (if fS (encR 0x45 d r 1) then .s (fA (encR 0x45 d r 1)) else .v (fA (encR 0x45 d r 1)))) : Dec) = _
    rw [encR_low 1 8 (by decide), fS, encR_low 0 1 (by decide), encR_d hb, encR_a hb]; rfl
theorem RoundTrip.vmovi (d : Reg) (imm : BitVec 17) : Statement (.vmovi d imm) :=
  roundTrip_W 0x46 (by decide) (fun _ _ => rfl) (fun _ => rfl) d imm
theorem RoundTrip.vmovhi (d : Reg) (imm : BitVec 16) : Statement (.vmovhi d imm) :=
  roundTrip_H 0x47 (by decide) (fun _ _ => rfl) (fun _ => rfl) d imm
theorem RoundTrip.vaddi (d : Reg) (a : Reg) (imm : BitVec 9) : Statement (.vaddi d a imm) :=
  roundTrip_I 0x48 (by decide) (fun _ _ _ => rfl) (fun _ => rfl) d a imm
theorem RoundTrip.vabs (d : Reg) (a : Reg) : Statement (.vabs d a) :=
  roundTrip_U 0x000 (by decide) (fun _ _ => rfl) (fun w h => by unfold decUnary; rw [h]; rfl) d a
theorem RoundTrip.vneg (d : Reg) (a : Reg) : Statement (.vneg d a) :=
  roundTrip_U 0x001 (by decide) (fun _ _ => rfl) (fun w h => by unfold decUnary; rw [h]; rfl) d a
theorem RoundTrip.vnot (d : Reg) (a : Reg) : Statement (.vnot d a) :=
  roundTrip_U 0x002 (by decide) (fun _ _ => rfl) (fun w h => by unfold decUnary; rw [h]; rfl) d a
theorem RoundTrip.vpopc (d : Reg) (a : Reg) : Statement (.vpopc d a) :=
  roundTrip_U 0x003 (by decide) (fun _ _ => rfl) (fun w h => by unfold decUnary; rw [h]; rfl) d a
theorem RoundTrip.vclz (d : Reg) (a : Reg) : Statement (.vclz d a) :=
  roundTrip_U 0x004 (by decide) (fun _ _ => rfl) (fun w h => by unfold decUnary; rw [h]; rfl) d a
theorem RoundTrip.vctz (d : Reg) (a : Reg) : Statement (.vctz d a) :=
  roundTrip_U 0x005 (by decide) (fun _ _ => rfl) (fun w h => by unfold decUnary; rw [h]; rfl) d a
theorem RoundTrip.vbrev (d : Reg) (a : Reg) : Statement (.vbrev d a) :=
  roundTrip_U 0x006 (by decide) (fun _ _ => rfl) (fun w h => by unfold decUnary; rw [h]; rfl) d a
theorem RoundTrip.vrcp (d : Reg) (a : Reg) : Statement (.vrcp d a) :=
  roundTrip_U 0x010 (by decide) (fun _ _ => rfl) (fun w h => by unfold decUnary; rw [h]; rfl) d a
theorem RoundTrip.vrsq (d : Reg) (a : Reg) : Statement (.vrsq d a) :=
  roundTrip_U 0x011 (by decide) (fun _ _ => rfl) (fun w h => by unfold decUnary; rw [h]; rfl) d a
theorem RoundTrip.vsqrt (d : Reg) (a : Reg) : Statement (.vsqrt d a) :=
  roundTrip_U 0x012 (by decide) (fun _ _ => rfl) (fun w h => by unfold decUnary; rw [h]; rfl) d a
theorem RoundTrip.vexp2 (d : Reg) (a : Reg) : Statement (.vexp2 d a) :=
  roundTrip_U 0x013 (by decide) (fun _ _ => rfl) (fun w h => by unfold decUnary; rw [h]; rfl) d a
theorem RoundTrip.vlog2 (d : Reg) (a : Reg) : Statement (.vlog2 d a) :=
  roundTrip_U 0x014 (by decide) (fun _ _ => rfl) (fun w h => by unfold decUnary; rw [h]; rfl) d a
theorem RoundTrip.vsin (d : Reg) (a : Reg) : Statement (.vsin d a) :=
  roundTrip_U 0x015 (by decide) (fun _ _ => rfl) (fun w h => by unfold decUnary; rw [h]; rfl) d a
theorem RoundTrip.vcos (d : Reg) (a : Reg) : Statement (.vcos d a) :=
  roundTrip_U 0x016 (by decide) (fun _ _ => rfl) (fun w h => by unfold decUnary; rw [h]; rfl) d a
theorem RoundTrip.vtanh (d : Reg) (a : Reg) : Statement (.vtanh d a) :=
  roundTrip_U 0x017 (by decide) (fun _ _ => rfl) (fun w h => by unfold decUnary; rw [h]; rfl) d a
theorem RoundTrip.vrnd (d : Reg) (a : Reg) : Statement (.vrnd d a) :=
  roundTrip_U 0x018 (by decide) (fun _ _ => rfl) (fun w h => by unfold decUnary; rw [h]; rfl) d a
theorem RoundTrip.vfrc (d : Reg) (a : Reg) : Statement (.vfrc d a) :=
  roundTrip_U 0x019 (by decide) (fun _ _ => rfl) (fun w h => by unfold decUnary; rw [h]; rfl) d a
theorem RoundTrip.vclass (d : Reg) (a : Reg) : Statement (.vclass d a) :=
  roundTrip_U 0x01A (by decide) (fun _ _ => rfl) (fun w h => by unfold decUnary; rw [h]; rfl) d a
theorem RoundTrip.vcvt (d : Reg) (a : Reg) : Statement (.vcvt d a) :=
  roundTrip_U 0x020 (by decide) (fun _ _ => rfl) (fun w h => by unfold decUnary; rw [h]; rfl) d a
theorem RoundTrip.vshflIdx (d : Reg) (a : Reg) (b : SrcB) : Statement (.vshflIdx d a b) :=
  roundTrip_V 0x4A (by decide) (fun _ _ _ => rfl) (fun _ => rfl) d a b
theorem RoundTrip.vshflXor (d : Reg) (a : Reg) (b : SrcB) : Statement (.vshflXor d a b) :=
  roundTrip_V 0x4B (by decide) (fun _ _ _ => rfl) (fun _ => rfl) d a b
theorem RoundTrip.vshflUp (d : Reg) (a : Reg) (b : SrcB) : Statement (.vshflUp d a b) :=
  roundTrip_V 0x4C (by decide) (fun _ _ _ => rfl) (fun _ => rfl) d a b
theorem RoundTrip.vshflDn (d : Reg) (a : Reg) (b : SrcB) : Statement (.vshflDn d a b) :=
  roundTrip_V 0x4D (by decide) (fun _ _ _ => rfl) (fun _ => rfl) d a b
theorem RoundTrip.vvote (op : VoteOp) (neg : Bool) (d : Reg) (p : PReg) : Statement (.vvote op neg d p) := by
  have := p.isLt
  have := VoteOp.code_lt op
  have : bit neg 12 = 0 ∨ bit neg 12 = 4096 := by cases neg <;> decide
  have hb : bit neg 12 + p.toNat * 2 ^ 9 + op.code < 2 ^ 17 := by omega
  refine decode_of_fields (encW 0x4E d (bit neg 12 + p.toNat * 2 ^ 9 + op.code)) 0x4E rfl (encW_lt (by decide) hb) (encW_op (by decide) hb) ?_
  have h0 : bitsOf (bit neg 12 + p.toNat * 2 ^ 9 + op.code) 0 2 = op.code := by simp only [bitsOf]; omega
  have h1 : bitsOf (bit neg 12 + p.toNat * 2 ^ 9 + op.code) 13 4 = 0 := by simp only [bitsOf]; omega
  have h2 : bitsOf (bit neg 12 + p.toNat * 2 ^ 9 + op.code) 2 7 = 0 := by simp only [bitsOf]; omega
  have h3 : bitsOf (bit neg 12 + p.toNat * 2 ^ 9 + op.code) 9 3 = p.toNat := by simp only [bitsOf]; omega
  have h4 : (bitsOf (bit neg 12 + p.toNat * 2 ^ 9 + op.code) 12 1 = 1) = (neg = true) := by cases neg <;> simp [bit, bitsOf] <;> omega
  show (funVal (voteOf (bitsOf (encW 0x4E d (bit neg 12 + p.toNat * 2 ^ 9 + op.code)) 0 2)) fun m =>
        zeroBits (bitsOf (encW 0x4E d (bit neg 12 + p.toNat * 2 ^ 9 + op.code)) 13 4 + bitsOf (encW 0x4E d (bit neg 12 + p.toNat * 2 ^ 9 + op.code)) 2 7) (.vvote m (bitsOf (encW 0x4E d (bit neg 12 + p.toNat * 2 ^ 9 + op.code)) 12 1 = 1) (fD (encW 0x4E d (bit neg 12 + p.toNat * 2 ^ 9 + op.code))) (fP (encW 0x4E d (bit neg 12 + p.toNat * 2 ^ 9 + op.code)) 9)) : Dec) = _
  rw [fP, encW_low 0 2 (by decide), encW_low 13 4 (by decide), encW_low 2 7 (by decide), encW_low 9 3 (by decide), encW_low 12 1 (by decide), h0, h1,
    h2, h3, ofNat_toNat_self, encW_d hb]; simp only [h4]; simp [funVal, zeroBits]
theorem RoundTrip.vred (op : RedOp) (d a : Reg) : Statement (.vred op d a) := by
  have := RedOp.code_lt op
  have hb : op.code < 512 := by omega
  refine decode_of_fields (encR 0x4F d a (op.code)) 0x4F rfl (encR_lt (by decide) hb) (encR_op (by decide) hb) ?_
  have h0 : bitsOf op.code 0 3 = op.code := by simp only [bitsOf]; omega
  have h1 : bitsOf op.code 3 6 = 0 := by simp only [bitsOf]; omega
  show (funVal (redOpOf (bitsOf (encR 0x4F d a (op.code)) 0 3)) fun o => zeroBits (bitsOf (encR 0x4F d a (op.code)) 3 6) (.vred o (fD (encR 0x4F d a (op.code))) (fA (encR 0x4F d a (op.code)))) : Dec) = _
  rw [encR_low 0 3 (by decide), encR_low 3 6 (by decide), h0, h1, redOpOf_code, encR_d hb, encR_a hb]; rfl
theorem RoundTrip.vscan (op : RedOp) (d a : Reg) : Statement (.vscan op d a) := by
  have := RedOp.code_lt op
  have hb : op.code < 512 := by omega
  refine decode_of_fields (encR 0x50 d a (op.code)) 0x50 rfl (encR_lt (by decide) hb) (encR_op (by decide) hb) ?_
  have h0 : bitsOf op.code 0 3 = op.code := by simp only [bitsOf]; omega
  have h1 : bitsOf op.code 3 6 = 0 := by simp only [bitsOf]; omega
  show (funVal (redOpOf (bitsOf (encR 0x50 d a (op.code)) 0 3)) fun o => zeroBits (bitsOf (encR 0x50 d a (op.code)) 3 6) (.vscan o (fD (encR 0x50 d a (op.code))) (fA (encR 0x50 d a (op.code)))) : Dec) = _
  rw [encR_low 0 3 (by decide), encR_low 3 6 (by decide), h0, h1, redOpOf_code, encR_d hb, encR_a hb]; rfl
theorem RoundTrip.vmodmul (d : Reg) (a : Reg) (b : SrcB) : Statement (.vmodmul d a b) :=
  roundTrip_V 0x51 (by decide) (fun _ _ _ => rfl) (fun _ => rfl) d a b
theorem RoundTrip.vmodadd (d : Reg) (a : Reg) (b : SrcB) : Statement (.vmodadd d a b) :=
  roundTrip_V 0x52 (by decide) (fun _ _ _ => rfl) (fun _ => rfl) d a b
theorem RoundTrip.vmodsub (d : Reg) (a : Reg) (b : SrcB) : Statement (.vmodsub d a b) :=
  roundTrip_V 0x53 (by decide) (fun _ _ _ => rfl) (fun _ => rfl) d a b
theorem RoundTrip.vbfly (d : Reg) (a : Reg) (b : SrcB) : Statement (.vbfly d a b) :=
  roundTrip_V 0x54 (by decide) (fun _ _ _ => rfl) (fun _ => rfl) d a b
theorem RoundTrip.vqnt (fmt : BlockFmt) (d a : Reg) : Statement (.vqnt fmt d a) := by
  have := BlockFmt.code_lt fmt
  have hb : fmt.code < 512 := by omega
  refine decode_of_fields (encR 0x55 d a (fmt.code)) 0x55 rfl (encR_lt (by decide) hb) (encR_op (by decide) hb) ?_
  have h0 : bitsOf fmt.code 0 4 = fmt.code := by simp only [bitsOf]; omega
  have h1 : bitsOf fmt.code 4 5 = 0 := by simp only [bitsOf]; omega
  show (funVal (blockOf (bitsOf (encR 0x55 d a (fmt.code)) 0 4)) fun f => zeroBits (bitsOf (encR 0x55 d a (fmt.code)) 4 5) (.vqnt f (fD (encR 0x55 d a (fmt.code))) (fA (encR 0x55 d a (fmt.code)))) : Dec) = _
  rw [encR_low 0 4 (by decide), encR_low 4 5 (by decide), h0, h1, blockOf_code, encR_d hb, encR_a hb]; rfl
theorem RoundTrip.vdeq (fmt : BlockFmt) (d a : Reg) : Statement (.vdeq fmt d a) := by
  have := BlockFmt.code_lt fmt
  have hb : fmt.code < 512 := by omega
  refine decode_of_fields (encR 0x56 d a (fmt.code)) 0x56 rfl (encR_lt (by decide) hb) (encR_op (by decide) hb) ?_
  have h0 : bitsOf fmt.code 0 4 = fmt.code := by simp only [bitsOf]; omega
  have h1 : bitsOf fmt.code 4 5 = 0 := by simp only [bitsOf]; omega
  show (funVal (blockOf (bitsOf (encR 0x56 d a (fmt.code)) 0 4)) fun f => zeroBits (bitsOf (encR 0x56 d a (fmt.code)) 4 5) (.vdeq f (fD (encR 0x56 d a (fmt.code))) (fA (encR 0x56 d a (fmt.code)))) : Dec) = _
  rw [encR_low 0 4 (by decide), encR_low 4 5 (by decide), h0, h1, blockOf_code, encR_d hb, encR_a hb]; rfl
theorem RoundTrip.plop (d x y : PReg) (tt : BitVec 4) : Statement (.plop d x y tt) := by
  have := d.isLt
  have := x.isLt
  have := y.isLt
  have := tt.isLt
  refine decode_of_fields (0x57 * 2 ^ 25 + d.toNat * 2 ^ 17 + y.toNat * 2 ^ 12 + x.toNat * 2 ^ 9 + tt.toNat) 0x57 rfl (by omega) (by simp only [bitsOf]; omega) ?_
  generalize hw : 0x57 * 2 ^ 25 + d.toNat * 2 ^ 17 + y.toNat * 2 ^ 12 + x.toNat * 2 ^ 9 + tt.toNat = w
  have h0 : bitsOf w 20 5 = 0 := by simp only [bitsOf, ← hw]; omega
  have h1 : bitsOf w 15 2 = 0 := by simp only [bitsOf, ← hw]; omega
  have h2 : bitsOf w 4 5 = 0 := by simp only [bitsOf, ← hw]; omega
  have h3 : bitsOf w 17 3 = d.toNat := by simp only [bitsOf, ← hw]; omega
  have h4 : bitsOf w 9 3 = x.toNat := by simp only [bitsOf, ← hw]; omega
  have h5 : bitsOf w 12 3 = y.toNat := by simp only [bitsOf, ← hw]; omega
  have h6 : bitsOf w 0 4 = tt.toNat := by simp only [bitsOf, ← hw]; omega
  show (zeroBits (bitsOf w 20 5 + bitsOf w 15 2 + bitsOf w 4 5)
        (.plop (fP w 17) (fP w 9) (fP w 12) (BitVec.ofNat 4 (bitsOf w 0 4))) : Dec) = _
  rw [h0, h1, h2, fP, fP, fP, h3, h4, h5, h6]; simp [zeroBits]
theorem RoundTrip.pmovsS (d : Reg) (p : PReg) : Statement (.pmovsS d p) := by
  have := p.isLt
  have hb : p.toNat * 2 ^ 9 < 2 ^ 17 := by omega
  refine decode_of_fields (encW 0x58 d (p.toNat * 2 ^ 9)) 0x58 rfl (encW_lt (by decide) hb) (encW_op (by decide) hb) ?_
  have h0 : bitsOf (p.toNat * 2 ^ 9) 0 1 = 0 := by simp only [bitsOf]; omega
  have h1 : bitsOf (p.toNat * 2 ^ 9) 12 5 = 0 := by simp only [bitsOf]; omega
  have h2 : bitsOf (p.toNat * 2 ^ 9) 1 8 = 0 := by simp only [bitsOf]; omega
  have h3 : bitsOf (p.toNat * 2 ^ 9) 9 3 = p.toNat := by simp only [bitsOf]; omega
  have hP : fP (encW 0x58 d (p.toNat * 2 ^ 9)) 9 = p := by rw [fP, encW_low 9 3 (by decide), h3, ofNat_toNat_self]
  show (if fS (encW 0x58 d (p.toNat * 2 ^ 9)) then zeroBits (bitsOf (encW 0x58 d (p.toNat * 2 ^ 9)) 20 5 + bitsOf (encW 0x58 d (p.toNat * 2 ^ 9)) 1 8) (.pmovsP (fP (encW 0x58 d (p.toNat * 2 ^ 9)) 17) (fA (encW 0x58 d (p.toNat * 2 ^ 9))))
        else zeroBits (bitsOf (encW 0x58 d (p.toNat * 2 ^ 9)) 12 5 + bitsOf (encW 0x58 d (p.toNat * 2 ^ 9)) 1 8) (.pmovsS (fD (encW 0x58 d (p.toNat * 2 ^ 9))) (fP (encW 0x58 d (p.toNat * 2 ^ 9)) 9)) : Dec) = _
  rw [fS, encW_low 0 1 (by decide), encW_low 12 5 (by decide), encW_low 1 8 (by decide), h0, h1, h2, hP, encW_d hb]; rfl
theorem RoundTrip.pmovsP (p : PReg) (a : Reg) : Statement (.pmovsP p a) := by
  have := p.isLt
  have := a.isLt
  refine decode_of_fields (0x58 * 2 ^ 25 + p.toNat * 2 ^ 17 + a.toNat * 2 ^ 9 + 1) 0x58 rfl (by omega) (by simp only [bitsOf]; omega) ?_
  generalize hw : 0x58 * 2 ^ 25 + p.toNat * 2 ^ 17 + a.toNat * 2 ^ 9 + 1 = w
  have h0 : bitsOf w 0 1 = 1 := by simp only [bitsOf, ← hw]; omega
  have h1 : bitsOf w 20 5 = 0 := by simp only [bitsOf, ← hw]; omega
  have h2 : bitsOf w 1 8 = 0 := by simp only [bitsOf, ← hw]; omega
  have h3 : bitsOf w 17 3 = p.toNat := by simp only [bitsOf, ← hw]; omega
  have h4 : bitsOf w 9 8 = a.toNat := by simp only [bitsOf, ← hw]; omega
  show (if fS w then zeroBits (bitsOf w 20 5 + bitsOf w 1 8) (.pmovsP (fP w 17) (fA w))
        else zeroBits (bitsOf w 12 5 + bitsOf w 1 8) (.pmovsS (fD w) (fP w 9)) : Dec) = _
  simp [fS, fP, fA, regAt, zeroBits, h0, h1, h2, h3, h4]
theorem RoundTrip.pset (op : PsetOp) (p : PReg) : Statement (.pset op p) :=
  match op with
  | .f => psetF p
  | .t => psetT p
  | .nz a => psetNz a p
theorem RoundTrip.ld (m : MemWidth) (sx : Bool) (t : Reg) (a : AddrOp) (la : Look) : Statement (.ld m sx t a la) := by
  have hm := MemWidth.code_lt m
  have hb : bit sx 3 ≤ 8 := by cases sx <;> decide
  refine roundTrip_M 0x60 (by decide) t a la (bit sx 3 + m.code) (by omega) (by rw [← Nat.add_assoc]; rfl) ?_
  intro w ht ha hl hx
  have h0 : bitsOf (bit sx 3 + m.code) 0 3 = m.code := by cases sx <;> simp [bit, bitsOf] <;> omega
  have h1 : (bitsOf (bit sx 3 + m.code) 3 1 = 1) = (sx = true) := by cases sx <;> simp [bit, bitsOf] <;> omega
  show (funVal (widthOf (bitsOf w 0 3)) fun m => .ok (.ld m (bitsOf w 3 1 = 1) (fD w) (fAddr w) (fL w)) : Dec) = _
  simp [funVal, ht, ha, hl, hx, h0, h1]
theorem RoundTrip.st (m : MemWidth) (t : Reg) (a : AddrOp) (la : Look) : Statement (.st m t a la) := by
  have hm := MemWidth.code_lt m
  refine roundTrip_M 0x61 (by decide) t a la (m.code) (by omega) rfl ?_
  intro w ht ha hl hx
  have h0 : bitsOf m.code 0 3 = m.code := by simp only [bitsOf]; omega
  have h1 : bitsOf m.code 3 1 = 0 := by simp only [bitsOf]; omega
  show (funVal (widthOf (bitsOf w 0 3)) fun m => zeroBits (bitsOf w 3 1) (.st m (fD w) (fAddr w) (fL w)) : Dec) = _
  simp [funVal, zeroBits, ht, ha, hl, hx, h0, h1]
theorem RoundTrip.lds (m : MemWidth) (sx : Bool) (t : Reg) (a : AddrOp) (la : Look) : Statement (.lds m sx t a la) := by
  have hm := MemWidth.code_lt m
  have hb : bit sx 3 ≤ 8 := by cases sx <;> decide
  refine roundTrip_M 0x62 (by decide) t a la (bit sx 3 + m.code) (by omega) (by rw [← Nat.add_assoc]; rfl) ?_
  intro w ht ha hl hx
  have h0 : bitsOf (bit sx 3 + m.code) 0 3 = m.code := by cases sx <;> simp [bit, bitsOf] <;> omega
  have h1 : (bitsOf (bit sx 3 + m.code) 3 1 = 1) = (sx = true) := by cases sx <;> simp [bit, bitsOf] <;> omega
  show (funVal (widthOf (bitsOf w 0 3)) fun m => .ok (.lds m (bitsOf w 3 1 = 1) (fD w) (fAddr w) (fL w)) : Dec) = _
  simp [funVal, ht, ha, hl, hx, h0, h1]
theorem RoundTrip.sts (m : MemWidth) (t : Reg) (a : AddrOp) (la : Look) : Statement (.sts m t a la) := by
  have hm := MemWidth.code_lt m
  refine roundTrip_M 0x63 (by decide) t a la (m.code) (by omega) rfl ?_
  intro w ht ha hl hx
  have h0 : bitsOf m.code 0 3 = m.code := by simp only [bitsOf]; omega
  have h1 : bitsOf m.code 3 1 = 0 := by simp only [bitsOf]; omega
  show (funVal (widthOf (bitsOf w 0 3)) fun m => zeroBits (bitsOf w 3 1) (.sts m (fD w) (fAddr w) (fL w)) : Dec) = _
  simp [funVal, zeroBits, ht, ha, hl, hx, h0, h1]
theorem RoundTrip.ldu (m : MemWidth) (sx : Bool) (t a : Reg) (la : Look) : Statement (.ldu m sx t a la) := by
  have hm := MemWidth.code_lt m
  have hsx : bit sx 3 ≤ 8 := by cases sx <;> decide
  refine roundTrip_N 0x64 (by decide) t a la (2 ^ 4 + bit sx 3 + m.code) (by omega) (by rw [← Nat.add_assoc, ← Nat.add_assoc]; rfl) ?_
  intro w ht ha hl hx
  have h0 : bitsOf (2 ^ 4 + bit sx 3 + m.code) 0 3 = m.code := by cases sx <;> simp [bit, bitsOf] <;> omega
  have h1 : (bitsOf (2 ^ 4 + bit sx 3 + m.code) 3 1 = 1) = (sx = true) := by cases sx <;> simp [bit, bitsOf] <;> omega
  have h2 : bitsOf (2 ^ 4 + bit sx 3 + m.code) 4 1 = 1 := by cases sx <;> simp [bit, bitsOf] <;> omega
  show (funVal (widthOf (bitsOf w 0 3)) fun m =>
        zeroBits (1 - bitsOf w 4 1) (.ldu m (bitsOf w 3 1 = 1) (fD w) (fA w) (fL w)) : Dec) = _
  rw [hx 0 3 (by decide), h0, hx 3 1 (by decide), hx 4 1 (by decide), h2, ht, ha, hl]; simp only [h1]; simp [funVal, zeroBits]
theorem RoundTrip.atom (op : AtomOp) (t : Reg) (a : AddrOp) (la : Look) : Statement (.atom op t a la) := by
  have hm := AtomOp.code_lt op
  refine roundTrip_M 0x65 (by decide) t a la (op.code) (by omega) rfl ?_
  intro w ht ha hl hx
  have h0 : bitsOf op.code 0 4 = op.code := by simp only [bitsOf]; omega
  show (funVal (atomOf (bitsOf w 0 4)) fun o => .ok (.atom o (fD w) (fAddr w) (fL w)) : Dec) = _
  simp [funVal, ht, ha, hl, hx, h0]
theorem RoundTrip.atoms (op : AtomOp) (t : Reg) (a : AddrOp) (la : Look) : Statement (.atoms op t a la) := by
  have hm := AtomOp.code_lt op
  refine roundTrip_M 0x66 (by decide) t a la (op.code) (by omega) rfl ?_
  intro w ht ha hl hx
  have h0 : bitsOf op.code 0 4 = op.code := by simp only [bitsOf]; omega
  show (funVal (atomOf (bitsOf w 0 4)) fun o => .ok (.atoms o (fD w) (fAddr w) (fL w)) : Dec) = _
  simp [funVal, ht, ha, hl, hx, h0]
theorem RoundTrip.red (op : AtomOp) (t : Reg) (a : AddrOp) (la : Look) : Statement (.red op t a la) := by
  have hm := AtomOp.code_lt op
  refine roundTrip_M 0x67 (by decide) t a la (op.code) (by omega) rfl ?_
  intro w ht ha hl hx
  have h0 : bitsOf op.code 0 4 = op.code := by simp only [bitsOf]; omega
  show (funVal (atomOf (bitsOf w 0 4)) fun o => .ok (.red o (fD w) (fAddr w) (fL w)) : Dec) = _
  simp [funVal, ht, ha, hl, hx, h0]
theorem RoundTrip.pref (m : PrefMode) (a : AddrOp) (la : Look) : Statement (.pref m a la) := by
  have hm := PrefMode.code_lt m
  refine roundTrip_M 0x68 (by decide) 0 a la (m.code) (by omega) rfl ?_
  intro w ht ha hl hx
  have h0 : bitsOf m.code 0 2 = m.code := by simp only [bitsOf]; omega
  have h1 : bitsOf m.code 2 2 = 0 := by simp only [bitsOf]; omega
  have h2 : bitsOf w 17 8 = 0 := zeroD ht
  show (funVal (prefOf (bitsOf w 0 2)) fun m =>
        zeroBits (bitsOf w 17 8 + bitsOf w 2 2) (.pref m (fAddr w) (fL w)) : Dec) = _
  simp [funVal, zeroBits, ha, hl, hx, h0, h1, h2]
theorem RoundTrip.cmntInv (la : Look) : Statement (.cmntInv la) := by
  refine roundTrip_N 0x69 (by decide) 0 0 la (0) (by omega) rfl ?_
  intro w ht ha hl hx
  show (match bitsOf w 0 2 with
        | 0 => zeroBits (bitsOf w 9 16 + bitsOf w 2 3) (.cmntInv (fL w))
        | 1 => zeroBits (bitsOf w 17 8 + bitsOf w 2 2) (.cmntWbi (fAddr w) (fL w))
        | _ => .error .functionValue : Dec) = _
  rw [hx 0 2 (by decide), hx 2 3 (by decide), zeroDA ht ha, hl]; rfl
theorem RoundTrip.cmntWbi (a : AddrOp) (la : Look) : Statement (.cmntWbi a la) := by
  refine roundTrip_M 0x69 (by decide) 0 a la 1 (by decide) rfl ?_
  intro w ht ha hl hx
  show (match bitsOf w 0 2 with
        | 0 => zeroBits (bitsOf w 9 16 + bitsOf w 2 3) (.cmntInv (fL w))
        | 1 => zeroBits (bitsOf w 17 8 + bitsOf w 2 2) (.cmntWbi (fAddr w) (fL w))
        | _ => .error .functionValue : Dec) = _
  rw [hx 0 2 (by decide), hx 2 2 (by decide), zeroD ht, ha, hl]; rfl
theorem RoundTrip.cadd (f : CtrField) (t : Reg) (a : AddrOp) : Statement (.cadd f t a) :=
  roundTrip_C 0x6A (by decide) (fun _ _ _ => rfl) (fun _ => rfl) f t a
theorem RoundTrip.cwait (f : CtrField) (t : Reg) (a : AddrOp) : Statement (.cwait f t a) :=
  roundTrip_C 0x6B (by decide) (fun _ _ _ => rfl) (fun _ => rfl) f t a
theorem RoundTrip.cread (f : CtrField) (t : Reg) (a : AddrOp) : Statement (.cread f t a) :=
  roundTrip_C 0x6C (by decide) (fun _ _ _ => rfl) (fun _ => rfl) f t a
theorem RoundTrip.ctest (f : CtrField) (t : Reg) (a : AddrOp) : Statement (.ctest f t a) :=
  roundTrip_C 0x6D (by decide) (fun _ _ _ => rfl) (fun _ => rfl) f t a
theorem RoundTrip.cinit (f : CtrField) (t : Reg) (a : AddrOp) : Statement (.cinit f t a) :=
  roundTrip_C 0x6E (by decide) (fun _ _ _ => rfl) (fun _ => rfl) f t a
theorem RoundTrip.craise (f : CtrField) (t : Reg) (a : AddrOp) : Statement (.craise f t a) :=
  roundTrip_C 0x6F (by decide) (fun _ _ _ => rfl) (fun _ => rfl) f t a
theorem RoundTrip.copy (out clr : Bool) (tl : BitVec 2) (t a : Reg) (la : Look) : Statement (.copy out clr tl t a la) := by
  have := tl.isLt
  have hclr : bit clr 3 ≤ 8 := by cases clr <;> decide
  have hout : bit out 2 ≤ 4 := by cases out <;> decide
  refine roundTrip_N 0x70 (by decide) t a la (bit clr 3 + bit out 2 + tl.toNat) (by omega) (by rw [← Nat.add_assoc, ← Nat.add_assoc]; rfl) ?_
  intro w ht ha hl hx
  have h0 : bitsOf (bit clr 3 + bit out 2 + tl.toNat) 4 1 = 0 := by cases clr <;> cases out <;> simp [bit, bitsOf] <;> omega
  have h1 : (bitsOf (bit clr 3 + bit out 2 + tl.toNat) 2 1 = 1) = (out = true) := by cases clr <;> cases out <;> simp [bit, bitsOf] <;> omega
  have h2 : (bitsOf (bit clr 3 + bit out 2 + tl.toNat) 3 1 = 1) = (clr = true) := by cases clr <;> cases out <;> simp [bit, bitsOf] <;> omega
  have h3 : bitsOf (bit clr 3 + bit out 2 + tl.toNat) 0 2 = tl.toNat := by cases clr <;> cases out <;> simp [bit, bitsOf] <;> omega
  show (zeroBits (bitsOf w 4 1) (.copy (bitsOf w 2 1 = 1) (bitsOf w 3 1 = 1) (fTl w) (fD w) (fA w) (fL w)) : Dec) = _
  simp [zeroBits, fTl, ht, ha, hl, hx, h0, h1, h2, h3]
theorem RoundTrip.copyl (clr : Bool) (tl : BitVec 2) (a : Reg) (la : Look) : Statement (.copyl clr tl a la) := by
  have := tl.isLt
  have hclr : bit clr 3 ≤ 8 := by cases clr <;> decide
  refine roundTrip_N 0x71 (by decide) 0 a la (bit clr 3 + tl.toNat) (by omega) (by rw [← Nat.add_assoc]; rfl) ?_
  intro w ht ha hl hx
  have h0 : bitsOf (bit clr 3 + tl.toNat) 4 1 = 0 := by cases clr <;> simp [bit, bitsOf] <;> omega
  have h1 : bitsOf (bit clr 3 + tl.toNat) 2 1 = 0 := by cases clr <;> simp [bit, bitsOf] <;> omega
  have h2 : (bitsOf (bit clr 3 + tl.toNat) 3 1 = 1) = (clr = true) := by cases clr <;> simp [bit, bitsOf] <;> omega
  have h3 : bitsOf (bit clr 3 + tl.toNat) 0 2 = tl.toNat := by cases clr <;> simp [bit, bitsOf] <;> omega
  have h4 : bitsOf w 17 8 = 0 := zeroD ht
  show (zeroBits (bitsOf w 17 8 + bitsOf w 4 1 + bitsOf w 2 1) (.copyl (bitsOf w 3 1 = 1) (fTl w) (fA w) (fL w)) : Dec) = _
  simp [zeroBits, fTl, ha, hl, hx, h0, h1, h2, h3, h4]
theorem RoundTrip.gath (e : GathElem) (tl : BitVec 2) (t a : Reg) (la : Look) : Statement (.gath e tl t a la) := by
  have := tl.isLt
  have := GathElem.code_lt e
  refine roundTrip_N 0x72 (by decide) t a la (e.code * 2 ^ 2 + tl.toNat) (by omega) (by rw [← Nat.add_assoc]; rfl) ?_
  intro w ht ha hl hx
  have h0 : bitsOf (e.code * 2 ^ 2 + tl.toNat) 4 1 = 0 := by simp only [bitsOf]; omega
  have h1 : bitsOf (e.code * 2 ^ 2 + tl.toNat) 2 2 = e.code := by simp only [bitsOf]; omega
  have h3 : bitsOf (e.code * 2 ^ 2 + tl.toNat) 0 2 = tl.toNat := by simp only [bitsOf]; omega
  show (zeroBits (bitsOf w 4 1) (.gath (gathOf (bitsOf w 2 2)) (fTl w) (fD w) (fA w) (fL w)) : Dec) = _
  rw [hx 4 1 (by decide), h0, hx 2 2 (by decide), h1, fTl, hx 0 2 (by decide), h3, ht, ha, hl]; simp [zeroBits]
theorem RoundTrip.mldw (t a : Reg) (la : Look) : Statement (.mldw t a la) := by
  refine roundTrip_N 0x74 (by decide) t a la (0) (by omega) (by rw [Nat.add_zero]; rfl) ?_
  intro w ht ha hl hx
  show (zeroBits (bitsOf w 0 5) (.mldw (fD w) (fA w) (fL w)) : Dec) = _
  rw [hx 0 5 (by decide), ht, ha, hl]; rfl
theorem RoundTrip.mswap (la : Look) : Statement (.mswap la) := by
  refine roundTrip_N 0x75 (by decide) 0 0 la (0) (by omega) rfl ?_
  intro w ht ha hl hx
  show (zeroBits (bitsOf w 9 16 + bitsOf w 0 5) (.mswap (fL w)) : Dec) = _
  rw [zeroDA ht ha, hx 0 5 (by decide), hl]; rfl
theorem RoundTrip.mstr (tile : BitVec 5) (t a : Reg) (la : Look) : Statement (.mstr tile t a la) := by
  have := tile.isLt
  refine roundTrip_N 0x76 (by decide) t a la (tile.toNat) (by omega) rfl ?_
  intro w ht ha hl hx
  show (.ok (.mstr (fTile w) (fD w) (fA w) (fL w)) : Dec) = _
  rw [fTile, hx 0 5 (by decide), bitsOf_all tile.isLt, ofNat_toNat_self, ht, ha, hl]
theorem RoundTrip.mdrn (tile : BitVec 5) (q : BitVec 2) (t : Reg) (la : Look) : Statement (.mdrn tile q t la) := by
  have := tile.isLt
  have := q.isLt
  refine roundTrip_N 0x77 (by decide) t (BitVec.ofNat 8 q.toNat) la (tile.toNat) (by omega) (by rw [show (BitVec.ofNat 8 q.toNat).toNat = q.toNat by rw [BitVec.toNat_ofNat]; omega]; rfl) ?_
  intro w ht ha hl hx
  have hq : bitsOf w 11 6 = 0 ∧ fQ w = q := quarter ha
  show (zeroBits (bitsOf w 11 6) (.mdrn (fTile w) (fQ w) (fD w) (fL w)) : Dec) = _
  rw [hq.1, hq.2, fTile, hx 0 5 (by decide), bitsOf_all tile.isLt, ofNat_toNat_self, ht, hl]; rfl
theorem RoundTrip.mzero (tile : BitVec 5) (la : Look) : Statement (.mzero tile la) := by
  have := tile.isLt
  refine roundTrip_N 0x78 (by decide) 0 0 la (tile.toNat) (by omega) (by rw [show (0 : Reg).toNat * 2 ^ 9 + tile.toNat = tile.toNat from Nat.zero_add _]; rfl) ?_
  intro w ht ha hl hx
  show (zeroBits (bitsOf w 9 16) (.mzero (fTile w) (fL w)) : Dec) = _
  rw [zeroDA ht ha, fTile, hx 0 5 (by decide), bitsOf_all tile.isLt, ofNat_toNat_self, hl]; rfl
theorem RoundTrip.mlda (tile : BitVec 5) (q : BitVec 2) (t : Reg) (la : Look) : Statement (.mlda tile q t la) := by
  have := tile.isLt
  have := q.isLt
  refine roundTrip_N 0x79 (by decide) t (BitVec.ofNat 8 q.toNat) la (tile.toNat) (by omega) (by rw [show (BitVec.ofNat 8 q.toNat).toNat = q.toNat by rw [BitVec.toNat_ofNat]; omega]; rfl) ?_
  intro w ht ha hl hx
  have hq : bitsOf w 11 6 = 0 ∧ fQ w = q := quarter ha
  show (zeroBits (bitsOf w 11 6) (.mlda (fTile w) (fQ w) (fD w) (fL w)) : Dec) = _
  rw [hq.1, hq.2, fTile, hx 0 5 (by decide), bitsOf_all tile.isLt, ofNat_toNat_self, ht, hl]; rfl
theorem RoundTrip.substitution (quad : Nat) : Statement (.substitution quad) := fun h _ => nomatch h
theorem RoundTrip.forcedEntry (quad : Nat) : Statement (.forcedEntry quad) := fun h _ => nomatch h
theorem RoundTrip.napEnd (warp : Nat) (away : Bool) : Statement (.napEnd warp away) := fun h _ => nomatch h
theorem RoundTrip.walk (die : Nat) : Statement (.walk die) := fun h _ => nomatch h
theorem RoundTrip.parkRecord (die : Nat) : Statement (.parkRecord die) := fun h _ => nomatch h
theorem RoundTrip.dugoutReturn (die : Nat) : Statement (.dugoutReturn die) := fun h _ => nomatch h
theorem RoundTrip.invalVa (die : Nat) (part : Nat) : Statement (.invalVa die part) := fun h _ => nomatch h
theorem RoundTrip.invalWorld (die : Nat) (part : Nat) : Statement (.invalWorld die part) := fun h _ => nomatch h
theorem RoundTrip.potSet (die : Nat) (part : Nat) : Statement (.potSet die part) := fun h _ => nomatch h
theorem RoundTrip.ownHost (die : Nat) (part : Nat) : Statement (.ownHost die part) := fun h _ => nomatch h
theorem RoundTrip.ownDevice (die : Nat) (part : Nat) : Statement (.ownDevice die part) := fun h _ => nomatch h
theorem RoundTrip.release (die : Nat) (part : Nat) : Statement (.release die part) := fun h _ => nomatch h
theorem RoundTrip.abandon (die : Nat) (part : Nat) : Statement (.abandon die part) := fun h _ => nomatch h
theorem RoundTrip.keyBind (die : Nat) (part : Nat) : Statement (.keyBind die part) := fun h _ => nomatch h
theorem RoundTrip.keyRetire (die : Nat) (part : Nat) : Statement (.keyRetire die part) := fun h _ => nomatch h
theorem RoundTrip.launch (queue : Nat) : Statement (.launch queue) := fun h _ => nomatch h
theorem RoundTrip.fence (queue : Nat) : Statement (.fence queue) := fun h _ => nomatch h
theorem RoundTrip.fenceMet (queue : Nat) : Statement (.fenceMet queue) := fun h _ => nomatch h
theorem RoundTrip.signal (queue : Nat) : Statement (.signal queue) := fun h _ => nomatch h
theorem RoundTrip.postPublish (post : Nat) : Statement (.postPublish post) := fun h _ => nomatch h
theorem RoundTrip.workgroupDispatch (task : Nat) : Statement (.workgroupDispatch task) := fun h _ => nomatch h
theorem RoundTrip.workgroupEnd (wg : Nat) : Statement (.workgroupEnd wg) := fun h _ => nomatch h
theorem RoundTrip.taskEnd (task : Nat) : Statement (.taskEnd task) := fun h _ => nomatch h
theorem RoundTrip.preemptionRequest (task : Nat) : Statement (.preemptionRequest task) := fun h _ => nomatch h
theorem RoundTrip.drainBound (wg : Nat) : Statement (.drainBound wg) := fun h _ => nomatch h
theorem RoundTrip.savedWaitExpiry (saved : Nat) : Statement (.savedWaitExpiry saved) := fun h _ => nomatch h
theorem RoundTrip.save (wg : Nat) : Statement (.save wg) := fun h _ => nomatch h
theorem RoundTrip.restore (saved : Nat) : Statement (.restore saved) := fun h _ => nomatch h
theorem RoundTrip.coreRetire (core : Nat) : Statement (.coreRetire core) := fun h _ => nomatch h
theorem RoundTrip.arrayQueueExecute (core : Nat) : Statement (.arrayQueueExecute core) := fun h _ => nomatch h
theorem RoundTrip.timelineAdvance (wg : Nat) (tl : Nat) : Statement (.timelineAdvance wg tl) := fun h _ => nomatch h
theorem RoundTrip.refresh (die : Nat) (channel : Nat) (postpone : Bool) : Statement (.refresh die channel postpone) := fun h _ => nomatch h
theorem RoundTrip.rowMitigation (die : Nat) (channel : Nat) (row : Nat) (bad : Bool) : Statement (.rowMitigation die channel row bad) := fun h _ => nomatch h
theorem RoundTrip.patrolScrub (unit : Nat) : Statement (.patrolScrub unit) := fun h _ => nomatch h
theorem RoundTrip.evacuationStart (die : Nat) (channel : Nat) : Statement (.evacuationStart die channel) := fun h _ => nomatch h
theorem RoundTrip.evacuationComplete (die : Nat) (channel : Nat) : Statement (.evacuationComplete die channel) := fun h _ => nomatch h
theorem RoundTrip.l1LifetimeEnd (core : Nat) : Statement (.l1LifetimeEnd core) := fun h _ => nomatch h
theorem RoundTrip.replicaPropagation (die : Nat) (line : Nat) : Statement (.replicaPropagation die line) := fun h _ => nomatch h
theorem RoundTrip.epochEnd (die : Nat) : Statement (.epochEnd die) := fun h _ => nomatch h
theorem RoundTrip.outputQueueArrival (die : Nat) (port : Nat) (outside : Option RawPacket) : Statement (.outputQueueArrival die port outside) := fun h _ => nomatch h
theorem RoundTrip.packetGrant (die : Nat) (port : Nat) : Statement (.packetGrant die port) := fun h _ => nomatch h
theorem RoundTrip.rd (e : Nat) : Statement (.rd e) := fun h _ => nomatch h
theorem RoundTrip.rdr (e : Nat) : Statement (.rdr e) := fun h _ => nomatch h
theorem RoundTrip.wr (e : Nat) : Statement (.wr e) := fun h _ => nomatch h
theorem RoundTrip.wra (e : Nat) : Statement (.wra e) := fun h _ => nomatch h
theorem RoundTrip.atm (e : Nat) : Statement (.atm e) := fun h _ => nomatch h
theorem RoundTrip.atmr (e : Nat) : Statement (.atmr e) := fun h _ => nomatch h
theorem RoundTrip.ctr (e : Nat) : Statement (.ctr e) := fun h _ => nomatch h
theorem RoundTrip.ctrr (e : Nat) : Statement (.ctrr e) := fun h _ => nomatch h
theorem RoundTrip.ack (e : Nat) : Statement (.ack e) := fun h _ => nomatch h
theorem RoundTrip.ackDue (e : Nat) : Statement (.ackDue e) := fun h _ => nomatch h
theorem RoundTrip.bunt (e : Nat) : Statement (.bunt e) := fun h _ => nomatch h
theorem RoundTrip.rreq (e : Nat) : Statement (.rreq e) := fun h _ => nomatch h
theorem RoundTrip.retransmission (src : Nat) (flow : Nat) : Statement (.retransmission src flow) := fun h _ => nomatch h
theorem RoundTrip.noroute (e : Nat) : Statement (.noroute e) := fun h _ => nomatch h
theorem RoundTrip.unacknowledgedResend (src : Nat) (flow : Nat) : Statement (.unacknowledgedResend src flow) := fun h _ => nomatch h
theorem RoundTrip.linkReplay (die : Nat) (port : Nat) (part : Nat) : Statement (.linkReplay die port part) := fun h _ => nomatch h
theorem RoundTrip.halfRetire (die : Nat) (other : Nat) (half : Nat) : Statement (.halfRetire die other half) := fun h _ => nomatch h
theorem RoundTrip.laneRetire (port : Nat) (lane : Nat) : Statement (.laneRetire port lane) := fun h _ => nomatch h
theorem RoundTrip.portRetrain (port : Nat) : Statement (.portRetrain port) := fun h _ => nomatch h
theorem RoundTrip.retrain (agent : Agent) (port : Nat) (value : DWord) : Statement (.retrain agent port value) := fun h _ => nomatch h
theorem RoundTrip.agentPoll (die : Nat) : Statement (.agentPoll die) := fun h _ => nomatch h
theorem RoundTrip.echo (call : Nat) : Statement (.echo call) := fun h _ => nomatch h
theorem RoundTrip.clock (call : Nat) : Statement (.clock call) := fun h _ => nomatch h
theorem RoundTrip.map (call : Nat) : Statement (.map call) := fun h _ => nomatch h
theorem RoundTrip.unmap (call : Nat) : Statement (.unmap call) := fun h _ => nomatch h
theorem RoundTrip.openFile (call : Nat) (answer : HostAnswer) : Statement (.openFile call answer) := fun h _ => nomatch h
theorem RoundTrip.readFile (call : Nat) (answer : HostAnswer) : Statement (.readFile call answer) := fun h _ => nomatch h
theorem RoundTrip.writeFile (call : Nat) (answer : HostAnswer) : Statement (.writeFile call answer) := fun h _ => nomatch h
theorem RoundTrip.closeHandle (call : Nat) : Statement (.closeHandle call) := fun h _ => nomatch h
theorem RoundTrip.connect (call : Nat) (answer : HostAnswer) : Statement (.connect call answer) := fun h _ => nomatch h
theorem RoundTrip.send (call : Nat) (answer : HostAnswer) : Statement (.send call answer) := fun h _ => nomatch h
theorem RoundTrip.recv (call : Nat) (answer : HostAnswer) : Statement (.recv call answer) := fun h _ => nomatch h
theorem RoundTrip.serviceComplete (call : Nat) : Statement (.serviceComplete call) := fun h _ => nomatch h
theorem RoundTrip.cxlMemRequest (ld : Nat) (aperture : Nat) (pa : Nat) (size : Nat) (data : Option (List Byte)) : Statement (.cxlMemRequest ld aperture pa size data) := fun h _ => nomatch h
theorem RoundTrip.hcadd (ld : Nat) : Statement (.hcadd ld) := fun h _ => nomatch h
theorem RoundTrip.hcraise (ld : Nat) : Statement (.hcraise ld) := fun h _ => nomatch h
theorem RoundTrip.hcread (ld : Nat) : Statement (.hcread ld) := fun h _ => nomatch h
theorem RoundTrip.hcwait (ld : Nat) (threshold : DWord) : Statement (.hcwait ld threshold) := fun h _ => nomatch h
theorem RoundTrip.ldbind (agent : Agent) (ld : Nat) (value : DWord) : Statement (.ldbind agent ld value) := fun h _ => nomatch h
theorem RoundTrip.lsmask (agent : Agent) (die : Nat) (part : Nat) (value : DWord) : Statement (.lsmask agent die part value) := fun h _ => nomatch h
theorem RoundTrip.ivctl (agent : Agent) (region : Nat) (value : DWord) : Statement (.ivctl agent region value) := fun h _ => nomatch h
theorem RoundTrip.ivbase (agent : Agent) (region : Nat) (value : DWord) : Statement (.ivbase agent region value) := fun h _ => nomatch h
theorem RoundTrip.qen (agent : Agent) (die : Nat) (value : DWord) : Statement (.qen agent die value) := fun h _ => nomatch h
theorem RoundTrip.punit (agent : Agent) (unit : Nat) (value : DWord) : Statement (.punit agent unit value) := fun h _ => nomatch h
theorem RoundTrip.chown (agent : Agent) (die : Nat) (channel : Nat) (value : DWord) : Statement (.chown agent die channel value) := fun h _ => nomatch h
theorem RoundTrip.capt (agent : Agent) (value : DWord) : Statement (.capt agent value) := fun h _ => nomatch h
theorem RoundTrip.pretry (agent : Agent) (die : Nat) (value : DWord) : Statement (.pretry agent die value) := fun h _ => nomatch h
theorem RoundTrip.preq (agent : Agent) (die : Nat) (value : DWord) : Statement (.preq agent die value) := fun h _ => nomatch h
theorem RoundTrip.preset (agent : Agent) (value : DWord) : Statement (.preset agent value) := fun h _ => nomatch h
theorem RoundTrip.fwcmd (agent : Agent) (value : DWord) (image : Option (BitVec 16)) : Statement (.fwcmd agent value image) := fun h _ => nomatch h
theorem RoundTrip.lcadv (agent : Agent) (value : DWord) (token : Bool) : Statement (.lcadv agent value token) := fun h _ => nomatch h
theorem RoundTrip.registerWrite (agent : Agent) (pa : Nat) (value : DWord) : Statement (.registerWrite agent pa value) := fun h _ => nomatch h
theorem RoundTrip.heartbeat : Statement .heartbeat := fun h _ => nomatch h
theorem RoundTrip.heartbeatCheck (battery : Nat) : Statement (.heartbeatCheck battery) := fun h _ => nomatch h
theorem RoundTrip.batteryRestart (battery : Nat) (ok : Bool) : Statement (.batteryRestart battery ok) := fun h _ => nomatch h
theorem RoundTrip.getVersion (requester : Nat) (request : List Byte) : Statement (.getVersion requester request) := fun h _ => nomatch h
theorem RoundTrip.getCapabilities (requester : Nat) (request : List Byte) : Statement (.getCapabilities requester request) := fun h _ => nomatch h
theorem RoundTrip.negotiateAlgorithms (requester : Nat) (request : List Byte) : Statement (.negotiateAlgorithms requester request) := fun h _ => nomatch h
theorem RoundTrip.getDigests (requester : Nat) (request : List Byte) : Statement (.getDigests requester request) := fun h _ => nomatch h
theorem RoundTrip.getCertificate (requester : Nat) (request : List Byte) : Statement (.getCertificate requester request) := fun h _ => nomatch h
theorem RoundTrip.challenge (requester : Nat) (request : List Byte) : Statement (.challenge requester request) := fun h _ => nomatch h
theorem RoundTrip.getMeasurements (requester : Nat) (request : List Byte) : Statement (.getMeasurements requester request) := fun h _ => nomatch h
theorem RoundTrip.vendorDefinedRequest (requester : Nat) (request : List Byte) : Statement (.vendorDefinedRequest requester request) := fun h _ => nomatch h
theorem RoundTrip.clockStep (up : Bool) : Statement (.clockStep up) := fun h _ => nomatch h
theorem RoundTrip.thermalTrip : Statement .thermalTrip := fun h _ => nomatch h
theorem RoundTrip.deviceReset : Statement .deviceReset := fun h _ => nomatch h
theorem RoundTrip.softError (unit : Nat) (symbols : Nat) : Statement (.softError unit symbols) := fun h _ => nomatch h
theorem RoundTrip.illegalInstruction (w : Word) : Statement (.illegalInstruction w) := fun h _ => nomatch h

end Sys2Proof.Laws
end

