-- ==== Sys2Proof/Tests/Slice0.lean ====
section
/-!
SUPPORT. Tests: the words of the spec's encodings, written out field by field; refusals; the spec's worked results; and for every statement
with hypotheses a state and operands that meet them.
-/

open Sys2Proof Sys2Proof.Machine
namespace Sys2Proof.Tests
theorem test_decode_control :
    decodeTableWord 32 0b00000000000000000000000000000000 = some .nop ∧
    decodeTableWord 32 0b0000001_1111111111111111111111111 = some (.bra 0x1FFFFFF) ∧
    decodeTableWord 32 0b0000010_0000000000000000000000101 = some (.call 5) ∧
    decodeTableWord 32 0b0000011_00001001_11111111111111111 = some (.brz 9 0x1FFFF) ∧
    decodeTableWord 32 0b0000100_01111111_00000000000000011 = some (.brnz 127 3) ∧
    decodeTableWord 32 0b00001010000_1_101_00000000000000010 = some (.brv true 5 2) ∧
    decodeTableWord 32 0b0000110_1000000000000000000000001 = some (.rcv 0x1000001) ∧
    decodeTableWord 32 0b000011100000000_01111110_000000000 = some (.jmpr 126) ∧
    decodeTableWord 32 0b00010000000000000000000000000000 = some .exit := by decide

theorem test_decode_system :
    decodeTableWord 32 0b000100100000000_10000000000000001 = some (.trap 0x10001) ∧
    decodeTableWord 32 0b00010100000000000000000000000000 = some .rtrap ∧
    decodeTableWord 32 0b0001011_01111100_00001000000000000 = some (.svc 124 0x1000) ∧
    decodeTableWord 32 0b000110000000000_00000111_000000000 = some (.nap 7) ∧
    decodeTableWord 32 0b00011010000000000000000000000000 = some .yield ∧
    decodeTableWord 32 0b000111000000000_00000000000000011 = some (.bkpt 3) ∧
    decodeTableWord 32 0b0001111_00001000_00001100_1001_00000 = some (.post 8 12 9) := by decide

theorem test_decode_uniform_1 :
    decodeTableWord 32 0b0010000_00000001_01111111_01000000_0 = some (.sadd 1 127 64) ∧
    decodeTableWord 32 0b0010001_00000010_01111111_01000000_0 = some (.ssub 2 127 64) ∧
    decodeTableWord 32 0b0010010_00000011_01111111_01000000_0 = some (.smul 3 127 64) ∧
    decodeTableWord 32 0b0010011_00000100_01111111_01000000_0 = some (.smulhi 4 127 64) ∧
    decodeTableWord 32 0b0010100_00000101_01111111_01000000_0 = some (.smulhn 5 127 64) ∧
    decodeTableWord 32 0b0010101_00000110_01111111_01000000_0 = some (.sand 6 127 64) ∧
    decodeTableWord 32 0b0010110_00000111_01111111_01000000_0 = some (.sor 7 127 64) ∧
    decodeTableWord 32 0b0010111_00001000_01111111_01000000_0 = some (.sxor 8 127 64) ∧
    decodeTableWord 32 0b0011000_00001001_01111111_01000000_0 = some (.sshl 9 127 64) ∧
    decodeTableWord 32 0b0011001_00001010_01111111_01000000_0 = some (.sshr 10 127 64) ∧
    decodeTableWord 32 0b0011010_00001011_01111111_01000000_0 = some (.ssra 11 127 64) ∧
    decodeTableWord 32 0b0011011_00001100_01111111_01000000_0 = some (.smin 12 127 64) ∧
    decodeTableWord 32 0b0011100_00001101_01111111_01000000_0 = some (.smax 13 127 64) ∧
    decodeTableWord 32 0b0011101_00001110_01111111_01000000_0 = some (.sslt 14 127 64) ∧
    decodeTableWord 32 0b0011110_00001111_01111111_01000000_0 = some (.ssltn 15 127 64) ∧
    decodeTableWord 32 0b0011111_00010000_01111111_01000000_0 = some (.sseq 16 127 64) ∧
    decodeTableWord 32 0b0100000_01111110_00000010_00000100_0 = some (.sadd64 126 2 4) ∧
    decodeTableWord 32 0b0100001_00000010_01111110_01000000_0 = some (.ssub64 2 126 64) ∧
    decodeTableWord 32 0b0100010_00000110_00000100_111111111 = some (.saddi 6 4 0x1FF) ∧
    decodeTableWord 32 0b0100011_00000110_01111111111111111 = some (.smovi 6 0x0FFFF) := by decide

theorem test_decode_uniform_2 :
    decodeTableWord 32 0b0100100_00000110_0_1000000000000001 = some (.smovhi 6 0x8001) ∧
    decodeTableWord 32 0b0100101_00000011_01111111_000000000 = some (.smov 3 127) ∧
    decodeTableWord 32 0b0100110_00000011_11111111_0000_11111 = some (.srdl 3 255 31) := by decide

theorem test_decode_special :
    decodeTableWord 32 0b0101000_00000110_00000000_000011000 = some (.mfs 6 0x18) ∧
    decodeTableWord 32 0b010100100000000_00000110_000010010 = some (.mts 6 0x12) ∧
    decodeTableWord 32 0b0101010_11111111_00000000_000000010 = some (.mfv 255 2) ∧
    decodeTableWord 32 0b01010110_1000001_0_1000000000000001 = some (.mode 0x41 0x8001) ∧
    decodeTableWord 32 0b010110000000000_00000101_000000000 = some (.modes 5) ∧
    decodeTableWord 32 0b010110000000000_00000101_000000001 = some (.modesAll 5) ∧
    decodeTableWord 32 0b0101101_00000110_00000000000000000 = some (.mfmode 6) ∧
    decodeTableWord 32 0b0101110000000000000000000_1000010 = some (.clrflg 0x42) := by decide

theorem test_decode_vector_1 :
    decodeTableWord 32 0b0110000_00000001_11111110_10000001_0 = some (.vadd 1 254 (.v 129)) ∧
    decodeTableWord 32 0b0110001_00000010_11111110_01100001_1 = some (.vsub 2 254 (.s 97)) ∧
    decodeTableWord 32 0b0110010_00000011_11111110_10000001_0 = some (.vmul 3 254 (.v 129)) ∧
    decodeTableWord 32 0b0110011_00000100_11111110_01100001_1 = some (.vmulhi 4 254 (.s 97)) ∧
    decodeTableWord 32 0b0110100_00000101_11111110_10000001_0 = some (.vmulw 5 254 (.v 129)) ∧
    decodeTableWord 32 0b0110101_00000110_11111110_01100001_1 = some (.vfma 6 254 (.s 97)) ∧
    decodeTableWord 32 0b0110110_00000111_11111110_10000001_0 = some (.vfnma 7 254 (.v 129)) ∧
    decodeTableWord 32 0b0110111_00001000_11111110_01100001_1 = some (.vmin 8 254 (.s 97)) ∧
    decodeTableWord 32 0b0111000_00001001_11111110_10000001_0 = some (.vmax 9 254 (.v 129)) ∧
    decodeTableWord 32 0b0111001_00001010_11111110_01100001_1 = some (.vdiv 10 254 (.s 97)) ∧
    decodeTableWord 32 0b0111010_00001011_11111110_10000001_0 = some (.vrem 11 254 (.v 129)) ∧
    decodeTableWord 32 0b0111011_00001100_11111110_01100001_1 = some (.vand 12 254 (.s 97)) ∧
    decodeTableWord 32 0b0111100_00001101_11111110_10000001_0 = some (.vor 13 254 (.v 129)) ∧
    decodeTableWord 32 0b0111101_00001110_11111110_01100001_1 = some (.vxor 14 254 (.s 97)) ∧
    decodeTableWord 32 0b0111110_00001111_11111110_10000001_0 = some (.vshl 15 254 (.v 129)) ∧
    decodeTableWord 32 0b0111111_00010000_11111110_01100001_1 = some (.vshr 16 254 (.s 97)) ∧
    decodeTableWord 32 0b1000000_00010001_11111110_10000001_0 = some (.vsra 17 254 (.v 129)) ∧
    decodeTableWord 32 0b1000001_00010010_11111110_01100001_1 = some (.vsel 18 254 (.s 97)) ∧
    decodeTableWord 32 0b1000011_00010011_11111110_10000001_0 = some (.vbfe 19 254 (.v 129)) ∧
    decodeTableWord 32 0b1000100_00010100_11111110_01100001_1 = some (.vbfi 20 254 (.s 97)) := by decide

theorem test_decode_vector_2 :
    decodeTableWord 32 0b1000010_111_10_101_00000011_11001000_0 = some (.vcmp .ord .or 5 3 (.v 200)) ∧
    decodeTableWord 32 0b1000101_00000111_01100001_00000000_1 = some (.vmov 7 (.s 97)) ∧
    decodeTableWord 32 0b1000110_00000111_10000000000000001 = some (.vmovi 7 0x10001) ∧
    decodeTableWord 32 0b1000111_00000111_0_1000000000000001 = some (.vmovhi 7 0x8001) ∧
    decodeTableWord 32 0b1001000_00000111_10000010_100000000 = some (.vaddi 7 130 0x100) := by decide

theorem test_decode_unary :
    decodeTableWord 32 0b1001001_10000001_01000001_000000000 = some (.vabs 129 65) ∧
    decodeTableWord 32 0b1001001_10000011_01000010_000000001 = some (.vneg 131 66) ∧
    decodeTableWord 32 0b1001001_10000101_01000011_000000010 = some (.vnot 133 67) ∧
    decodeTableWord 32 0b1001001_10000111_01000100_000000011 = some (.vpopc 135 68) ∧
    decodeTableWord 32 0b1001001_10001001_01000101_000000100 = some (.vclz 137 69) ∧
    decodeTableWord 32 0b1001001_10001011_01000110_000000101 = some (.vctz 139 70) ∧
    decodeTableWord 32 0b1001001_10001101_01000111_000000110 = some (.vbrev 141 71) ∧
    decodeTableWord 32 0b1001001_10001111_01001000_000010000 = some (.vrcp 143 72) ∧
    decodeTableWord 32 0b1001001_10010001_01001001_000010001 = some (.vrsq 145 73) ∧
    decodeTableWord 32 0b1001001_10010011_01001010_000010010 = some (.vsqrt 147 74) ∧
    decodeTableWord 32 0b1001001_10010101_01001011_000010011 = some (.vexp2 149 75) ∧
    decodeTableWord 32 0b1001001_10010111_01001100_000010100 = some (.vlog2 151 76) ∧
    decodeTableWord 32 0b1001001_10011001_01001101_000010101 = some (.vsin 153 77) ∧
    decodeTableWord 32 0b1001001_10011011_01001110_000010110 = some (.vcos 155 78) ∧
    decodeTableWord 32 0b1001001_10011101_01001111_000010111 = some (.vtanh 157 79) ∧
    decodeTableWord 32 0b1001001_10011111_01010000_000011000 = some (.vrnd 159 80) ∧
    decodeTableWord 32 0b1001001_10100001_01010001_000011001 = some (.vfrc 161 81) ∧
    decodeTableWord 32 0b1001001_10100011_01010010_000011010 = some (.vclass 163 82) ∧
    decodeTableWord 32 0b1001001_10100101_01010011_000100000 = some (.vcvt 165 83) := by decide

theorem test_decode_lanes :
    decodeTableWord 32 0b1001010_00000001_00000010_10000011_0 = some (.vshflIdx 1 2 (.v 131)) ∧
    decodeTableWord 32 0b1001011_00000001_00000010_01000011_1 = some (.vshflXor 1 2 (.s 67)) ∧
    decodeTableWord 32 0b1001100_00000001_00000010_00000011_0 = some (.vshflUp 1 2 (.v 3)) ∧
    decodeTableWord 32 0b1001101_00000001_00000010_00000011_1 = some (.vshflDn 1 2 (.s 3)) ∧
    decodeTableWord 32 0b1001110_00001001_0000_1_110_0000000_10 = some (.vvote .all true 9 6) ∧
    decodeTableWord 32 0b1001111_00001000_10000010_000000_101 = some (.vred .xor 8 130) ∧
    decodeTableWord 32 0b1010000_00001000_10000010_000000_001 = some (.vscan .min 8 130) ∧
    decodeTableWord 32 0b1010001_00000010_00000100_00000110_1 = some (.vmodmul 2 4 (.s 6)) ∧
    decodeTableWord 32 0b1010010_00000010_00000100_00000110_0 = some (.vmodadd 2 4 (.v 6)) ∧
    decodeTableWord 32 0b1010011_11111100_11111110_11111010_0 = some (.vmodsub 252 254 (.v 250)) ∧
    decodeTableWord 32 0b1010100_00000010_00000100_01111110_1 = some (.vbfly 2 4 (.s 126)) ∧
    decodeTableWord 32 0b1010101_00000011_10000001_00000_0101 = some (.vqnt .mxfp8e5 3 129) ∧
    decodeTableWord 32 0b1010110_10000001_00000011_00000_0111 = some (.vdeq .q4x 129 3) ∧
    decodeTableWord 32 0b101011100000_001_00_011_010_00000_0110 = some (.plop 1 2 3 0b0110) ∧
    decodeTableWord 32 0b1011000_00001001_00000_110_000000000 = some (.pmovsS 9 6) ∧
    decodeTableWord 32 0b101100000000_110_00001001_000000001 = some (.pmovsP 6 9) ∧
    decodeTableWord 32 0b101100100000_011_11001000_0000000_10 = some (.pset (.nz 200) 3) := by decide

theorem test_decode_memory :
    decodeTableWord 32 0b1100000_00000011_10000010_1001_0_1_001 = some (.ld .h true 3 (.lane 130) 9) ∧
    decodeTableWord 32 0b1100001_11111100_01111110_1111_1_0_100 = some (.st .q 252 (.uni 126) 15) ∧
    decodeTableWord 32 0b1100010_00000011_01100001_0001_1_1_000 = some (.lds .b true 3 (.uni 97) 1) ∧
    decodeTableWord 32 0b1100011_00000010_11111111_0000_0_0_011 = some (.sts .d 2 (.lane 255) 0) ∧
    decodeTableWord 32 0b1100100_00000100_00000110_0010_1_0_011 = some (.ldu .d false 4 6 2) ∧
    decodeTableWord 32 0b1100101_00001000_00000010_0011_0_1110 = some (.atom .cas64 8 (.lane 2) 3) ∧
    decodeTableWord 32 0b1100110_00000111_00000101_0011_1_1011 = some (.atoms .xchg32 7 (.uni 5) 3) ∧
    decodeTableWord 32 0b1100111_00001001_00000010_0100_0_1010 = some (.red .xor 9 (.lane 2) 4) ∧
    decodeTableWord 32 0b110100000000000_00000100_0111_1_00_10 = some (.pref .nv (.uni 4) 7) ∧
    decodeTableWord 32 0b11010010000000000000000_0101_00000 = some (.cmntInv 5) ∧
    decodeTableWord 32 0b110100100000000_00000110_0101_0_0001 = some (.cmntWbi (.lane 6) 5) := by decide

theorem test_decode_counters :
    decodeTableWord 32 0b1101010_00000000_00000100_0011_0_0_000 = some (.cadd ⟨.wg, false, 3⟩ 0 (.lane 4)) ∧
    decodeTableWord 32 0b1101011_00000010_00000110_0100_1_1_001 = some (.cwait ⟨.sq, true, 4⟩ 2 (.uni 6)) ∧
    decodeTableWord 32 0b1101100_00000100_00001000_0101_0_0_010 = some (.cread ⟨.die, false, 5⟩ 4 (.lane 8)) ∧
    decodeTableWord 32 0b1101110_00000110_00001010_0110_1_1_011 = some (.cinit ⟨.dev, true, 6⟩ 6 (.uni 10)) ∧
    decodeTableWord 32 0b1101111_00001000_00001100_0111_0_0_100 = some (.craise ⟨.sys, false, 7⟩ 8 (.lane 12)) ∧
    decodeTableWord 32 0b1101101_11111100_01111110_1111_1_1_100 = some (.ctest ⟨.sys, true, 15⟩ 252 (.uni 126)) := by decide

theorem test_decode_copies :
    decodeTableWord 32 0b1110000_00000110_01111000_1001_0_0_1_11 = some (.copy true false 3 6 120 9) ∧
    decodeTableWord 32 0b111000100000000_01111010_0001_0_1_0_10 = some (.copyl true 2 122 1) ∧
    decodeTableWord 32 0b1110010_11111110_01111111_0110_0_11_01 = some (.gath .e32 1 254 127 6) := by decide

theorem test_decode_matrix :
    decodeTableWord 32 0b1110100_00000011_01100001_0100_00000 = some (.mldw 3 97 4) ∧
    decodeTableWord 32 0b11101010000000000000000_0111_00000 = some (.mswap 7) ∧
    decodeTableWord 32 0b1110110_10000010_11111111_1000_11111 = some (.mstr 31 130 255 8) ∧
    decodeTableWord 32 0b1110111_01000000_000000_10_1001_10001 = some (.mdrn 17 2 64 9) ∧
    decodeTableWord 32 0b11110000000000000000000_0001_10000 = some (.mzero 16 1) ∧
    decodeTableWord 32 0b1111001_10000001_000000_11_0010_01001 = some (.mlda 9 3 129 2) := by decide
/-! Witnesses: for each statement with hypotheses, a state and operands that meet all of them together. Every state here is the one
after reset with one word placed (log 3), with its warp, or a part of the device, set as the case needs. -/

/-- The state with a word placed, and its warp. -/
def start (word : Nat) : State := State.reset.withFetchWord 32 word
def warp0 : Warp := Warp.start 0 0 0x10000 false
/-- The state with another warp in the slot that issues. -/
def under (w : Warp) : State := (start 0).setWarp 0 w
/-- The warp under a MODE, and in a workgroup of another card. -/
def typed (mode : Word) : Warp := { warp0 with mode }
def carded (f : Card → Card) : State := { start 0 with wgs := (start 0).wgs.map fun e => (e.1, { e.2 with card := f e.2.card }) }

theorem under_runs (w : Warp) : (under w).runs w := Map.find?_insert_self ..

theorem witness_DecodeReadsEncode : (Instr.sadd 1 2 3).encoded = true ∧ (Instr.sadd 1 2 3).WellFormed := ⟨rfl, rfl⟩
theorem witness_EncodeReadsDecode : decodeWord 0x20000000 = .ok (.sadd 0 0 0) := rfl
theorem witness_ReservedWordsRejected :
    (0x4E000000 : Word).toNat / 2 ^ 25 = 0x27 ∧ (0xFFFFFFFF : Word).toNat / 2 ^ 25 = 0x7F ∧ (1 : Word).toNat / 2 ^ 25 = 0 ∧ (1 : Word) ≠ 0 := by
  decide

/-- A word that decodes, and one that is no instruction. -/
theorem witness_StepRunsDecodedInstruction :
    let ok := fun (word : Nat) (i : Instr) =>
      let s := start word
      let e : TlbEntry := ⟨0, 2, 15, 0x4041, 0, 64, 0, 0⟩
      s.powered = true ∧ s.agenda = [.issue 0 .home] ∧ s.warp? 0 = some warp0 ∧
        (∃ g, s.wg? warp0.wg = some g ∧ g.phase = .running ∧ State.needsStage warp0 g.card = false ∧
          (s.tlbOf (State.coreOf 0)).find? (fun t => t.hits g.world (warp0.slot .home).pc) = some e) ∧
        s.chosen 0 .home = true ∧ s.mayFetchLine 0 (memKey 0 (s.xlate e (warp0.slot .home).pc).pa) = true ∧
        (warp0.slot .home).live = true ∧ (warp0.slot .home).hold = .none ∧ (warp0.slot .home).waiting = false ∧ s.inField 0 = true ∧
        (warp0.slot .home).pc.toNat % 4 = 0 ∧ inWindow (warp0.slot .home).pc = false ∧ canonical (warp0.slot .home).pc = true ∧
        attrBit e.attr 6 = true ∧ e.ap = 0 ∧ s.errors = [] ∧
        BitVec.ofNat 32 word = BitVec.ofNat 32 (s.mem.readNat (memKey 0 (s.xlate e (warp0.slot .home).pc).pa) 4) ∧
        s.instrReady 0 .home warp0 i = true
    (ok 0x20021203 (.illegalInstruction 0x20021203) ∧ decodeWord 0x20021203 = .error .reservedBits) ∧
      ok 0x20021202 (.sadd 1 9 1) ∧ decodeWord 0x20021202 = .ok (.sadd 1 9 1) :=
  ⟨⟨⟨rfl, rfl, rfl, ⟨_, rfl, by decide⟩, by decide⟩, rfl⟩, ⟨rfl, rfl, rfl, ⟨_, rfl, by decide⟩, by decide⟩, rfl⟩

/-! Refusals by name, and the worked results of the spec. -/

/-- An ill-formed term for each operand rule of check 1 (R247, R248, R256, R333, R337, R350). -/
theorem test_check_refuses :
    (Instr.sadd 128 0 0).check = some .sRegister ∧ (Instr.vadd 0 0 (.s 128)).check = some .sRegister ∧ (Instr.jmpr 128).check = some .sRegister ∧
    (Instr.ld .w false 0 (.uni 128) 15).check = some .sRegister ∧ (Instr.sadd64 1 2 4).check = some .oddPair ∧
    (Instr.jmpr 7).check = some .oddPair ∧ (Instr.ld .d false 3 (.lane 2) 15).check = some .oddPair ∧
    (Instr.ld .w false 0 (.lane 3) 15).check = some .oddPair ∧ (Instr.vmodadd 2 3 (.v 4)).check = some .oddPair ∧
    (Instr.ld .q false 6 (.lane 2) 15).check = some .group ∧ (Instr.svc 126 0).check = some .group ∧ (Instr.copyl false 0 124 15).check = some .group ∧
    (Instr.copy false false 0 2 4 15).check = some .group ∧ (Instr.mfs 0 0).check = some .specialNumber ∧
    (Instr.mts 0 0x18).check = some .specialNumber ∧ (Instr.mfv 0 3).check = some .specialNumber ∧
    (Instr.ld .w true 0 (.lane 2) 15).check = some .option ∧ (Instr.ldu .q false 0 2 15).check = some .option ∧
    (Instr.copy true true 0 2 8 15).check = some .option ∧ (Instr.red .cas32 0 (.lane 2) 15).check = some .functionValue := by decide

/-- Words and bytes that are no instruction (R243, R246, R265). -/
theorem test_decode_reserved_opcode : decodeWord 0x4E000000 = .error .reservedOpcode := rfl
theorem test_decode_reserved_bits : decodeWord 1 = .error .reservedBits := rfl
theorem test_decode_function_value : decodeWord 0x920001FF = .error .functionValue := rfl
theorem test_decode_short : decodeBytes [0, 0, 0] = .error .short := rfl

/-- What an instruction leaves in the warp. -/
def after (i : Instr) (w : Warp) : Option Warp :=
  match exec i (under w) with
  | .next t => t.warp? 0
  | _ => none
def sregOf (i : Instr) (s4 s5 s8 s9 : Word) (r : Nat) : Option Word :=
  (after i ((((warp0.setS 4 s4).setS 5 s5).setS 8 s8).setS 9 s9)).map (·.sreg r)
/-- The examples of R294. -/
theorem test_uniform_examples :
    sregOf (.smulhi 6 4 5) 0xFFFFFFFE 3 0 0 6 = some 0xFFFFFFFF ∧ sregOf (.smulhn 6 4 5) 0xFFFFFFFE 3 0 0 6 = some 2 ∧
    sregOf (.ssra 6 4 5) 0x80000000 40 0 0 6 = some 0xFFFFFFFF ∧ sregOf (.sshl 6 4 5) 1 32 0 0 6 = some 0 ∧
    sregOf (.saddi 6 4 0x1FF) 0 0 0 0 6 = some 0xFFFFFFFF ∧ sregOf (.smovi 6 0xFFFF) 0 0 0 0 6 = some 0xFFFF ∧
    sregOf (.sadd64 6 4 8) 0xFFFFFFFF 0 1 0 6 = some 0 ∧ sregOf (.sadd64 6 4 8) 0xFFFFFFFF 0 1 0 7 = some 1 := by decide +kernel

/-- The sequence of R302: its words, the inexact sum that sets NX, the flag that step 3 reads and step 4 clears. -/
theorem test_flag_words :
    decodeTableWord 32 0x5620074A = some (.mode 0x10 0x74A) ∧ decodeTableWord 32 0x60040002 = some (.vadd 2 0 (.v 1)) ∧
    decodeTableWord 32 0x5A0C0000 = some (.mfmode 6) ∧ decodeTableWord 32 0x5C000010 = some (.clrflg 0x10) := by decide
theorem test_flag_sequence :
    let w := ((typed 0x74A).setV 0 3 0x3F800000).setV 1 3 0x30800000
    let x := after (.vadd 2 0 (.v 1)) w
    (x.map fun w => (w.mode.getLsbD 28, w.vreg 2 3)) = some (true, 0x3F800000) ∧
      (x.bind (after (.mfmode 6)) |>.map fun w => (w.sreg 6).getLsbD 28) = some true ∧
      (x.bind (after (.clrflg 0x10)) |>.map fun w => w.mode.getLsbD 28) = some false := by decide +kernel

/-! The ciphers, on published vectors: FIPS 197 C.3, the GCM specification's case 14, and IEEE 1619's vector 10. -/

theorem test_ciphers :
    let w := Aes.schedule (List.range 32)
    let text := (List.range 16).map (17 * ·)
    Aes.fromHigh (Aes.encrypt w text) = 0x8ea2b7ca516745bfeafc49904b496089 ∧ Aes.decrypt w (Aes.encrypt w text) = text := by decide +kernel
theorem test_gcm :
    let zeros := fun (n : Nat) => List.replicate n 0
    let c := Aes.gcm (zeros 32) (zeros 12) (zeros 16)
    Aes.fromHigh c = 0xcea7403d4d606b6e074ec5d3baf39d18 ∧ Aes.fromHigh (Aes.gcmTag (zeros 32) (zeros 12) [] c) = 0xd0d1c8a799996bf0265b98b5d48ab919 := by decide +kernel
theorem test_xts :
    let k1 := Aes.highFirst 32 0x2718281828459045235360287471352662497757247093699959574966967627
    let k2 := Aes.highFirst 32 0x3141592653589793238462643383279502884197169399375105820974944592
    Aes.fromHigh (Aes.xts Aes.encrypt k1 k2 0xff (List.range 32)) = 0x1c3b3a102f770386e4836c99e370cf9bea00803f5e482357a4ae12d414a3e63b := by decide +kernel

/-! Registers, uniform and special instructions, control: the issuing warp is enough, but for the named cases. -/

def task0 : Task := ⟨1, 0, 0, 0, 0, 0, 0, Card.empty, 0, 0, [], 1, [], [], .ok, 0, 0, 0, 0, none, none, 0, 0, [], false⟩
def withTask (s : State) : State := { s with tasks := [(0, task0)] }

theorem witness_UniformResults : (under warp0).runs warp0 := under_runs warp0
/-- A V register within the allocation, and the first beyond one of 16. -/
theorem witness_UniformPairsAndMoves : (under warp0).runs warp0 ∧ 255 < ((under warp0).cardOf warp0).regs ∧
    (carded fun c => { c with regs := 16 }).runs warp0 ∧ ¬16 < ((carded fun c => { c with regs := 16 }).cardOf warp0).regs := by decide
theorem witness_ScalarFrame : (under warp0).runs warp0 ∧ Instr.sadd 1 2 3 ∈ [Instr.sadd 1 2 3] ∧ (0x0B : BitVec 9) ≠ 0x0C := by decide
theorem witness_SpecialRegisterReads : ∃ g t, (withTask (start 0)).runs warp0 ∧ (withTask (start 0)).wg? warp0.wg = some g ∧
    (withTask (start 0)).tasks.find? g.task = some t ∧ 255 < g.card.regs ∧ (2 : BitVec 9).toNat < 3 ∧ 0x19 ≤ (0x19 : BitVec 9).toNat :=
  ⟨_, _, rfl, rfl, rfl, by decide⟩
theorem witness_SpecialRegisterWrites : (under warp0).runs warp0 ∧ ¬(0x12 ≤ (0x11 : BitVec 9).toNat ∧ (0x11 : BitVec 9).toNat ≤ 0x17) ∧
    ¬(0x12 ≤ (0x18 : BitVec 9).toNat ∧ (0x18 : BitVec 9).toNat ≤ 0x17) := by decide

/-- A `jmpr` pair that is a multiple of 4, and one that is not. -/
theorem witness_UniformBranches :
    let w := (warp0.setS 2 4).setS 4 3
    (under w).runs w ∧ ((w.sreg 3).toNat * 2 ^ 32 + (w.sreg 2).toNat) % 4 = 0 ∧ ((w.sreg 5).toNat * 2 ^ 32 + (w.sreg 4).toNat) % 4 ≠ 0 := by decide

/-- `brv` on P1: no lane, all lanes, and one lane with the sibling slot empty, live without a spill stack, live under one that is full, and
live under one with room; a slot of the stack that can be written, one that is misaligned, and one past the scratchpad. -/
theorem witness_BrvDividesLanes :
    let x := fun (p : Word) => warp0.setP 1 p
    let y := { x 1 with away := ⟨0x20000, 1, none, .none⟩ }
    let spilled := carded fun c => { c with spill := 0x100000 }
    let taken := fun (w : Warp) => w.home.mask &&& w.preg 1
    taken (x 0) = 0 ∧ taken (x 0xFFFFFFFF) = 0xFFFFFFFF ∧ taken (x 1) = 1 ∧ (x 1).away.mask = 0 ∧ (x 1).away.hold = .none ∧
      (∃ g, (under y).runs y ∧ (under y).wg? y.wg = some g ∧ y.away.mask ≠ 0 ∧ g.card.spill = 0) ∧
      (∃ g, (spilled.setWarp 0 y).runs y ∧ (spilled.setWarp 0 y).wg? y.wg = some g ∧ g.card.spill ≠ 0 ∧ y.depth ≠ 256) ∧
      { y with depth := 256 }.depth = 256 ∧ addressFits 16 0x40000 0x100000 ∧ (0x100008 : DWord).toNat % 16 ≠ 0 ∧
      (let a := BitVec.ofNat 64 (windowBase + 0x3FFF0 + 16); a.toNat % 16 = 0 ∧ inWindow a = true ∧ 0x40000 < windowOff a + 16) := by
  refine ⟨by decide, by decide, by decide, by decide, by decide, ⟨_, rfl, rfl, by decide⟩, ⟨_, rfl, rfl, by decide⟩, rfl,
    ⟨by decide, by decide⟩, by decide, by decide⟩

/-- An `exit` that holds its slot and is ready; slots at one join, at different joins, a sibling that is empty, held, or runs; and a top
entry that waits at the join, elsewhere, and one that does not wait. -/
theorem witness_LanesEndAndMeet :
    let w := fun (home away : Slot) => { warp0 with home, away }
    let at1 := fun (pc : DWord) (mask : Word) => (⟨pc, mask, some pc, .none⟩ : Slot)
    let st := fun (x : Warp) (sd : Side) => (under x).standing 0 x sd
    let ended := w ⟨0x10000, 1, none, .exit⟩ Slot.empty
    ((ended.slot .home).hold = .exit ∧ (ended.slot .away).hold ≠ .exit ∧ (under ended).exitReady 0 .home = true) ∧
    (let x := w (at1 8 1) (at1 8 2); x.depth = x.baseDepth ∧ st x .home = .waits 8 ∧ st x .away = .waits 8) ∧
    (let x := w (at1 8 1) (at1 12 2); st x .home = .waits 8 ∧ st x .away = .waits 12) ∧
    (let x := w (at1 8 1) Slot.empty; st x .home = .waits 8 ∧ st x .away = .empty) ∧
    (let x := w (at1 8 1) ⟨16, 2, none, .nap 5⟩; st x .home = .waits 8 ∧ st x .away = .held) ∧
    (let x := w (at1 8 1) ⟨0x10000, 2, none, .none⟩; st x .home = .waits 8 ∧ st x .away = .runs) ∧
    (let x := { w (at1 8 1) (at1 12 2) with depth := 1, top := some ⟨9, 4, 0⟩ }; x.baseDepth < x.depth ∧ st x .home = .waits 8 ∧
      st x .away ≠ .waits 8 ∧ (9 : DWord) = 8 ||| 1) ∧
    (let x := { w (at1 8 1) (at1 12 2) with depth := 1, top := some ⟨0x20, 4, 0⟩ };
      x.baseDepth < x.depth ∧ st x .home = .waits 8 ∧ st x .away = .waits 12 ∧ (0x20 : DWord).getLsbD 0 = false) ∧
    (let x := { w (at1 8 1) (at1 12 2) with depth := 1, top := some ⟨0x21, 4, 0⟩ };
      st x .home = .waits 8 ∧ st x .away = .waits 12 ∧ (0x21 : DWord).getLsbD 0 = true ∧ (0x21 : DWord) - 1 ≠ 8 ∧ (0x21 : DWord) - 1 ≠ 12) := by
  decide
theorem witness_ControlFrame : (under warp0).runs warp0 ∧ Instr.nop ∈ [Instr.nop] := by decide

/-- A handler that is aligned, none, one that is not aligned, and a warp in its handler. -/
theorem witness_TrapsEnterOrEnd :
    let has := fun (s : State) (ok : Workgroup → Prop) => ∃ g, s.warp? 0 = some warp0 ∧ s.wg? warp0.wg = some g ∧ ok g
    has (carded fun c => { c with handler := 0x8000 }) (fun g => g.card.handler ≠ 0 ∧ g.card.handler.toNat % 4 = 0 ∧ warp0.frame = none) ∧
    has (start 0) (fun g => g.phase ≠ .stopping ∧ g.card.handler = 0) ∧
    has (carded fun c => { c with handler := 0x8002 }) (fun g => g.phase ≠ .stopping ∧ g.card.handler ≠ 0 ∧ g.card.handler.toNat % 4 ≠ 0) ∧
    { warp0 with frame := some ⟨warp0.home, warp0.away, 0, .home⟩ }.frame ≠ none :=
  ⟨⟨_, rfl, rfl, by decide⟩, ⟨_, rfl, rfl, by decide⟩, ⟨_, rfl, rfl, by decide⟩, by decide⟩
theorem witness_TrapInstructions : (under warp0).runs warp0 := under_runs warp0
/-- Outside a handler; in one with a return address that is a multiple of 4, and one that is not. -/
theorem witness_RtrapReturns :
    let w := fun (pc : DWord) => { warp0 with frame := some ⟨warp0.home, warp0.away, 0, .home⟩, trapPc := pc, trapCode := 9 }
    (∀ x, (under x).runs x) ∧ warp0.frame = none ∧ (w 4).frame ≠ none ∧ ((w 4).trapPc + 4).toNat % 4 = 0 ∧ ((w 5).trapPc + 4).toNat % 4 ≠ 0 :=
  ⟨under_runs, by decide⟩

/-- A slot that naps; a bench with a ready warp, as long as 64 cycles; and a field that is full, with a warp that is blocked. -/
def bench : State :=
  { start 0 with
    clk := 100
    warps := [(0, warp0), (1, warp0)]
    quads := [(0, { Quad.empty with field := [⟨0, 0, 0⟩], bench := [1], ready := [(2, 36)] })] }
theorem witness_SlotsStepAside :
    let napping := { warp0 with home := { warp0.home with hold := .nap 5 } }
    let full := { bench with
      warps := [(0, napping), (1, warp0)], quads := [(0, { Quad.empty with field := List.replicate 8 ⟨0, 68, 0⟩, bench := [1], ready := [(2, 36)] })] }
    bench.runs warp0 ∧ (under napping).warp? 0 = some napping ∧ napping.home.hold = .nap 5 ∧
      (start 0).benchReady 0 = none ∧ (bench.setWarp 0 (warp0.advance .home)).benchReady 0 = some 1 ∧
      bench.benchReady 0 = some 1 ∧ (bench.quad 0).under bench.clk = [] ∧ (bench.quad 0).field.length < 8 ∧
      State.readySince (bench.quad 0) 1 = some 36 ∧ 36 + 64 ≤ bench.clk ∧
      oldest FieldPlace.issued ((bench.quad 0).field.filter fun f => f.entered + 32 ≤ bench.clk) = some ⟨0, 0, 0⟩ ∧
      8 ≤ (full.quad 0).field.length ∧ (full.quad 0).field.find? (fun f => full.blocked (State.keyIn 0 f.slot)) = some ⟨0, 68, 0⟩ ∧
      full.benchReady 0 = some 1 := by decide

/-- Arguments that pass every test, and one for each test that fails, at its boundary. -/
theorem witness_ServiceCallsAndPosts :
    let pair := fun (w : Warp) (r : Nat) => BitVec.ofNat 64 ((w.sreg (r + 1)).toNat * 2 ^ 32 + (w.sreg r).toNat)
    let w := fun (arg ctr sel : Word) => ((warp0.setS 2 arg).setS 4 ctr).setS 6 sel
    let high := (warp0.setS 2 0).setS 3 0xFFFFFF00
    let good := w 64 8 5
    (under good).runs good ∧ (pair good 2).toNat % 64 = 0 ∧ inWindow (pair good 2) = false ∧ (pair good 4).toNat % 8 = 0 ∧
      inWindow (pair good 4) = false ∧ (good.sreg 6).toNat ≤ 5 ∧ (pair (w 32 8 6) 2).toNat % 64 ≠ 0 ∧ (pair (w 64 4 6) 4).toNat % 8 ≠ 0 ∧
      5 < ((w 64 8 6).sreg 6).toNat ∧ (pair high 2).toNat % 64 = 0 ∧ inWindow (pair high 2) = true := by decide

/-! Vector instructions: a MODE whose T (and CT) the clause needs; registers in the allocation of 256. -/

/-- The last pair and the last single register stand in the allocation. -/
theorem room (m : Word) : (under (typed m)).runs (typed m) ∧ (under (typed m)).roomFor (typed m) true 254 ∧
    (under (typed m)).roomFor (typed m) false 255 ∧ (under (typed m)).roomForB (typed m) true (.s 126) ∧
    (under (typed m)).roomForB (typed m) false (.v 255) :=
  ⟨under_runs _, ⟨by show 254 + 2 ≤ 256; omega, by decide⟩, ⟨by show 255 + 1 ≤ 256; omega, by decide⟩, by simp [State.roomForB],
    ⟨by show 255 + 1 ≤ 256; omega, by decide⟩⟩

/-- A 64-bit and a 32-bit type; every entry of the table has a type. -/
theorem witness_BinaryElementwise : Ty.ofCode (modeT (typed 0x746).mode) = some .i64 ∧ Ty.ofCode (modeT (typed 0x744).mode) = some .i32 ∧
    (∀ e ∈ binaryOps 0 0 (.v 0), e.2.1 .i64 = true) ∧ (under (typed 0x744)).roomFor (typed 0x744) Ty.i32.pair 255 :=
  ⟨by decide, by decide, by decide, (room _).2.2.1⟩
theorem witness_UnaryElementwise : Ty.ofCode (modeT (typed 0x7AA).mode) = some .f32 ∧ Ty.ofCode (modeT (typed 0x744).mode) = some .i32 ∧
    (∀ e ∈ unaryOps 0 0 0, e.2.1 .f32 = true ∨ e.2.1 .i32 = true) ∧ Ty.ofCode (modeCT (typed 0x7AA).mode) = some .f32 ∧
    cvtOk .f32 .f32 = true ∧ cvtOk .n64 .mod64 = true ∧ qValid 3 = true := by decide
/-- Operands at the ends of the ranges of a signed and of an unsigned type. -/
theorem witness_IntegerArithmetic : Ty.i8.isInt = true ∧ 255 < 2 ^ Ty.i8.bits ∧ Ty.i8.signed = true ∧ intVal .i8 128 = -2 ^ 7 ∧
    intVal .i8 255 = -1 ∧ Ty.n64.isInt = true ∧ 2 ^ 64 - 1 < 2 ^ Ty.n64.bits ∧ Ty.n64.signed = false ∧
    ¬(Ty.n64.signed = true ∧ intVal .n64 0 = -2 ^ 63 ∧ intVal .n64 1 = -1) ∧ Ty.i8.bits < Ty.n64.bits ∧ Ty.i8.bits ≤ Ty.i8.bits ∧ (0 : Nat) < 3 ∧
    Ty.mod64 ∈ [Ty.i64, .n64, .mod64] := by decide
/-- NaNs; and numbers: zeros of both signs, a subnormal, the greatest, one that has a root. -/
theorem witness_NanResultsAreCanonical : (unpackIn .f32 false 0x7FC00000).isNan = true ∧ (unpackIn .f32 false 0x7F800001).isSnan = true ∧
    (∀ f ∈ [Fmt.f16, .bf16, .f32, .f64], ∀ a ∈ [0, f.signBit, 1, f.maxMag, f.signBit + f.maxMag], a < 2 ^ f.width ∧ a / 2 ^ f.mw % 2 ^ f.ew ≠ 2 ^ f.ew - 1) ∧
    Fmt.value .f32 0x3F800000 = 1 ∧ (0 : Rat) < Fmt.value .f32 0x3F800000 ∧ Fmt.value .f32 0x80000000 = 0 ∧
    Fmt.f32.isNumber 0x3F800000 ∧ isSub .f32 1 = true ∧ (3 : Nat) < 4 ∧ (∀ f ∈ [Fmt.f16, .bf16, .f32, .f64], f.isNumber 0 ∧ f.isNumber f.maxMag) ∧
    Ty.f16.isFloat = true ∧ Ty.f16.fmt? = some .f16 ∧ Fmt.f16.isNaN 0x7D01 ∧ Fmt.f16.isSnan 0x7D01 = true ∧ Fmt.f16.withSign true Fmt.f16.infMag = 0xFC00 := by
  unfold Fmt.isNumber Fmt.isNaN; decide +kernel
/-- Of types: a format and the same, a wider, a narrower and one without infinities; a float to an integer and back. -/
theorem witness_ConversionResults : Ty.f16.fmt? = some .f16 ∧ Ty.f32.fmt? = some .f32 ∧ Ty.e4m3.fmt? = some .e4m3 ∧ Fmt.f16.within .f32 = true ∧
    Fmt.f32.within .f16 = false ∧ Fmt.f16.within .f16 = true ∧ Fmt.f16.isNumber 0x7BFF ∧ Fmt.f16.hasInf = true ∧ Fmt.e4m3.hasInf = false ∧
    Fmt.e4m3.isNaN 0x7F ∧ Ty.n8.isInt = true ∧ 0x7BFF < 2 ^ Ty.f16.bits ∧ 0 < 2 ^ Ty.n8.bits := by
  unfold Fmt.isNumber Fmt.isNaN; decide
/-- Arguments of the functions of R230: a NaN, infinities, zeros, whole numbers, powers of 2, negatives, and numbers past every number of a format. -/
theorem witness_FunctionResults : Fmt.f32.isNaN 0x7FC00000 ∧ Fmt.f32.withSign true Fmt.f32.infMag = 0xFF800000 ∧
    (∀ a ∈ [0, 0x80000000, 0x3F800000, 0x40000000, 0xBF800000, 0x447A0000, 0xC47A0000, 0x43000000, 0xC3000000], Fmt.f32.isNumber a) ∧
    Fmt.f32.valueIn false 0x40000000 = (1 + 1 : Int) ∧ Fmt.f32.valueIn false 0x3F800000 = 1 ∧ Fmt.f32.valueIn false 0x447A0000 = 1000 ∧
    Fmt.f32.valueIn false 0xC47A0000 = -1000 ∧ Fmt.f32.valueIn false 0x80000000 = 0 ∧ Fmt.f32.valueIn true 1 = 0 ∧
    Fmt.f32.valueIn false 0xBF800000 < 0 ∧ Fmt.f32.valueIn false 0x43000000 = 128 ∧ Fmt.f32.valueIn false 0xC3000000 = -128 := by
  unfold Fmt.isNumber Fmt.isNaN; decide +kernel
theorem witness_LaneMoves : Ty.ofCode (modeT (typed 0x740).mode) = some .i8 ∧ Ty.i8.isInt = true ∧ Ty.i8.bits ≤ 32 ∧
    Ty.ofCode (modeT (typed 0x745).mode) = some .n32 ∧ Ty.n32.bits ≤ 32 := by decide
/-- A floating type with any condition, an integer type with one that is no test for order. -/
theorem witness_PredicateResults : Ty.ofCode (modeT (typed 0x74A).mode) = some .f32 ∧ Ty.f32.isFloat = true ∧
    Ty.ofCode (modeT (typed 0x747).mode) = some .n64 ∧ Ty.n64.isInt = true ∧ Cond.ge ≠ .unord ∧ Cond.ge ≠ .ord := by decide
theorem witness_ShuffleResults : (under (typed 0x746)).runs (typed 0x746) ∧ Ty.ofCode (modeT (typed 0x746).mode) = some .i64 ∧
    (under (typed 0x746)).roomFor (typed 0x746) true 254 ∧ (under (typed 0x746)).roomForB (typed 0x746) false (.v 255) :=
  ⟨(room _).1, by decide, (room _).2.1, (room _).2.2.2.2⟩
theorem witness_ReductionResults : Ty.ofCode (modeT (typed 0x74E).mode) = some .mod64 ∧ numTy .f64 = true ∧ Ty.n8.isInt = true ∧
    qValid ({ typed 0x74E with modq := 0x7FFFFFFFFFFFFFFF }).modq.toNat = true := by decide
theorem witness_ModularResults :
    let w := { typed 0x74E with modq := 0x7FFFFFFFFFFFFFFF }
    (under w).runs w ∧ Ty.ofCode (modeT w.mode) = some .mod64 ∧ w.modq.toNat % 2 = 1 ∧ 3 ≤ w.modq.toNat ∧ w.modq.toNat < 2 ^ 63 ∧
      (under w).roomFor w true 254 ∧ (under w).roomForB w true (.s 126) :=
  ⟨under_runs _, by decide, by decide, by decide, by decide, ⟨by show 254 + 2 ≤ 256; omega, by decide⟩, by simp [State.roomForB]⟩
/-- A type that `vclass` takes, and one that a block takes. -/
theorem witness_ClassAndBlockResults : Ty.ofCode (modeT (typed 0x748).mode) = some .f16 ∧ Ty.f16.isFloat = true ∧ Ty.f16.fmt? = some .f16 ∧
    (under (typed 0x748)).roomFor (typed 0x748) false 255 ∧ (under (typed 0x748)).roomFor (typed 0x748) Ty.f16.pair 255 :=
  ⟨by decide, by decide, by decide, (room _).2.2.1, (room _).2.2.1⟩
/-- Blocks with a NaN, with an infinity, of zeros, and with a greatest element, an outlier that is alone or has a second; a scale of each kind. -/
theorem witness_ClassAndBlockResults_blocks :
    let el := fun (x y : Nat) (l : Nat) => if l = 0 then x else if l = 1 then y else 0
    Fmt.f32.isNaN (el 0x7F800001 0 0) ∧ Fmt.f32.isSnan (el 0x7F800001 0 0) = true ∧ Fmt.f32.isSnan (el 0x7FC00000 0 0) = false ∧
      el 0xFF800000 0 0 = Fmt.f32.withSign true Fmt.f32.infMag ∧
      (∀ l, l < 32 → ¬Fmt.f32.isNaN (el 0x41800000 0x3F800000 l)) ∧ (∀ l, l < 32 → Fmt.f32.isNumber (el 0x41800000 0x3F800000 l)) ∧
      Fmt.f32.valueIn false (el 0x41800000 0x3F800000 0) = 16 ∧ (∀ l, l < 32 → Fmt.f32.valueIn false (el 0x41800000 0x3F800000 l) ≤ 16) ∧
      (∀ l, l < 32 → l ≠ 0 → Fmt.f32.valueIn false (el 0x41800000 0x3F800000 l) ≤ 1) ∧ Fmt.f32.valueIn false (el 0x41800000 0x3F800000 1) = 1 ∧
      (∀ l, l < 32 → l ≠ 0 → Fmt.f32.valueIn false (el 0x41800000 0 l) = 0) ∧ Fmt.e5m2.isNumber 0x7B ∧ Fmt.e5m2.isNaN 0x7D ∧
      Fmt.e5m2.isSnan 0x7D = true ∧ (0x7C : Nat) = Fmt.e5m2.withSign false Fmt.e5m2.infMag ∧ (254 : Nat) < 255 := by
  unfold Fmt.isNumber Fmt.isNaN; decide +kernel
/-- A reserved T and CT, a T that the instruction does not take, a pair that R234 leaves out, an odd pair, and an invalid q. -/
theorem witness_VectorTraps : Ty.ofCode (modeT (typed 0x74F).mode) = none ∧
    (∃ e ∈ binaryOps 0 0 (.v 0), e.2.1 .mod64 = false) ∧ (∃ e ∈ unaryOps 0 0 0, e.2.1 .mod64 = false) ∧
    (∃ e ∈ binaryOps 0 0 (.v 0), e.2.1 .i64 = true) ∧ ¬(under (typed 0x746)).roomFor (typed 0x746) Ty.i64.pair 255 ∧
    Ty.ofCode (modeT (typed 0x74E).mode) = some .mod64 ∧ qValid (typed 0x74E).modq.toNat = false ∧
    (Ty.ofCode (modeCT (typed 0x7F6).mode) = none ∧ Ty.ofCode (modeT (typed 0x7F6).mode) = some .i64) ∧
    (Ty.mod64 ≠ .i64 ∧ Ty.mod64 ≠ .n64 ∧ Ty.i64.isInt = true ∧ Ty.f32.isInt = false) ∧
    (qValid 3 = true ∧ Ty.i64.isFloat = false ∧ Ty.f32.isFloat = true) ∧
    ¬(carded fun c => { c with regs := 16 }).roomFor (typed 0x744) false 16 := by
  refine ⟨by decide, by decide, by decide, by decide, ?_, by decide, by decide, by decide, by decide, by decide, ?_⟩
  · exact fun h => absurd h.1 (by show ¬255 + 2 ≤ 256; omega)
  · exact fun h => absurd h.1 (by show ¬16 + 1 ≤ 16; omega)
theorem witness_VectorFrame : (under (typed 0x7A6)).runs (typed 0x7A6) ∧ Ty.ofCode (modeT (typed 0x7A6).mode) = some .i64 ∧
    Ty.ofCode (modeCT (typed 0x7A6).mode) = some .f32 := ⟨under_runs _, by decide⟩

/-! Memory, counters, copies, the array. -/

/-- Addresses at the ends of what the tests accept, and just past them: a misaligned one, and one past the scratchpad. -/
theorem witness_LaneAccessesIssue : addressFits 4 0x40000 (BitVec.ofNat 64 (windowBase + 0x3FFFC)) ∧ addressFits 16 0x40000 0xFFF0 ∧
    (under warp0).part warp0 = 0xFFFFFFFF ∧ (under (typed 0x044)).part (typed 0x044) = 0 ∧
    (under warp0).roomForAddr warp0 false (.uni 2) ∧ (∀ e ∈ laneAccesses .w false .add32 255 (.uni 2) 15, 255 + e.regs ≤ 256) ∧
    ∀ l, (warp0.home.mask).getLsbD l = true → addressFits 4 0x40000 (addrOf false (.uni 2) warp0 l) :=
  ⟨⟨by decide, by decide⟩, ⟨by decide, by decide⟩, by decide, by decide, trivial, by decide, fun _ _ => (⟨by decide, by decide⟩ : addressFits 4 0x40000 (0 : DWord))⟩
/-- A counter operation of warp 0 that has not completed. -/
def counting0 : MemOp :=
  ⟨.warp 0 .home, 0, 0, 0, 0, 0, .counter .add .wg false 2 true, 15, true, false, 0x10000, 1, [⟨0x10000, [⟨0, 0, 8, [], none⟩], none, .core, 0, [], [], false⟩], 0, 0, 0, 0⟩
theorem witness_LineAndCounterRequestsIssue : (under warp0).runs warp0 ∧ addressFits 8 0x40000 0xFF8 ∧ (under warp0).part warp0 ≠ 0 ∧
    (under (typed 0x044)).part (typed 0x044) = 0 ∧ (under warp0).roomForAddr warp0 false (.uni 2) ∧ 252 + 4 ≤ ((under warp0).cardOf warp0).regs ∧
    (under warp0).curKey = 0 ∧ ((under warp0).stream 0).any (fun d => d.2.kind.isCounter) = false ∧
    ({ under warp0 with ops := [(1, counting0)] }.stream 0).any (fun d => d.2.kind.isCounter) = true :=
  ⟨under_runs _, ⟨by decide, by decide⟩, by decide, by decide, trivial, by decide, by decide, by decide, by decide⟩

/-- A register beyond an allocation of 16; a misaligned address with none below it, and one past the scratchpad; slots alone, at
different matrix instructions, format words that agree and are no word, and that differ; a card without the array, or tiles. -/
def twoSlots : State :=
  { start 0xEA000000 with
    warps := [(0, { warp0 with home := { warp0.home with mask := 1 }, away := ⟨0x10004, 2, none, .none⟩, entered := true })]
    mem := (start 0xEA000000).mem.writeNat (memKey 0 0x200004) 4 0xF0000000 }
theorem witness_MemoryTraps :
    let w := (warp0.setV 2 0 0x11).setV 2 1 0x12
    let far := warp0.setV 2 0 0x3FFFD
    (under w).runs w ∧ ¬255 + 2 ≤ ((under w).cardOf w).regs ∧ 0 ∈ (under w).partLanes w ∧ (addrOf true (.lane 2) w 0).toNat % 2 ≠ 0 ∧
      (addrOf true (.lane 2) far 0).toNat % 1 = 0 ∧ inWindow (addrOf true (.lane 2) far 0) = true ∧
      ¬windowOff (addrOf true (.lane 2) far 0) + 4 ≤ ((under far).cardOf far).scrSize ∧
      (∃ g, (start 0).wg? 0 = some g ∧ g.card.usesArray = true ∧ g.card.tiles ≤ 32) ∧ ¬(32 : Nat) ≤ (31 : BitVec 5).toNat ∧
      (∃ g, (carded fun c => { c with flags := 0, tiles := 31 }).wg? 0 = some g ∧ g.card.usesArray = false ∧ g.card.tiles ≤ (31 : BitVec 5).toNat) ∧
      (under w).meeting 0 w .home = .alone ∧ ((under w).arrays.get [] 0).length < 8 ∧
      Ty.ofCode (modeCT (typed 0x7F6).mode) = none ∧ ((warp0.setS 3 64).sreg 3).toNat % 128 ≠ 0 ∧ ((warp0.setS 3 0x40000).sreg 3).toNat % 128 = 0 ∧
      0x40000 < 0x40000 + ldwBytes (wfOf 0x11) ∧
      (∃ g, (start 0).wg? 0 = some g ∧ formatAtIssue g [.swap, .ldw 9 none] ≠ some (wfOf 0x11) ∧ formatAtIssue g [.ldw 9 none, .swap] = some (wfOf 0x299)) ∧
      accOf 0x299 = 2 ∧ qValid 4 = false ∧ qValid 3 = true ∧ ¬(255 + groupRegs (afOf 0x299) ≤ 256) ∧
      voteWord w 0xFFFFFFFF 2 = .error 1 ∧ voteWord w 1 2 = .ok 0x11 ∧ wordOk 0x11 = true ∧ wordOk 0x10F = false ∧
      (∃ v, twoSlots.warp? 0 = some v ∧ twoSlots.meeting 0 v .home = .differ) := by
  refine ⟨under_runs _, by decide, by decide, by decide, by decide, by decide, by decide, ⟨_, rfl, by decide⟩, by decide, ⟨_, rfl, by decide⟩,
    by decide, by decide, by decide, by decide, by decide, by decide, ⟨_, rfl, by decide⟩, by decide, by decide, by decide, by decide, rfl, rfl, by decide, by decide, ⟨_, rfl, by decide⟩⟩

/-- Operations whose requests have come back, one lane each. -/
theorem witness_ResultsOfRequests :
    let p : Piece := ⟨31, 0, 8, leBytes 8 5, some (leBytes 8 7)⟩
    (start 0).warp? 0 = some warp0 ∧ (([p].map (·.lane)).Nodup ∧ ∀ q ∈ [p], q.lane < 32) ∧ MemWidth.d ≠ .q ∧
      (OpKind.load .w true 3 ≠ .store) ∧ (0 < 32 ∧ ¬(3 ≤ 2 ∧ 2 < 3 + 4)) := by decide
theorem witness_HomeEffects : (2 ^ 64 - 1) < 2 ^ 64 ∧ 2 ^ 64 ≤ (2 ^ 64 - 1) + 1 ∧ (2 ^ 64 - 2) + 1 < 2 ^ 64 ∧ CtrKind.wait ∈ [CtrKind.read, .test, .wait] ∧
    CtrKind.add ≠ .init ∧ 2 ^ 128 - 1 < 2 ^ 128 ∧ 2 ^ 32 - 1 < 2 ^ 32 := by decide

/-- A timeline of the card, one beyond it, one frozen; a descriptor that fits, is misaligned, and passes the scratchpad. -/
theorem witness_CopiesIssue :
    (∃ g, (start 0).wg? 0 = some g ∧ (3 : BitVec 2).toNat < g.card.timelines ∧ (3 : BitVec 2).toNat ∉ g.frozenTl) ∧
    (∃ g, (carded fun c => { c with timelines := 3 }).wg? 0 = some g ∧ g.card.timelines ≤ (3 : BitVec 2).toNat) ∧
    (∃ g, State.wg? { start 0 with wgs := (start 0).wgs.map fun (e : Nat × Workgroup) => (e.1, { e.2 with frozenTl := [3] }) } 0 = some g ∧
      (3 : BitVec 2).toNat < g.card.timelines ∧ (3 : BitVec 2).toNat ∈ g.frozenTl) ∧
    addressFits 128 0x40000 (BitVec.ofNat 64 (windowBase + 0x3FF80)) ∧ (0x40 : DWord).toNat % 128 ≠ 0 ∧
    (let a := BitVec.ofNat 64 (windowBase + 0x40000); a.toNat % 128 = 0 ∧ inWindow a = true ∧ 0x40000 < windowOff a + 128) :=
  ⟨⟨_, rfl, by decide⟩, ⟨_, rfl, by decide⟩, ⟨_, rfl, by decide⟩, ⟨by decide, by decide⟩, by decide, by decide⟩

/-- The read of a descriptor, for a `copy` whose warp waits: misaligned, and past the scratchpad. -/
theorem witness_CopiesIssue_descriptor :
    let w := { warp0 with home := { warp0.home with hold := .copy 1 } }
    let o := fun (va : DWord) => { counting0 with kind := .desc true false 3 (List.replicate 8 0), reqs := [⟨va, [⟨0, 0, 128, [], none⟩], none, .core, 0, [], [], false⟩] }
    (under w).warp? 0 = some w ∧ w.waitsNow 1 = true ∧ (∀ va, (o va).owner = .warp 0 .home) ∧ (0x10040 : DWord).toNat % 128 ≠ 0 ∧
      (let a := BitVec.ofNat 64 (windowBase + 0x40000); a.toNat % 128 = 0 ∧ inWindow a = true ∧ ((under w).cardOf w).scrSize < windowOff a + 128) :=
  ⟨Map.find?_insert_self .., by decide, fun _ => rfl, by decide, by decide⟩

/-- Slots alone and at one program counter, with room in the queue, legal words, a plane of the word's format, and the last tile. -/
theorem witness_MatrixInstructionsEnterTheQueue :
    let w := warp0.setV 2 0 0x11
    let both := { warp0 with home := { warp0.home with mask := 1 }, away := ⟨0x10000, 2, none, .none⟩, entered := true }
    let s := { start 0xEA000000 with warps := [(0, both)] }
    (under w).runs w ∧ (under w).meeting 0 w .home = .alone ∧ s.runs both ∧ s.meeting 0 both .home = .merged ∧
      ((under w).arrays.get [] 0).length < 8 ∧ (∃ g, (under w).wg? 0 = some g ∧ g.card.usesArray = true ∧ (31 : BitVec 5).toNat < g.card.tiles) ∧
      Ty.ofCode (modeCT (typed 0x764).mode) = some .i64 ∧ (30 : BitVec 5).toNat + 1 < 32 ∧ 192 + drainRegs .i64 ≤ 256 ∧
      voteWord w 1 2 = .ok 0x11 ∧ wordOk 0x11 = true ∧ 0 + ldwBytes (wfOf 0x11) ≤ 0x40000 ∧ { Plane.zero with fmt := some 1 }.fmt = some (wfOf 0x11) ∧
      accOf 0x299 = 2 ∧ wordOk 0x299 = true ∧ qValid 3 = true ∧ 224 + groupRegs (afOf 0x11) ≤ 256 := by
  refine ⟨under_runs _, by decide, by decide, by decide, by decide, ⟨_, rfl, by decide⟩, by decide, by decide, by decide, rfl, by decide, by decide,
    by decide, by decide, by decide, by decide, by decide⟩

/-- A queue with an entry, whose workgroup and warp stand. -/
theorem witness_ArrayTakesItsOldest :
    let e : ArrEntry := ⟨0, 0, .home, false, .drn 31 3 0 1 0x700, 0, 15⟩
    let s := { start 0 with arrays := [(0, [e])] }
    s.arrays.get [] 0 = e :: [] ∧ (s.wg? e.wg).isSome = true ∧ s.errors = [] ∧ s.warp? e.key = some warp0 ∧ 3 < 4 ∧ accOf 0x11 = 0 ∧
      accOf 0x299 = 2 ∧ afOf 0x299 = 9 ∧ (Plane.fmt { Plane.zero with fmt := some 9 }) = some 9 ∧ accOf 0x111 ≠ 0 ∧
      16384 ≤ (List.replicate 16384 (0 : Byte)).length := by
  exact ⟨rfl, rfl, rfl, by decide, by decide, by decide, by decide, by decide, by decide, by decide, Nat.le_of_eq List.length_replicate.symm⟩
/-- Legal words of a 32-bit and of a 64-bit accumulator with a plane of their format; rows that are numbers, and one with a NaN; drains of each
width; an `mldw` that waits for its load, and one whose load is gone. -/
theorem witness_ArrayTakesItsOldest_values :
    let code := fun (x : Nat) (k : Nat) => if k = 0 then x else 0
    let e : ArrEntry := ⟨0, 0, .home, false, .ldw 9 none, 1, 15⟩
    let loads := fun (o : Owner) => { start 0 with arrays := [(0, [e])], ops := [(1, { counting0 with kind := .mldw, owner := o })] }
    ((∀ k, k < 64 → operandFinite (afOf 0x11) 0 (code 0x7BFF) k ∧ operandFinite (wfOf 0x11) 0 (code 0) k) ∧
      operandNaN (afOf 0x11) 0 (code 0x7C01) 0 ∧ operandNaN 6 255 (code 0) 0 ∧ Fmt.f32.isNumber 0 ∧ Fmt.f32.isNaN 0x7FC00000) ∧
      wordOk 0x11 = true ∧ accOf 0x11 = 0 ∧ ({ Plane.zero with fmt := some 1 }).fmt = some (wfOf 0x11) ∧ wordOk 392 = true ∧ accOf 392 = 1 ∧
      ({ Plane.zero with fmt := some 8 }).fmt = some (wfOf 392) ∧ Ty.ofCode (modeCT (typed 0x7A6).mode) = some .f32 ∧ 224 + drainRegs .f32 ≤ 256 ∧ Ty.f32.bits < 64 ∧
      Ty.ofCode (modeCT (typed 0x764).mode) = some .i64 ∧ 192 + drainRegs .i64 ≤ 256 ∧ Ty.i64.bits = 64 ∧
      Fmt.f32.withSign false Fmt.f32.infMag = 0x7F800000 ∧
      (loads (.warp 0 .home)).arrays.get [] 0 = [e] ∧ (loads (.warp 0 .home)).sourceDue e = true ∧ (loads .gone).sourceDue e = false := by
  have h : ∀ k, k < 64 → Fmt.f16.isNumber (if k = 0 then 0x7BFF else 0) ∧ Fmt.f16.isNumber (if k = 0 then 0 else 0) := by
    unfold Fmt.isNumber; decide
  exact ⟨⟨h, ⟨by decide, by decide⟩, rfl, ⟨by decide, by decide⟩, by decide, by decide⟩, by decide +kernel⟩

/-! Translation, records, timelines, commands: world 0 with tables for the page at 0x10000, and rings of partition 0 on die 0. -/

/-- World 0 of partition 0: its root entry, a table of each level, and the leaf of page 2 with R, W, X; every frame is the world's. -/
def mapped : State :=
  { start 0 with
    pot := [(4, 4096), (5, 4096), (6, 4096), (7, 4096), (64, 4096)]
    mem := ((((((start 0).mem.writeNat 0x10000 8 (4 * 2 ^ 16 + 1)).writeNat 0x20000 8 (5 * 2 ^ 16 + 3)).writeNat 0x28000 8 (6 * 2 ^ 16 + 3)).writeNat
      0x30000 8 (7 * 2 ^ 16 + 3)).writeNat 0x38010 8 (64 * 2 ^ 16 + 0x61)) }.setReg (Reg.dtu 0 0) 0x10001

/-- A load of one lane that asks for a page, with its place in the miss queue. -/
def asker (va : DWord) : MemOp :=
  ⟨.warp 0 .home, 0, 0, 0, 0, 0, .load .w false 3, 15, true, false, 0x10000, 1, [⟨va, [⟨0, 0, 4, [], none⟩], none, .miss, 0, [], [], false⟩], 0, 0, 0, 0⟩
def asking (o : MemOp) (page : Nat) : State := { mapped with ops := [(1, o)], dtus := [(0, { Dtu.empty with missQ := [⟨0, page, [(1, 0)], none, false⟩] })] }
theorem witness_WalkAnswers :
    let good := asking (asker 0x10000) 2
    let absent := asking (asker 0x18000) 3
    let quiet := asking { asker 0x18000 with kind := .pref .tr } 3
    let far := { good with mem := good.mem.writeNat 0x38010 8 (2 ^ 44 + 0x71) }
    (good.dtu 0).missQ = [⟨0, 2, [(1, 0)], none, false⟩] ∧ good.reqOf (1, 0) = some (asker 0x10000, ⟨0x10000, [⟨0, 0, 4, [], none⟩], none, .miss, 0, [], [], false⟩) ∧
      2 = pageOf 0x10000 ∧ State.dieOfCore (asker 0x10000).core = 0 ∧ good.errors = [] ∧
      (∃ e, good.walk 0 0 0 0x10000 = .ok e ∧ good.heldBack e = false ∧ e.ap ≠ 4 ∧ permCause ((asker 0x10000).permAt 0) e.ap e.attr = none) ∧
      (∃ e, far.walk 0 0 0 0x10000 = .ok e ∧ far.heldBack e = false ∧ e.ap = 4 ∧ far.mayAsk 0 e = true) ∧
      absent.walk 0 0 0 0x18000 = .park .notPresent ∧ (asker 0x18000).kind.quiet = false ∧ quiet.walk 0 0 0 0x18000 = .park .notPresent ∧
      (OpKind.pref .tr).quiet = true ∧ (absent.dtu 0).waiting = [] ∧ State.usedUnits (absent.dtu 0) false + 1 ≤ 8192 := by
  refine ⟨rfl, rfl, rfl, rfl, rfl, ⟨_, rfl, rfl, by decide, rfl⟩, ⟨_, rfl, rfl, rfl, by decide⟩, rfl, rfl, rfl, rfl, rfl, by decide⟩

/-- A leaf that permits no write; a frame of another world, found for a warp and for a copy; dugouts that are full, and one behind others. -/
theorem witness_WalkAnswers_stops :
    let far := { asking (asker 0x10000) 2 with pot := [(4, 4096), (5, 4096), (6, 4096), (7, 4096), (64, 4097)] }
    let good := asking (asker 0x10000) 2
    let closed := { good with mem := good.mem.writeNat 0x38010 8 (64 * 2 ^ 16 + 1) }
    let engine := { asker 0x10000 with owner := .copy 7 }
    let copies := { asking engine 2 with pot := far.pot, copies := [(7, ⟨0, 0, 3, 1, 0, 0, [], [], false, [], [], false⟩)] }
    let full := { asking (asker 0x18000) 3 with dtus := [(0, { Dtu.empty with
      missQ := [⟨0, 3, [(1, 0)], none, false⟩]
      parked := [⟨1, (2, 0), 0, 9, 0, 0, .notPresent, .ld, 0x48000, 0, 0, 8192, false⟩, ⟨2, (3, 0), 0, 9, 0, 0, .notPresent, .ld, 0x48000, 0, 0, 262144, true⟩] })] }
    (∃ e, closed.walk 0 0 0 0x10000 = .ok e ∧ closed.heldBack e = false ∧ e.ap ≠ 4 ∧ permCause (({ asker 0x10000 with kind := .store } : MemOp).permAt 0) e.ap e.attr = some .write) ∧
      (∃ w pa, far.walk 0 0 0 0x10000 = .freeze w pa) ∧ (far.wg? 0).isSome = true ∧ (∀ c, (asker 0x10000).owner ≠ .copy c) ∧
      engine.owner = .copy 7 ∧ (copies.copies.find? 7).isSome = true ∧ (copies.reqOf (1, 0)).isSome = true ∧
      full.walk 0 0 0 0x18000 = .park .notPresent ∧ ¬(State.usedUnits (full.dtu 0) false + 1 ≤ 8192 ∨ State.usedUnits (full.dtu 0) true + 1 ≤ 262144) := by
  refine ⟨⟨_, rfl, rfl, by decide, by decide⟩, ⟨_, _, rfl⟩, rfl, (fun _ h => nomatch h), rfl, rfl, rfl, rfl, by decide⟩

/-- A ring of 16 slots at 0x50000, with what stands in its slot 0 and how many are produced. -/
def ringed (s : State) (reg : Nat) (bytes : List Byte) (produced : Nat) : State :=
  { s with
    mem := (((s.mem.writeBytes 0x40000 (leBytes 8 0x50000 ++ leBytes 4 16 ++ leBytes 4 0 ++ leBytes 8 0x60000 ++ leBytes 8 0x60008)).writeBytes
      0x50000 bytes).writeNat 0x60000 8 produced) }.setReg reg 0x40000
def parked (p : Parked) : State := { mapped with dtus := [(0, { Dtu.empty with parked := [p] })] }
def entry1 : Parked := ⟨1, (1, 0), 0, 3, 0, 1, .notPresent, .ld, 0x18000, 0, 0, 2, false⟩

/-- A page whose window has passed with a ring that has room; an overflow entry that fits, and one that does not; and a copy that is
complete, and one that is not. -/
theorem witness_RecordsReturnsAndTimelines :
    let page : ParkPage := ⟨0, 3, 0, entry1, none, false⟩
    let s := ringed { mapped with clk := 100, dtus := [(0, { Dtu.empty with parked := [entry1], pages := [page] })] } (Reg.dtu 0 0x200) [] 0
    let over1 := parked { entry1 with overflow := true }
    let full := { mapped with dtus := [(0, { Dtu.empty with parked := [{ entry1 with overflow := true }, { entry1 with units := 8191 }] })] }
    let c : Copy := ⟨0, 0, 3, 1, 0, 0, [], [], false, [], [], false⟩
    let s' := { start 0 with copies := [(7, c)] }
    let s'' := { start 0 with copies := [(7, { c with moves := [.shift 0 8 8] })] }
    (s.dtu 0).owed = [] ∧ s.errors = [] ∧ s.polls = [] ∧ (s.dtu 0).pages = [page] ∧ page.posted = none ∧ page.first.cause ≠ .hostOwned ∧ page.since + s.reg (Reg.dtu 0 0x208) % 2 ^ 16 ≤ s.clk ∧
      State.nextId (s.dtu 0) ((s.dtu 0).pages.length + 1) (s.dtu 0).nextPark = some 0 ∧
      s.repairRing 0 0 = some (0x50000, 16, 0x60000, 0x60008) ∧ s.mem.readNat 0x60000 8 - s.mem.readNat 0x60008 8 < 16 ∧
      ((over1.dtu 0).parked.find? (·.overflow)) = some { entry1 with overflow := true } ∧ State.usedUnits (over1.dtu 0) false + 2 ≤ 8192 ∧
      ((full.dtu 0).parked.find? (·.overflow)) = some { entry1 with overflow := true } ∧ 8192 < State.usedUnits (full.dtu 0) false + 2 ∧
      oldest (fun (e : Nat × Copy) => e.2.number) (s'.copies.filter fun e => e.2.wg = 0 && e.2.tl = 3) = some (7, c) ∧
      (s'.wg? 0).isSome = true ∧ c.dropped = false ∧ c.number < 2 ^ 64 ∧ s'.copyDone 7 c = true ∧
      s''.copyDone 7 { c with moves := [.shift 0 8 8] } = false := by decide +kernel

/-- One command of each opcode that stands next and passes its checks. -/
def command (op flags world entry ap va count : Nat) : List Byte :=
  leBytes 1 op ++ leBytes 1 flags ++ leBytes 2 world ++ leBytes 2 entry ++ leBytes 1 ap ++ leBytes 1 0 ++ leBytes 8 va ++ leBytes 4 count ++
    leBytes 4 0 ++ leBytes 8 0
theorem next_command (s : State) (bytes : List Byte) (h : (ringed s (Reg.dtu 0 8) bytes 1).commandRing 0 0 = some (0x50000, 16, 0x60000, 0x60008) ∧
      ((ringed s (Reg.dtu 0 8) bytes 1).dtu 0).commands.find? 0 = none ∧ (ringed s (Reg.dtu 0 8) bytes 1).outOfService 0 = false ∧
      (ringed s (Reg.dtu 0 8) bytes 1).polls.any (fun p => p.who = .ring 0 0) = false ∧ (ringed s (Reg.dtu 0 8) bytes 1).errors = [] ∧
      (ringed s (Reg.dtu 0 8) bytes 1).cmdStatus 0 0 (Cmd.ofBytes bytes) = 0 ∧ (ringed s (Reg.dtu 0 8) bytes 1).mem.readNat 0x60000 8 = 1 ∧
      (ringed s (Reg.dtu 0 8) bytes 1).mem.readNat 0x60008 8 = 0 ∧ (ringed s (Reg.dtu 0 8) bytes 1).mem.readBytes 0x50000 32 = bytes) :
    (ringed s (Reg.dtu 0 8) bytes 1).NextCommand 0 0 (Cmd.ofBytes bytes) := by
  obtain ⟨h1, h2, h3, hp, he, h4, h5, h6, h7⟩ := h
  exact ⟨h2, h3, hp, he, h4, _, _, _, _, h1, by rw [h5, h6]; decide, by rw [h6]; exact congrArg Cmd.ofBytes h7.symm⟩
theorem witness_CommandsTakeEffect_next :
    (∀ b ∈ [command 1 1 0 0 0 0x10000 1, command 2 0 0 0 0 0 0, command 3 0 0 0x1000 0 64 1, command 4 0 0 0 1 64 1, command 5 0 0 0 1 64 1,
        command 6 0 0 0 0 0x10000 1, command 7 0 0 0 0 1 0, command 8 0 5 0 0 0 0, command 9 0 5 0 0 0 0],
      (ringed mapped (Reg.dtu 0 8) b 1).NextCommand 0 0 (Cmd.ofBytes b)) ∧
    ([1, 2, 3, 4, 5, 6, 7, 8, 9].map fun op => (Cmd.ofBytes (command op 0 0 0 0 0 0)).op) = [1, 2, 3, 4, 5, 6, 7, 8, 9] := by
  constructor
  · intro b hb
    apply next_command
    revert b
    decide +kernel
  · decide
theorem witness_CommandsTakeEffect :
    let o := asker 0x10000
    let released := { mapped with ops := [(1, o)], dtus := [(0, { Dtu.empty with parked := [{ entry1 with page := 2 }] })] }
    (∀ e ∈ mapped.ops, ∀ r ∈ e.2.reqs, r.stage ≠ .walked ∧ (∀ n, r.stage ≠ .sent n) ∧ (r.stage = .waiter → ∀ x, r.xl = some x → x.ap ≠ 4)) ∧
      ((released.dtu 0).parked = [{ entry1 with page := 2 }] ∧ (released.dtu 0).waiting = [] ∧ (released.reqOf (1, 0)).isSome = true ∧
        ∃ e, released.walk 0 0 0 0x10000 = .ok e ∧ permCause (o.permAt 0) e.ap e.attr = none) ∧
      (List.find? (fun (e : Nat × Task) => e.2.id = 1 && e.2.world = 0) (withTask mapped).tasks = some (0, task0) ∧ task0.root = none) ∧
      ((released.dtu 0).missQ = [] ∧ mapped.calls = [] ∧ mapped.hosts = [] ∧ mapped.reg (Reg.module 0x230) = 2 ∧ (mapped.setReg (Reg.module 0x230) 3).reg (Reg.module 0x230) ≠ 2) ∧
      (mapped.keySlot 5 = none ∧ ((List.range 1024).find? fun i => (mapped.keys.find? i).isNone) = some 0) ∧
      ({ mapped with keys := [(0, ⟨5, 1, 0⟩)] }.keySlot 5 = some (0, ⟨5, 1, 0⟩) ∧ mapped.worldUsed 5 = false) := by
  refine ⟨by intro e h; exact absurd h List.not_mem_nil, ⟨rfl, rfl, rfl, ⟨_, rfl, rfl⟩⟩, by decide, by decide +kernel,
    ⟨rfl, by decide +kernel⟩, rfl, by decide +kernel⟩

/-! The dispatcher: a queue of partition 0 on die 0 with one packet, and a module of one unit with its core 0 in service. -/

def entry0 : QEntry := ⟨0x70000, 16, 0, false, false, 0x60010, 0x60018, 0x60020⟩
def queue0 : Queue := ⟨true, entry0, .none, 0⟩
def queued (bytes : List Byte) : State :=
  { mapped with
    pot := mapped.pot ++ [(256, 4096)]
    queues := [(16, queue0)]
    mem := ((mapped.mem.writeBytes 0x70000 bytes).writeNat 0x60010 8 1).writeBytes 0x800000 (leBytes 16 0 ++ leBytes 4 1 ++ leBytes 4 1 ++ leBytes 4 1 ++
      leBytes 1 1 ++ leBytes 1 1 ++ leBytes 2 0 ++ leBytes 2 16) }
def launchAt (card : Nat) : List Byte := leBytes 1 1 ++ leBytes 7 0 ++ leBytes 8 card ++ leBytes 48 0

/-- A post whose turn and room have come. -/
def post0 : Post := ⟨3, 0, .home, 0x10000, 5, 0, 0, 0x800000, 15, some (16, 1), false, false, true⟩

/-- A LAUNCH of a good card, one of a card of zeros, a slot of no type, a FENCE, a SIGNAL; a FENCE under way with and without an entry. -/
theorem witness_DispatcherServesPackets :
    let head := fun (b : List Byte) (ok : State → List Byte → Prop) =>
      (queued b).openQueue 16 = some queue0 ∧ (queued b).pending entry0 ≠ 0 ∧ (queued b).slotBytes entry0 0 = b ∧ ok (queued b) b
    let launch := fun (ok : Card → Bool) (s : State) (b : List Byte) => field b 0 1 = 1 ∧ launchOk b = true ∧ s.nextLaunch 0 = some 16 ∧
      s.posts = [] ∧ s.errors = [] ∧ ok (Card.ofBytes (s.mem.readBytes (formKey (field b 8 8)) 64)) = true
    head (launchAt 0x800000) (fun s b => launch (fun c => c.ok && decide (c.residency = 0)) s b ∧ s.worldPart 0 (field b 2 2) = some 0 ∧
        s.ownCheck 0 0 0 (0x800000 / 2 ^ 15) = none ∧ s.worldConf 0 0 = false) ∧
      head (launchAt 0x900000) (launch fun c => !c.ok && decide (c.residency = 0)) ∧
      head (leBytes 64 4) (fun s b => field b 0 1 ∉ [1, 2, 3] ∧ s.posts = [] ∧ s.waiters = [] ∧
        [{ post0 with published := true, place := some (16, s.counterOf entry0.consumed) }].map (·.place) = [some (16, s.counterOf entry0.consumed)]) ∧
      head (leBytes 1 2 ++ leBytes 1 1 ++ leBytes 14 0 ++ leBytes 8 0x60000 ++ leBytes 8 7 ++ leBytes 32 0) (fun s b => field b 0 1 = 2 ∧
        fenceSlots (field b 1 1) ≤ s.pending entry0 ∧ fenceOk b = true) ∧
      head (leBytes 8 3 ++ leBytes 8 0x60000 ++ leBytes 8 5 ++ leBytes 40 0) (fun _ b => field b 0 1 = 3 ∧ signalOk b = true ∧
        0x60000 + 8 ≤ formKey entry0.consumed) ∧
      ([(0, 7)] : List (Nat × Nat)) ≠ [] ∧ (queued []).counterOf entry0.consumed + 1 < 2 ^ 64 := by decide +kernel

/-- A post whose turn and room have come, one whose turn has not, and one that no queue takes while its warp waits for it. -/
theorem witness_PostsArePublished :
    let s := withTask { queued [] with posts := [post0] }
    let waits := { warp0 with home := { warp0.home with hold := .post 3 } }
    let homeless := { withTask mapped with posts := [{ post0 with place := none }] }
    let inside := { warp0 with frame := some ⟨{ warp0.home with hold := .post 3 }, warp0.away, 0, .home⟩ }
    s.posts.find? (fun p => p.id = 3 && p.arrived && !p.published) = some post0 ∧ s.errors = [] ∧ (∀ y ∈ s.polls, y.who ≠ .post 3) ∧
      post0.refused = false ∧ s.postBefore post0 16 = false ∧ inside.waitsNow 3 = false ∧ State.framed inside 3 = true ∧ s.queues.find? 16 = some queue0 ∧ (s.tasks.find? post0.task).isSome = true ∧
      (s.warp? post0.warp).isSome = true ∧ 1 ≤ s.counterOf entry0.produced ∧ 1 < s.counterOf entry0.consumed + entry0.slots ∧
      formKey entry0.produced + 8 ≤ entry0.base + 64 * (1 % entry0.slots) ∧ s.counterOf entry0.produced < 2 ∧
      homeless.postQueue { post0 with place := none } = none ∧ waits.waitsNow 3 = true ∧ ((start 0).cardOf waits).handler.toNat % 4 = 0 := by decide +kernel

/-- Partition 0 has the unit of core 0, of whose cores that one alone is in service; no workgroup, or the one of `start`. -/
def oneCore (s : State) : State := { s with disabled := (List.range 15).map (· + 1) }.setReg (Reg.module 0) 0x80
def free : State := oneCore { mapped with wgs := [], warps := [], quads := [], agenda := [] }
def task1 : Task := { task0 with queue := 16, priority := 1, bound := 5, next := [0], live := 0 }
def tight : Task := { task1 with card := { Card.empty with scratchKiB := 1 } }
theorem witness_WorkgroupsStartAndEnd :
    let s := { free with tasks := [(0, task1)] }
    let stopping := withTask { start 0 with wgs := (start 0).wgs.map fun (e : Nat × Workgroup) => (e.1, { e.2 with phase := .stopping, status := .memerr }) }
    let empty := withTask { start 0 with warps := [] }
    let done := { task0 with next := [1], live := 0 }
    (s.tasks.find? 0 = some task1 ∧ s.placeable 0 task1 = some ((0, 0), 0) ∧ s.outranked 1 = false ∧ (s.freeSlots 0 1)[0]? = some 0) ∧
      (∃ x, stopping.wg? 0 = some x ∧ x.phase = .stopping ∧ x.status ≠ .ok ∧ stopping.tasks.find? x.task = some task0 ∧ stopping.wgBusy 0 x = false) ∧
      (∃ x, empty.wg? 0 = some x ∧ x.phase = .running ∧ empty.warps.any (fun e => e.2.wg = 0) = false) ∧
      ({ free with tasks := [(0, done)] }.taskDone 0 done = true ∧ done.parent = none) := by
  refine ⟨by decide +kernel, ⟨_, rfl, by decide⟩, ⟨_, rfl, by decide⟩, by decide⟩

/-- A task without room beside a workgroup that drains, or that is saved; drains before and at their bound; a saved workgroup that has
waited; a core that is empty, and one that is not. -/
theorem witness_PreemptionStopsWorkgroups :
    let full := fun (flags : Nat) => oneCore { carded (fun c => { c with flags, expected := 0 }) with tasks := [(0, task0), (1, tight)] }
    let asks := fun (flags : Nat) (ok : Workgroup → Prop) => ∃ x, (full flags).tasks.find? 1 = some tight ∧ (full flags).nextOf 1 tight = [(0, 0)] ∧
      (full flags).placeable 1 tight = none ∧ (full flags).victims tight ((full flags).domainOf tight 0 0) = some [0] ∧ (full flags).wg? 0 = some x ∧
      x.phase = .running ∧ x.drain = none ∧ ok x
    let draining := { start 0 with wgs := (start 0).wgs.map fun (e : Nat × Workgroup) => (e.1, { e.2 with drain := some 5 }) }
    let saved0 : Saved := ⟨5, 0, 0, 0, 0, 0, 0, 0, 0, 0, 1, false, 0, false, [], [], [], none⟩
    let waits := oneCore { carded (fun c => { c with flags := 20 }) with
      clk := 2 ^ 20, tasks := [(0, tight)], saved := [(0, saved0)]
      wgs := (carded fun c => { c with flags := 20 }).wgs.map fun (e : Nat × Workgroup) => (e.1, { e.2 with linear := 1 }) }
    asks 20 (fun x => x.card.pclass = 2) ∧
      asks 16 (fun x => x.card.pclass ≠ 2 ∧ x.card.expected = 0 ∧ x.card.restartable = false) ∧ tight.bound ≠ 0 ∧ tight.named = [] ∧
      (∃ x, waits.wg? 0 = some x ∧ waits.saved.find? 0 = some saved0 ∧ waits.pickCore tight (waits.domain tight.queue) = none ∧ (0, x) ∈ waits.wgs ∧
        x.task = 0 ∧ saved0.linear < x.linear ∧ (∀ v ∈ waits.wgs, v.2.task = 0 → v = (0, x)) ∧ x.phase = .running ∧ x.drain = none ∧
        x.card.pclass = 2 ∧ saved0.since + 2 ^ 20 ≤ waits.clk) ∧
      (∃ x, draining.wg? 0 = some x ∧ x.drain = some 5 ∧ x.phase = .running ∧ (5 : Nat) ≠ 0 ∧ x.card.pclass ≠ 2 ∧ draining.clk < 5 ∧
        5 ≤ { draining with clk := 5 }.clk) ∧
      (0 ∉ free.disabled ∧ free.retiring = [] ∧ free.saved = [] ∧ free.residents 0 = []) ∧
      ∃ x, (start 0).residents 0 = [(0, x)] ∧ (start 0).wg? 0 = some x ∧ x.phase = .running := by
  refine ⟨⟨_, rfl, by decide +kernel, by decide +kernel, by decide +kernel, rfl, by decide⟩,
    ⟨_, rfl, by decide +kernel, by decide +kernel, by decide +kernel, rfl, by decide⟩, by decide, by decide,
    ⟨_, rfl, by decide +kernel⟩, ⟨_, rfl, by decide⟩, by decide +kernel, ⟨_, rfl, rfl, rfl⟩⟩

/-- A workgroup of a small card that has stopped, a pool with room and a table with a free entry. -/
def small : Card := { Card.empty with handler := 0 }
def saving : State :=
  { carded (fun _ => small) with
    wgs := (carded fun _ => small).wgs.map fun (e : Nat × Workgroup) => (e.1, { e.2 with phase := .saving, preempt := some (0, 9) })
    mem := ((start 0).mem.writeNat 0x90000 8 0xA0000).writeNat 0x90008 4 8 }.setReg (Reg.dispatcher 0 0x80) 0x90000
theorem witness_SaveAndRestore_save : ∃ x, saving.wg? 0 = some x ∧ x.phase = .saving ∧ saving.savable 0 x = true ∧ saving.errors = [] ∧
    x.core ∉ saving.retiring ∧ saving.freeEntry 0 false = some 0 ∧ saving.pool 0 0 = some (0xA0000, 8) ∧
    saving.freeExtents 0 8 ((imageLength small [0] + 65535) / 65536) false = some 0 := by
  refine ⟨_, rfl, by decide +kernel⟩
/-- A die whose pool is not set up; a world that is not sealed, and one that is sealed without a key. -/
theorem witness_SaveAndRestore_room : ({ saving with mem := (start 0).mem }).pool 0 0 = none := by decide +kernel
theorem witness_SaveAndRestore_stamp : saving.nextStamp 0 0 = .ok none := rfl
/-- World 0 under CONF, with a key, and with none. -/
def sealing (keys : Map KeySlot) : State := { saving with keys, mem := saving.mem.writeNat 0x10000 8 (4 * 2 ^ 16 + 3) }.setReg (Reg.dtu 0 0) 0x10001
theorem witness_SaveAndRestore_sealed :
    ((sealing [(3, ⟨0, 1, 6⟩)]).nextStamp 0 0).toOption = some (some (3, ⟨0, 1, 7⟩)) ∧ (sealing [(3, ⟨0, 1, 6⟩)]).keySlot 0 = some (3, ⟨0, 1, 6⟩) ∧
      ((sealing []).nextStamp 0 0).toOption = none ∧ ((sealing [(3, ⟨0, 1, 2 ^ 64 - 1⟩)]).nextStamp 0 0).toOption = none ∧
      (∃ x, (sealing [(3, ⟨0, 1, 6⟩)]).wg? 0 = some x ∧ x.phase = .saving ∧ (sealing [(3, ⟨0, 1, 6⟩)]).savable 0 x = true ∧ x.core ∉ (sealing []).retiring) := by
  refine ⟨by decide +kernel, by decide +kernel, by decide +kernel, by decide +kernel, _, rfl, by decide +kernel⟩

/-- An image of that workgroup, field by field as R393 to R397 lay it out: header, workgroup record, one warp with all lanes. -/
def image : List Byte :=
  leBytes 4 1 ++ leBytes 4 2864 ++ List.replicate 56 0 ++
    (leBytes 4 1 ++ leBytes 2 0 ++ leBytes 1 1 ++ leBytes 13 0 ++ leBytes 2 16 ++ leBytes 4 0 ++ leBytes 2 0xFFFF ++ List.replicate 36 0) ++
    (leBytes 8 0x10000 ++ leBytes 8 0 ++ leBytes 4 0xFFFFFFFF ++ leBytes 4 0 ++ leBytes 8 1 ++ leBytes 8 1 ++ leBytes 4 0x744 ++ List.replicate 20 0) ++
    List.replicate 2672 0
def saved1 : Saved := ⟨5, 0xA0000, 2864, 0, 0, 0, 0, 0, 0, 0, 1, false, 0, false, [(true, [])], [], [], none⟩
def restoring (mem : Memory) : State := { free with tasks := [(0, { task1 with card := small })], saved := [(0, saved1)], mem }
theorem image_length : image.length = 2864 := by decide +kernel
/-- A cleartext image that passes every check is what the restore reads. -/
theorem readImage_clear {s : State} {id : Nat} {e : Saved} {t : Task} {raw : List Byte} (hr : s.mem.readBytes e.image e.length = raw)
    (h80 : 80 ≤ e.length) (hl : field raw 4 4 = e.length) (hk : s.keySlot e.world = none) (hc : s.worldConf (id / 4096) e.world = false)
    (hw : field raw 8 2 = e.world) (hi : field raw 0x0C 2 = id) (ho : imageOk raw t.card t.id e.stage e.linear = true) :
    s.readImage id e t = .ok raw := by
  have hj : raw.take 64 ++ (raw.drop 64).take (e.length - 80) ++ raw.drop (e.length - 16) = raw := by
    have h1 : raw.drop (e.length - 16) = (raw.drop 64).drop (e.length - 80) := by
      rw [List.drop_drop]; congr 1; omega
    rw [List.append_assoc, h1, List.take_append_drop, List.take_append_drop]
  have hs : s.imageSpan e = e.length := by
    have h4 : s.mem.readNat (e.image + 4) 4 = e.length := by
      rw [Memory.readNat, ← Memory.readBytes_part s.mem e.image e.length 4 4 (by omega), hr]; exact hl
    rw [State.imageSpan, h4, ite_self]
  rw [List.append_assoc] at hj
  simp [State.readImage, hs, hr, hk, hc, hw, hi, hj, ho]
theorem restoring_reads (bs : List Byte) (n : Nat) (h : bs.length = n) :
    (restoring (free.mem.writeBytes 0xA0000 bs)).mem.readBytes 0xA0000 n = bs := by
  subst h; exact Memory.readBytes_writeBytes free.mem 0xA0000 bs
theorem reads_below (m : Memory) {a c n : Nat} (bs : List Byte) (h : c + n ≤ a) : (m.writeBytes a bs).readBytes c n = m.readBytes c n := by
  induction n generalizing c with
  | zero => rfl
  | succ n ih => rw [Memory.readBytes, Memory.readBytes, ih (by omega), Memory.read_writeBytes_of_not_mem (.inl (by omega))]
theorem restoring_clear (bs : List Byte) : (restoring (free.mem.writeBytes 0xA0000 bs)).worldConf 0 0 = false := by
  have hc : (restoring free.mem).reg (Reg.dtu 0 0) % 2 ^ 55 / 2 ^ 16 * 2 ^ 16 + 16 * 0 + 8 ≤ 0xA0000 := by decide
  have h : (restoring (free.mem.writeBytes 0xA0000 bs)).rootEntry 0 0 = (restoring free.mem).rootEntry 0 0 :=
    congrArg leNat (reads_below free.mem bs hc)
  rw [State.worldConf, h]
  have : State.rootConf ((restoring free.mem).rootEntry 0 0) = false := by decide +kernel
  rw [this, Bool.and_false]
/-- In memory, an image that passes, and zeros, which do not. -/
theorem witness_SaveAndRestore_restore :
    let s := restoring (free.mem.writeBytes 0xA0000 image)
    let u := { task1 with card := small }
    (s.saved.find? 0 = some saved1 ∧ s.tasks.find? saved1.task = some u ∧ s.outranked 1 = false ∧ s.errors = [] ∧
      (s.pickCore u (s.restoreDomain u 0 0)).or (s.pickCore u (s.domain u.queue)) = some 0) ∧
      s.readImage 0 saved1 u = .ok image ∧ ((restoring free.mem).readImage 0 saved1 u).toOption = none :=
  ⟨by decide +kernel, readImage_clear (restoring_reads image 2864 image_length) (by decide) (by decide +kernel) (by decide +kernel) (restoring_clear image)
    (by decide +kernel) (by decide +kernel) (by decide +kernel), by decide +kernel⟩

/-! Memory devices, packets, the fabric. -/

def channel0 (c : Channel) : State := { start 0 with channels := [(0, c)] }
/-- A channel past its threshold of 0x1000, with and without a spare; errors of 2 and 3 symbols; a replica with a write on its way; an
epoch that has and has not passed; a row at its threshold and one below, a line that a replica holds; a poll that is due and met, and one that is not met. -/
theorem witness_MemoryDeviceSteps :
    let many : Channel := ⟨-8, 0x1001, 0x1001, 0, 0⟩
    let p : Propagation := ⟨0, 0x100, [(0x101, [7])], 0, .gone, 0, none, none⟩
    let s := { start 0 with
      rows := [(State.rowKey 0 63 5, 0xFFFF)], errors := [(0, 2), (32, 3)], propagating := [p], replicas := [(State.replicaKey 0 0, List.replicate 128 0), (State.replicaKey 0 0x100, List.replicate 128 0)], clk := 2 ^ 20 * 64,
      polls := [⟨0, 0x60008, 0, .fence 0, 0, 0, 0⟩] }
    (if many.since = (channel0 many).clk / 2 ^ 26 then many.window else 0) = 0x1001 ∧ (channel0 many).reg (Reg.memory 0 0x58) < 0x1001 ∧
      (channel0 many).channels.get Channel.empty 0 = many ∧ (channel0 many).spares.get 0 0 < 2 ∧
      ¬{ channel0 { many with ev := 2 } with spares := [(0, 2)] }.spares.get 0 0 < 2 ∧ { many with ev := 1 }.ev = 1 ∧
      State.memoryUnit 0 = true ∧ State.memoryUnit 32 = true ∧ s.cacheUnit (2 ^ 122 + 2 ^ 72) = true ∧
      Nat.max 0x40 (s.reg (Reg.memory 0 0x50) % 2 ^ 16) ≤ Nat.min (s.rows.get 0 (State.rowKey 0 63 5) + 1) 65535 ∧
      ¬Nat.max 0x40 (s.reg (Reg.memory 0 0x50) % 2 ^ 16) ≤ Nat.min (s.rows.get 0 (State.rowKey 0 63 6) + 1) 65535 ∧
      s.errors.find? 0 = some 2 ∧ s.errors.find? 32 = some 3 ∧
      (s.propagating.find? fun p => p.die = 0 && p.line = 0x100) = some p ∧
      s.replicas.find? (State.replicaKey 0 0x100) = some (List.replicate 128 0) ∧
      (s.dtu 0).epochStart + s.epochLength 0 ≤ s.clk ∧ (start 0).clk < ((start 0).dtu 0).epochStart + (start 0).epochLength 0 ∧
      (0 < 1 ∧ s.polls = [⟨0, 0x60008, 0, .fence 0, 0, 0, 0⟩] ∧ State.dieOfHome 0 = 0 ∧ (Channel.empty.ev = 0)) ∧
      State.dieOfHome 0 = 0 ∧ 0 + 256 ≤ s.clk ∧ 0 ≤ s.mem.readNat 0x60008 8 ∧ ¬1 ≤ s.mem.readNat 0x60008 8 := by decide +kernel

/-- A packet of core 0 to a slice of die 0, that stands at its endpoint in order, and an answer back to core 0. -/
def core0 : Endpoint := Endpoint.make 0 0 0 0
def slice0 : Endpoint := Endpoint.make 0 0 2 0
def arriving (s : State) (e : Endpoint) (p : Packet) : State :=
  { s with fabric := { s.fabric with inbox := [(e, [p])], dstFlows := [(e, [⟨p.src, p.flow, p.vc, p.seq, [], [], 0, 0, 0⟩])] } }
def request (type : PType) (fn : Nat) (pieces : List Piece) : Packet :=
  ⟨type, false, 1, false, false, 1, slice0, core0, 3, 0xFFFF, 0x20, 0, fn, 0, (1, 0), .done, pieces, none, 0, 0, 0, 0⟩
def reply (type : PType) (answer : Answer) (pieces : List Piece) : Packet := { request type 0 pieces with dst := core0, src := slice0, answer }
def piece0 : Piece := ⟨0, 0, 4, leBytes 4 5, none⟩
theorem arrives {s : State} {e : Endpoint} {p : Packet} (h : p.trimmed = false) (h16 : p.seq < 2 ^ 16) : (arriving s e p).Arrives e p :=
  ⟨⟨[], by simp [arriving, State.inbox, Map.get, Map.find?]⟩, h, ⟨_, by simp [arriving, State.flowsAt, Map.get, Map.find?]; rfl, rfl, h16⟩⟩
theorem regReset_dtu (d : Nat) : regReset (Reg.dtu d 0x010) % 2 = 0 := by
  have hm : (d * 2 ^ 24 + 0x010) % 2 ^ 24 = 0x010 := by omega
  unfold regReset
  split
  · rw [Reg.dtu, hm]; decide
  · have h1 : Reg.dtu d 0x010 ≠ Reg.module 0x220 := by unfold Reg.dtu Reg.module; omega
    have h2 : Reg.dtu d 0x010 ≠ Reg.module 0x228 := by unfold Reg.dtu Reg.module; omega
    have h3 : Reg.dtu d 0x010 ≠ Reg.module 0x230 := by unfold Reg.dtu Reg.module; omega
    have h4 : Reg.dtu d 0x010 ≠ Reg.fabric 8 0x1000 ∧ Reg.dtu d 0x010 ≠ Reg.fabric 9 0x1000 := by unfold Reg.dtu Reg.fabric; omega
    have h5 : Reg.dtu d 0x010 ≠ Reg.fabric 8 0x1188 ∧ Reg.dtu d 0x010 ≠ Reg.fabric 9 0x1188 := by unfold Reg.dtu Reg.fabric; omega
    simp [moduleReset, h1, h2, h3, h4, h5]
theorem reg_of_nil {s : State} (h : s.mmio = []) (a : Nat) : s.reg a = regReset a := by rw [State.reg, h]; rfl
theorem unprotected {s : State} (h : s.mmio = []) (d : Nat) : s.reg (Reg.dtu d 0x010) % 2 = 0 := by
  rw [reg_of_nil h]; exact regReset_dtu d
theorem start_mmio (w : Nat) : (start w).mmio = [] := rfl
theorem witness_PacketsArePerformed_home :
    (∀ p ∈ [request .rd 0 [piece0], request .wr 0 [piece0], request .atm 0 [piece0], request .ctr 0 [{ piece0 with data := leBytes 8 1 }]],
      (arriving (start 0) slice0 p).Arrives slice0 p ∧ Endpoint.dev p.src = (arriving (start 0) slice0 p).devId ∧ keyAp p.addr ≤ 3 ∧
      (arriving (start 0) slice0 p).errors = [] ∧ ∃ q, p.pieces = [q]) ∧
      (∀ d, (arriving (start 0) slice0 (request .rd 0 [])).reg (Reg.dtu d 0x010) % 2 = 0) ∧
      atomOf 0 = some .add32 ∧ State.ctrOf 0 ≠ .wait ∧ (5 : Nat) < 6 ∧ (start 0).readsReplica (request .rd 0 [piece0]) = false ∧
      (let p := request .ctr 1 [{ piece0 with data := leBytes 8 1 }]
       let home := State.homeNo ((start 0).homeNow p)
       let vault := { p with dst := Endpoint.make 0 0 3 0 }
       let taken := { start 0 with waiters := (List.range 512).map fun k => ⟨1024, false, k, 0x99, 1, .warp (9, 0), 0, 0, 0⟩ }
       p.via = none ∧ (start 0).ops = [] ∧ 0 ≤ (start 0).mem.readNat p.addr 8 ∧ (start 0).mem.readNat p.addr 8 < leNat (leBytes 8 1) ∧
         (∀ o, (start 0).ops.find? p.tag.1 = some o → o.owner ≠ .gone) ∧ (start 0).freeSlot home false = some 0 ∧ State.homeNo (taken.homeNow vault) = 1024 ∧ taken.freeSlot 1024 false = none) ∧ Endpoint.cls slice0 = 2 ∧
      slice0 = (start 0).homeEnd (keyAp 0x20) (keyPa 0x20) ∧ Endpoint.cls (Endpoint.make 0 0 3 0) ≠ 2 := by
  refine ⟨fun p hp => ?_, ?_, by decide +kernel⟩
  · simp only [List.mem_cons, List.not_mem_nil, or_false] at hp
    obtain rfl | rfl | rfl | rfl := hp <;> exact ⟨arrives rfl (by decide), by decide, by decide, rfl, _, rfl⟩
  · exact unprotected rfl
/-- A request of one lane on its way, and the answers that come for it; its workgroup runs. -/
def sentOp (kind : OpKind) : MemOp := { asker 0x10000 with kind, reqs := [⟨0x10000, [piece0], none, .sent 1, 0, [], [], false⟩] }
theorem witness_PacketsArePerformed_core :
    let s := { start 0 with ops := [(1, sentOp .store)] }
    let c : Piece := { piece0 with data := leBytes 4 9, got := some (leBytes 4 9) }
    (∀ p ∈ [reply .rdr .done [c], reply .wra .done [c], reply .atmr .done [c], reply .ctrr (.cstat 2) [c], reply .rdr .poison []],
      (arriving s core0 p).Arrives core0 p ∧ p.via = none ∧ Endpoint.cls core0 ∉ [4, 5, 6, 7] ∧
      (arriving s core0 p).reqOf p.tag = some (sentOp .store, ⟨0x10000, [piece0], none, .sent 1, 0, [], [], false⟩)) ∧ (∀ n, Stage.sent 1 ≠ .sent (n + 2)) ∧
      c.off ≤ piece0.off ∧ piece0.off < c.off + c.size ∧ c.got.isSome = true ∧ ∃ x, (start 0).wg? 0 = some x ∧ x.phase ≠ .stopping := by
  refine ⟨fun p hp => ?_, ?_, ?_, ?_, ?_, _, rfl, ?_⟩
  rotate_left
  · intro n h; cases h
  · decide
  · decide
  · rfl
  · decide
  simp only [List.mem_cons, List.not_mem_nil, or_false] at hp
  obtain rfl | rfl | rfl | rfl | rfl := hp <;> exact ⟨arrives rfl (by decide), rfl, by decide, rfl⟩

/-- A flow with a packet unacknowledged, at its source and at its destination. -/
def flow0 : SrcFlow := ⟨core0, slice0, 1, 3, 8, [⟨request .rd 0 [piece0], false, 0, false⟩], 32, 0, .trim, [0xFFFF]⟩
def far0 : DstFlow := ⟨slice0, 3, 1, 5, [], [], 1, 0, 0⟩
def routed (f : Fabric → Fabric) : State := { start 0 with fabric := f { Fabric.empty with srcFlows := [flow0] }, fclk := 65536 }
theorem witness_FabricSteps :
    let p := request .rd 0 [piece0]
    let x := fun (n : Nat) => (⟨List.replicate n p, [], [], [], [], 0, [p]⟩ : OutQueue)
    let ack := { reply .ack .done [] with dst := core0, seq := 0xFFFF }
    let bunt := { p with src := slice0, dst := core0, trimmed := true, seq := 0x8004 }
    let s := routed fun f => { f with
      outs := [(32 * 16, ⟨[{ p with dst := core0 }], [], [], [], [], 0, []⟩)], replays := [(0, List.replicate 63 0), (1, List.replicate 64 65535)] }
    let at_ := fun (q : Packet) => routed fun f => { f with inbox := [(core0, [q])], dstFlows := [(core0, [far0])] }
    (∀ n ∈ [0, 12, 13], (routed fun f => { f with outs := [(0, x n)] }).outOf 0 0 = x n) ∧ p.trimmed = false ∧ 1 ≤ p.len ∧
      ((x 12).vc0.foldl (fun n q => n + q.flits) 0 = 24) ∧ ((x 13).vc0.foldl (fun n q => n + q.flits) 0 = 26) ∧
      (s.outOf 16 0).vc0 = [{ p with dst := core0 }] ∧ s.outputOpen 16 0 = true ∧ (s.outOf 16 0).busyTill ≤ s.fclk ∧ State.across 16 0 = none ∧ Endpoint.dev core0 = s.devId ∧
      (at_ ack).inbox core0 = [ack] ∧ (at_ ack).flowsAt core0 = [far0] ∧ far0.due ≠ 0 ∧ far0.dueSince + 32 ≤ s.fclk ∧
      bunt.trimmed = true ∧ far0.src = bunt.src ∧ far0.id = bunt.flow ∧ State.ahead far0 bunt.seq = 2 ^ 15 - 1 ∧ far0.buffered = [] ∧
      flow0.src = core0 ∧ flow0.id = ack.flow ∧ flow0.unacked.any (fun u => u.packet.seq = ack.seq) = true ∧ (0 : Nat) ∉ [1, 2, 3] ∧ ({ reply .noroute .noRoute [] with fn := 3 } : Packet).fn = 3 ∧
      (({ reply .noroute .noRoute [] with fn := 5 } : Packet).fn ∉ [2, 3, 4] ∧ (0 : Nat) ≠ 5) ∧
      (∃ u, flow0.unacked.find? (fun u => u.packet.seq = 0xFFFF) = some u ∧ u.packet.type.isRequest = true ∧ u.packet.via = none ∧
        { s with ops := [(1, sentOp .store)] }.reqOf u.packet.tag = some (sentOp .store, ⟨0x10000, [piece0], none, .sent 1, 0, [], [], false⟩) ∧
        (sentOp .store).kind.quiet = false) ∧ (0 : Nat) ∉ [2, 3, 4] ∧ Endpoint.cls core0 ∉ [4, 5, 7] ∧ PType.rdr.isRequest = false ∧
      (flow0.lowest.isSome = true ∧ flow0.notBefore ≤ s.fclk ∧ 0 + 65536 ≤ s.fclk) ∧
      ((s.fabric.replays.get [] 0).filter fun t => s.fclk < t + 2 ^ 20).length + 1 ≤ s.brlth 0 ∧
      s.brlth 0 < ((s.fabric.replays.get [] 1).filter fun t => s.fclk < t + 2 ^ 20).length + 1 ∧ State.across 0 16 = some 1 ∧ (1 : Nat) < 10 ∧
      (s.fabric.links.get 0 (16 * 0 + 1)).testBit 0 = false ∧ (s.birrakOf 5).badLanes.testBit 15 = false ∧ (1 : DWord).getLsbD 0 = true := by
  decide +kernel

/-! Services, hosts, registers, the responder. -/

/-- A call of battery 0 for world 0 with its block at 0x38800 of aperture 0. -/
def call0 (number : Nat) : Call := ⟨0, number, 0, 0, 0, 0, 0x38800, 0, 9, 0, 0, 0, none, false, false, [], none, 0, false⟩
def called (number : Nat) (block : List Byte) : State :=
  ({ mapped with
    calls := [(7, call0 number)], handles := [(5, ⟨0, true⟩), (6, ⟨0, false⟩)]
    mem := mapped.mem.writeBytes 0x38800 (leBytes 16 0 ++ block) }.setReg (Reg.memory 0 0x800) 0x80).setReg (Reg.host 0) (2 ^ 63)
def words (a b c : Nat) : List Byte := leBytes 8 a ++ leBytes 8 b ++ leBytes 8 c ++ leBytes 24 0
def calledFor (s : State) (number : Nat) (b : List Byte) : Prop :=
  s.calls.find? 7 = some (call0 number) ∧ s.startable (call0 number) = true ∧ (s.blockBytes 7 (call0 number)).2.toOption = some (leBytes 16 0 ++ b)
/-- Why a service has not what it asks for. -/
def lack {α : Type} : Except State.Lack α → Option State.Lack
  | .error e => some e
  | .ok _ => none
/-- The state once the block has been read, and once the root entry has been. -/
def readFor (number : Nat) (block : List Byte) : State := ((called number block).blockBytes 7 (call0 number)).1
def rootFor (number : Nat) (block : List Byte) : Option State :=
  let u := readFor number block
  (u.tableUnits (u.callRoot (call0 number))).toOption
/-- MAP of the page at 0x18000, whose table is there, and UNMAP of the one at 0x10000; and a range that is no whole page. -/
theorem witness_ServicesAnswer_pages :
    let holds := fun (number : Nat) (block : List Byte) (p : State → Bool) =>
      calledFor (called number block) number block ∧ ((rootFor number block).map p) = some true
    holds 0x10 (words 0x18000 32768 7) (fun u => u.rangeFields (call0 0x10) 0x18000 32768 && u.errors.isEmpty && u.mem.readNat 0x38018 8 % 2 = 0 &&
        u.freeFrame 0 0 reservedFrame 0 = some 0 &&
        ((State.tableFor (call0 0x10) 0x18000 State.levels u (u.worldRoot (call0 0x10))).toOption.map fun r => (r.1.errors, r.2)) = some ([], 0x38000)) ∧
      holds 0x11 (words 0x10000 32768 0) (fun v => v.rangeFields (call0 0x11) 0x10000 32768 &&
        ((State.leavesOf (call0 0x11) 1 v 0x10000).toOption.map fun r => (r.1.errors, r.2)) = some ([], [(0x38010, 64 * 2 ^ 16 + 0x61)]) &&
        decide (v.users (List.range 8) ⟨1, 1, 0, 0, 0, 0x10000, 1, 0, 0⟩ = []) && v.resolve 0 64 = some (0, 64) && State.isMemory 0 &&
        v.ownCheck 0 0 0 64 = none) ∧
      holds 0x10 (words 0x18000 32767 7) (fun u => !u.rangeFields (call0 0x10) 0x18000 32767) ∧
      holds 0x11 (words 0x10001 32768 0) (fun u => !u.rangeFields (call0 0x11) 0x10001 32768) := by
  unfold calledFor; decide +kernel
/-- A block in a unit that can not be read, and one at a peer. -/
theorem witness_ServicesAnswer_block :
    let lacks := fun (s : State) (c : Call) (e : State.Lack) => s.startable c = true ∧ lack (s.blockBytes 7 c).2 = some e
    let far := { call0 0 with arg := 2 ^ 58 + 0x800 }
    lacks { called 0 (words 1 2 3) with errors := [(unitOf 0x38800, 3)] } (call0 0) .bad ∧
      lacks { called 0 [] with calls := [(7, far)] } far .wait ∧ (call0 0x11).number = 0x11 := by decide +kernel
/-- A bound device; a name of 4 bytes, and data of 4 bytes for a file; a page without a leaf, and one at a peer. -/
theorem witness_ServicesAnswer_names :
    let u := readFor 0x1000 (words 0x10000 4 0)
    let v := readFor 0x1002 (words 5 0x10000 4)
    let far := { u with mem := u.mem.writeNat 0x38010 8 (2 ^ 44 + 0x71) }
    let lacks := fun (s : State) (va : DWord) (e : State.Lack) => lack (s.readVia 7 (call0 0x1000) va 4).2 = some e
    calledFor (called 0x1000 (words 0x10000 4 0)) 0x1000 (words 0x10000 4 0) ∧ u.deviceOf 0 = some 0 ∧
      (u.readVia 7 (call0 0x1000) 0x10000 4).2.toOption.isSome = true ∧ ((u.readVia 7 (call0 0x1000) 0x10000 4).1.deviceOf 0) = some 0 ∧
      (u.readVia 7 (call0 0x1000) 0x10000 4).1.handles.find? 9 = none ∧ lacks u 0x18000 .bad ∧ lacks far 0x10000 .wait ∧
      field (leBytes 16 0 ++ words 0x10000 4 0) 0x18 4 ≠ 0 ∧ field (leBytes 16 0 ++ words 0x10000 4096 0) 0x18 4 ≤ 4096 ∧
      calledFor (called 0x1002 (words 5 0x10000 4)) 0x1002 (words 5 0x10000 4) ∧ v.holds (call0 0x1002) 5 (some true) = true ∧
      v.holds (call0 0x1002) 6 (some true) = false ∧ (v.readVia 7 (call0 0x1002) 0x10000 4).2.toOption.isSome = true ∧
      ((v.readVia 7 (call0 0x1002) 0x10000 4).1.deviceOf 0) = some 0 := by
  unfold calledFor; decide +kernel
/-- Handles of a file and of a connection, one that is not held; a call of no service; a host that has no bytes left. -/
theorem witness_ServicesAnswer_handles :
    let u := readFor 0x1003 (words 6 0 0)
    calledFor (called 0x1003 (words 6 0 0)) 0x1003 (words 6 0 0) ∧ u.holds (call0 0x1003) 6 none = true ∧ u.holds (call0 0x1003) 7 none = false ∧
      u.holds (call0 0x1001) 5 (some true) = true ∧ u.holds (call0 0x1011) 6 (some false) = true ∧ 0x0FFF ∉ State.services ∧
      (called 0x0FFF []).startable (call0 0x0FFF) = true ∧ State.isMemory ((call0 0).arg / 2 ^ 56 % 8) = true := by
  unfold calledFor; decide +kernel
/-- A buffer in a page that may be written, in one that has no leaf, and at a peer: 4 bytes from the host. -/
theorem witness_ServicesAnswer_buffer :
    let u := { readFor 0x1001 (words 5 0x10000 4) with dtus := [] }
    let far := { u with mem := u.mem.writeNat 0x38010 8 (2 ^ 44 + 0x71) }
    let pages := fun (s : State) (va : DWord) => State.serviceRange (call0 0x1001) true (State.pagesIn va 4) s va 4
    let lacks := fun (s : State) (va : DWord) (e : State.Lack) => lack (pages s va).2 = some e
    calledFor (called 0x1001 (words 5 0x10000 4)) 0x1001 (words 5 0x10000 4) ∧ u.holds (call0 0x1001) 5 (some true) = true ∧ u.deviceOf 0 = some 0 ∧
      ((pages u 0x10000).2.toOption.map fun x => x.map fun y => (y.1.ap, y.1.pa, y.2)) = some [(0, 0x200000, 4)] ∧ (pages u 0x10000).1.errors = [] ∧
      lacks u 0x18000 .bad ∧ lacks far 0x10000 .wait := by
  unfold calledFor; decide +kernel
/-- A call that has been served, one of no service, one that waits for a replica, and one whose replica write has come; with its block or its
counter at a peer, and with a write or an add there on its way; a battery that stands still. -/
theorem witness_ServicesAnswer_complete :
    let c := { call0 0x0FFF with counter := 0x60000 }
    let late := fun (s : State) => s.propagating.any fun p => p.owner = .gone && p.task = c.task
    let waits := { called 0 [] with propagating := [⟨0, 0x100, [(0x101, [7])], 0, .gone, 0, none, none⟩] }
    let still := { called 0 [] with batteries := [(0, ⟨0, 0, 0, 1, false, false, [], [], .none⟩)] }
    let closing : Call := { c with served := some (1, 0), closing := true }
    (0x0FFF ∉ State.services ∧ c.served = none ∧ c.closing = false ∧ c.owes = 0 ∧ c.adding = false ∧ (called 0 []).errors = [] ∧
      (called 0 []).replicas = [] ∧ late (called 0 []) = false ∧ ((called 0 []).batteries.get Battery.empty c.battery).stopped = false ∧
      (called 0x0FFF []).startable c = true ∧ State.isMemory (c.counter / 2 ^ 56 % 8) = true ∧ c.counter / 2 ^ 56 % 8 ≠ 4 ∧ c.arg / 2 ^ 56 % 8 ≠ 4) ∧
      late waits = true ∧ (still.batteries.get Battery.empty c.battery).stopped = true ∧
      closing.served.isSome = true ∧ closing.closing = true ∧ closing.due = false ∧ { closing with owes := 1 }.owes ≠ 0 ∧
      { closing with adding := true }.adding = true ∧ { c with arg := 2 ^ 58 + 0x800 }.arg / 2 ^ 56 % 8 = 4 ∧
      { c with counter := 2 ^ 58 + 0x800 }.counter / 2 ^ 56 % 8 = 4 := by decide +kernel
/-- Sets of calls that are full and that are not; a battery that stands still; a header that goes to a peer, and one that has gone; a call that
the host performs. -/
theorem witness_ServicesAnswer_accept :
    let o : MemOp := { counting0 with kind := .svc 0 [] }
    let many := { mapped with ops := [(1, o)], calls := (List.range 256).map fun k => (k, call0 0) }
    let still := { mapped with ops := [(1, o)], batteries := [(0, ⟨0, 0, 0, 1, false, false, [], [], .none⟩)] }
    many.ops.find? 1 = some o ∧ 256 ≤ (many.calls.filter fun e => e.2.battery = o.partition).length ∧
      (still.calls.filter fun e => e.2.battery = o.partition).length < 256 ∧ (still.batteries.get Battery.empty o.partition).stopped = true ∧
      { call0 0 with served := some (1, 0), closing := true, due := true }.due = true ∧
      (called 0x1003 (words 6 0 0)).deviceOf 0 = some 0 := by decide +kernel

/-- World 0 of partition 0 bound to logical device 0, whose frame 0 of aperture 0 the host owns or does not; HCADDR in a page with the
counter right, or at 0. -/
def bound : State := { (mapped.setReg (Reg.host 0) (2 ^ 63)) with pot := mapped.pot ++ [(0, 4096)], clk := 2 ^ 40 }
def hostSees (mine : Bool) : State := { bound with hostOwned := if mine then [(0, 1)] else [] }
/-- The counter of the host at the leaf's page, under a leaf with C as well. -/
def counting : State :=
  { bound with
    mem := bound.mem.writeNat 0x38010 8 (64 * 2 ^ 16 + 0x1E1)
    hosts := [(0, { HostPort.empty with addr := 0x10000, operand := 5 })] }
def idlePort (s : State) : Bool := decide ((s.hosts.get HostPort.empty 0).later = []) && (s.hosts.get HostPort.empty 0).far.all fun x => x.stage ≠ .sent
theorem witness_HostsReachMemory :
    (hostSees true).portWorld 0 = some (0, 0) ∧ idlePort (hostSees true) = true ∧ idlePort counting = true ∧ 32767 < apFrames 0 * 2 ^ 15 ∧
      (hostSees true).ownCheck 0 0 0 0 = none ∧
      (hostSees false).ownCheck 0 0 0 0 = none ∧ (hostSees true).hostBit 0 0 = true ∧ (hostSees false).hostBit 0 0 = false ∧
      (hostSees true).errors = [] ∧ counting.portWorld 0 = some (0, 0) ∧
      (∀ k ∈ [CtrKind.add, .raise, .read], ((counting.hostCounter 0 k 0x10000).2.map fun o => o.map fun x => (x.1, x.2.ap, x.2.pa)) = some (some (0, 0, 64)) ∧
        (counting.hostCounter 0 k 0x10000).1.errors = []) ∧
      (counting.hostCounter 0 .read 0x10000).1.mem.readNat (memKey 0 0x200000) 8 = 0 := by
  decide +kernel
/-- A frame that another world owns; a page without a translation; a misaligned counter, and a page without C; a port that is frozen, and one
that waits for a peer. -/
theorem witness_HostsReachMemory_stops :
    let refused := fun (s : State) (va : DWord) (p : TlbEntry → Bool) => (match (s.agentWalk 0 0 0 0 va).2 with
      | some (some (.ok x)) => p x
      | _ => false) = true
    let absent := (match (counting.agentWalk 0 0 0 0 0x18000).2 with
      | some (some (.park _)) => true
      | _ => false) = true
    let waits := fun (h : HostPort) => { counting with hosts := [(0, h)] }
    let shut := waits { HostPort.empty with frozen := true }
    (bound.portWorld 0 = some (0, 0) ∧ { bound with pot := [(0, 4097)] }.ownCheck 0 0 0 0 = some (.freeze 1 0)) ∧ absent ∧
      refused counting 0x10004 (fun _ => (0x10004 : DWord).toNat % 8 ≠ 0) ∧
      refused bound 0x10000 (fun x => (permCause .ctrMod x.ap x.attr).isSome && (permCause .ctrRead x.ap x.attr).isSome) ∧
      (shut.portWorld 0 = none ∧ idlePort shut = true) ∧ idlePort (waits { HostPort.empty with later := [.read 0x20 8] }) = false ∧
      idlePort (waits { HostPort.empty with far := [⟨0, false, 0, 0, 0, 0, .sent⟩] }) = false := by
  decide +kernel
/-- A counter at a peer: the peer is asked about the frame, and has answered. -/
theorem witness_HostsReachMemory_peer :
    let far := { counting with mem := counting.mem.writeNat 0x38010 8 (2 ^ 44 + 0x1F1) }
    let known := far.onDtu 0 fun d => { d with tlb := [⟨0, 2, 15, 0x1F1, 4, 2 ^ 28, 0, 0⟩] }
    (far.hostCounter 0 .add 0x10000).2.isNone = true ∧
      ((known.hostCounter 0 .add 0x10000).2.map fun o => o.map fun x => x.2.ap) = some (some 4) ∧ (known.hostCounter 0 .add 0x10000).1.errors = [] := by
  decide +kernel
theorem witness_HostsReachMemory_wait :
    let waits := fun (s : State) (till : DWord) =>
      let x := ((s.dropWatch 0).onHost 0 fun h => { h with wait := till }).hostCounter 0 .wait 0x10000
      x.1.errors = [] ∧ x.1.mem.readNat (memKey 0 0x200000) 8 = 0 ∧ (x.2.map fun o => o.map fun y => x.1.heldBack y.2) = some (some false)
    let known := { counting with mem := counting.mem.writeNat 0x38010 8 (2 ^ 44 + 0x1F1) }.onDtu 0 fun d =>
      { d with tlb := [⟨0, 2, 15, 0x1F1, 4, 2 ^ 28, 0, 0⟩] }
    waits counting 0 ∧ waits counting 1 ∧ waits known 1 := by decide +kernel

/-- Queue 16 of die 0, for every die, as a table entry. -/
def tabled : State :=
  { mapped with
    mem := mapped.mem.writeBytes 0xB0400 (leBytes 8 0x70000 ++ leBytes 4 16 ++ leBytes 1 0 ++ leBytes 1 5 ++ leBytes 2 0 ++ leBytes 8 0x60010 ++
      leBytes 8 0x60018 ++ leBytes 8 0x60020) }.setReg (Reg.dispatcher 0 0) 0xB0000
/-- A binding that passes, one of another partition's world, one of a partition bound elsewhere; slices that are free or taken; a region off
and on; a queue to enable; a unit without and with a workgroup; a channel; the next epoch and others; a refused workgroup; one to preempt. -/
theorem witness_RegisterWritesTakeEffect :
    (mapped.resetting = [] ∧ mapped.errors = [] ∧ (mapped.batteries.get Battery.empty mapped.captain).stopped = false ∧
        ({ mapped with batteries := [(5, ⟨0, 0, 0, 1, false, false, [], [], .none⟩)] }.batteries.get Battery.empty 5).stopped = true ∧ mapped.captain = 0 ∧ mapped.worldPart 0 0 = some 0 ∧ mapped.reg (Reg.host 8) / 2 ^ 63 = 0 ∧
        bound.reg (Reg.host 0) / 2 ^ 63 = 1 ∧ bound.reg (Reg.host 0) / 2 ^ 12 % 64 = 0 ∧ (1 : Nat) < 16 ∧ (1 : Nat) ≠ 0 ∧ bound.worldPart 0 0 ≠ some 63) ∧
      (mapped.errors = [] ∧ (∀ q, q < 64 → mapped.reg (Reg.memory 0 (0x200 + 8 * q)) &&& 0xFFFF = 0) ∧
        (mapped.setReg (Reg.memory 0 0x208) 1).reg (Reg.memory 0 (0x200 + 8 * 1)) &&& 1 ≠ 0) ∧
      (0 % 2 ^ 16 = 0 ∧ (mapped.setReg (Reg.memory 0 (0x800 + 8 * 71)) (128 + 63)).reg (Reg.memory 0 (0x800 + 8 * 71)) = 128 + 63 ∧
        ¬(∃ n, n < 72 ∧ mapped.reg (Reg.memory 0 (0x800 + 8 * n)) = 128 + 0)) ∧
      (let base := mapped.reg (Reg.memory 0 (8 * 3))
       let ctl := mapped.reg (Reg.memory 0 (0x20 + 8 * 3))
       let met := (mapped.setReg (Reg.memory 0 0x20) (2 ^ 63 + 2 ^ 40 + 1)).reg (Reg.memory 0 (0x20 + 8 * 0))
       (2 ^ 63 + 2 ^ 40 + 1) / 2 ^ 63 = 1 ∧ ctl / 2 ^ 63 ≠ 1 ∧ base = 0 ∧ (0 : Nat) ≠ 3 ∧ met / 2 ^ 63 = 1 ∧
         State.spansMeet (State.spans met 0).1 (State.spans (2 ^ 63 + 2 ^ 40 + 1) base).1 = true ∧
         ((mapped.setReg (Reg.memory 0 0x18) (reservedFrame - 1)).reg (Reg.memory 0 (8 * 3)) % 2 ^ 25 = reservedFrame - 1)) ∧
      (mapped.reg (Reg.memory 0 (0x20 + 8 * 3)) / 2 ^ 63 = 0 ∧ (mapped.setReg (Reg.memory 0 0x38) (2 ^ 63)).reg (Reg.memory 0 (0x20 + 8 * 3)) / 2 ^ 63 = 1) ∧
      ((0x10000 : DWord).getLsbD 16 = true ∧ (tabled.queues.find? 16).map Queue.enabled ≠ some true ∧
        (tabled.readQueue 16).toOption = some (some { entry0 with everyDie := true }) ∧ tabled.closed 0 = false) ∧
      (mapped.reg (Reg.module (8 * 63)) / 2 ^ 7 = 0 ∧ ((start 0).setReg (Reg.module 0) 0x80).reg (Reg.module (8 * 0)) / 2 ^ 7 = 1 ∧
        (start 0).wgs.any (fun g => State.unitOfCore g.2.core = 0) = true) ∧
      (let held := { free with saved := [(0, saved1)], tasks := [(0, task1)], wgs := [] }
       held.reg (Reg.module 0) = 0x80 ∧ (129 : Nat) ≠ 0x80 ∧ held.saved.find? 0 = some saved1 ∧ saved1.partition = 0x80 % 64 ∧
         held.tasks.find? saved1.task = some task1 ∧ ∀ w, w < 64 → w ≠ 0 → held.unitPart w ≠ some 0) ∧
      (mapped.reg (Reg.memory 7 (0x800 + 8 * 71)) / 2 ^ 7 = 0 ∧ (mapped.setReg (Reg.memory 7 0x3F8) 1).reg (Reg.memory 7 (0x200 + 8 * (63 % 64))) ≠ 0 ∧
        mapped.reg (Reg.memory 7 (0x200 + 8 * (63 % 64))) = 0 ∧ (mapped.setReg (Reg.memory 7 0xA38) 0x80).reg (Reg.memory 7 (0x800 + 8 * 71)) = 0x80 ∧
        (0x80 : Nat) ≠ 0x81 ∧ 0x3F < 128 ∧
        ∃ e ∈ [((0 : Nat), (4096 : Nat))], e.1 / 2 ^ 40 ≤ 1 ∧ channelOf (e.1 / 2 ^ 40) (e.1 % 2 ^ 40 * 2 ^ 15) = (0, 0) ∧ e.2 / 2 ^ 12 % 4 ≠ 0) ∧
      (mapped.reg (Reg.module 0x200) / 2 ^ 16 % 2 ^ 32 = 0 ∧ (1 * 2 ^ 16 + 8) / 2 ^ 16 % 2 ^ 32 = 0 + 1 ∧ 8 / 2 ^ 16 % 2 ^ 32 ≠ 0 + 1) ∧
      (∃ e, { mapped with saved := [(4095, { saved1 with refused := true })] }.saved.find? (4095 % 2 ^ 15) = some e ∧ e.refused = true ∧ 4095 % 2 ^ 15 / 4096 = 0) ∧
      (∃ g w, (withTask (carded fun c => { c with flags := 20 })).wgs = [(g, w)] ∧ State.dieOfCore w.core = 0 ∧
        (withTask (carded fun c => { c with flags := 20 })).taskId w.task = 1 % 2 ^ 32 ∧ w.phase = .running ∧ w.drain = none ∧ w.card.pclass = 2) ∧
      (0xBF / 2 ^ 7 % 2 = 1 ∧ 0xBF % 64 ≠ mapped.captain) ∧ (bound.portWorld 0).isSome = true ∧ idlePort bound = true := by
  refine ⟨by decide +kernel, by decide +kernel, by decide +kernel, by decide +kernel, by decide +kernel, by decide +kernel, by decide +kernel,
    by decide +kernel, by decide +kernel, by decide +kernel, ⟨_, rfl, by decide⟩, ⟨_, _, rfl, by decide⟩, by decide +kernel, by decide +kernel⟩

/-- Commands and lifecycle states; heartbeats that are due and not; a watching battery before and at its limit; batteries before and after a
failed restart; the clock at its ends and at 600 MHz; a module without power. -/
theorem witness_ManagementAndPowerSteps :
    let s := { start 0 with clk := 800000 }
    let watch := fun (misses : Nat) => { s with batteries := [(8, ⟨misses, 0, 0, 0, false, false, [], [], .none⟩)] }
    let failed := { s with batteries := [(0, ⟨0, 0, 0, 1, false, false, [], [], .none⟩)] }
    let mhz := fun (n : Nat) => s.setReg (Reg.module 0x228) n
    let off := { State.reset with powered := false }
    s.resetting = [] ∧ (1 : DWord).getLsbD 0 = true ∧ (3 : DWord).toNat % 4 = s.reg (Reg.module 0x230) + 1 ∧
      (2 : DWord).toNat % 4 ≠ s.reg (Reg.module 0x230) + 1 ∧ (s.batteries.get Battery.empty s.captain).stopped = false ∧ s.beat + 800000 ≤ s.clk ∧
      (start 0).clk < (start 0).beat + 800000 ∧ s.watchPlace 8 = 1 ∧ ((watch 6).batteries.get Battery.empty 8).checked + 800000 ≤ s.clk ∧
      (watch 6).mem.readNat State.heartbeatKey 8 = ((watch 6).batteries.get Battery.empty 8).seen ∧
      ((watch 6).batteries.get Battery.empty 8).misses + 1 < 8 * 1 ∧ 8 * 1 ≤ ((watch 7).batteries.get Battery.empty 8).misses + 1 ∧
      (∀ e ∈ (watch 7).batteries, e.2.retired = false) ∧ (watch 7).reachable ((watch 7).captain / 8) = true ∧
      (watch 7).reg (Reg.module 0x200) < 2 ^ 47 ∧ (1 : Nat) ≠ 0 ∧
      ({ s with batteries := [(8, ⟨0, 1, 0, 0, false, false, [], [], .none⟩)] }.batteries.get Battery.empty 8).seen ≠ s.mem.readNat State.heartbeatKey 8 ∧
      (s.batteries.get Battery.empty 63).restarts = 0 ∧ (s.batteries.get Battery.empty 63).retired = false ∧ s.errors = [] ∧ (failed.batteries.get Battery.empty 0).restarts = 1 ∧ (0 : Nat) = failed.captain ∧
      (mhz 400).reg (Reg.module 0x228) = 400 ∧ (mhz 600).reg (Reg.module 0x228) = 600 ∧ s.reg (Reg.module 0x228) = 800 ∧ (mhz 400).powered = true ∧
      off.powered = false ∧ off.agenda = [] ∧ { off with agenda := [.tick 1] }.agenda = [.tick 1] := by decide +kernel

/-- A requester that is bound, at each point of the order; a slot of a certificate. -/
theorem witness_ResponderAnswers :
    let at_ := fun (x : Spdm) => { State.reset with spdm := [(16, x)] }
    State.reset.answers 16 = true ∧ (State.reset.spdmOf 16).version = false ∧ ((at_ { Spdm.empty with version := true }).spdmOf 16).version = true ∧
      ((at_ { Spdm.empty with version := true, capabilities := true }).spdmOf 16).capabilities = true ∧
      ((at_ ⟨true, true, true, [], some 0, .none⟩).spdmOf 16).algorithms = true ∧ (([0, 0, 1] : List Byte).getD 2 0).toNat % 16 = 1 ∧
      (let r : List Byte := List.replicate 8 0 ++ leBytes 4 4 ++ leBytes 4 2
       (field r 8 4).testBit 2 = true ∧ (field r 12 4).testBit 1 = true ∧ ¬(field [] 8 4).testBit 2 = true) ∧
      (State.reset.setReg (Reg.module 0x230) 3).answers 16 = false := by decide +kernel
/-- A request that names the registry. -/
theorem witness_ResponderAnswers_named : let r := List.replicate 4 (0 : Byte) ++ Config.registry
    (r.drop 4).take Config.registry.length = Config.registry := by simp

/-! The invariants hold after reset, and a step from there answers. -/

theorem witness_RegistersReadWhatWasWritten : (31 : Nat) < 32 := by decide
theorem reset_canonical : State.reset.mem.wf := by decide
theorem reset_marks : MarksReady State.reset := fun _ _ h => nomatch h
theorem witness_StepKeeps : ∃ t, step State.reset = .next t := ⟨_, rfl⟩

end Sys2Proof.Tests
end

section
/-!
PROOFS. Uniform arithmetic and uniform branches (R282, R283, R290, R293): the operations of the model in the spec's arithmetic, then the
instructions that run them.
-/

open Sys2Proof Sys2Proof.Machine

namespace Sys2Proof.Proofs

/-- Every 32-bit uniform operation reads both registers first and writes S[d] (R292); its result may be given in any equal form. -/
theorem runLocal_uniOp {s : State} {w : Warp} {i : Instr} {d a b : Reg} {g : Word → Word → Word} {v : Word} (h : s.runs w)
    (hv : g (w.sreg a.toNat) (w.sreg b.toNat) = v) :
    runLocal (uniOp g d a b) i s = .next (s.setWarp s.curKey ((w.setS d.toNat v).advance s.curSide)) :=
  runLocal_ok h (congrArg (fun v => Except.ok (w.setS d.toNat v)) hv)

/-! The operations of R293 as arithmetic on unsigned or signed values. -/

section operations
variable (x y : Word)

theorem sub_eq_ofInt : x - y = BitVec.ofInt 32 ((x.toNat : Int) - y.toNat) := by
  simp only [Int.sub_eq_add_neg, BitVec.ofInt_add, BitVec.ofInt_neg, BitVec.ofInt_natCast, BitVec.ofNat_toNat, BitVec.setWidth_eq,
    BitVec.sub_eq_add_neg]

theorem shiftLeft_eq : shiftLeft x y = if y.toNat < 32 then BitVec.ofNat 32 (x.toNat * 2 ^ y.toNat) else 0 := by
  have shifted : x <<< y.toNat = BitVec.ofNat 32 (x.toNat * 2 ^ y.toNat) :=
    BitVec.eq_of_toNat_eq (by rw [BitVec.toNat_shiftLeft, BitVec.toNat_ofNat, Nat.shiftLeft_eq])
  rw [shiftLeft, shifted]

theorem shiftRight_eq : shiftRight x y = if y.toNat < 32 then BitVec.ofNat 32 (x.toNat / 2 ^ y.toNat) else 0 := by
  have small : x.toNat / 2 ^ y.toNat < 2 ^ 32 := Nat.lt_of_le_of_lt (Nat.div_le_self ..) x.isLt
  have shifted : x >>> y.toNat = BitVec.ofNat 32 (x.toNat / 2 ^ y.toNat) :=
    BitVec.eq_of_toNat_eq (by rw [BitVec.toNat_ushiftRight, Nat.shiftRight_eq_div_pow, BitVec.toNat_ofNat, Nat.mod_eq_of_lt small])
  rw [shiftRight, shifted]

theorem shiftArith_eq : shiftArith x y = BitVec.ofInt 32 (x.toInt / 2 ^ Nat.min y.toNat 31) := by
  rw [shiftArith, BitVec.sshiftRight, Int.shiftRight_eq_div_pow]; rfl

theorem flagOf_slt : flagOf (x.slt y) = if x.toInt < y.toInt then 1 else 0 := by
  simp only [flagOf, BitVec.slt_iff_toInt_lt]

theorem flagOf_ult : flagOf (x.ult y) = if x.toNat < y.toNat then 1 else 0 := by
  simp only [flagOf, BitVec.ult_iff_lt, BitVec.lt_def]

theorem flagOf_eq : flagOf (x = y) = if x = y then 1 else 0 := by
  simp only [flagOf, decide_eq_true_eq]

theorem if_slt {α : Type} (p q : α) : (if x.slt y then p else q) = if x.toInt < y.toInt then p else q := by
  simp only [BitVec.slt_iff_toInt_lt]

end operations

/-- Settles O8: each operation has the shape of `uniOp`, and its function is the arithmetic of its row of R293. -/
theorem uniformResults : Obligations.UniformResults := by
  unfold Obligations.UniformResults
  intro s w d a b h x y sh r
  refine ⟨?sadd, ?ssub, ?smul, ?smulhi, ?smulhn, ?sand, ?sor, ?sxor, ?sshl, ?sshr, ?ssra, ?smin, ?smax, ?sslt, ?ssltn, ?sseq⟩
  case sadd => exact show execSadd d a b s = _ from runLocal_uniOp h (BitVec.add_def x y)
  case ssub => exact show execSsub d a b s = _ from runLocal_uniOp h (sub_eq_ofInt x y)
  case smul => exact show execSmul d a b s = _ from runLocal_uniOp h (BitVec.mul_def)
  case smulhi => exact show execSmulhi d a b s = _ from runLocal_uniOp h rfl
  case smulhn => exact show execSmulhn d a b s = _ from runLocal_uniOp h rfl
  case sand => exact show execSand d a b s = _ from runLocal_uniOp h rfl
  case sor => exact show execSor d a b s = _ from runLocal_uniOp h rfl
  case sxor => exact show execSxor d a b s = _ from runLocal_uniOp h rfl
  case sshl => exact show execSshl d a b s = _ from runLocal_uniOp h (shiftLeft_eq x y)
  case sshr => exact show execSshr d a b s = _ from runLocal_uniOp h (shiftRight_eq x y)
  case ssra => exact show execSsra d a b s = _ from runLocal_uniOp h (shiftArith_eq x y)
  case smin => exact show execSmin d a b s = _ from runLocal_uniOp h (if_slt x y x y)
  case smax => exact show execSmax d a b s = _ from runLocal_uniOp h (if_slt x y y x)
  case sslt => exact show execSslt d a b s = _ from runLocal_uniOp h (flagOf_slt x y)
  case ssltn => exact show execSsltn d a b s = _ from runLocal_uniOp h (flagOf_ult x y)
  case sseq => exact show execSseq d a b s = _ from runLocal_uniOp h (flagOf_eq x y)

/-! Pairs of S registers, and targets of branches. -/

theorem lo_eq_ofNat (d : DWord) : d.lo = BitVec.ofNat 32 d.toNat := rfl

theorem hi_eq_ofNat (d : DWord) : d.hi = BitVec.ofNat 32 (d.toNat / 2 ^ 32) := by
  rw [DWord.hi, ← BitVec.ofNat_toNat, BitVec.toNat_ushiftRight, Nat.shiftRight_eq_div_pow]

theorem ofPair_toNat (lo hi : Word) : (DWord.ofPair lo hi).toNat = hi.toNat * 2 ^ 32 + lo.toNat := by
  rw [DWord.ofPair, BitVec.append_eq, BitVec.toNat_append, ← Nat.shiftLeft_add_eq_or_of_lt lo.isLt, Nat.shiftLeft_eq]

/-- The odd register of an S pair is the high word (R248). -/
theorem spair_toNat (w : Warp) (r : Nat) : (w.spair r).toNat = (w.sreg (r + 1)).toNat * 2 ^ 32 + (w.sreg r).toNat :=
  ofPair_toNat ..

/-- An offset counts words of 4 bytes and is signed (R244). -/
theorem target_eq {n : Nat} (pc : DWord) (off : BitVec n) : target pc off = pc + BitVec.ofInt 64 (4 * off.toInt) := by
  rw [target, BitVec.shiftLeft_eq_mul_twoPow, Int.mul_comm, BitVec.ofInt_mul]; rfl

/-! What the branches do, in the model's own terms of a slot's next PC (R282). -/

section branches
variable {s : State} {w : Warp}

theorem controls_bra (h : s.runs w) (off : BitVec 25) : Controls (.bra off) s (w.goto s.curSide (target (s.here w).pc off)) :=
  show execBra off s = _ from runControl_ok h rfl

theorem controls_call (h : s.runs w) (off : BitVec 25) :
    Controls (.call off) s ((w.setSPair 126 ((s.here w).pc + 4)).goto s.curSide (target (s.here w).pc off)) :=
  show execCall off s = _ from runControl_ok h rfl

theorem controls_brz (h : s.runs w) (r : Reg) (off : BitVec 17) :
    Controls (.brz r off) s (w.goto s.curSide (if w.sreg r.toNat = 0 then target (s.here w).pc off else (s.here w).pc + 4)) :=
  show execBrz r off s = _ from runControl_ok h rfl

theorem controls_brnz (h : s.runs w) (r : Reg) (off : BitVec 17) :
    Controls (.brnz r off) s (w.goto s.curSide (if w.sreg r.toNat ≠ 0 then target (s.here w).pc off else (s.here w).pc + 4)) :=
  show execBrnz r off s = _ from runControl_ok h rfl

theorem controls_jmpr (h : s.runs w) (a : Reg) (ht : (w.spair a.toNat).toNat % 4 = 0) :
    Controls (.jmpr a) s (w.goto s.curSide (w.spair a.toNat)) :=
  show execJmpr a s = _ from runControl_ok h (if_neg fun misaligned => misaligned ht)

theorem traps_jmpr (h : s.runs w) (a : Reg) (ht : (w.spair a.toNat).toNat % 4 ≠ 0) :
    Traps (.jmpr a) s ⟨.align, (w.spair a.toNat).lo⟩ :=
  show execJmpr a s = _ from runControl_trap h (if_pos ht)

/-- `nop` runs as a local instruction with no effect; moving on to the next one is what its completion does (R290). -/
theorem controls_nop (h : s.runs w) : Controls .nop s (w.goto s.curSide ((s.here w).pc + 4)) :=
  show execNop s = _ from runLocal_ok h rfl

end branches

/-- Settles O13: the targets of the model's branches, with signed offsets and register pairs read as numbers. -/
theorem uniformBranches : Obligations.UniformBranches := by
  unfold Obligations.UniformBranches
  intro s w r a o25 o17 h x go tgt next
  refine ⟨?bra, ?call, ?brz, ?brnz, ?jmpr, controls_nop h⟩
  case bra =>
    have c := controls_bra h o25
    rwa [target_eq] at c
  case call =>
    have saved : w.setSPair 126 next = (w.setS 126 (BitVec.ofNat 32 next.toNat)).setS 127 (BitVec.ofNat 32 (next.toNat / 2 ^ 32)) := by
      rw [Warp.setSPair, lo_eq_ofNat, hi_eq_ofNat]
    have c := controls_call h o25
    rw [target_eq, Warp.goto, Warp.slot_setSPair] at c
    exact saved ▸ c
  case brz =>
    have c := controls_brz h r o17
    rwa [target_eq] at c
  case brnz =>
    have c := controls_brnz h r o17
    rwa [target_eq, ite_not] at c
  case jmpr =>
    intro t
    have ht : (w.spair a.toNat).toNat = t := spair_toNat w a.toNat
    have pair : w.spair a.toNat = BitVec.ofNat 64 t := by rw [← ht, BitVec.ofNat_toNat, BitVec.setWidth_eq]
    split
    · next aligned => exact pair ▸ controls_jmpr h a (ht ▸ aligned)
    · next misaligned => exact ht ▸ traps_jmpr h a (ht ▸ misaligned)

end Sys2Proof.Proofs
end

section
/-!
PROOFS. The shuffles (R319): what results written in the lanes of a mask leave in every lane, the one form the four shuffles share, and the
source lane of each.
-/

open Sys2Proof Sys2Proof.Machine

namespace Sys2Proof.Proofs

theorem rdV_lt (w : Warp) (pair : Bool) (r : Reg) (l : Nat) : rdV w pair r l < 2 ^ (if pair then 64 else 32) := by
  cases pair
  · exact (w.vreg r.toNat l).isLt
  · exact (w.vpair r.toNat l).isLt

/-! Results written in the lanes of a mask, into one register or pair (R303). -/

section masked
variable (w : Warp) (pair : Bool) (r : Reg)

theorem wrLanes_keepsScalars (res : List (Nat × Nat)) : KeepsScalars w (wrLanes w pair r res) where
  sregs := (congrArg Warp.s (wrLanes_rest w pair r res) :)
  pregs := (congrArg Warp.p (wrLanes_rest w pair r res) :)

theorem wrLanes_mode (res : List (Nat × Nat)) : (wrLanes w pair r res).mode = w.mode :=
  (congrArg Warp.mode (wrLanes_rest w pair r res) :)

/-- A lane of the mask holds its result, as many bits of it as the operand has, and every other lane keeps its value. -/
theorem rdV_wrLanes_mask (m : Word) (g : Nat → Nat) {l : Nat} (hl : l < 32) :
    rdV (wrLanes w pair r ((lanes m).map fun l => (l, g l))) pair r l =
      if m.getLsbD l then g l % 2 ^ (if pair then 64 else 32) else rdV w pair r l := by
  split
  · next inMask => exact rdV_wrLanes w pair r _ g (fun _ => lanes_lt) (nodup_lanes m) (mem_lanes_iff.2 inMask)
  · next notInMask =>
    have unnamed : l ∉ ((lanes m).map fun l => (l, g l)).map Prod.fst := by simpa [mem_lanes_iff] using notInMask
    exact rdV_wrLanes_of_not w pair (by simpa using fun _ => lanes_lt) hl unnamed

end masked

theorem needType_ok {w : Warp} {t : Ty} {ok : Ty → Bool} (type : Ty.ofCode (modeT w.mode) = some t) (accepted : ok t = true) :
    needType w ok = .ok t := by
  rw [needType, type]; exact if_pos accepted

/-- The lane a shuffle reads for lane l among the lanes of a mask: its source where it is one of them, and l itself elsewhere (R319). -/
def shuffleFrom (k : Shuffle) (w : Warp) (m : Word) (b : SrcB) (l : Nat) : Nat :=
  let j := shuffleLane k l (rdB w false b l)
  if 0 ≤ j ∧ j ≤ 31 ∧ m.getLsbD j.toNat = true then j.toNat else l

section shuffles
variable {s : State} {w : Warp} {t : Ty} {d a : Reg} {b : SrcB}

/-- Every source is read from the warp as it was before the first write (R319). -/
theorem vecShuffle_ok (k : Shuffle) {c : LCtx} (type : Ty.ofCode (modeT w.mode) = some t) (hd : vOk c t.pair d = true)
    (ha : vOk c t.pair a = true) (hb : srcOk c false b = true) :
    vecShuffle k d a b c w =
      .ok (wrLanes w t.pair d ((lanes (partMask w c.mask)).map fun l => (l, rdV w t.pair a (shuffleFrom k w (partMask w c.mask) b l)))) := by
  simp [vecShuffle, needType_ok (ok := anyTy) type rfl, hd, ha, hb, shuffleFrom, and_assoc]

/-- What an instruction that runs as a shuffle leaves: the bits are moved whole, since a and d are of one width. -/
theorem completes_of_vecShuffle (k : Shuffle) {i : Instr} (runs : s.runs w) (type : Ty.ofCode (modeT w.mode) = some t)
    (roomD : s.roomFor w t.pair d) (roomA : s.roomFor w t.pair a) (roomB : s.roomForB w false b)
    (run : exec i s = runLocal (vecShuffle k d a b) i s) :
    ∃ w', Completes i s w' ∧ KeepsScalars w w' ∧ w'.mode = w.mode ∧ ∀ l, l < 32 →
      rdV w' t.pair d l = if (s.part w).getLsbD l then rdV w t.pair a (shuffleFrom k w (s.part w) b l) else rdV w t.pair d l := by
  have completed := runLocal_ok (i := i) runs (vecShuffle_ok k type (vOk_of_roomFor roomD) (vOk_of_roomFor roomA) (srcOk_of_roomForB roomB))
  refine ⟨_, run.trans completed, wrLanes_keepsScalars .., wrLanes_mode .., fun l hl => ?_⟩
  rw [← Nat.mod_eq_of_lt (rdV_lt w t.pair a (shuffleFrom k w (s.part w) b l))]
  exact rdV_wrLanes_mask w t.pair d (s.part w) (fun l => rdV w t.pair a (shuffleFrom k w (s.part w) b l)) hl

end shuffles

/-- Settles O28: each form runs as the shuffle with its source lane of R319. -/
theorem shuffleResults : Obligations.ShuffleResults := by
  unfold Obligations.ShuffleResults
  intro s w t d a b runs type roomD roomA roomB puts
  have completes (k : Shuffle) {i : Instr} (run : exec i s = runLocal (vecShuffle k d a b) i s) : puts i (shuffleLane k) := by
    simpa only [shuffleFrom, apply_ite (rdV w t.pair a)] using completes_of_vecShuffle k runs type roomD roomA roomB run
  exact ⟨completes .idx rfl, completes .xor rfl, completes .up rfl, completes .dn rfl⟩

end Sys2Proof.Proofs
end
